-- ==== Sys2Proof/Word.lean ====
section
/-! DEFINITION. The words of the machine: bytes, 64-bit register values, 128-byte rows, and the
numbers that name registers and units. Nothing here computes; bit-field helpers stand in Decode and Machine/Bits. -/

namespace Sys2Proof

/-- One byte of memory. -/
abbrev Byte := BitVec 8
/-- A 64-bit register value or virtual address (R14, R25). -/
abbrev Word := BitVec 64
/-- A vector register, which is one accumulator row of 128 bytes (R26). -/
abbrev Row := BitVec 1024
/-- A number g0–g31 or f0–f31. -/
abbrev Reg := BitVec 5
/-- A number v0–v63. -/
abbrev VReg := BitVec 6
/-- A core of the package: die position 10:8, cluster number 7:3, core 2:0; the bits of a global
scratchpad address that name it (R14), with the die counted by physical position. -/
abbrev CoreId := BitVec 11
/-- A cluster of the package: die position 7:5, cluster number 4:0. -/
abbrev ClusterId := BitVec 8
/-- A die position of the package (R9). -/
abbrev DieId := BitVec 3
/-- A 12-bit context tag (R24). -/
abbrev Tag := BitVec 12

end Sys2Proof
end

