-- ==== Sys2Proof/Config.lean ====
section
/-! DEFINITION. What the spec leaves to an implementation or to standards it only names. A constant
with no body is a free value: no proof can see what it is. -/

namespace Sys2Proof.Config

/-- R409: the private key of the device identity, written in fuses at manufacture. -/
opaque idPrivate : BitVec 256
/-- R410: the random number that SM2 draws for each signature; the counter says which signature it is. -/
opaque random : Nat → BitVec 256
/-- R410: the distinguishing identifier under which the identity key signs, which the spec does not state. -/
opaque idIdent : List Byte
/-- R415, R325: the budget of a die in tokens per microsecond under a package cap in watts. -/
opaque capBudget : BitVec 16 → DieId → Nat → Nat
/-- R415: what the sensor behind a register of temperature or power reads at a TIME. -/
opaque sensor : Nat → BitVec 8 → BitVec 16
/-- R267: whether a port or the package's own X-dies can reach a device and a logical device on it. -/
opaque reachable : BitVec 32 → BitVec 3 → Bool
/-- R396: whether a die has no route to a die that it needs once the links of a list carry no lane group. The spec
numbers no links and gives no routes. -/
opaque cutOff : List Nat → DieId → Bool
/-- R404: the physical addresses of the ridge cap and of its copy, which the service sets. -/
def ridgeCap : Nat := 0x7F000
def ridgeCapMirror : Nat := 0x10_0007_F000
/-- R404: the physical address of the flush manifest. -/
def manifestBase : Nat := 0x80000

end Sys2Proof.Config
end

