-- ==== Sys2Proof/Machine/Bits.lean ====
section
/-! DEFINITION. Bit-field, sign-extension and byte-order helpers (R7), and rows as lanes. -/

namespace Sys2Proof.Machine

/-- Bits `lo + n - 1 : lo` of a word, zero-extended. -/
def slice (x : Word) (lo n : Nat) : Nat := x.toNat / 2 ^ lo % 2 ^ n
/-- One bit of a word. -/
def bitOf (x : Word) (i : Nat) : Bool := x.getLsbD i
/-- A word with bits `lo + n - 1 : lo` replaced. -/
def setSlice (x : Word) (lo n v : Nat) : Word :=
  BitVec.ofNat 64 (x.toNat - slice x lo n * 2 ^ lo + v % 2 ^ n * 2 ^ lo)
/-- A 64-bit word of a natural number. -/
def W (n : Nat) : Word := BitVec.ofNat 64 n
/-- Sign extension of an `n`-bit number to 64 bits. -/
def sextNat (n v : Nat) : Word :=
  let v := v % 2 ^ n
  if 2 ^ (n - 1) ≤ v then W (2 ^ 64 - 2 ^ n + v) else W v
/-- Two's-complement reading of an `n`-bit number. -/
def toSigned (n v : Nat) : Int :=
  let v := v % 2 ^ n
  if 2 ^ (n - 1) ≤ v then (v : Int) - 2 ^ n else v
/-- Two's-complement `n`-bit number of an integer. -/
def ofSigned (n : Nat) (v : Int) : Nat := (v % 2 ^ n).toNat
/-- R102: saturation of an integer to a range. -/
def satInt (lo hi v : Int) : Int := if v < lo then lo else if hi < v then hi else v

/-- The little-endian number of a list of bytes (R7). -/
def bytesNat : List Byte → Nat
  | [] => 0
  | b :: t => b.toNat + 256 * bytesNat t
/-- The `n` little-endian bytes of a number. -/
def natBytes : Nat → Nat → List Byte
  | 0, _ => []
  | n + 1, v => BitVec.ofNat 8 v :: natBytes n (v / 256)

/-- The lanes of a row, `w` bits each, lane 0 first (R26). -/
def lanes (w : Nat) (r : Row) : List Nat :=
  (List.range (1024 / w)).map fun i => r.toNat / 2 ^ (w * i) % 2 ^ w
/-- A number made of fields of `w` bits, the first lowest. -/
def packNat (w : Nat) : List Nat → Nat
  | [] => 0
  | x :: t => x % 2 ^ w + 2 ^ w * packNat w t
/-- The row of a list of lanes. -/
def packRow (w : Nat) (l : List Nat) : Row := BitVec.ofNat 1024 (packNat w l)
/-- The row of 128 bytes, and the bytes of a row. -/
def rowOfBytes (l : List Byte) : Row := BitVec.ofNat 1024 (bytesNat l)
def rowBytes (r : Row) : List Byte := natBytes 128 r.toNat

/-- Cut a list into pieces of `n` elements; `fuel` bounds the number of pieces. -/
def chunks {α : Type} (n : Nat) : Nat → List α → List (List α)
  | 0, _ => []
  | _, [] => []
  | fuel + 1, l => l.take n :: chunks n fuel (l.drop n)

/-- The number of leading zero bits of a 64-bit number (R53). -/
def clzNat (v : Nat) : Nat := if v = 0 then 64 else 63 - Nat.log2 v
/-- The number of trailing zero bits among the lowest `fuel` bits. -/
def ctzNat : Nat → Nat → Nat
  | 0, _ => 0
  | fuel + 1, v => if v % 2 = 1 then 0 else 1 + ctzNat fuel (v / 2)
/-- The number of one bits among the lowest `fuel` bits. -/
def popcNat : Nat → Nat → Nat
  | 0, _ => 0
  | fuel + 1, v => v % 2 + popcNat fuel (v / 2)

/-- Write at an index of a list; an index past the end changes nothing. -/
def listSet {α : Type} (l : List α) (i : Nat) (x : α) : List α := l.set i x

/-- Insert a key and its value in a list kept by rising key. -/
def assocSet {α : Type} (key : Nat) (x : α) : List (Nat × α) → List (Nat × α)
  | [] => [(key, x)]
  | (k, y) :: t =>
    if key < k then (key, x) :: (k, y) :: t
    else if key = k then (key, x) :: t
    else (k, y) :: assocSet key x t

/-- Insert a number in a rising list without repeats. -/
def sortedInsert (x : Nat) : List Nat → List Nat
  | [] => [x]
  | y :: t => if x < y then x :: y :: t else if x = y then y :: t else y :: sortedInsert x t

end Sys2Proof.Machine
end

