-- ==== Sys2Proof/Syntax.lean ====
section
/-! DEFINITION. The instructions and the machine's other steps, one constructor for each row of
spec/opcode_table.json. The first 188 rows are the instructions a program encodes (R41 to R47); the
other rows are the steps of engines, units, the resident service and the outside world, which carry
their parameters as plain data. -/

namespace Sys2Proof

/-- The guard field of R37: the instruction acts when the predicate, exclusive-or `neg`, is 1. -/
structure Guard where
  neg : Bool
  pred : BitVec 3
  deriving DecidableEq, Repr

/-- The agent scope and storage scope fields of R40. -/
structure Scope where
  agent : BitVec 3
  store : BitVec 2
  deriving DecidableEq, Repr

/-- The TOK bit and the HINT field of an engine instruction's second word. -/
structure EngMode where
  tok : Bool
  hint : BitVec 2
  deriving DecidableEq, Repr

/-- The fields of TMMA and TMMAK (R47, R143). `steps` is the step count minus one. -/
structure MatOp where
  pair : BitVec 4
  acc : BitVec 2
  z : BitVec 3
  a : Reg
  b : Reg
  s : Reg
  cb : BitVec 2
  na : Bool
  nb : Bool
  zc : Bool
  sa : Bool
  sb : Bool
  sat : Bool
  steps : BitVec 12
  deriving DecidableEq, Repr

/-- The order, and what it does, of a remote operation carried by the ORD and SYNC classes (R259). -/
inductive PeerOp where
  | load (w : Nat)
  | store (w : Nat) (v : Word)
  | amo (op : BitVec 4) (w : Nat) (v : Word)
  | cas (w : Nat) (exp new : Word)
  | rwait (n : Word)
  | rrel (n : Word)
  | cwait (v : Word)
  | bara (n : Word)
  | barw (p : Word)
  | flag (bytes : Nat)
  /-- bytes of a command's data, with the command's number, the offset at which its destination starts and its length -/
  | bulk (bytes : List Byte) (poisoned : Bool) (cmd : Nat) (start : BitVec 44) (total : Nat)
  | read (len : Nat)
  | donate (desc : List Word)
  deriving DecidableEq, Repr

/-- A request between logical devices: its number, the target device and logical device, the
exporting context, the object there and the byte offset (R256, R259, R260); `own` says that the requester is a
logical device of this package. -/
structure PeerReq where
  id : Nat
  own : Bool
  dev : BitVec 32
  ldev : BitVec 3
  ctx : Tag
  obj : BitVec 18
  off : BitVec 44
  op : PeerOp
  deriving DecidableEq, Repr

/-- How a request to a peer ended (R264, R267); for data read from a peer, bit i of `v` says
that its unit i of sixteen bytes is poisoned. -/
inductive PeerEnd where
  | done (v : Word) (bytes : List Byte)
  | poisoned
  | failed
  | revoked
  deriving DecidableEq, Repr

/-- The outcome of an error check on stored data (R382, R394). -/
inductive EccKind where
  | sound | corrected | uncorrectable
  deriving DecidableEq, Repr

/-- The storage that R394 protects, register lines apart: the unit at an address of HBM, scratchpad or cluster
SRAM, a line in the L1Ds of a cluster or in the L2 of a die, or the local memory of a cluster's FE. -/
inductive EccSite where
  | unit (a : Nat)
  | l1 (c : ClusterId) (line : Nat)
  | l2 (d : DieId) (line : Nat)
  | fe (c : ClusterId)
  deriving DecidableEq, Repr

/-- What the board controller does to a register of the device (R415). -/
inductive PmAccess where
  | read (reg : BitVec 8)
  | write (reg : BitVec 8) (v : BitVec 16)
  deriving DecidableEq, Repr

/-- An access of the board controller (R415), and whether it names the target of X-die 1 (0x4B). -/
structure PmRequest where
  second : Bool
  access : PmAccess
  deriving DecidableEq, Repr

/-- What the service does to a strand off its core that it resumes on another core (R374, R386): which strand, the pc
it gives it, if any, and the bytes of the image that it edits. -/
structure Move where
  index : Nat
  at_ : Option Word
  edits : List (Nat × Byte)
  deriving DecidableEq, Repr

/-- What a register line's movement is (R379, R382): whether the line is dirty, and whether it leaves the register file. -/
structure LineUse where
  dirty : Bool
  evict : Bool
  deriving DecidableEq, Repr

/-- What DEFINE gives an object beside its bytes (R411): the record, and the map of a MAPPED object or, for a SPARSE one with an
initial image, the tiles of its tree. -/
structure Definition where
  record : List Word
  map : List Word
  deriving DecidableEq, Repr

/-- A unit that R399 lets the service map out. -/
inductive MapUnit where
  | cluster (c : ClusterId)
  | sdie (d : DieId)
  | cdie (d : DieId)
  | hbmChannel (d : DieId) (ch : Nat)
  | link (l : Nat)
  deriving DecidableEq, Repr

/-- The flit classes of R397. -/
inductive FlitClass where
  | data | request | directory
  deriving DecidableEq, Repr

/-- Who sent a request (R411, R412). -/
inductive Endpoint where
  | unlisted | listed | operator
  deriving DecidableEq, Repr

/-- Why an arriving packet is discarded, and the parts of the transport that are not supported (R257). -/
inductive Discard where
  | rudi | uud | security
  deriving DecidableEq, Repr

/-- The 32-byte header every request begins with, as the service reads it (R411), the port it came through, and
the unsupported part of the transport that it needs, if any (R257). -/
structure ReqHead where
  ep : Endpoint
  kind : BitVec 8
  id : Word
  ctx : Tag
  port : BitVec 2
  needs : Option Discard
  deriving DecidableEq, Repr

/-- The ranges of a scratchpad that the service gives to a strand: its share, and in it the frame arena and the
spill carve-out (R270, R377). -/
structure Layout where
  arenaBase : Nat
  arenaLimit : Nat
  shareBase : Nat
  shareLimit : Nat
  spillBase : Nat
  spillTop : Nat
  deriving DecidableEq, Repr

/-- The body of a CREATE request, and the service's own choices for the new context (R411, R297). -/
structure CreateReq where
  part : BitVec 3
  mode : BitVec 2
  limit : BitVec 48
  hold : Bool
  solo : Bool
  weight : BitVec 4
  ortBase : Word
  image : Word
  /-- the strands for which there are images -/
  images : Nat
  groups : BitVec 32
  /-- the layouts that the service chooses from for the context's strands -/
  layouts : List Layout
  /-- the overflow areas of deques: a core, an offset in the SRAM of its cluster, and its entries (R279) -/
  ovf : List (CoreId × Nat × Nat)
  /-- where in HBM flashing saves what the context holds on the C-dies (R403) -/
  saveArea : Nat
  pools : List (ClusterId × List Nat)
  regions : List (CoreId × BitVec 2 × Word)
  deriving DecidableEq, Repr

/-- Where a LOAD request puts its bytes (R411). -/
inductive LoadDest where
  | object (obj : BitVec 18) (off : Nat)
  | scratch (core : CoreId) (off : Nat)
  deriving DecidableEq, Repr

/-- The body of a LAUNCH request (R297). -/
structure LaunchReq where
  entry : Word
  args : Word
  /-- the core it names, if it names one -/
  core : Option CoreId
  cls : BitVec 2
  hold : BitVec 10
  idle : List CoreId
  deriving DecidableEq, Repr

/-- The body of an IMPORT request (R260). -/
structure ImportReq where
  num : BitVec 12
  dev : BitVec 32
  ldev : BitVec 3
  ctx : Tag
  obj : BitVec 18
  perms : BitVec 4
  grant : BitVec 45
  granted : Bool
  deriving DecidableEq, Repr

/-- The body of a DONSETUP request (R293, R411). -/
structure DonReq where
  slots : BitVec 5
  place : Word
  ringObj : BitVec 18
  donor : Tag
  handle : BitVec 12
  dev : BitVec 32
  ldev : BitVec 3
  deriving DecidableEq, Repr

/-- The selectors of QUERY (R411). -/
inductive QuerySel where
  | accounting | discards | capacities | bin | checkpoint
  deriving DecidableEq, Repr

/-- The unit of a CLOCK request (R412). -/
inductive ClockUnit where
  | die (d : DieId)
  | cluster (c : ClusterId)
  deriving DecidableEq, Repr

/-- The C-die states of R329. -/
inductive DieMode where
  | active | retain | off
  deriving DecidableEq, Repr

/-- One step of an object relocation (R347): the first gives the new placement and, for a MAPPED object, its map. -/
inductive RelocStep where
  | begin (place : Word) (map : List Word)
  | drain
  | copy
  | publish
  | finish
  | free
  deriving DecidableEq, Repr

/-- One step of freeing a sparse tile (R364): the address of the parent entry, the removal of the leaf's or (`invalidateAll`)
of all the volume's look-aside entries, the drain, and the push of the tile to a pool, the volume's own or another, or its reuse. -/
inductive FreeStep where
  | unlink (entry : Nat)
  | invalidate
  | invalidateAll
  | drain
  | push (tile : Nat)
  | pushTo (pool : BitVec 18) (tile : Nat)
  | reuse (tile : Nat)
  deriving DecidableEq, Repr

/-- An instruction or step of the machine. -/
inductive Instr where
  -- R42: majors 0x01 to 0x09
  | nop | yield | hbeat
  | add (d a b : Reg) | sub (d a b : Reg) | mul (d a b : Reg) | mulh (d a b : Reg)
  | mulhu (d a b : Reg) | div (d a b : Reg) | divu (d a b : Reg) | rem (d a b : Reg)
  | remu (d a b : Reg) | and (d a b : Reg) | or (d a b : Reg) | xor (d a b : Reg)
  | sll (d a b : Reg) | srl (d a b : Reg) | sra (d a b : Reg) | min (d a b : Reg)
  | max (d a b : Reg) | minu (d a b : Reg) | maxu (d a b : Reg)
  | clz (d a : Reg) | ctz (d a : Reg) | popc (d a : Reg)
  | addi (d a : Reg) (i : BitVec 16) | andi (d a : Reg) (i : BitVec 16)
  | ori (d a : Reg) (i : BitVec 16) | xori (d a : Reg) (i : BitVec 16)
  | slli (d a : Reg) (n : BitVec 6) | srli (d a : Reg) (n : BitVec 6) | srai (d a : Reg) (n : BitVec 6)
  | lui (d : Reg) (h : BitVec 2) (i : BitVec 16)
  | extr (d a : Reg) (s : Bool) (p l : BitVec 6) | ins (d a : Reg) (p l : BitVec 6)
  -- R43: majors 0x10 to 0x17
  | fadd (d a b : Reg) (t : BitVec 2) (r : BitVec 3) | fsub (d a b : Reg) (t : BitVec 2) (r : BitVec 3)
  | fmul (d a b : Reg) (t : BitVec 2) (r : BitVec 3) | fdiv (d a b : Reg) (t : BitVec 2) (r : BitVec 3)
  | fsqrt (d a : Reg) (t : BitVec 2) (r : BitVec 3)
  | fmin (d a b : Reg) (t : BitVec 2) | fmax (d a b : Reg) (t : BitVec 2)
  | fclass (d a : Reg) (t : BitVec 2) | fmvgf (d a : Reg) | fmvfg (d a : Reg)
  | fcmp (p : BitVec 3) (a b : Reg) (t : BitVec 2) (c : BitVec 3)
  | fcvt (d a : Reg) (r dst src : BitVec 3)
  | ffma (d a b c : Reg) (t : BitVec 2) (r : BitVec 3) (n : Bool)
  | fld (d a : Reg) (s : BitVec 3) (o : BitVec 13) | ld (d a : Reg) (s : BitVec 3) (o : BitVec 13)
  | st (g : Guard) (a d : Reg) (w : BitVec 2) (o : BitVec 9)
  | fst (g : Guard) (a d : Reg) (w : BitVec 2) (o : BitVec 9)
  | ldc (d a c : Reg) (f : Bool) (s : BitVec 3)
  | stc (g : Guard) (a c d : Reg) (f : Bool) (w : BitVec 2)
  -- R44: majors 0x18 to 0x1F
  | b (g : Guard) (s : BitVec 22) | call (g : Guard) (s : BitVec 22)
  | jr (g : Guard) (a : Reg) | ret (g : Guard) | sel (g : Guard) (d a m : Reg)
  | cmp (p : BitVec 3) (a b : Reg) (c : BitVec 4)
  | cmpi (p : BitVec 3) (a : Reg) (i : BitVec 12) (c : BitVec 4)
  | loop (k : BitVec 2) (a : Reg) (l : BitVec 8)
  | orderedLoad (d a : Reg) (s : BitVec 3) (sc : Scope) (acq : Bool)
  | fence (sc : Scope) (o : BitVec 2)
  | orderedStore (g : Guard) (a b : Reg) (w : BitVec 2) (sc : Scope) (rel : Bool)
  | amoSwap (g : Guard) (d a : Reg) (s : Bool) (o : BitVec 2) (sc : Scope)
  | amoAdd (g : Guard) (d a : Reg) (s : Bool) (o : BitVec 2) (sc : Scope)
  | amoAnd (g : Guard) (d a : Reg) (s : Bool) (o : BitVec 2) (sc : Scope)
  | amoOr (g : Guard) (d a : Reg) (s : Bool) (o : BitVec 2) (sc : Scope)
  | amoXor (g : Guard) (d a : Reg) (s : Bool) (o : BitVec 2) (sc : Scope)
  | amoMin (g : Guard) (d a : Reg) (s : Bool) (o : BitVec 2) (sc : Scope)
  | amoMax (g : Guard) (d a : Reg) (s : Bool) (o : BitVec 2) (sc : Scope)
  | amoMinu (g : Guard) (d a : Reg) (s : Bool) (o : BitVec 2) (sc : Scope)
  | amoMaxu (g : Guard) (d a : Reg) (s : Bool) (o : BitVec 2) (sc : Scope)
  | amoFadd (g : Guard) (d a : Reg) (s : Bool) (o : BitVec 2) (sc : Scope)
  | cas (g : Guard) (d : BitVec 4) (a : Reg) (s : Bool) (o : BitVec 2) (f : Bool) (sc : Scope)
  -- R45: majors 0x20 to 0x2B
  | vadd (d a b : VReg) (m : BitVec 3) | vsub (d a b : VReg) (m : BitVec 3)
  | vmul (d a b : VReg) (m : BitVec 3) | vfma (d a b : VReg) (m : BitVec 3)
  | vmin (d a b : VReg) (m : BitVec 3) | vmax (d a b : VReg) (m : BitVec 3)
  | vabs (d a : VReg) (m : BitVec 3) | vneg (d a : VReg) (m : BitVec 3)
  | vand (d a b : VReg) | vor (d a b : VReg) | vxor (d a b : VReg) | vnot (d a : VReg)
  | vsll (d a b : VReg) | vsrl (d a b : VReg) | vsra (d a b : VReg)
  | vslli (d a : VReg) (n : BitVec 6) | vsrli (d a : VReg) (n : BitVec 6) | vsrai (d a : VReg) (n : BitVec 6)
  | vcmp (k : BitVec 3) (a b : VReg) (u : Bool) (c : BitVec 3)
  | vsel (g : Guard) (d a b : VReg) (k : BitVec 3)
  | vcvt (d a : VReg) (p : BitVec 2) (r : BitVec 3) | vcvtToE4m3 (d a : VReg) (p : BitVec 2) (r : BitVec 3)
  | vcvtToE5m2 (d a : VReg) (p : BitVec 2) (r : BitVec 3) | vcvtFromE4m3 (d a : VReg) (p : BitVec 2) (r : BitVec 3)
  | vcvtFromE5m2 (d a : VReg) (p : BitVec 2) (r : BitVec 3)
  | vredSum (d a : VReg) (m : BitVec 3) | vredMax (d a : VReg) (m : BitVec 3) | vredMin (d a : VReg) (m : BitVec 3)
  | vperm (d a b : VReg) | vbcastG (d : VReg) (a : Reg) | vbcastF (d : VReg) (a : Reg)
  | vld (d : VReg) (a : Reg) (o : BitVec 6) (e : BitVec 2) | vlds (d : VReg) (a s : Reg)
  | vst (g : Guard) (v : VReg) (a : Reg) (o : BitVec 6) (e : BitVec 2)
  | vexp2 (d a : VReg) | vlog2 (d a : VReg) | vrcp (d a : VReg) | vrsq (d a : VReg)
  | vemax (d : Reg) (a : VReg) | vscl2 (d a : VReg) (n : Reg)
  | vtunpk (d a : VReg) (i : BitVec 3) | vtacc (d a t : VReg)
  | vwid (d a : VReg) (n : Bool) (p : BitVec 4) | vwidu (d a : VReg) (n : Bool) (p : BitVec 4)
  | vstatr (d : Reg)
  | mand (d a b : BitVec 3) | mor (d a b : BitVec 3) | mxor (d a b : BitVec 3) | mnot (d a : BitVec 3)
  -- R46: majors 0x2C to 0x35
  | qbind (q : BitVec 3) (a : Reg) | qput (q : BitVec 3) (a : Reg) | qget (d : Reg) (q : BitVec 3)
  | qcnt (d : Reg) (q : BitVec 3)
  | tcfg (d : BitVec 2) (t : BitVec 3) | tzero (d : BitVec 2) (z : BitVec 3)
  | tztest (z : BitVec 3) (a : Reg) (s : BitVec 2) | twait (m : BitVec 4) | cbld (c : BitVec 2) (a : Reg)
  | tld (d : BitVec 2) (z : BitVec 3) (a : Reg) | tst (g : Guard) (d : BitVec 2) (z : BitVec 3) (a : Reg)
  | tmma (x : MatOp) | tmmak (x : MatOp)
  | fenter (al : BitVec 2) (s : BitVec 14) | fleave | ftile (k t : BitVec 2) (a : Reg) | fpub | tret | sync
  | jinit (d : Reg) | jdec (d a : Reg) | donate (d a b : Reg) | accept (d a : Reg) | spawn (s : BitVec 22)
  | csrr (d : Reg) (n : BitVec 12) | csrw (a : Reg) (n : BitVec 12) | csrwTvec (a : Reg) | csrwLstate (a : Reg)
  | trap (a : Reg) | eret | svc (a : Reg) | wfe (a : Reg) | oseta (d a : Reg) (c : BitVec 2)
  | rwb (a b : Reg) | rwbLog (a : Reg) | rwbObj (a : Reg)
  | rinv (a b : Reg) | rinvLog (a : Reg) | rinvObj (a : Reg)
  | logrdRead (d : BitVec 4) (a c : Reg) | logrdStatus (d : BitVec 4) (a c : Reg)
  | logrdRetire (d : BitVec 4) (a c : Reg) | logrdReset (d : BitVec 4) (a c : Reg)
  | orinv (a : Reg) | orinvCtx | orsync (a : Reg) | orsyncCtx
  | ttqry (d a c : Reg) | clbinv (a c : Reg) | clbinvObj (a : Reg)
  -- R47: engine majors 0x3C to 0x3E
  | cpy (h : EngMode) (d s l f : Reg) (sh : Bool) | cpyt (h : EngMode) (d c f : Reg) (sh : Bool)
  | cpyr (h : EngMode) (d s l f : Reg)
  | wbind (h : EngMode) (w : BitVec 2) (d c f : Reg) | wunbind (w : BitVec 2) (d : Reg)
  | rwait (d r n : Reg) (sc : Scope) | rrel (r n : Reg) (sc : Scope) | publish (a : Reg)
  | cwait (f v : Reg) (sc : Scope)
  | gather (h : EngMode) (d i b f : Reg) (cnt : BitVec 12) (sz : BitVec 8)
  | scatter (h : EngMode) (d i b f : Reg) (cnt : BitVec 12) (sz : BitVec 8)
  | bara (d b n : Reg) (sc : Scope) | barw (b p : Reg) (sc : Scope)
  -- steps of engines and of the matrix unit
  | engineWrite (cmd unit : Nat) (fresh : Bool) | commandComplete (cmd : Nat)
  | thatchAdmission (k : CoreId) | groupDeadline (c : ClusterId) | matrixIssue (c : ClusterId) | issueEnd (c : ClusterId)
  -- steps of the terrier, of stops and of resumptions
  | stealRound (k : CoreId) | continuationResume (k : CoreId)
  | preemption (k : CoreId) | migration (m : Move) (k : CoreId)
  | resumption (i : Nat) (at_ : Option Word) (edits : List (Nat × Byte))
  | pendingSlot (i : Nat) (k : CoreId) | registerLineFill (img : Word) (line : Nat) (u : LineUse) (e : EccKind)
  | watchdogStop (k : CoreId) | watchdogRecord (i : Nat)
  -- power
  | tokenInjection | stallEnd (c : ClusterId)
  -- traffic between devices
  | bulkWr (q : PeerReq) | bulkRd (q : PeerReq) | flag (q : PeerReq) | ord (q : PeerReq) | syncClass (q : PeerReq)
  | don (q : PeerReq) | peerAnswer (id : Nat) (e : PeerEnd) | discardedPacket (w : Discard) | remoteTimeout (id : Nat)
  -- what the device does at a bad word, at a fetch that fails and at each tick
  | illegalInstruction (long : Bool) (w : Word) | fetchFault (cause : BitVec 8) (tval : Word) | tickEdge
  -- the resident service
  | svcEnd (img : Word) | report (img : Word) | refill (img : Word) (tiles : List Nat) | powerCap (x : PmRequest)
  | boot | create (h : ReqHead) (q : CreateReq)
  | define (h : ReqHead) (obj : BitVec 18) (d : Definition) (init : List Byte)
  | load (h : ReqHead) (d : LoadDest) (bytes : List Byte) | launch (h : ReqHead) (q : LaunchReq)
  | importPeer (h : ReqHead) (q : ImportReq) | donsetup (h : ReqHead) (q : DonReq)
  | query (h : ReqHead) (q : QuerySel) | attest (h : ReqHead) (nonce : BitVec 256)
  | resume (h : ReqHead) (img : Word) (limit : BitVec 48) | endCtx (h : ReqHead)
  -- caches, links and recovery
  | lineEviction (c : ClusterId) (line : Nat) | snoop (c : ClusterId) (line : Nat)
  | flitReplay (l : Nat) | replayExhausted (l : Nat) (k : FlitClass) (line : Nat) (die : DieId) (rerouted : Bool)
  | laneGroupMapout (l : Nat) | recoveryTimeout (line : Nat) (die : DieId) | patrolScrub (x : EccSite) (e : EccKind)
  | mapOut (u : MapUnit) | mirrorRestore (line : Nat) (both : Bool) | lockstepMismatch
  | flashing | warningWithdrawn | supplyReturn | auxRailExpiry
  -- what operators configure
  | partition (h : ReqHead) (p : List (BitVec 3)) | timeout (h : ReqHead) (ld : BitVec 3) (us : Nat)
  | budget (h : ReqHead) (d : DieId) (b high low : Nat) | clock (h : ReqHead) (u : ClockUnit) (ratio : BitVec 2) (freq : BitVec 8)
  | diestate (h : ReqHead) (d : DieId) (m : DieMode) | port (h : ReqHead) (p : BitVec 2) (split : Bool)
  -- the end of the held-up supply, and the service's work on objects
  | holdUpEnd | objectRelocation (tag : Tag) (obj : BitVec 18) (st : RelocStep)
  | tileFree (tag : Tag) (obj : BitVec 18) (key : Nat) (st : FreeStep)
  | residencyChange (tag : Tag) (obj : BitVec 18) (i : Nat) (entry : Word)
  deriving DecidableEq, Repr

end Sys2Proof
end

