-- ==== Sys2Proof/Machine/State.lean ====
section
/-! DEFINITION. The state of the machine as plain data: the strands and cores, the one memory with its
full-empty bits, poison and software-coherent cache lines, the engines, the matrix units, the power
stores, the resident service, and the state right after reset. -/

namespace Sys2Proof.Machine

/-- Why the machine stops. -/
inductive Fault where
  /-- Raised by `step` when the supply is gone (R403, R416) and no outside event is pending. Safe: the
  device itself does nothing until its supply returns. -/
  | unpowered
  deriving DecidableEq, Repr

/-- Why a step has no meaning. -/
inductive Refusal where
  /-- Raised only by an arm of `exec` whose row has no meaning yet. Safe: nothing is claimed of it. -/
  | notModelled (mnemonic : String)
  deriving DecidableEq, Repr

abbrev Outcome (α : Type) := Host.Outcome α Fault Refusal

/-- A queue register (R73, R78): binding, head index, count and the sixteen slots. -/
structure Queue where
  bind : BitVec 11
  head : BitVec 4
  count : BitVec 5
  slots : Vector Word 16
  deriving DecidableEq, Repr

/-- A continuation (R277), as a core's deque holds it. -/
structure Cont where
  pc : Word
  cls : BitVec 2
  frame : Word
  jrec : Word
  tiles : Word
  deriving DecidableEq, Repr

/-- What a strand does about its requests to peer devices (R264, R267). -/
structure PeerLink where
  /-- the request whose answer the instruction at the pc awaits -/
  wait : Option Nat
  /-- the answer that has arrived for it -/
  answer : Option PeerEnd
  /-- posted stores not yet acknowledged -/
  posted : List Nat
  /-- the address of a posted store that failed -/
  lost : Option Word
  deriving DecidableEq, Repr

/-- The architectural state of a strand (R25, R27): the fields of its context image. -/
structure Strand where
  pc : Word
  g : Vector Word 32
  f : Vector Word 32
  p : BitVec 8
  z : BitVec 8
  m : Vector (BitVec 128) 8
  v : Vector Row 64
  ty : Vector (BitVec 3) 4
  cb : Vector (BitVec 256) 4
  q : Vector Queue 8
  lcnt : Vector Word 3
  lbeg : Vector Word 3
  llen : Vector (BitVec 16) 3
  lact : BitVec 3
  status : Word
  cause : Word
  epc : Word
  tval : Word
  tvec : Word
  ctxid : Word
  ortbase : Word
  spillbase : Word
  spilltop : Word
  spillovf : Word
  fcsr : Word
  vstat : Word
  mhold : Word
  mweight : Word
  mstep : Word
  prio : Word
  hbeat : Word
  wdmode : Word
  /-- the matrix sequencer state at byte 8 of the resume line (R27, R144) -/
  mxseq : Word
  /-- poison marks of the accumulator rows (R151, R383) -/
  rowPoison : BitVec 64
  /-- image offsets of register lines whose contents are lost (R382) -/
  lost : List Nat
  /-- the 32 bytes of the pending slot beside the image, when it holds a continuation (R277, R388) -/
  slot : Option (List Byte)
  /-- register lines with a copy in the carve-out: a line's image offset and its place there, in lines (R379) -/
  carved : List (Nat × Nat)
  /-- the TRET at the pc has made its decrement (R388) -/
  decDone : Bool
  /-- the instruction at the pc has begun, and completes before any stop (R318, R249) -/
  begun : Bool
  /-- the object whose attribute the OSETA at the pc is changing (R227) -/
  changing : Option (BitVec 18)
  /-- the image offset of a register line that was lost as it was being evicted (R382) -/
  evicted : Option Nat
  /-- the ranges of a scratchpad that the service gave the strand (R377) -/
  share : Layout
  peer : PeerLink
  deriving DecidableEq, Repr

/-- What a core is doing. -/
inductive CoreMode where
  /-- no strand is placed on the core -/
  | vacant
  /-- the strand has no task (R272) and its terrier probes (R287) -/
  | idle
  /-- the strand runs a task -/
  | running
  /-- a steal has taken this continuation and the strand has not resumed it yet (R281, R289) -/
  | arriving (c : Cont)
  deriving DecidableEq, Repr

/-- Where an engine's byte goes or an atomic acts, with what R233 needs to know of the place. -/
inductive PlaceKind where
  | sp | sram | hc | sc | cp (owner : CoreId) | shadow | home
  deriving DecidableEq, Repr

/-- A byte of an engine's source: where it came from, if it came from memory, and its value at issue. -/
structure EByte where
  src : Option Nat
  val : Byte
  /-- the byte after `src` in memory, when this byte is a pair of 4-bit elements that lies across two (R240) -/
  src2 : Option Nat := none
  /-- when only half of a byte of memory is written: the value's low half into the high half there, or the reverse -/
  half : Option Bool := none
  deriving DecidableEq, Repr

/-- The destination of one unit of an engine command. -/
inductive EDst where
  | mem (key : Nat) (kind : PlaceKind)
  | peer (handle : BitVec 12) (q : PeerReq)
  deriving DecidableEq, Repr

/-- One unit an engine still has to write, with the poison its source bytes carried at issue. -/
structure EUnit where
  dst : EDst
  bytes : List EByte
  poisoned : Bool
  deriving DecidableEq, Repr

/-- The completion flag of an engine command (R234). -/
inductive EFlag where
  | none
  | add (key : Nat) (kind : PlaceKind)
  | barrier (key : Nat)
  | peer (handle : BitVec 12) (q : PeerReq)
  deriving DecidableEq, Repr

/-- An engine command, from its issue until its completion (R230). A strand is named by the physical
address of its context image (SPILLOVF). -/
structure Cmd where
  id : Nat
  core : CoreId
  ctx : Tag
  strand : Word
  addr : Word
  tok : Bool
  gather : Bool
  units : List EUnit
  flag : EFlag
  /-- physical base, slot size, slot count and claimed sequence number of a ring (R245) -/
  ring : Option (Nat × Nat × Nat × Nat)
  /-- the number of the translations of stage 3: commands and removals share one count (R231, R350) -/
  checked : Nat
  d2d : Bool
  window : Option (BitVec 2)
  shadowOf : Option (BitVec 18)
  objs : List (BitVec 18)
  written : Nat
  /-- the bytes of each line of HBM that the command has written sound (R395) -/
  sound : List (Nat × BitVec 64)
  /-- the leaves and sub-tiles that its translations went through (R370) -/
  keys : List (BitVec 18 × Nat)
  poisoned : Bool
  failed : Bool
  /-- requests to a peer whose answers the command awaits -/
  out : List Nat
  /-- the flag has been sent to the peer -/
  flagSent : Bool
  /-- the bytes of data the command moves -/
  size : Nat
  deriving DecidableEq, Repr

/-- The states of a window slot (R242). -/
inductive WinState where
  | free | bound | copying | done
  deriving DecidableEq, Repr

/-- A bound-window slot with the command its touch will enqueue (R241). -/
structure Window where
  st : WinState
  ctx : Tag
  /-- the image of the strand that bound it (R386) -/
  strand : Word
  cmd : Option Cmd
  granules : List Nat
  deriving DecidableEq, Repr

/-- A translation held in a coordinate look-aside buffer (R366): a sub-tile or a leaf tile. -/
structure ClbEntry where
  ctx : Tag
  obj : BitVec 18
  key : Nat
  base : Nat
  deriving DecidableEq, Repr

/-- A core with the state the service loads when it places a strand there (R375). -/
structure Core where
  mode : CoreMode
  strand : Strand
  /-- the deque, head (oldest) first -/
  deque : List Cont
  /-- where in cluster SRAM the overflow area begins, which holds the oldest of more than 64 entries (R279) -/
  ovf : Nat
  fabase : Word
  falimit : Word
  ftop : Word
  dqcap : Word
  dring : Word
  spshare : Word
  spshr : Vector Word 4
  spgrp : Word
  win : Vector Window 4
  lfsr : BitVec 16
  debit : BitVec 8
  /-- offsets of frames resident in the scratchpad that are parked in join records (R272) -/
  parkedTop : List Nat
  /-- a watchdog stop has been requested (R318) -/
  wdReq : Bool
  /-- the service has asked for a pre-emption (R384) -/
  preReq : Bool
  /-- the coordinate look-aside buffer, most recently used first -/
  clb : List ClbEntry
  /-- the line that the instruction cache has filled last (R354) -/
  iline : Option Nat
  deriving DecidableEq, Repr

/-- A matrix command (R134, R139) with what it captured when it was enqueued. -/
structure MxCmd where
  id : Nat
  core : CoreId
  strand : Word
  ctx : Tag
  solo : Bool
  addr : Word
  pair : BitVec 4
  acc : BitVec 2
  a : Nat
  b : Nat
  na : Bool
  nb : Bool
  zc : Bool
  sa : Bool
  sb : Bool
  sat : Bool
  scA : BitVec 8
  scB : BitVec 8
  cb : BitVec 256
  cls : BitVec 2
  hold : BitVec 10
  /-- the command posts a token when it completes (R149) -/
  token : Bool
  /-- the cycle of its deadline, once it has been admitted (R310) -/
  due : Nat
  /-- a stop has withdrawn it: it forms a group of its own (R311) -/
  alone : Bool
  deriving DecidableEq, Repr

/-- A group of the thatch (R310). -/
structure MxGroup where
  members : List MxCmd
  deadline : Nat
  ready : Bool
  deriving DecidableEq, Repr

/-- The rows a member of the issue in progress will write, with their poison. -/
structure MxResult where
  cmd : MxCmd
  rows : List Row
  poison : List Bool
  deriving DecidableEq, Repr

/-- The matrix unit of a cluster: the command queues in order of enqueue, the groups in the order they
opened, the issue in progress, and the arbiter (R307). -/
structure MxUnit where
  queue : List MxCmd
  groups : List MxGroup
  issued : List MxResult
  ptr : BitVec 3
  ptr3 : BitVec 3
  credits : Vector Nat 8
  /-- how many of the last three issues were of class 3, newest first -/
  recent : List Bool
  cycle : Nat
  deriving DecidableEq, Repr

/-- A line held by the L1Ds of a cluster (R217, R218): its bytes, dirty mask and last writer. -/
structure L1Line where
  addr : Nat
  data : List Byte
  mask : BitVec 64
  tag : Tag
  /-- the core that wrote the line last -/
  writer : BitVec 3
  /-- the copy is poisoned (R394, R395) -/
  bad : Bool
  deriving DecidableEq, Repr

/-- A copy of a software-coherent line in the L2 of a die (R217); it holds dirty bytes only while flashing runs (R403). -/
structure L2Line where
  addr : Nat
  data : List Byte
  mask : BitVec 64
  /-- the copy is poisoned (R394, R395) -/
  bad : Bool
  deriving DecidableEq, Repr

/-- A cached version of an object record (R340). -/
structure RecEntry where
  ctx : Tag
  obj : BitVec 18
  words : List Word
  deriving DecidableEq, Repr

/-- The state a cluster shares among its cores, kept for clusters that hold any. -/
structure Cluster where
  l1 : List L1Line
  recs : List RecEntry
  mx : MxUnit
  deriving DecidableEq, Repr

/-- A line of an HC or CP object with dirty bytes in a core's L1D (R218): the mask, and the tag of the last writer. -/
structure DirtyLine where
  addr : Nat
  core : CoreId
  mask : BitVec 64
  tag : Tag
  deriving DecidableEq, Repr

/-- The power state of a cluster (R321, R327). -/
structure Power where
  store : BitVec 16
  asleep : Bool
  /-- the cores that have issued in the present cycle (R323) -/
  issued : BitVec 8
  ratio : BitVec 2
  freq : BitVec 8
  /-- TIME at which a stall ends; `none` when the cluster is not stalled -/
  stall : Option Nat
  deriving DecidableEq, Repr

/-- The settings of a die (R325). -/
structure DieBudget where
  tokens : Nat
  high : Nat
  low : Nat
  deriving DecidableEq, Repr

/-- Die positions and clusters as the service has configured them. -/
structure Package where
  time : Nat
  /-- the BIN field: bit 0 L, bit 1 H, bit 2 module form (R1, R410) -/
  bin : BitVec 3
  /-- the number by which handles name this device (R260) -/
  devId : BitVec 32
  /-- the logical device of each die position (R21) -/
  part : Vector (BitVec 3) 8
  /-- mesh positions of the enabled clusters of each die, in order of cluster number (R10) -/
  mesh : Vector (List Nat) 8
  sdie : Vector Bool 8
  mode : Vector DieMode 8
  fencedDie : Vector Bool 8
  fencedCluster : List ClusterId
  mapOutDie : Vector Bool 8
  /-- C-dies that the next repartition maps out (R399) -/
  mapOutNext : Vector Bool 8
  hbmOut : List (DieId × Nat)
  power : List (ClusterId × Power)
  budget : Vector DieBudget 8
  /-- the injection of the current tick has been made (R325) -/
  injected : Bool
  timeout : Vector Nat 8
  split : Vector Bool 4
  /-- lane groups left on each degraded link -/
  links : List (Nat × Nat)
  capWatts : BitVec 16
  deriving DecidableEq, Repr

/-- A share of a core's scratchpad that a context holds (R377): for the strand whose image lies at an address, or, where
that is 0, for the strand that will be placed there. -/
structure Share where
  core : CoreId
  strand : Word
  lay : Layout
  deriving DecidableEq, Repr

/-- A context as the service knows it (R297, R353, R411). -/
structure Context where
  tag : Tag
  part : BitVec 3
  mode : BitVec 2
  limit : BitVec 48
  hold : Bool
  solo : Bool
  weight : BitVec 4
  ortBase : Word
  image : Word
  /-- the strands for which there are images -/
  images : Nat
  groups : BitVec 32
  /-- the layouts that the service chooses from for the context's strands -/
  layouts : List Layout
  /-- where in HBM flashing saves what the context holds on the C-dies (R403) -/
  saveArea : Nat
  /-- the overflow areas: a core, an offset in the SRAM of its cluster, and the entries for which there is room -/
  ovf : List (CoreId × Nat × Nat)
  dring : Word
  args : Word
  /-- free join records of each cluster (R286) -/
  pools : List (ClusterId × List Nat)
  /-- all the join records that the context was given -/
  areas : List (ClusterId × List Nat)
  /-- the cores on which a strand of the context has been placed (R329) -/
  cores : List CoreId
  /-- identities of the launch requests that await completion, with their launch records -/
  launches : List (Word × Nat)
  /-- the shares that the context holds (R377) -/
  held : List Share
  /-- strands made so far -/
  strands : Nat
  deriving DecidableEq, Repr

/-- Why a strand is off its core. -/
inductive OffWhy where
  | preempted
  | trapped
  | held
  /-- its context has stopped it for good; matrix commands of it have still to complete (R353, R400) -/
  | ending
  deriving DecidableEq, Repr

/-- A strand off its core, with its parked deque (R292, R374). -/
structure Off where
  ctx : Tag
  core : CoreId
  strand : Strand
  /-- the parked deque: a save area of 32-byte entries, head first (R277, R292) -/
  area : List Byte
  fabase : Word
  ftop : Word
  /-- the strand was idle when it was stopped -/
  idle : Bool
  why : OffWhy
  /-- a watchdog stop was requested and has not been taken (R318) -/
  wdReq : Bool
  /-- the image as the service has edited it, when the device has refused it (R28) -/
  edited : Option (List Byte)
  /-- the tiles that its REFILL call has pushed so far (R414) -/
  pushed : Nat
  deriving DecidableEq, Repr

/-- A record of events of a context (R354). -/
structure Account where
  tag : Tag
  fills : Nat
  writeBacks : Nat
  tokens : Nat
  deriving DecidableEq, Repr

/-- A message the service or the device has sent to a requester (R402, R407, R411, R414). -/
inductive Message where
  | answer (kind status : BitVec 8) (id : Word) (ctx : Tag) (body : List Byte)
  | watchdog (ctx : Tag) (strand epc limit : Word) (beats : BitVec 16)
  | report (ctx : Tag) (bytes : List Byte)
  /-- the answer to a read by the board controller (R415) -/
  | register (reg : BitVec 8) (v : BitVec 16)
  | ended (ctx : Tag) (code : Word)
  | failed (ctx : Tag)
  | imageRefused (ctx : Tag) (strand : Word) (cause : BitVec 8)
  | commandFailed (ctx : Tag) (cmd : Nat) (handle : BitVec 12)
  | peer (id : Nat) (e : PeerEnd)
  deriving DecidableEq, Repr

/-- A machine-check record (R402). -/
structure Check where
  ctx : Tag
  unit : BitVec 24
  kind : BitVec 8
  addr : Word
  time : Word
  detail : Word
  deriving DecidableEq, Repr

/-- The phases of the service (R408, R401). -/
inductive Phase where
  | unbooted | recovery | running | stopped
  deriving DecidableEq, Repr

/-- A slot of the boot flash (R408). -/
structure BootSlot where
  image : List Byte
  rollback : Nat
  key : BitVec 512
  sig : BitVec 512
  deriving DecidableEq, Repr

/-- The checkpoint machinery (R403 to R406, R416). -/
structure Checkpoint where
  powered : Bool
  warned : Bool
  flashing : Bool
  /-- phases of the present sequence that have ended -/
  phases : Nat
  seq : BitVec 16
  twarn : Nat
  /-- SEQ of the newest sealed marker, 0 if none -/
  sealedSeq : BitVec 16
  /-- a sealed marker is present (R415) -/
  marker : Bool
  /-- strands stopped by the sequence that wait to be resumed -/
  saved : List Word
  /-- the regions written in phases 2 to 4: address and length -/
  manifest : List (Nat × Nat)
  deriving DecidableEq, Repr

/-- A relocation under way: how many of its steps have been made (R347). -/
structure Reloc where
  ctx : Tag
  obj : BitVec 18
  stage : Nat
  deriving DecidableEq, Repr

/-- A tile of a sparse volume that is being freed: how many of the steps have been made (R364). -/
structure TileFreeing where
  ctx : Tag
  obj : BitVec 18
  key : Nat
  tile : Nat
  stage : Nat
  deriving DecidableEq, Repr

/-- A sub-tile of a MAPPED object that the service has made non-resident: its bytes and the offsets of its poisoned units
(R180, R339). -/
structure PagedTile where
  ctx : Tag
  obj : BitVec 18
  idx : Nat
  bytes : List Byte
  bad : List Nat
  deriving DecidableEq, Repr

/-- The resident service (R401, R408, R411). -/
structure Service where
  phase : Phase
  flash : List BootSlot
  fusedRollback : Nat
  vendorKey : BitVec 256
  svcDigest : BitVec 256
  contexts : List Context
  off : List Off
  accounts : List Account
  messages : List Message
  checks : List Check
  /-- which X-die's pair serves (R401) -/
  standby : Bool
  signed : Nat
  discards : Vector Nat 3
  /-- requests that wait to be performed, in order of arrival (R413) -/
  waiting : List Instr
  /-- requests that arrived while flashing ran, with their kinds (R413) -/
  deferred : List ReqHead
  relocs : List Reloc
  frees : List TileFreeing
  paged : List PagedTile
  deriving DecidableEq, Repr

/-- What a request to a peer was made for. -/
inductive PeerUse where
  | wait (strand : Word)
  | posted (strand : Word)
  /-- a packet of a command's data: its bytes, and whether they are poisoned -/
  | cmdData (cmd bytes : Nat) (poisoned : Bool)
  | cmdFlag (cmd : Nat)
  | cmdRead (cmd : Nat) (units : List EUnit)
  deriving DecidableEq, Repr

/-- A request under way to a peer, with the handle it was made through. -/
structure PeerOut where
  req : PeerReq
  use : PeerUse
  core : CoreId
  /-- the context that made it -/
  ctx : Tag
  handle : BitVec 12
  addr : Word
  /-- TIME at which it was sent (R258) -/
  sent : Nat
  deriving DecidableEq, Repr

/-- A slot of a ring that a peer's CPYR has claimed here and not filled yet, or has filled out of sequence: its command,
the ring's base, the sequence number and the bytes still to come (R245, R265). -/
structure Append where
  own : Bool
  cmd : Nat
  base : Nat
  seq : Nat
  left : Nat
  deriving DecidableEq, Repr

/-- A removal of cached versions (ORINV, PUBLISH) or of look-aside buffer entries (CLBINV, R370): what had been
translated before it (R350). -/
structure Removal where
  ctx : Tag
  obj : Option (BitVec 18)
  /-- the leaves and sub-tiles whose entries CLBINV removed -/
  keys : Option (List Nat)
  before : Nat
  deriving DecidableEq, Repr

/-- Turns that the outside world and the other agents have been given. -/
inductive Turn where
  /-- the core acts once -/
  | run (k : CoreId)
  /-- one of the table's events happens -/
  | event (i : Instr)
  /-- the core becomes the one that acts when no turn is pending -/
  | focus (k : CoreId)
  /-- the device acts once by itself -/
  | device
  deriving DecidableEq, Repr

/-- The whole machine. -/
structure State where
  /-- the core that acts next when no turn is pending -/
  cur : CoreId
  core : Core
  /-- every other core that holds a strand or other state, by rising number -/
  others : List (CoreId × Core)
  /-- every byte of storage that has been written: HBM by physical address, scratchpad and cluster
  SRAM by global address with physical die positions -/
  mem : List Host.Cell
  /-- EMPTY scratchpad granules, by the address of their first byte -/
  empty : List Nat
  /-- poisoned units, by the address of their first byte -/
  poison : List Nat
  /-- the context that has written a byte of cluster SRAM last (R180) -/
  sramBy : List (Nat × Tag)
  clusters : List (ClusterId × Cluster)
  l2 : List (DieId × L2Line)
  /-- lines of HC and CP objects with dirty bytes in a core's L1D, by rising address -/
  dirty : List DirtyLine
  cmds : List Cmd
  nextId : Nat
  removals : List Removal
  out : List PeerOut
  /-- requests of peers that wait for their condition (R246, R250, R255) -/
  held : List PeerReq
  appends : List Append
  pkg : Package
  svc : Service
  ckpt : Checkpoint
  turns : List Turn
  /-- the model's own: a strand has acted since the device last had its turn -/
  acted : Bool
  /-- the model's own: turns of the device since TIME was last moved on -/
  beats : Nat
  /-- the model's own: which of the device's agents was served last -/
  served : Nat
  deriving DecidableEq, Repr

/-- A queue after QBIND to UNBOUND (R74). -/
def Queue.zero : Queue := ⟨0, 0, 0, Vector.replicate 16 0⟩

def PeerLink.none : PeerLink := ⟨Option.none, Option.none, [], Option.none⟩

/-- A strand whose image holds zero but for the two bits of R28. -/
def Strand.zero : Strand where
  pc := 0
  g := Vector.replicate 32 0
  f := Vector.replicate 32 0
  p := 1
  z := 1
  m := Vector.replicate 8 0
  v := Vector.replicate 64 0
  ty := Vector.replicate 4 0
  cb := Vector.replicate 4 0
  q := Vector.replicate 8 Queue.zero
  lcnt := Vector.replicate 3 0
  lbeg := Vector.replicate 3 0
  llen := Vector.replicate 3 0
  lact := 0
  status := 0
  cause := 0
  epc := 0
  tval := 0
  tvec := 0
  ctxid := 0
  ortbase := 0
  spillbase := 0
  spilltop := 0
  spillovf := 0
  fcsr := 0
  vstat := 0
  mhold := 0
  mweight := 0
  mstep := 0
  prio := 0
  hbeat := 0
  wdmode := 0
  mxseq := 0
  rowPoison := 0
  lost := []
  slot := none
  carved := []
  decDone := false
  begun := false
  changing := none
  evicted := none
  share := ⟨0, 0, 0, 0, 0, 0⟩
  peer := PeerLink.none

def Window.zero : Window := ⟨.free, 0, 0, none, []⟩

/-- A core on which the service has placed nothing. -/
def Core.vacant : Core where
  mode := .vacant
  strand := Strand.zero
  deque := []
  ovf := 0
  fabase := 0
  falimit := 0
  ftop := 0
  dqcap := 0
  dring := 0
  spshare := 0
  spshr := Vector.replicate 4 0
  spgrp := 0
  win := Vector.replicate 4 Window.zero
  lfsr := 0
  debit := 0
  parkedTop := []
  wdReq := false
  preReq := false
  clb := []
  iline := none

def MxUnit.zero : MxUnit := ⟨[], [], [], 0, 0, Vector.replicate 8 0, [], 0⟩
def Cluster.zero : Cluster := ⟨[], [], MxUnit.zero⟩

/-- The power state a cluster has until it changes: at ratio 2:3 and 4.0 GHz with the store at the
level that wakes a cluster (log 20). -/
def Power.start : Power := ⟨256, false, 0, 0, 40, none⟩

/-- R1: the enabled clusters of a C-die, and whether there are S-dies, in the part that BIN names. -/
def binClusters (b : BitVec 3) : Nat := if b.getLsbD 0 then 18 else 20
def binSdies (b : BitVec 3) : Bool := !b.getLsbD 1

/-- A package right after reset: one logical device of eight dies with the clusters of its part (R1, R9, R21). That the two mesh
positions that an -L part has fused off are the last two of each C-die, 18 and 19, is the model's choice (log 61): the spec leaves
the map to the service (R10). -/
def Package.ofBin (b : BitVec 3) : Package where
  time := 0
  bin := b
  devId := 0
  part := Vector.replicate 8 0
  mesh := Vector.replicate 8 (List.range (binClusters b))
  sdie := Vector.replicate 8 (binSdies b)
  mode := Vector.replicate 8 .active
  fencedDie := Vector.replicate 8 false
  fencedCluster := []
  mapOutDie := Vector.replicate 8 false
  mapOutNext := Vector.replicate 8 false
  hbmOut := []
  power := []
  budget := Vector.replicate 8 ⟨0, 0, 0⟩
  injected := false
  timeout := Vector.replicate 8 100000
  split := Vector.replicate 4 false
  links := []
  capWatts := 0

/-- The package of State.reset, a full bare part (log 61). -/
def Package.start : Package := Package.ofBin 0

def Checkpoint.start : Checkpoint := ⟨true, false, false, 0, 0, 0, 0, false, [], []⟩

def Service.start : Service where
  phase := .unbooted
  flash := []
  fusedRollback := 0
  vendorKey := 0
  svcDigest := 0
  contexts := []
  off := []
  accounts := []
  messages := []
  checks := []
  standby := false
  signed := 0
  discards := Vector.replicate 3 0
  waiting := []
  deferred := []
  relocs := []
  frees := []
  paged := []

/-- The machine right after reset: before the boot ROM has run, no C-die issues an instruction (R408). -/
def State.reset : State where
  cur := 0
  core := Core.vacant
  others := []
  mem := []
  empty := []
  poison := []
  sramBy := []
  clusters := []
  l2 := []
  dirty := []
  cmds := []
  nextId := 0
  removals := []
  out := []
  held := []
  appends := []
  pkg := Package.start
  svc := Service.start
  ckpt := Checkpoint.start
  turns := []
  acted := false
  beats := 0
  served := 0

end Sys2Proof.Machine
end

