-- ==== Sys2Proof/Machine/Memory.lean ====
section
/-! DEFINITION. The one memory: cells in rising order of address, none of them equal to what an
unlisted address reads as; with it the full-empty bits of scratchpad granules (R16, R127) and the
poison marks of stored units (R394, R395). -/

namespace Sys2Proof.Machine

/-- What an unlisted address reads as: storage the service has cleared reads zero (R180). -/
def unlisted : Byte := 0

/-- The byte at an address. -/
def memGet : List Host.Cell → Nat → Byte
  | [], _ => unlisted
  | (k, b) :: t, a => if a = k then b else if a < k then unlisted else memGet t a

/-- Write one byte, keeping the canonical form. -/
def memSet (a : Nat) (x : Byte) : List Host.Cell → List Host.Cell
  | [] => if x = unlisted then [] else [(a, x)]
  | (k, b) :: t =>
    if a < k then (if x = unlisted then (k, b) :: t else (a, x) :: (k, b) :: t)
    else if a = k then (if x = unlisted then t else (a, x) :: t)
    else (k, b) :: memSet a x t

/-- Every cell lies above the bound and differs from the unlisted value; addresses rise strictly. -/
def Memory.wfFrom : Nat → List Host.Cell → Bool
  | _, [] => true
  | lo, (k, b) :: t => decide (lo ≤ k) && b != unlisted && Memory.wfFrom (k + 1) t

/-- The canonical form of a memory. -/
def Memory.wf (m : List Host.Cell) : Bool := Memory.wfFrom 0 m

/-- `n` bytes from an address upward. -/
def memRead (m : List Host.Cell) (a : Nat) : Nat → List Byte
  | 0 => []
  | n + 1 => memGet m a :: memRead m (a + 1) n

/-- Bytes written from an address upward. -/
def memWrite (m : List Host.Cell) (a : Nat) : List Byte → List Host.Cell
  | [] => m
  | x :: t => memWrite (memSet a x m) (a + 1) t

/-- Bytes written where the mask has a 1 (R218). -/
def memMerge (m : List Host.Cell) (a : Nat) (mask : Nat) : List Byte → List Host.Cell
  | [] => m
  | x :: t => memMerge (if mask % 2 = 1 then memSet a x m else m) (a + 1) (mask / 2) t

/-- The little-endian doubleword at an address. -/
def memWord (m : List Host.Cell) (a : Nat) : Word := W (bytesNat (memRead m a 8))
def memSetWord (m : List Host.Cell) (a : Nat) (x : Word) : List Host.Cell :=
  memWrite m a (natBytes 8 x.toNat)

/-- Whether a storage address is in scratchpad (R14). -/
def isSp (a : Nat) : Bool := a / 2 ^ 62 == 1
/-- Whether a storage address is in cluster SRAM (R14). -/
def isSram (a : Nat) : Bool := a / 2 ^ 62 == 3

/-- R394: the first byte of the unit of poison that holds a byte: 16 bytes on the core side, 64 in HBM. -/
def poisonUnit (a : Nat) : Nat := if isSp a || isSram a then a / 16 * 16 else a / 64 * 64
def poisonSize (a : Nat) : Nat := if isSp a || isSram a then 16 else 64

/-- The first byte of a range that lies in a poisoned unit (R372). -/
def firstPoison (p : List Nat) (a : Nat) : Nat → Option Nat
  | 0 => none
  | n + 1 => if p.contains (poisonUnit a) then some a else firstPoison p (a + 1) n

/-- R395: the units of a written range that the write covers whole lose their poison. -/
def clearPoison (p : List Nat) (a n : Nat) : List Nat :=
  p.filter fun u => !(decide (a ≤ u) && decide (u + poisonSize u ≤ a + n))

/-- R127: whether every granule that a range touches is FULL. -/
def allFull (e : List Nat) (a n : Nat) : Bool :=
  e.all fun g => decide (g + 16 ≤ a) || decide (a + n ≤ g)
/-- Set FULL every granule a range touches. -/
def setFull (e : List Nat) (a n : Nat) : List Nat :=
  e.filter fun g => decide (g + 16 ≤ a) || decide (a + n ≤ g)
/-- Set EMPTY the `n` granules from a granule address upward. -/
def setEmpty (e : List Nat) (g : Nat) : Nat → List Nat
  | 0 => e
  | n + 1 => setEmpty (sortedInsert g e) (g + 16) n

end Sys2Proof.Machine
end

