-- ==== Sys2Proof/Machine/Topology.lean ====
section
/-! DEFINITION. Cores, clusters, dies and logical devices: where they are, how they are numbered
(R9, R10, R21, R22), how a core's or a cluster's state is reached, and the form of continuations in
memory (R277). -/

namespace Sys2Proof.Machine

/-- The die position of a core, its cluster number and its number in the cluster. -/
def dieOf (k : CoreId) : DieId := BitVec.ofNat 3 (k.toNat / 256)
def clusterNo (k : CoreId) : Nat := k.toNat / 8 % 32
def coreNo (k : CoreId) : BitVec 3 := BitVec.ofNat 3 k.toNat
def clusterOf (k : CoreId) : ClusterId := BitVec.ofNat 8 (k.toNat / 8)
def dieOfCluster (c : ClusterId) : DieId := BitVec.ofNat 3 (c.toNat / 32)
def coreAt (c : ClusterId) (n : Nat) : CoreId := BitVec.ofNat 11 (c.toNat * 8 + n % 8)
def mkCluster (d : DieId) (n : Nat) : ClusterId := BitVec.ofNat 8 (d.toNat * 32 + n % 32)
/-- The first byte of a core's scratchpad and of a cluster's SRAM as storage addresses (R14, R16). -/
def spBase (k : CoreId) : Nat := 2 ^ 62 + k.toNat * 2 ^ 20
def sramBase (c : ClusterId) : Nat := 3 * 2 ^ 62 + c.toNat * 2 ^ 23

/-- The logical device of a die position and of a core. -/
def partOfDie (s : State) (d : DieId) : BitVec 3 := s.pkg.part[d.toNat]
def partOfCore (s : State) (k : CoreId) : BitVec 3 := partOfDie s (dieOf k)

/-- R22: the die positions of a logical device, in increasing order. -/
def diesOf (s : State) (p : BitVec 3) : List DieId :=
  ((List.range 8).map (BitVec.ofNat 3)).filter fun d => partOfDie s d == p && !s.pkg.mapOutDie[d.toNat]
/-- R22: the die number of a die position within its logical device. -/
def logicalDie (s : State) (d : DieId) : Nat :=
  ((diesOf s (partOfDie s d)).takeWhile (· != d)).length
/-- The die position that a die number names in a logical device. -/
def physicalDie (s : State) (p : BitVec 3) (n : Nat) : Option DieId := (diesOf s p)[n]?

/-- R10: the enabled clusters of a die position. -/
def clusterCount (s : State) (d : DieId) : Nat := (s.pkg.mesh[d.toNat]).length
/-- R376: the usable scratchpad bytes of a core of a die. -/
def spCapOf (s : State) (d : DieId) : Nat := if s.pkg.sdie[d.toNat] then 0x100000 else 0x80000
/-- R329: whether a C-die is OFF. -/
def dieOff (s : State) (d : DieId) : Bool := s.pkg.mode[d.toNat] == .off
/-- R400: whether a cluster or its die is fenced. -/
def fenced (s : State) (c : ClusterId) : Bool :=
  s.pkg.fencedDie[(dieOfCluster c).toNat] || s.pkg.fencedCluster.contains c

/-- The core with a number. -/
def coreGet (s : State) (k : CoreId) : Core :=
  if k = s.cur then s.core else ((s.others.find? fun e => e.1 == k).map (·.2)).getD Core.vacant
/-- The other cores with one of them replaced. -/
def othersSet (k : CoreId) (c : Core) : List (CoreId × Core) → List (CoreId × Core)
  | [] => [(k, c)]
  | (j, d) :: t =>
    if k.toNat < j.toNat then (k, c) :: (j, d) :: t
    else if k = j then (k, c) :: t
    else (j, d) :: othersSet k c t
/-- Replace the state of a core. -/
def coreSet (s : State) (k : CoreId) (c : Core) : State :=
  if k = s.cur then { s with core := c } else { s with others := othersSet k c s.others }
/-- Make a core the current one. -/
def focus (s : State) (k : CoreId) : State :=
  if k = s.cur then s
  else { s with cur := k, core := coreGet s k, others := othersSet s.cur s.core s.others }
/-- Every core that holds any state, the current one included. -/
def allCores (s : State) : List (CoreId × Core) := (s.cur, s.core) :: s.others.filter fun e => e.1 != s.cur

/-- The state that the cores of a cluster share. -/
def clusterGet (s : State) (c : ClusterId) : Cluster :=
  ((s.clusters.find? fun e => e.1 == c).map (·.2)).getD Cluster.zero
def clustersSet (c : ClusterId) (x : Cluster) : List (ClusterId × Cluster) → List (ClusterId × Cluster)
  | [] => [(c, x)]
  | (j, d) :: t =>
    if c.toNat < j.toNat then (c, x) :: (j, d) :: t
    else if c = j then (c, x) :: t
    else (j, d) :: clustersSet c x t
def clusterSet (s : State) (c : ClusterId) (x : Cluster) : State :=
  { s with clusters := clustersSet c x s.clusters }

/-- The power state of a cluster (R321). -/
def powerGet (s : State) (c : ClusterId) : Power :=
  ((s.pkg.power.find? fun e => e.1 == c).map (·.2)).getD Power.start
def powersSet (c : ClusterId) (x : Power) : List (ClusterId × Power) → List (ClusterId × Power)
  | [] => [(c, x)]
  | (j, d) :: t =>
    if c.toNat < j.toNat then (c, x) :: (j, d) :: t
    else if c = j then (c, x) :: t
    else (j, d) :: powersSet c x t
def powerSet (s : State) (c : ClusterId) (x : Power) : State :=
  { s with pkg := { s.pkg with power := powersSet c x s.pkg.power } }

/-- The running context's tag (R333). -/
def tagOf (t : Strand) : Tag := BitVec.ofNat 12 t.ctxid.toNat
/-- The context that holds a tag, as the service knows it. -/
def contextGet (s : State) (t : Tag) : Option Context := s.svc.contexts.find? fun c => c.tag == t
def contextSet (s : State) (c : Context) : State :=
  { s with svc := { s.svc with contexts := s.svc.contexts.map fun d => if d.tag = c.tag then c else d } }

/-- R354: add to the counts of a context. -/
def charge (t : Tag) (fills writeBacks tokens : Nat) (s : State) : State :=
  let l := s.svc.accounts
  let l := if l.any (fun a => a.tag == t) then
      l.map fun a => if a.tag = t then
        { a with fills := a.fills + fills, writeBacks := a.writeBacks + writeBacks, tokens := a.tokens + tokens }
      else a
    else l ++ [⟨t, fills, writeBacks, tokens⟩]
  { s with svc := { s.svc with accounts := l } }

/-! Continuations in memory (R277). -/

/-- R277: a continuation's 32 bytes, and the continuation that 32 bytes hold. -/
def Cont.bytes (c : Cont) : List Byte :=
  natBytes 8 (c.pc.toNat / 64 * 64 + c.cls.toNat) ++ natBytes 8 c.frame.toNat ++ natBytes 8 c.jrec.toNat
    ++ natBytes 8 c.tiles.toNat
def Cont.ofBytes (b : List Byte) : Cont :=
  let w (i : Nat) : Nat := bytesNat ((b.drop (8 * i)).take 8)
  ⟨W (w 0 / 64 * 64), BitVec.ofNat 2 (w 0), W (w 1), W (w 2), W (w 3)⟩
/-- R292: the entries of a save area, in order, and a save area that holds entries. -/
def contList (b : List Byte) : List Cont :=
  (List.range (b.length / 32)).map fun i => Cont.ofBytes ((b.drop (32 * i)).take 32)
def contBytes (l : List Cont) : List Byte := l.flatMap Cont.bytes
/-- R292: the entries of a parked deque. -/
def Off.deque (o : Off) : List Cont := contList o.area
/-- R279: a core's deque. Sixty-four entries are held in the core, and the oldest of more stand in the overflow area; that they
stand there from its first byte upward, oldest first, is the model's choice (log 81). -/
def dequeSet (s : State) (k : CoreId) (l : List Cont) : State :=
  let c := coreGet s k
  let s1 := coreSet s k { c with deque := l }
  if l.length ≤ 64 then s1
  else
    let bs := contBytes (l.take (l.length - 64))
    { s1 with mem := memWrite s1.mem c.ovf bs, poison := clearPoison s1.poison c.ovf bs.length }

/-- R180: a context has written bytes of cluster SRAM. -/
def claimSram (t : Tag) (a n : Nat) (s : State) : State :=
  { s with sramBy := (List.range n).map (fun i => (a + i, t))
      ++ s.sramBy.filter fun e => decide (e.1 < a) || decide (a + n ≤ e.1) }

/-- Replace the current strand. -/
def strandSet (s : State) (t : Strand) : State := { s with core := { s.core with strand := t } }

/-- The strand whose context image lies at an address, on its core or off it, changed by `f`. -/
def mapStrand (img : Word) (f : Strand → Strand) (s : State) : State :=
  if s.core.mode ≠ .vacant ∧ s.core.strand.spillovf = img then strandSet s (f s.core.strand)
  else
    { s with
      others := s.others.map fun e =>
        if e.2.mode ≠ .vacant ∧ e.2.strand.spillovf = img then
          (e.1, { e.2 with strand := f e.2.strand }) else e
      svc := { s.svc with off := s.svc.off.map fun o =>
        if o.strand.spillovf = img then { o with strand := f o.strand } else o } }

/-- The strand whose context image lies at an address, if it is live. -/
def findStrand (img : Word) (s : State) : Option Strand :=
  match (allCores s).find? fun e => e.2.mode != .vacant && e.2.strand.spillovf == img with
  | some e => some e.2.strand
  | none => (s.svc.off.find? fun o => o.strand.spillovf == img).map (·.strand)

end Sys2Proof.Machine
end

