-- ==== Sys2Proof/Machine/Checks.lean ====
section
/-! DEFINITION. What reaches the service: messages to requesters and machine-check records (R402). -/

namespace Sys2Proof.Machine

/-- A message to a requester. -/
def emit (m : Message) (s : State) : State := { s with svc := { s.svc with messages := s.svc.messages ++ [m] } }

/-- R402: the UNIT field. -/
def unitOf (die type cluster core link : Nat) : BitVec 24 :=
  BitVec.ofNat 24 (die % 8 * 2 ^ 21 + type % 4 * 2 ^ 19 + cluster % 32 * 2 ^ 14 + core % 8 * 2 ^ 11 + link % 2048)
/-- The UNIT of a core and of a cluster. -/
def unitOfCore (k : CoreId) : BitVec 24 := unitOf (dieOf k).toNat 0 (clusterNo k) (coreNo k).toNat 0
def unitOfCluster (c : ClusterId) : BitVec 24 := unitOf (dieOfCluster c).toNat 0 (c.toNat % 32) 0 0
/-- R402: a record reaches the service's ring. -/
def machineCheck (ctx : Tag) (kind : BitVec 8) (unit : BitVec 24) (addr detail : Nat) (s : State) : State :=
  { s with svc := { s.svc with checks := s.svc.checks ++ [⟨ctx, unit, kind, W addr, W s.pkg.time, W detail⟩] } }
def kCorrected : BitVec 8 := 1
def kPoisoned : BitVec 8 := 2
def kReplay : BitVec 8 := 3
def kDirectory : BitVec 8 := 4
def kFence : BitVec 8 := 5
def kMapOut : BitVec 8 := 6
def kLockstep : BitVec 8 := 7
def kMirror : BitVec 8 := 8
def kWatchdog : BitVec 8 := 9
def kRemote : BitVec 8 := 10

end Sys2Proof.Machine
end

