-- ==== Sys2Proof/Machine/Background.lean ====
section
/-! DEFINITION. The next step of an engine command and of a matrix unit, and a strand's wait for the device. The
spec promises that engines, matrix units and time go on while a strand waits (R76, R230, R314, R320). -/

namespace Sys2Proof.Machine

/-- The commands of a matrix unit that have not completed. -/
def MxUnit.pending (u : MxUnit) : List MxCmd :=
  u.issued.map (·.cmd) ++ u.groups.flatMap (·.members) ++ u.queue

/-- The oldest queued command of a core (R306). -/
def mxHead (u : MxUnit) (k : CoreId) : Option MxCmd := u.queue.find? fun c => c.core == k

/-- R306: a queue's head leaves unless an older command of the same strand and accumulator has not issued. -/
def mxMayLeave (u : MxUnit) (c : MxCmd) : Bool :=
  !(u.groups.any fun g => g.members.any fun d => d.strand == c.strand && d.acc == c.acc)

/-- The next step of a cluster's matrix unit, if it has any. That a ready issue starts before a queue's head is admitted, and
that of several heads the oldest goes first, is the model's choice (log 40). -/
def matrixEvent (c : ClusterId) (u : MxUnit) : Option Instr :=
  if u.issued ≠ [] then some (.issueEnd c)
  else if u.groups.any (·.ready) then some (.matrixIssue c)
  else
    match u.queue.find? fun d => (mxHead u d.core).map (·.id) == some d.id && mxMayLeave u d with
    | some d => some (.thatchAdmission d.core)
    | none => if u.groups ≠ [] then some (.groupDeadline c) else none

/-- Whether two engine destinations share a byte. -/
def EUnit.meets (u v : EUnit) : Bool :=
  let cross (a b : Nat) : Bool := decide (a < b + v.bytes.length) && decide (b < a + u.bytes.length)
  match u.dst, v.dst with
  | .mem a _, .mem b _ => cross a b
  | .peer _ p, .peer _ q =>
    p.dev == q.dev && p.ldev == q.ldev && p.ctx == q.ctx && p.obj == q.obj && cross p.off.toNat q.off.toNat
  | _, _ => false

/-- The units of a command whose bytes a peer has not sent yet. -/
def awaited (s : State) (c : Cmd) : List EUnit :=
  s.out.flatMap fun x => match x.use with
    | .cmdRead n us => if n = c.id then us else []
    | _ => []

/-- R327: whether a converter stall holds the work of a cluster. -/
def stalled (s : State) (c : ClusterId) : Bool := (powerGet s c).stall.isSome
/-- R327: whether a stall of the cluster that holds a destination, or that holds its line dirty, keeps a unit back. -/
def EUnit.blocked (s : State) (u : EUnit) : Bool :=
  match u.dst with
  | .mem k _ =>
    if isSp k then stalled s (clusterOf (BitVec.ofNat 11 (k / 2 ^ 20)))
    else if isSram k then stalled s (BitVec.ofNat 8 (k / 2 ^ 23))
    else s.dirty.any fun e => e.addr == k / 64 * 64 && stalled s (clusterOf e.core)
  | .peer _ _ => false
/-- R236: whether a unit may be written: no stall holds it (R327), and no earlier command of the strand has still to write a byte of it. -/
def mayWrite (s : State) (c : Cmd) (u : EUnit) : Bool :=
  !u.blocked s && s.cmds.all fun d => d.strand != c.strand || decide (c.id ≤ d.id)
    || (d.units ++ awaited s d).all fun v => !u.meets v

/-- The fields of a binding (R73). -/
def Queue.kind (q : Queue) : Nat := q.bind.toNat % 16
def Queue.pcore (q : Queue) : BitVec 3 := BitVec.ofNat 3 (q.bind.toNat / 16)
def Queue.any (q : Queue) : Bool := q.bind.getLsbD 7
def Queue.pq (q : Queue) : BitVec 3 := BitVec.ofNat 3 (q.bind.toNat / 256)

/-- R149, R235: whether `out + 1` tokens find room in every queue bound with a kind. -/
def tokenRoom (t : Strand) (kind out : Nat) : Bool :=
  t.q.toList.all fun (q : Queue) => q.kind != kind || decide (q.count.toNat + out + 1 ≤ 16)
def Cmd.kind (c : Cmd) : Nat := if c.gather then 5 else 4

/-- R234, R245, R77: whether a command is complete and may act: nothing is left to write or to hear of, the slots
below its own are filled, and its token finds room. -/
def mayComplete (s : State) (c : Cmd) : Bool :=
  c.units == [] && c.out == [] && (!c.tok || (findStrand c.strand s).all fun t => tokenRoom t c.kind 0)
    && match c.ring with
      | none => true
      | some (base, _, _, n) => (memWord s.mem base).toNat == n

/-- The next step of an engine command, unless it awaits another or a stall. -/
def commandEvent (s : State) (c : Cmd) : Option Instr :=
  if stalled s (clusterOf c.core) then none
  else match c.units.findIdx? (mayWrite s c) with
    | some i => some (.engineWrite c.id i false)
    | none => if mayComplete s c then some (.commandComplete c.id) else none

/-- The core after the current one, in cyclic order, that holds a strand. -/
def nextCore (s : State) : CoreId :=
  let l := s.others.filter fun e => e.2.mode != .vacant && e.1 != s.cur
  match l.find? fun e => s.cur.toNat < e.1.toNat with
  | some e => e.1
  | none => (l.head?.map (·.1)).getD s.cur

/-- Whether another core has a strand that runs a task. -/
def othersRun (s : State) : Bool :=
  s.others.any fun e => e.1 != s.cur && e.2.mode != .vacant && e.2.mode != .idle

/-- A wait: the instruction has not executed (R76); the device has a turn, and then the other cores. -/
def waitTurn (s : State) : State := { s with turns := s.turns ++ [.device], acted := true }

end Sys2Proof.Machine
end

