-- ==== Sys2Proof/Machine/Ops.lean ====
section
/-! DEFINITION. The named operations over registers, the taking of a trap and the return from one
(R373, R390), a strand's stop (R371), retirement with its end check (R67) and its debit (R322). -/

namespace Sys2Proof.Machine

/-- Read an integer register; g0 reads zero (R25). -/
def Strand.readG (t : Strand) (r : Reg) : Word := if r = 0 then 0 else t.g[r.toNat]'(r.isLt)
/-- Write an integer register; a write to g0 is discarded (R25). -/
def Strand.writeG (t : Strand) (r : Reg) (x : Word) : Strand :=
  if r = 0 then t else { t with g := t.g.set r.toNat x r.isLt }
def Strand.readF (t : Strand) (r : Reg) : Word := t.f[r.toNat]'(r.isLt)
def Strand.writeF (t : Strand) (r : Reg) (x : Word) : Strand := { t with f := t.f.set r.toNat x r.isLt }
/-- Read a guard predicate; p0 reads true (R25). -/
def Strand.readP (t : Strand) (p : BitVec 3) : Bool := p == 0 || t.p.getLsbD p.toNat
/-- Replace one bit of an 8-bit register. -/
def setBit8 (x : BitVec 8) (n : BitVec 3) (v : Bool) : BitVec 8 :=
  if v then x ||| (1#8 <<< n.toNat) else x &&& ~~~(1#8 <<< n.toNat)
/-- Write a guard predicate; a write to p0 is discarded (R25). -/
def Strand.writeP (t : Strand) (p : BitVec 3) (v : Bool) : Strand :=
  if p = 0 then t else { t with p := setBit8 t.p p v }
/-- Tile predicates likewise; z0 reads true. -/
def Strand.readZ (t : Strand) (z : BitVec 3) : Bool := z == 0 || t.z.getLsbD z.toNat
def Strand.writeZ (t : Strand) (z : BitVec 3) (v : Bool) : Strand :=
  if z = 0 then t else { t with z := setBit8 t.z z v }
def Strand.readV (t : Strand) (r : VReg) : Row := t.v[r.toNat]'(r.isLt)
def Strand.writeV (t : Strand) (r : VReg) (x : Row) : Strand := { t with v := t.v.set r.toNat x r.isLt }
def Strand.readM (t : Strand) (r : BitVec 3) : BitVec 128 := t.m[r.toNat]'(r.isLt)
def Strand.writeM (t : Strand) (r : BitVec 3) (x : BitVec 128) : Strand :=
  { t with m := t.m.set r.toNat x r.isLt }
def Strand.readQ (t : Strand) (q : BitVec 3) : Queue := t.q[q.toNat]'(q.isLt)
def Strand.writeQ (t : Strand) (q : BitVec 3) (x : Queue) : Strand := { t with q := t.q.set q.toNat x q.isLt }

/-- R37: whether a guard holds. -/
def guardHolds (g : Guard) (t : Strand) : Bool := t.readP g.pred != g.neg

/-- Bits of STATUS (R376). -/
def Strand.th (t : Strand) : Bool := bitOf t.status 0
def Strand.ev (t : Strand) : Bool := bitOf t.status 2
def Strand.setEv (t : Strand) : Strand := { t with status := t.status ||| 4 }
/-- The priority class of the current task (R304). -/
def Strand.cls (t : Strand) : BitVec 2 := BitVec.ofNat 2 t.prio.toNat

/-- Why a meaning stops short of retiring its instruction. -/
inductive Stop where
  /-- a trap with its cause code and TVAL (R372) -/
  | trap (code : BitVec 8) (tval : Word)
  /-- the instruction waits (R76) -/
  | wait
  /-- the instruction waits after a change that is not its own effect -/
  | waitIn (s : State)
  /-- a trap whose rule changes state as it is taken -/
  | trapIn (s : State) (code : BitVec 8) (tval : Word)

/-- The cause codes of R372. -/
def cILLEGAL : BitVec 8 := 0x01
def cALIGNMENT : BitVec 8 := 0x02
def cARITHMETIC : BitVec 8 := 0x03
def cTRAP : BitVec 8 := 0x04
def cTRANSLATION : BitVec 8 := 0x10
def cPERMISSION : BitVec 8 := 0x11
def cSHAPE : BitVec 8 := 0x12
def cRESIDENCY : BitVec 8 := 0x13
def cRELOCATION : BitVec 8 := 0x14
def cALLOCATION : BitVec 8 := 0x15
def cISOLATION : BitVec 8 := 0x16
def cPOISON : BitVec 8 := 0x17
def cWATCHDOG : BitVec 8 := 0x18
def cREMOTE : BitVec 8 := 0x19
def cSVC : BitVec 8 := 0x1A
def cREGLOST : BitVec 8 := 0x1B

abbrev M (α : Type) := Except Stop α
def trapM {α : Type} (code : BitVec 8) (tval : Word) : M α := .error (.trap code tval)
def waitM {α : Type} : M α := .error .wait
/-- A check of a rule: stop with the cause when it fails. -/
def need (ok : Bool) (code : BitVec 8) (tval : Word) : M Unit := if ok then .ok () else trapM code tval

/-- Whether a strand has matrix commands that have not completed. -/
def mxBusy (s : State) (k : CoreId) (img : Word) : Bool :=
  (clusterGet s (clusterOf k)).mx.pending.any fun c => c.strand == img
/-- R310: the earliest deadline among commands. -/
def earliestDue (l : List MxCmd) (d : Nat) : Nat := l.foldl (fun m c => Nat.min m c.due) d
/-- R311: a held group without the commands of a strand; the others keep their own deadlines. -/
def MxGroup.without (img : Word) (g : MxGroup) : MxGroup :=
  let left := g.members.filter fun c => c.strand != img
  match left with
  | [] => { g with members := [] }
  | c :: l => { g with members := left, deadline := earliestDue l c.due }
/-- R311: at a stop the strand's held commands leave their groups and each forms a ready group of its own; its queued
commands will do so as they are admitted. -/
def mxWithdraw (img : Word) (u : MxUnit) : MxUnit :=
  let held := u.groups.filter fun g => !g.ready
  let own := (held.flatMap (·.members)).filter fun c => c.strand == img
  let rest := (u.groups.map fun g => if g.ready then g else g.without img).filter fun g => g.members ≠ []
  let group (c : MxCmd) : MxGroup := ⟨[c], u.cycle, true⟩
  { u with
    groups := rest ++ own.map group
    queue := u.queue.map fun c => if c.strand = img then { c with alone := true } else c }
/-- R311: the groups that hold a command of the strand naming one of the accumulators are forced ready. -/
def mxForce (img : Word) (accs : List (BitVec 2)) (u : MxUnit) : MxUnit :=
  { u with groups := u.groups.map fun g =>
      if g.members.any fun c => c.strand == img && accs.contains c.acc then { g with ready := true } else g }
def withdraw (s : State) (k : CoreId) (img : Word) : State :=
  let c := clusterGet s (clusterOf k)
  clusterSet s (clusterOf k) { c with mx := mxWithdraw img c.mx }

/-- R114, R146, R148: wait for the strand's matrix commands that name one of the accumulators. -/
def waitAcc (s : State) (accs : List (BitVec 2)) : M Unit :=
  let c := clusterGet s (clusterOf s.cur)
  let img := s.core.strand.spillovf
  if c.mx.pending.any fun d => d.strand == img && accs.contains d.acc then
    .error (.waitIn (clusterSet s (clusterOf s.cur) { c with mx := mxForce img accs c.mx }))
  else .ok ()

/-- The current strand leaves its core (R371, R384): its deque parks (R292), its registers stay in its
image, and its windows and the core's own state stay behind. -/
def parkStrand (why : OffWhy) (s : State) : State :=
  let c := s.core
  let t := { c.strand with mxseq := if c.strand.mstep = 0 then 0 else 1, begun := false }
  let o : Off := ⟨tagOf t, s.cur, t, contBytes c.deque, c.fabase, c.ftop, c.mode == .idle, why, c.wdReq, none, 0⟩
  { s with
    core := { c with mode := .vacant, strand := Strand.zero, deque := [], wdReq := false, preReq := false }
    svc := { s.svc with off := s.svc.off ++ [o] } }

/-- R373: the registers a trap writes before it is delivered; the answer that stopped the instruction is used up. -/
def trapRegs (code : BitVec 8) (fetch svc : Bool) (tval : Word) (t : Strand) : Strand :=
  { t with
    epc := t.pc
    tval := tval
    cause := W (code.toNat + fetch.toNat * 2 ^ 8 + svc.toNat * 2 ^ 63)
    begun := false
    evicted := if code = cREGLOST then none else t.evicted
    peer := { t.peer with answer := none } }

/-- R373: whether a trap goes to the handler at TVEC. -/
def toHandler (code : BitVec 8) (t : Strand) : Bool := decide (code.toNat < 0x10) && t.tvec != 0 && !t.th

/-- R373: deliver a trap at the instruction at the pc. -/
def deliver (code : BitVec 8) (fetch : Bool) (tval : Word) (s : State) : State :=
  let t := s.core.strand
  if toHandler code t then
    let t := trapRegs code fetch false tval t
    strandSet s { t with status := t.status ||| 1, pc := t.tvec }
  else
    let s1 := strandSet s (trapRegs code fetch true tval t)
    if code = cWATCHDOG then
      parkStrand .trapped (machineCheck (tagOf t) kWatchdog (unitOfCore s.cur) 0 code.toNat
        { s1 with core := { s1.core with wdReq := false } })
    else parkStrand .trapped s1

/-- Take a trap. A stop waits until the strand's matrix commands have completed (R152) and its posted
stores are acknowledged, and a posted store that failed turns it into REMOTE (R264, R267). -/
def takeTrap (code : BitVec 8) (fetch : Bool) (tval : Word) (s : State) : State :=
  let t := s.core.strand
  if mxBusy s s.cur t.spillovf then waitTurn (withdraw s s.cur t.spillovf)
  else if t.peer.posted ≠ [] then waitTurn s
  else match t.peer.lost with
    | some a => deliver cREMOTE false a (strandSet s { t with peer := { t.peer with lost := none } })
    | none => deliver code fetch tval s

/-- R390: the return from a handler. -/
def returnFromTrap (t : Strand) : Strand := { t with status := t.status &&& ~~~(1 : Word), pc := t.epc }

/-- Whether a trap of the current strand can be delivered now. -/
def stopReady (s : State) : Bool :=
  let t := s.core.strand
  !mxBusy s s.cur t.spillovf && t.peer.posted == [] && t.peer.lost == none

/-- The outcome of a meaning's checks and effect. -/
def finish (s : State) (r : M State) : Outcome State :=
  match r with
  | .ok t => .next t
  | .error (.trap c v) => .next (takeTrap c false v s)
  | .error (.trapIn t c v) => .next (takeTrap c false v (if stopReady s then t else s))
  | .error .wait => .next (waitTurn s)
  | .error (.waitIn t) => .next (waitTurn t)

/-- The classes of cost of R322; an engine command's is counted in pieces of 4 KiB. -/
inductive Cost where
  | scalar | vector | tile | matrix
  | engine (pieces : Nat)
  deriving DecidableEq, Repr

/-- R322: the cost in units of 1/256 token at a converter ratio. -/
def Cost.units (c : Cost) (ratio : BitVec 2) : Nat :=
  let pick (a b d : Nat) : Nat := if ratio = 0 then a else if ratio = 1 then b else d
  match c with
  | .scalar => pick 4 2 1
  | .vector => pick 32 18 8
  | .tile => pick 64 36 16
  | .matrix => pick 2560 1440 640
  | .engine n => n * pick 256 144 64

/-- R323: tokens leave a store without taking it below zero. -/
def Power.spend (p : Power) (n : Nat) : Power := { p with store := BitVec.ofNat 16 (p.store.toNat - n) }
/-- R323: a core issues in the present cycle, or in the next one if it has issued in this. -/
def Power.issue (p : Power) (k : BitVec 3) : Power :=
  { p with issued := if p.issued.getLsbD k.toNat then 1#8 <<< k.toNat else p.issued ||| (1#8 <<< k.toNat) }
/-- R323: the store is empty and the core has issued in this cycle, so that its cluster is to sleep. -/
def Power.spent (p : Power) (k : BitVec 3) : Bool := p.store == 0 && p.issued.getLsbD k.toNat
/-- The current core has issued an instruction. -/
def noteIssue (s : State) : State :=
  let c := clusterOf s.cur
  { powerSet s c ((powerGet s c).issue (coreNo s.cur)) with acted := true }

/-- R322, R324: debit a core, charging a context. -/
def debitAt (k : CoreId) (t : Tag) (c : Cost) (s : State) : State :=
  let cl := clusterOf k
  let p := powerGet s cl
  let x := coreGet s k
  let f := x.debit.toNat + c.units p.ratio
  let s1 := coreSet s k { x with debit := BitVec.ofNat 8 f }
  if f / 256 = 0 then s1 else charge t 0 0 (f / 256) (powerSet s1 cl (p.spend (f / 256)))
/-- Debit the current core for an instruction of its strand. -/
def debit (c : Cost) (s : State) : State := debitAt s.cur (tagOf s.core.strand) c (noteIssue s)

/-- Insert a counter before the first whose body does not start above its own (R67). -/
def loopInsert (t : Strand) (k : Fin 3) : List (Fin 3) → List (Fin 3)
  | [] => [k]
  | j :: l => if (t.lbeg[j]).toNat ≤ (t.lbeg[k]).toNat then k :: j :: l else j :: loopInsert t k l
/-- R67: the counters whose bodies are active, in decreasing order of body start and then of number. -/
def loopOrder (t : Strand) : List (Fin 3) :=
  ([0, 1, 2] : List (Fin 3)).foldl (fun l k => if t.lact.getLsbD k.val then loopInsert t k l else l) []

/-- R67: whether the end check applies to a counter, for a retirement at `a` with next address `n`. -/
def loopHits (t : Strand) (k : Fin 3) (a n : Word) : Bool :=
  let e := t.lbeg[k] + W (4 * (t.llen[k]).toNat)
  decide ((t.lbeg[k]).toNat ≤ a.toNat) && decide (a.toNat < e.toNat) && n == e

/-- R67: the end check over the counters still to be examined. -/
def endCheck (a n : Word) : List (Fin 3) → Strand → Strand
  | [], t => { t with pc := n }
  | k :: ks, t =>
    if loopHits t k a n then
      let left := t.lcnt[k] - 1
      let t := { t with lcnt := t.lcnt.set k.val left k.isLt }
      if left ≠ 0 then { t with pc := t.lbeg[k] }
      else endCheck a n ks { t with lact := t.lact &&& ~~~(1#3 <<< k.val) }
    else endCheck a n ks t

/-- Retire an instruction of `n` bytes in sequence: the next address and the end check. -/
def Strand.advance (t : Strand) (n : Nat) : Strand := endCheck t.pc (t.pc + W n) (loopOrder t) t

/-- Retire the current instruction in sequence and debit it. -/
def retireBy (n : Nat) (c : Cost) (s : State) : State := debit c (strandSet s (s.core.strand.advance n))
def retire (c : Cost) (s : State) : State := retireBy 4 c s
def retireLong (c : Cost) (s : State) : State := retireBy 8 c s
/-- Retire a long instruction that has paid for its commands or has enqueued none (R322). -/
def retireFree (s : State) : State := noteIssue (strandSet s (s.core.strand.advance 8))
/-- A taken control transfer runs no end check (R67). -/
def jumpTo (a : Word) (c : Cost) (s : State) : State := debit c (strandSet s { s.core.strand with pc := a })

/-- Retire with a strand changed by the instruction. -/
def retireWith (c : Cost) (s : State) (t : Strand) : State := retire c (strandSet s t)

/-- The address of the fetch block of an address, and of the next one (R32, R38). -/
def blockOf (a : Word) : Word := a &&& ~~~(63 : Word)
def nextBlock (a : Word) : Word := blockOf a + 64
/-- R38: the target of a displacement in fetch blocks. -/
def blockTarget (a : Word) (d : BitVec 22) : Word := blockOf a + d.signExtend 64 * 64

/-- A queue with an entry appended (R75). -/
def Queue.push (q : Queue) (x : Word) : Queue :=
  let i := q.head + BitVec.ofNat 4 q.count.toNat
  { q with count := q.count + 1, slots := q.slots.set i.toNat x i.isLt }
/-- The oldest entry, and the queue without it. -/
def Queue.oldest (q : Queue) : Word := q.slots[q.head.toNat]'(q.head.isLt)
def Queue.pop (q : Queue) : Queue := { q with head := q.head + 1, count := q.count - 1 }

/-- R149, R234: a token goes to every queue of the strand bound with the kind; R391 sets EV. -/
def postToken (kind : Nat) (token : Word) (t : Strand) : Strand :=
  if t.q.toList.any fun (q : Queue) => q.kind == kind then
    { t with q := Vector.ofFn fun i => if (t.q[i]).kind = kind then (t.q[i]).push token else t.q[i] }.setEv
  else t

end Sys2Proof.Machine
end

