-- ==== Sys2Proof/Machine/Energy.lean ====
section
/-! DEFINITION. The injection of tokens and their exchange between neighbours (R325, R326), and the end of a
converter stall (R327). -/

namespace Sys2Proof.Machine

/-- R10: whether two mesh positions of a die are neighbours in its 5 by 4 mesh. -/
def meshNear (p q : Nat) : Bool :=
  (p / 5 == q / 5 && (p % 5 + 1 == q % 5 || q % 5 + 1 == p % 5)) || (p % 5 == q % 5 && (p / 5 + 1 == q / 5 || q / 5 + 1 == p / 5))
/-- R325: a store with tokens added. -/
def addTokens (x n : Nat) : Nat := Nat.min 65535 (x + n)

/-- R325 step 3: what the cluster of a snapshot gives to each neighbour that is short. -/
def sharePer (hi lo : Nat) (snap : List (Nat × Nat)) (i : Nat × Nat) : Nat :=
  let n := (snap.filter fun j => meshNear i.1 j.1 && decide (j.2 < lo)).length
  if n = 0 then 0 else (i.2 - hi) / n
/-- R325: the stores of a die's clusters, each with its mesh position, after the exchange. -/
def exchange (hi lo : Nat) (snap : List (Nat × Nat)) : List Nat :=
  snap.map fun i =>
    let short := (snap.filter fun j => meshNear i.1 j.1 && decide (j.2 < lo)).length
    let given := sharePer hi lo snap i * short
    let got := if i.2 < lo then
        ((snap.filter fun j => meshNear i.1 j.1).map fun j => sharePer hi lo snap j).sum else 0
    addTokens (i.2 - given) got

/-- R323: a store after an injection. One that was empty had put its cluster to sleep; one of 256 or more wakes it, and a
cluster that wakes begins a cycle. -/
def Power.refilled (p : Power) (n : Nat) : Power :=
  let sleeps := p.asleep || p.store == 0
  { p with
    store := BitVec.ofNat 16 n
    asleep := sleeps && decide (n < 256)
    issued := if sleeps && decide (256 ≤ n) then 0 else p.issued }
/-- R325, R415: the budget of a die in force, under the package's cap if there is one. -/
def tokensOf (s : State) (d : DieId) : Nat :=
  let n := (s.pkg.budget[d.toNat]).tokens
  if s.pkg.capWatts = 0 then n else Config.capBudget s.pkg.capWatts d n
/-- R325, R323: the injection and exchange of one die; a store of 256 or more wakes its cluster. -/
def injectDie (s : State) (d : DieId) : State :=
  let pos := s.pkg.mesh[d.toNat]
  let b := s.pkg.budget[d.toNat]
  let n := pos.length
  let stores := (List.range n).map fun i => (powerGet s (mkCluster d i)).store.toNat
  let more := if n = 0 then 0 else Nat.max 64 (tokensOf s d / n)
  let snap := pos.zip (stores.map fun x => addTokens x more)
  let out := exchange b.high b.low snap
  ((List.range n).zip out).foldl (fun s e =>
    let c := mkCluster d e.1
    let p := powerGet s c
    powerSet s c (p.refilled e.2)) s

/-- R325: the actions of a tick of TIME that is a multiple of 100, once. -/
def injectDue (s : State) : State :=
  if s.pkg.time % 100 = 0 ∧ !s.pkg.injected then
    let s1 := ((List.range 8).map (BitVec.ofNat 3)).foldl injectDie s
    { s1 with pkg := { s1.pkg with injected := true } }
  else s
def execTokenInjection (s : State) : Outcome State := .next (injectDue s)

/-- R327: a stall that has lasted its time ends. -/
def execStallEnd (c : ClusterId) (s : State) : Outcome State :=
  let p := powerGet s c
  if p.stall.any (· ≤ s.pkg.time) then .next (powerSet s c { p with stall := none }) else .next s

end Sys2Proof.Machine
end

