-- ==== Sys2Proof/Machine/Fp.lean ====
section
/-! DEFINITION. Floating-point formats and their exact arithmetic (R80 to R94, R108 to R111, R130 to
R132): a code is decoded to an exact value, the operation is exact, and one rounding gives the result. -/

namespace Sys2Proof.Machine

/-- R80: a format by the widths of its fields, its bias, and whether it is E4M3. -/
structure Fmt where
  ebits : Nat
  mbits : Nat
  bias : Nat
  e4m3 : Bool
  deriving DecidableEq, Repr

def fp64 : Fmt := ⟨11, 52, 1023, false⟩
def fp32 : Fmt := ⟨8, 23, 127, false⟩
def fp16 : Fmt := ⟨5, 10, 15, false⟩
def bf16 : Fmt := ⟨8, 7, 127, false⟩
def fe4m3 : Fmt := ⟨4, 3, 7, true⟩
def fe5m2 : Fmt := ⟨5, 2, 15, false⟩

/-- R40: the scalar format of a code. -/
def fmtOf (t : BitVec 2) : Fmt := if t = 0 then fp64 else if t = 1 then fp32 else if t = 2 then fp16 else bf16
def Fmt.width (f : Fmt) : Nat := 1 + f.ebits + f.mbits

/-- The value of a code: NaN marked signalling or not, an infinity, or (−1)^neg × m × 2^e. -/
inductive Fp where
  | nan (signalling : Bool)
  | inf (neg : Bool)
  | fin (neg : Bool) (m : Nat) (e : Int)
  deriving DecidableEq, Repr

/-- The conditions of an instruction in the bit order of VSTAT (R98, R99). -/
abbrev Conds := BitVec 7
def cNX : Conds := 1
def cUF : Conds := 2
def cOF : Conds := 4
def cDZ : Conds := 8
def cNV : Conds := 16
def cSAT : Conds := 32
def cTERN : Conds := 64
def condIf (b : Bool) (c : Conds) : Conds := if b then c else 0

/-- R88: the rounding modes. -/
inductive Rnd where
  | rne | rtz | rdn | rup
  deriving DecidableEq, Repr
/-- R40, R89: the mode of an rm field, with FCSR.RM for the dynamic code. -/
def rndOf (rm : BitVec 3) (fcsr : Word) : Rnd :=
  let c := if rm = 7 then slice fcsr 16 2 else rm.toNat % 4
  if c = 0 then .rne else if c = 1 then .rtz else if c = 2 then .rdn else .rup

/-- R82: the canonical NaN. -/
def Fmt.canon (f : Fmt) : Nat :=
  if f.e4m3 then 0x7F else (2 ^ f.ebits - 1) * 2 ^ f.mbits + 2 ^ (f.mbits - 1)
def Fmt.sign (f : Fmt) (neg : Bool) : Nat := neg.toNat * 2 ^ (f.ebits + f.mbits)
def Fmt.infCode (f : Fmt) (neg : Bool) : Nat := f.sign neg + (2 ^ f.ebits - 1) * 2 ^ f.mbits
/-- R80: the code of the largest finite magnitude. -/
def Fmt.maxCode (f : Fmt) (neg : Bool) : Nat :=
  f.sign neg + (if f.e4m3 then 0x7E else (2 ^ f.ebits - 1) * 2 ^ f.mbits - 1)

/-- R80, R81: the value of a code. -/
def decode (f : Fmt) (x : Nat) : Fp :=
  let frac := x % 2 ^ f.mbits
  let e := x / 2 ^ f.mbits % 2 ^ f.ebits
  let neg := x / 2 ^ (f.mbits + f.ebits) % 2 == 1
  if f.e4m3 then
    if e = 15 ∧ frac = 7 then .nan false
    else if e = 0 then .fin neg frac (1 - (f.bias : Int) - f.mbits)
    else .fin neg (2 ^ f.mbits + frac) ((e : Int) - f.bias - f.mbits)
  else if e = 2 ^ f.ebits - 1 then
    if frac = 0 then .inf neg else .nan (frac < 2 ^ (f.mbits - 1))
  else if e = 0 then .fin neg frac (1 - (f.bias : Int) - f.mbits)
  else .fin neg (2 ^ f.mbits + frac) ((e : Int) - f.bias - f.mbits)

def Fp.isNan : Fp → Bool
  | .nan _ => true
  | _ => false
def Fp.isSig : Fp → Bool
  | .nan s => s
  | _ => false
def Fp.neg : Fp → Fp
  | .nan s => .nan s
  | .inf n => .inf (!n)
  | .fin n m e => .fin (!n) m e

/-- The length of a number in bits. -/
def bitLen (m : Nat) : Nat := if m = 0 then 0 else Nat.log2 m + 1

/-- R88: a magnitude divided by 2^sh and rounded; whether it was inexact. -/
def roundShift (rnd : Rnd) (neg : Bool) (m : Nat) (sh : Int) : Nat × Bool :=
  if sh ≤ 0 then (m * 2 ^ (-sh).toNat, false)
  else
    let k := min sh.toNat (bitLen m + 2)
    let q := m / 2 ^ k
    let r := m % 2 ^ k
    let half := 2 ^ (k - 1)
    let up : Bool := match rnd with
      | .rne => decide (half < r) || (r == half && q % 2 == 1)
      | .rtz => false
      | .rdn => neg && r != 0
      | .rup => !neg && r != 0
    (q + up.toNat, r != 0)

/-- R90: what overflow delivers. -/
def overflowCode (f : Fmt) (rnd : Rnd) (neg : Bool) : Nat :=
  if f.e4m3 then f.maxCode neg
  else match rnd with
    | .rne => f.infCode neg
    | .rtz => f.maxCode neg
    | .rdn => if neg then f.infCode neg else f.maxCode neg
    | .rup => if neg then f.maxCode neg else f.infCode neg

/-- R88, R90, R91: the code of (−1)^neg × m × 2^e for a nonzero m, and the conditions. -/
def roundMag (f : Fmt) (rnd : Rnd) (neg : Bool) (m : Nat) (e : Int) : Nat × Conds :=
  let p : Int := f.mbits + 1
  let top : Int := e + bitLen m
  let emin : Int := 1 - (f.bias : Int)
  let q : Int := max (top - p) (emin - f.mbits)
  let (n, inexact) := roundShift rnd neg m (q - e)
  let (n, q) := if n = 2 ^ (f.mbits + 1) then (2 ^ f.mbits, q + 1) else (n, q)
  let ef : Int := if n < 2 ^ f.mbits then 0 else q + f.mbits + f.bias
  let maxE : Int := if f.e4m3 then 15 else 2 ^ f.ebits - 2
  let past : Bool := decide (maxE < ef) || (f.e4m3 && ef == 15 && n == 2 ^ (f.mbits + 1) - 1)
  if past then (overflowCode f rnd neg, cOF ||| cNX)
  else
    let free := (roundShift rnd neg m (top - p - e)).1
    let tiny : Bool := decide (top - 1 < emin - 1) || (top - 1 == emin - 1 && free != 2 ^ (f.mbits + 1))
    (f.sign neg + ef.toNat * 2 ^ f.mbits + n % 2 ^ f.mbits,
      condIf inexact cNX ||| condIf (tiny && inexact) cUF)

/-- Round(x, fmt, rm) of R102 for an exact value; NaN gives the canonical NaN. -/
def roundFp (f : Fmt) (rnd : Rnd) : Fp → Nat × Conds
  | .nan _ => (f.canon, 0)
  | .inf n => if f.e4m3 then (f.canon, cNV) else (f.infCode n, 0)
  | .fin n m e => if m = 0 then (f.sign n, 0) else roundMag f rnd n m e

/-- The exact sum of two finite values; R92 gives the sign of an exact zero. -/
def addFin (rnd : Rnd) (n1 : Bool) (m1 : Nat) (e1 : Int) (n2 : Bool) (m2 : Nat) (e2 : Int) : Fp :=
  let e := min e1 e2
  let a : Int := (m1 * 2 ^ (e1 - e).toNat : Nat)
  let b : Int := (m2 * 2 ^ (e2 - e).toNat : Nat)
  let v := (if n1 then -a else a) + (if n2 then -b else b)
  if v = 0 then .fin (if n1 = n2 then n1 else rnd == .rdn) 0 e
  else .fin (decide (v < 0)) v.natAbs e

/-- The exact sum of two values and whether the addition is invalid (R93). -/
def addFp (rnd : Rnd) : Fp → Fp → Fp × Bool
  | .nan _, _ => (.nan false, false)
  | _, .nan _ => (.nan false, false)
  | .inf a, .inf b => if a = b then (.inf a, false) else (.nan false, true)
  | .inf a, _ => (.inf a, false)
  | _, .inf b => (.inf b, false)
  | .fin n1 m1 e1, .fin n2 m2 e2 => (addFin rnd n1 m1 e1 n2 m2 e2, false)

/-- The exact product and whether it is invalid (R93). -/
def mulFp : Fp → Fp → Fp × Bool
  | .nan _, _ => (.nan false, false)
  | _, .nan _ => (.nan false, false)
  | .inf a, .inf b => (.inf (a != b), false)
  | .inf a, .fin n m _ => if m = 0 then (.nan false, true) else (.inf (a != n), false)
  | .fin n m _, .inf b => if m = 0 then (.nan false, true) else (.inf (n != b), false)
  | .fin n1 m1 e1, .fin n2 m2 e2 => (.fin (n1 != n2) (m1 * m2) (e1 + e2), false)

abbrev FRes := Nat × Conds

/-- R93: signalling operands and invalid operations set NV beside the rounding's conditions. -/
def withNV (r : FRes) (nv : Bool) : FRes := (r.1, r.2 ||| condIf nv cNV)

def fpAdd (f : Fmt) (rnd : Rnd) (a b : Fp) : FRes :=
  let (x, bad) := addFp rnd a b
  withNV (roundFp f rnd x) (bad || a.isSig || b.isSig)
def fpSub (f : Fmt) (rnd : Rnd) (a b : Fp) : FRes := fpAdd f rnd a b.neg
def fpMul (f : Fmt) (rnd : Rnd) (a b : Fp) : FRes :=
  let (x, bad) := mulFp a b
  withNV (roundFp f rnd x) (bad || a.isSig || b.isSig)

/-- R109: (−1)^N × a × b + c, rounded once. -/
def fpFma (f : Fmt) (rnd : Rnd) (neg : Bool) (a b c : Fp) : FRes :=
  let (p, bad) := mulFp a b
  let (x, bad2) := addFp rnd (if neg then p.neg else p) c
  withNV (roundFp f rnd x) (bad || bad2 || a.isSig || b.isSig || c.isSig)

/-- A value between two neighbours of a fine grid: the grid value with a half added when inexact. -/
def sticky (neg : Bool) (q : Nat) (inexact : Bool) (e : Int) : Fp := .fin neg (2 * q + inexact.toNat) (e - 1)

def fpDiv (f : Fmt) (rnd : Rnd) (a b : Fp) : FRes :=
  match a, b with
  | .nan s, y => (f.canon, condIf (s || y.isSig) cNV)
  | x, .nan s => (f.canon, condIf (s || x.isSig) cNV)
  | .inf _, .inf _ => (f.canon, cNV)
  | .inf n, .fin k _ _ => (f.infCode (n != k), 0)
  | .fin n _ _, .inf k => (f.sign (n != k), 0)
  | .fin n m e, .fin k d g =>
    if d = 0 then (if m = 0 then (f.canon, cNV) else (f.infCode (n != k), cDZ))
    else if m = 0 then (f.sign (n != k), 0)
    else
      let sh := f.mbits + 4 + bitLen d
      let x := m * 2 ^ sh
      roundFp f rnd (sticky (n != k) (x / d) (x % d != 0) (e - g - sh))

/-- Newton's iteration for the integer square root, from above. -/
def sqrtLoop (n : Nat) : Nat → Nat → Nat
  | 0, x => x
  | fuel + 1, x =>
    let y := (x + n / x) / 2
    if x ≤ y then x else sqrtLoop n fuel y
def isqrt (n : Nat) : Nat := if n = 0 then 0 else sqrtLoop n (bitLen n + 8) (2 ^ (bitLen n / 2 + 1))

def fpSqrt (f : Fmt) (rnd : Rnd) (a : Fp) : FRes :=
  match a with
  | .nan s => (f.canon, condIf s cNV)
  | .inf n => if n then (f.canon, cNV) else (f.infCode false, 0)
  | .fin n m e =>
    if m = 0 then (f.sign n, 0)
    else if n then (f.canon, cNV)
    else
      let sh := 2 * f.mbits + 6 + (if (e - (2 * f.mbits + 6 : Nat)) % 2 = 0 then 0 else 1)
      let x := m * 2 ^ sh
      let r := isqrt x
      roundFp f rnd (sticky false r (r * r != x) ((e - sh) / 2))

/-- The order of two values that are not NaN, −0 and +0 equal: a < b. -/
def ltFp (a b : Fp) : Bool :=
  match a, b with
  | .inf n, .inf k => n && !k
  | .inf n, .fin .. => n
  | .fin .., .inf k => !k
  | .fin n m e, .fin k d g =>
    let lo := min e g
    let x : Int := (m * 2 ^ (e - lo).toNat : Nat)
    let y : Int := (d * 2 ^ (g - lo).toNat : Nat)
    decide ((if n then -x else x) < (if k then -y else y))
  | _, _ => false
def eqFp (a b : Fp) : Bool := !a.isNan && !b.isNan && !ltFp a b && !ltFp b a
def Fp.signBit : Fp → Bool
  | .nan _ => false
  | .inf n => n
  | .fin n _ _ => n

/-- R108: the minimum or maximum, bits copied from the chosen operand. -/
def fpMinMax (f : Fmt) (isMax : Bool) (xa xb : Nat) : FRes :=
  let a := decode f xa
  let b := decode f xb
  let nv := condIf (a.isSig || b.isSig) cNV
  if a.isNan && b.isNan then (f.canon, nv)
  else if a.isNan then (xb, nv)
  else if b.isNan then (xa, nv)
  else
    let below : Bool := ltFp a b || (eqFp a b && a.signBit && !b.signBit)
    (if below != isMax then xa else xb, nv)

/-- R110, R118: the truth of a compare and whether it sets NV; codes eq, lt, le, un, ne. -/
def fpCompare (c : Nat) (a b : Fp) : Bool × Bool :=
  let nan := a.isNan || b.isNan
  let sig := a.isSig || b.isSig
  if c = 0 then (eqFp a b, sig)
  else if c = 1 then (!nan && ltFp a b, nan)
  else if c = 2 then (!nan && !ltFp b a, nan)
  else if c = 3 then (nan, sig)
  else (!eqFp a b, sig)

/-- R110: the class bit of a code. -/
def fpClass (f : Fmt) (x : Nat) : Nat :=
  match decode f x with
  | .nan s => if s then 512 else 256
  | .inf n => if n then 128 else 64
  | .fin n m _ =>
    if m = 0 then (if n then 2 else 1)
    else if m < 2 ^ f.mbits then (if n then 8 else 4)
    else (if n then 32 else 16)

/-- R94: conversion between floating-point formats. -/
def fpConvert (dst : Fmt) (rnd : Rnd) (a : Fp) : FRes := withNV (roundFp dst rnd a) a.isSig

/-- R94: a value rounded to an integer under a mode; whether it was inexact. -/
def roundInt (rnd : Rnd) (neg : Bool) (m : Nat) (e : Int) : Int × Bool :=
  let (q, x) := roundShift rnd neg m (-e)
  ((if neg then -(q : Int) else q), x)
/-- R94: conversion to an integer type with limits `lo` and `hi`. -/
def fpToInt (lo hi : Int) (rnd : Rnd) (a : Fp) : Int × Conds :=
  match a with
  | .nan _ => (0, cNV)
  | .inf n => (if n then lo else hi, cNV)
  | .fin n m e =>
    if 80 ≤ e ∧ m ≠ 0 then (if n then lo else hi, cNV)
    else
      let (v, x) := roundInt rnd n m e
      if v < lo then (lo, cNV) else if hi < v then (hi, cNV) else (v, condIf x cNX)
/-- R94: conversion of an integer. -/
def intToFp (f : Fmt) (rnd : Rnd) (v : Int) : FRes := roundFp f rnd (.fin (decide (v < 0)) v.natAbs 0)

/-- The number of fraction bits of the special functions' fixed-point values. -/
def fixBits : Nat := 320
/-- 2^(0.b1 b2 …) in fixed point: `root` is 2^(2^-i) for the next bit; `b` holds `n` fraction bits. -/
def exp2Frac : Nat → Nat → Nat → Nat → Nat
  | 0, _, _, acc => acc
  | n + 1, b, root, acc =>
    let acc := if b / 2 ^ n % 2 = 1 then acc * root / 2 ^ fixBits else acc
    exp2Frac n b (isqrt (root * 2 ^ fixBits)) acc

/-- R130: VEXP2. Only integers have an exact power. -/
def fpExp2 (f : Fmt) (a : Fp) : FRes :=
  match a with
  | .nan s => (f.canon, condIf s cNV)
  | .inf n => (if n then f.sign false else f.infCode false, 0)
  | .fin n m e =>
    if m = 0 then roundFp f .rne (.fin false 1 0)
    else if 12 < e + bitLen m then
      roundFp f .rne (if n then .fin false 1 (-5000) else .fin false 1 5000)
    else if 0 ≤ e then
      let k : Int := (m * 2 ^ e.toNat : Nat)
      roundFp f .rne (.fin false 1 (if n then -k else k))
    else
      let fb := (-e).toNat
      let x : Int := if n then -(m : Int) else m
      let k := x / 2 ^ fb
      let frac := (x % 2 ^ fb).toNat
      if frac = 0 then roundFp f .rne (.fin false 1 k)
      else
        let r := exp2Frac fb frac (isqrt (2 * 2 ^ fixBits * 2 ^ fixBits)) (2 ^ fixBits)
        roundFp f .rne (sticky false r true (k - fixBits))

/-- The bits of log₂ of a fixed-point number in [1, 2), most significant first. -/
def log2Frac : Nat → Nat → Nat → Nat
  | 0, _, acc => acc
  | n + 1, y, acc =>
    let z := y * y / 2 ^ fixBits
    if 2 * 2 ^ fixBits ≤ z then log2Frac n (z / 2) (2 * acc + 1) else log2Frac n z (2 * acc)
/-- Remove the factors of two of a number. -/
def stripTwos : Nat → Nat → Int → Nat × Int
  | 0, m, e => (m, e)
  | fuel + 1, m, e => if m % 2 = 0 then stripTwos fuel (m / 2) (e + 1) else (m, e)

/-- R130: VLOG2. Only powers of two have an exact logarithm. -/
def fpLog2 (f : Fmt) (a : Fp) : FRes :=
  match a with
  | .nan s => (f.canon, condIf s cNV)
  | .inf n => if n then (f.canon, cNV) else (f.infCode false, 0)
  | .fin n m e =>
    if m = 0 then (f.infCode true, cDZ)
    else if n then (f.canon, cNV)
    else
      let k : Int := e + bitLen m - 1
      if m = 2 ^ (bitLen m - 1) then roundFp f .rne (.fin (decide (k < 0)) k.natAbs 0)
      else
        let l := log2Frac 130 (m * 2 ^ fixBits / 2 ^ (bitLen m - 1)) 0
        let r : Int := k * 2 ^ 130 + l
        roundFp f .rne (if 0 ≤ r then .fin false (2 * r.toNat + 1) (-131) else .fin true (2 * r.natAbs - 1) (-131))

/-- R130: VRCP. -/
def fpRcp (f : Fmt) (a : Fp) : FRes := fpDiv f .rne (.fin false 1 0) a
/-- R130: VRSQ. Only even powers of two have an exact reciprocal square root. -/
def fpRsq (f : Fmt) (a : Fp) : FRes :=
  match a with
  | .nan s => (f.canon, condIf s cNV)
  | .inf n => if n then (f.canon, cNV) else (f.sign false, 0)
  | .fin n m e =>
    if m = 0 then (f.infCode n, cDZ)
    else if n then (f.canon, cNV)
    else
      let (m, e) := stripTwos (bitLen m) m e
      let (m, e) := if e % 2 = 0 then (m, e) else (2 * m, e - 1)
      if m = 1 then roundFp f .rne (.fin false 1 (-(e / 2)))
      else
        let k := bitLen m + 80
        roundFp f .rne (sticky false (isqrt (2 ^ (2 * k) / m)) true (-(e / 2) - k))

/-- R132: x × 2ⁿ, rounded once. An exponent past every format's range is held at a bound that rounds alike. -/
def fpScale (f : Fmt) (a : Fp) (n : Int) : FRes :=
  match a with
  | .fin s m e => roundFp f .rne (.fin s m (e + satInt (-10000) 10000 n))
  | x => withNV (roundFp f .rne x) x.isSig

/-- R131: the integer ceiling of a finite value. -/
def ceilFp (n : Bool) (m : Nat) (e : Int) : Int := (roundInt .rup n m e).1

end Sys2Proof.Machine
end

