-- ==== Sys2Proof/WellFormed.lean ====
section
/-! DEFINITION. Which instructions have an encoding: the field values that R40 and the sub-maps R42
to R47 mark illegal are refused here (R49 row 4). A value whose legality depends on the element type
or on a register is not an encoding matter and is checked when the instruction executes (row 6). -/

namespace Sys2Proof

/-- R40: agent scope codes 0b101 to 0b111 and storage scope 0b11 are illegal (R11). -/
def Scope.wf (s : Scope) : Bool := s.agent.toNat ≤ 4 && s.store != 3

/-- R40: the rounding codes 0b100 to 0b110 are illegal. -/
def rmOk (r : BitVec 3) : Bool := r.toNat ≤ 3 || r == 7

/-- R111: the conversion-type codes from 0b100 upward are the integer types. -/
def cvtIsInt (t : BitVec 3) : Bool := 4 ≤ t.toNat

/-- R47: the integer pairs. -/
def pairIsInt (p : BitVec 4) : Bool := p == 6 || p == 7 || p == 0xA
/-- R47: the pairs whose B operand is CB4. -/
def pairIsCb (p : BitVec 4) : Bool := p == 8 || p == 9

/-- R47, R138, R143 stage 1: the fields of a matrix instruction. -/
def MatOp.wf (x : MatOp) : Bool :=
  x.pair.toNat ≤ 0xA && (pairIsCb x.pair || x.cb == 0)
    && (pairIsInt x.pair || (!x.sa && !x.sb && !x.sat)) && (!pairIsInt x.pair || x.s == 0)

/-- R47: HINT 0b11 is illegal. -/
def EngMode.wf (h : EngMode) : Bool := h.hint != 3

/-- The instruction's field values are ones the encoding map assigns. -/
def Instr.wf : Instr → Bool
  | .extr _ _ _ p l | .ins _ _ p l => p.toNat + l.toNat ≤ 63
  | .fadd _ _ _ _ r | .fsub _ _ _ _ r | .fmul _ _ _ _ r | .fdiv _ _ _ _ r => rmOk r
  | .fsqrt _ _ _ r => rmOk r
  | .fcmp _ _ _ _ c => c.toNat ≤ 4
  | .fcvt _ _ r d s => rmOk r && !(cvtIsInt d && cvtIsInt s)
  | .ffma _ _ _ _ _ r _ => rmOk r
  | .fld _ _ s _ => s.toNat ≤ 2
  | .ld _ _ s _ => s != 7
  | .fst _ _ _ w _ => w != 3
  | .ldc _ _ _ f s => s != 7 && (!f || (1 ≤ s.toNat && s.toNat ≤ 3))
  | .stc _ _ _ _ f w => !f || w != 0
  | .cmp _ _ _ c => c.toNat ≤ 7
  | .cmpi _ _ _ c => c.toNat ≤ 7
  | .loop k _ _ => k != 3
  | .orderedLoad _ _ s sc _ => s != 7 && sc.wf
  | .fence sc o => sc.wf && o != 0
  | .orderedStore _ _ _ _ sc _ => sc.wf
  | .amoSwap _ _ _ _ _ sc | .amoAdd _ _ _ _ _ sc | .amoAnd _ _ _ _ _ sc | .amoOr _ _ _ _ _ sc
  | .amoXor _ _ _ _ _ sc | .amoMin _ _ _ _ _ sc | .amoMax _ _ _ _ _ sc | .amoMinu _ _ _ _ _ sc
  | .amoMaxu _ _ _ _ _ sc | .amoFadd _ _ _ _ _ sc => sc.wf
  | .cas _ _ _ _ _ _ sc => sc.wf
  | .vcmp _ _ _ _ c => c != 7
  | .vcvt _ _ _ r | .vcvtToE4m3 _ _ _ r | .vcvtToE5m2 _ _ _ r | .vcvtFromE4m3 _ _ _ r
  | .vcvtFromE5m2 _ _ _ r => rmOk r
  | .vld _ _ _ e => e != 3
  | .vst _ _ _ _ e => e.toNat ≤ 1
  | .vtunpk _ _ i => i.toNat ≤ 4
  | .tcfg _ t => t.toNat ≤ 5
  | .tztest _ _ s => s.toNat ≤ 1
  | .twait m => m != 0
  | .tmma x => x.wf && x.steps == 0
  | .tmmak x => x.wf
  | .fenter _ s => s != 0
  | .csrw _ n => n != 0x004 && n != 0x0C8
  | .oseta _ _ c => c != 3
  | .logrdRead d _ _ | .logrdStatus d _ _ | .logrdRetire d _ _ | .logrdReset d _ _ => d != 0
  | .cpy h _ _ _ _ _ => h.wf
  | .cpyt h _ _ _ _ => h.wf
  | .cpyr h _ _ _ _ => h.wf
  | .wbind h _ _ _ _ => h.wf
  | .gather h _ _ _ _ _ _ | .scatter h _ _ _ _ _ _ => h.wf
  | .rwait _ _ _ sc | .bara _ _ _ sc => sc.wf
  | .rrel _ _ sc | .cwait _ _ sc | .barw _ _ sc => sc.wf
  | _ => true

/-- A row of the table that no instruction word encodes: a step of an engine, a unit, the service or
the outside world. -/
def Instr.isEvent : Instr → Bool
  | .engineWrite .. | .commandComplete .. | .thatchAdmission .. | .groupDeadline .. | .matrixIssue ..
  | .issueEnd .. | .stealRound .. | .continuationResume .. | .preemption .. | .migration ..
  | .resumption .. | .pendingSlot .. | .registerLineFill .. | .watchdogStop .. | .watchdogRecord ..
  | .tokenInjection | .stallEnd .. | .bulkWr .. | .bulkRd .. | .flag .. | .ord .. | .syncClass .. | .don ..
  | .peerAnswer .. | .discardedPacket .. | .remoteTimeout .. | .lineEviction .. | .snoop .. | .flitReplay ..
  | .replayExhausted .. | .laneGroupMapout .. | .recoveryTimeout .. | .patrolScrub .. | .mapOut ..
  | .mirrorRestore .. | .lockstepMismatch | .flashing | .warningWithdrawn | .supplyReturn
  | .auxRailExpiry | .boot | .create .. | .define .. | .load .. | .launch .. | .importPeer .. | .donsetup ..
  | .query .. | .attest .. | .resume .. | .endCtx .. | .partition .. | .timeout .. | .budget .. | .clock ..
  | .diestate .. | .port .. | .svcEnd .. | .report .. | .refill .. | .powerCap .. | .illegalInstruction ..
  | .fetchFault .. | .tickEdge | .holdUpEnd | .objectRelocation .. | .tileFree .. | .residencyChange .. => true
  | .nop | .yield | .hbeat | .add .. | .sub .. | .mul .. | .mulh .. | .mulhu .. | .div .. | .divu ..
  | .rem .. | .remu .. | .and .. | .or .. | .xor .. | .sll .. | .srl .. | .sra .. | .min .. | .max ..
  | .minu .. | .maxu .. | .clz .. | .ctz .. | .popc .. | .addi .. | .andi .. | .ori .. | .xori .. | .slli ..
  | .srli .. | .srai .. | .lui .. | .extr .. | .ins .. | .fadd .. | .fsub .. | .fmul .. | .fdiv ..
  | .fsqrt .. | .fmin .. | .fmax .. | .fclass .. | .fmvgf .. | .fmvfg .. | .fcmp .. | .fcvt .. | .ffma ..
  | .fld .. | .ld .. | .st .. | .fst .. | .ldc .. | .stc .. | .b .. | .call .. | .jr .. | .ret .. | .sel ..
  | .cmp .. | .cmpi .. | .loop .. | .orderedLoad .. | .fence .. | .orderedStore .. | .amoSwap ..
  | .amoAdd .. | .amoAnd .. | .amoOr .. | .amoXor .. | .amoMin .. | .amoMax .. | .amoMinu .. | .amoMaxu ..
  | .amoFadd .. | .cas .. | .vadd .. | .vsub .. | .vmul .. | .vfma .. | .vmin .. | .vmax .. | .vabs ..
  | .vneg .. | .vand .. | .vor .. | .vxor .. | .vnot .. | .vsll .. | .vsrl .. | .vsra .. | .vslli ..
  | .vsrli .. | .vsrai .. | .vcmp .. | .vsel .. | .vcvt .. | .vcvtToE4m3 .. | .vcvtToE5m2 ..
  | .vcvtFromE4m3 .. | .vcvtFromE5m2 .. | .vredSum .. | .vredMax .. | .vredMin .. | .vperm .. | .vbcastG ..
  | .vbcastF .. | .vld .. | .vlds .. | .vst .. | .vexp2 .. | .vlog2 .. | .vrcp .. | .vrsq .. | .vemax ..
  | .vscl2 .. | .vtunpk .. | .vtacc .. | .vwid .. | .vwidu .. | .vstatr .. | .mand .. | .mor .. | .mxor ..
  | .mnot .. | .qbind .. | .qput .. | .qget .. | .qcnt .. | .tcfg .. | .tzero .. | .tztest .. | .twait ..
  | .cbld .. | .tld .. | .tst .. | .tmma .. | .tmmak .. | .fenter .. | .fleave | .ftile .. | .fpub | .tret
  | .sync | .jinit .. | .jdec .. | .donate .. | .accept .. | .spawn .. | .csrr .. | .csrw .. | .csrwTvec ..
  | .csrwLstate .. | .trap .. | .eret | .svc .. | .wfe .. | .oseta .. | .rwb .. | .rwbLog .. | .rwbObj ..
  | .rinv .. | .rinvLog .. | .rinvObj .. | .logrdRead .. | .logrdStatus .. | .logrdRetire ..
  | .logrdReset .. | .orinv .. | .orinvCtx | .orsync .. | .orsyncCtx | .ttqry .. | .clbinv ..
  | .clbinvObj .. | .cpy .. | .cpyt .. | .cpyr .. | .wbind .. | .wunbind .. | .rwait .. | .rrel ..
  | .publish .. | .cwait .. | .gather .. | .scatter .. | .bara .. | .barw .. => false

/-- A long instruction occupies two words (R31). -/
def Instr.isLong : Instr → Bool
  | .tmma .. | .tmmak .. | .cpy .. | .cpyt .. | .cpyr .. | .wbind .. | .wunbind .. | .rwait .. | .rrel ..
  | .publish .. | .cwait .. | .gather .. | .scatter .. | .bara .. | .barw .. => true
  | _ => false

end Sys2Proof
end

