-- ==== Sys2Proof/Decode.lean ====
section
/-! DEFINITION. The decoder and the encoder, from the encoding maps R36 to R47. A word is a natural
number whose bit 0 is its least significant bit. The decoder gives one instruction or names why the
word is none (R48); the encoder is written from the same maps and not from the decoder. -/

namespace Sys2Proof

/-- Bits `lo + n - 1 : lo` of a word. -/
def fld (w lo n : Nat) : BitVec n := BitVec.ofNat n (w / 2 ^ lo)
/-- One bit of a word. -/
def bit (w lo : Nat) : Bool := w / 2 ^ lo % 2 == 1
/-- A field placed at bit `lo`. -/
def put {n : Nat} (x : BitVec n) (lo : Nat) : Nat := x.toNat * 2 ^ lo
/-- One bit placed at bit `lo`. -/
def putb (x : Bool) (lo : Nat) : Nat := put (BitVec.ofBool x) lo

/-- Why a word is no instruction (R48). -/
inductive DecodeError where
  /-- the major is unassigned or reserved (R41): R49 row 2 -/
  | unassignedMajor
  /-- a selector or func value that the sub-map does not assign -/
  | unassignedSelector
  /-- a field value that R40 or a sub-map marks illegal -/
  | illegalCode
  /-- a nonzero bit in a reserved field -/
  | reservedField
  /-- fewer bytes than the instruction has -/
  | truncated
  deriving DecidableEq, Repr

abbrev Decoded := Except DecodeError Instr

/-- Accept an instruction whose reserved fields are zero when its codes are legal. -/
def accept (zero : Bool) (i : Instr) : Decoded :=
  if !zero then .error .reservedField else if i.wf then .ok i else .error .illegalCode

/-- R41: the majors that begin an instruction of two words. -/
def majorLong (m : Nat) : Bool := 0x38 ≤ m
/-- R41: the majors that are unassigned or reserved. -/
def majorBad (m : Nat) : Bool :=
  m == 0 || (0x0A ≤ m && m ≤ 0x0F) || m == 0x2F || m == 0x33 || m == 0x36 || m == 0x37 || m == 0x3A
    || m == 0x3B || 0x3F ≤ m
def majorOf (w : Nat) : Nat := w / 2 ^ 26 % 64

def gGuard (w : Nat) : Guard := ⟨bit w 25, fld w 22 3⟩

/-- R42, major 0x01. -/
def decMisc (w : Nat) : Decoded :=
  let z := w / 2 ^ 11 % 2 ^ 15 == 0
  match w % 2 ^ 11 with
  | 0 => accept z .nop | 1 => accept z .yield | 2 => accept z .hbeat
  | _ => .error .unassignedSelector

/-- R42, R53, major 0x02. -/
def decAlu (w : Nat) : Decoded :=
  let d := fld w 21 5; let a := fld w 16 5; let b := fld w 11 5
  match w % 2 ^ 11 with
  | 0x000 => accept true (.add d a b) | 0x001 => accept true (.sub d a b) | 0x002 => accept true (.mul d a b)
  | 0x003 => accept true (.mulh d a b) | 0x004 => accept true (.mulhu d a b) | 0x005 => accept true (.div d a b)
  | 0x006 => accept true (.divu d a b) | 0x007 => accept true (.rem d a b) | 0x008 => accept true (.remu d a b)
  | 0x010 => accept true (.and d a b) | 0x011 => accept true (.or d a b) | 0x012 => accept true (.xor d a b)
  | 0x018 => accept true (.sll d a b) | 0x019 => accept true (.srl d a b) | 0x01A => accept true (.sra d a b)
  | 0x020 => accept true (.min d a b) | 0x021 => accept true (.max d a b) | 0x022 => accept true (.minu d a b)
  | 0x023 => accept true (.maxu d a b)
  | 0x028 => accept (b == 0) (.clz d a) | 0x029 => accept (b == 0) (.ctz d a) | 0x02A => accept (b == 0) (.popc d a)
  | _ => .error .unassignedSelector

/-- R42, majors 0x07 to 0x09. -/
def decShift (w : Nat) : Decoded :=
  let z := w / 2 ^ 6 % 2 ^ 8 == 0
  match w / 2 ^ 14 % 4 with
  | 0 => accept z (.slli (fld w 21 5) (fld w 16 5) (fld w 0 6))
  | 1 => accept z (.srli (fld w 21 5) (fld w 16 5) (fld w 0 6))
  | 2 => accept z (.srai (fld w 21 5) (fld w 16 5) (fld w 0 6))
  | _ => .error .illegalCode
def decField (w : Nat) : Decoded :=
  match w / 2 ^ 15 % 2 with
  | 0 => accept (w / 2 ^ 12 % 4 == 0) (.extr (fld w 21 5) (fld w 16 5) (bit w 14) (fld w 6 6) (fld w 0 6))
  | _ => accept (w / 2 ^ 12 % 8 == 0) (.ins (fld w 21 5) (fld w 16 5) (fld w 6 6) (fld w 0 6))

/-- R43, R107, major 0x10. -/
def decFp (w : Nat) : Decoded :=
  let d := fld w 21 5; let a := fld w 16 5; let b := fld w 11 5; let t := fld w 9 2; let r := fld w 6 3
  match w % 2 ^ 6 with
  | 0 => accept true (.fadd d a b t r) | 1 => accept true (.fsub d a b t r) | 2 => accept true (.fmul d a b t r)
  | 3 => accept true (.fdiv d a b t r) | 4 => accept (b == 0) (.fsqrt d a t r)
  | 5 => accept (r == 0) (.fmin d a b t) | 6 => accept (r == 0) (.fmax d a b t)
  | 7 => accept (b == 0 && r == 0) (.fclass d a t)
  | 8 => accept (b == 0 && t == 0 && r == 0) (.fmvgf d a) | 9 => accept (b == 0 && t == 0 && r == 0) (.fmvfg d a)
  | _ => .error .unassignedSelector

/-- R43, R110, R111, major 0x11. -/
def decFcmp (w : Nat) : Decoded :=
  match w / 2 ^ 8 % 8 with
  | 0 => accept (w / 2 ^ 24 % 4 == 0 && w / 2 ^ 3 % 8 == 0)
      (.fcmp (fld w 21 3) (fld w 16 5) (fld w 11 5) (fld w 6 2) (fld w 0 3))
  | 1 => accept (w / 2 ^ 14 % 4 == 0 && w % 4 == 0)
      (.fcvt (fld w 21 5) (fld w 16 5) (fld w 11 3) (fld w 5 3) (fld w 2 3))
  | _ => .error .unassignedSelector

/-- R43, majors 0x13 to 0x17. -/
def decStore (w : Nat) : Decoded :=
  match w / 2 ^ 11 % 2 with
  | 0 => accept true (.st (gGuard w) (fld w 17 5) (fld w 12 5) (fld w 9 2) (fld w 0 9))
  | _ => accept true (.fst (gGuard w) (fld w 17 5) (fld w 12 5) (fld w 9 2) (fld w 0 9))

/-- R44, majors 0x1A and 0x1B. -/
def decJump (w : Nat) : Decoded :=
  let x := fld w 17 5; let a := fld w 12 5; let m := fld w 7 5
  match w % 2 ^ 7 with
  | 0 => accept (x == 0 && m == 0) (.jr (gGuard w) a)
  | 1 => accept (x == 0 && a == 0 && m == 0) (.ret (gGuard w))
  | 2 => accept true (.sel (gGuard w) x a m)
  | _ => .error .unassignedSelector
def decCmp (w : Nat) : Decoded :=
  match w / 2 ^ 24 % 4 with
  | 0 => accept (w / 2 ^ 4 % 2 ^ 7 == 0) (.cmp (fld w 21 3) (fld w 16 5) (fld w 11 5) (fld w 0 4))
  | 1 => accept true (.cmpi (fld w 21 3) (fld w 16 5) (fld w 4 12) (fld w 0 4))
  | 2 => accept (w / 2 ^ 21 % 2 == 0 && w / 2 ^ 8 % 2 ^ 8 == 0) (.loop (fld w 22 2) (fld w 16 5) (fld w 0 8))
  | _ => .error .illegalCode

/-- R44, majors 0x1C to 0x1F. -/
def decOrdLoad (w : Nat) : Decoded :=
  let sc : Scope := ⟨fld w 10 3, fld w 8 2⟩
  if w / 2 ^ 13 % 8 == 7 then
    accept (w / 2 ^ 16 % 2 ^ 10 == 0 && w % 2 ^ 6 == 0) (.fence sc (fld w 6 2))
  else if bit w 7 then .error .illegalCode
  else accept (w % 2 ^ 6 == 0) (.orderedLoad (fld w 21 5) (fld w 16 5) (fld w 13 3) sc (bit w 6))
def decOrdStore (w : Nat) : Decoded :=
  if bit w 3 then .error .illegalCode
  else accept (w % 2 ^ 3 == 0)
    (.orderedStore (gGuard w) (fld w 17 5) (fld w 12 5) (fld w 10 2) ⟨fld w 7 3, fld w 5 2⟩ (bit w 4))
def decAmo (w : Nat) : Decoded :=
  let g := gGuard w; let d := fld w 17 5; let a := fld w 12 5; let s := bit w 7; let o := fld w 5 2
  let sc : Scope := ⟨fld w 2 3, fld w 0 2⟩
  match w / 2 ^ 8 % 16 with
  | 0 => accept true (.amoSwap g d a s o sc) | 1 => accept true (.amoAdd g d a s o sc)
  | 2 => accept true (.amoAnd g d a s o sc) | 3 => accept true (.amoOr g d a s o sc)
  | 4 => accept true (.amoXor g d a s o sc) | 5 => accept true (.amoMin g d a s o sc)
  | 6 => accept true (.amoMax g d a s o sc) | 7 => accept true (.amoMinu g d a s o sc)
  | 8 => accept true (.amoMaxu g d a s o sc) | 9 => accept true (.amoFadd g d a s o sc)
  | _ => .error .illegalCode
def decCas (w : Nat) : Decoded :=
  if bit w 17 then .error .illegalCode
  else accept (w % 2 ^ 3 == 0)
    (.cas (gGuard w) (fld w 18 4) (fld w 12 5) (bit w 11) (fld w 9 2) (bit w 8) ⟨fld w 5 3, fld w 3 2⟩)

/-- R45, majors 0x20 and 0x21. -/
def decVarith (w : Nat) : Decoded :=
  let d := fld w 20 6; let a := fld w 14 6; let b := fld w 8 6; let m := fld w 5 3
  match w % 2 ^ 5 with
  | 0 => accept true (.vadd d a b m) | 1 => accept true (.vsub d a b m) | 2 => accept true (.vmul d a b m)
  | 3 => accept true (.vfma d a b m) | 4 => accept true (.vmin d a b m) | 5 => accept true (.vmax d a b m)
  | 6 => accept (b == 0) (.vabs d a m) | 7 => accept (b == 0) (.vneg d a m)
  | _ => .error .unassignedSelector
def decVlogic (w : Nat) : Decoded :=
  let d := fld w 20 6; let a := fld w 14 6; let b := fld w 8 6
  match w % 2 ^ 8 with
  | 0 => accept true (.vand d a b) | 1 => accept true (.vor d a b) | 2 => accept true (.vxor d a b)
  | 3 => accept (b == 0) (.vnot d a) | 4 => accept true (.vsll d a b) | 5 => accept true (.vsrl d a b)
  | 6 => accept true (.vsra d a b) | 8 => accept true (.vslli d a b) | 9 => accept true (.vsrli d a b)
  | 10 => accept true (.vsrai d a b)
  | _ => .error .unassignedSelector

/-- R45, R121, R123, majors 0x24 and 0x25. -/
def decVcvt (w : Nat) : Decoded :=
  let d := fld w 20 6; let a := fld w 14 6; let p := fld w 8 2; let r := fld w 5 3
  let z := w / 2 ^ 10 % 16 == 0
  match w % 2 ^ 5 with
  | 0 => accept z (.vcvt d a p r) | 1 => accept z (.vcvtToE4m3 d a p r) | 2 => accept z (.vcvtToE5m2 d a p r)
  | 3 => accept z (.vcvtFromE4m3 d a p r) | 4 => accept z (.vcvtFromE5m2 d a p r)
  | _ => .error .unassignedSelector
def decVred (w : Nat) : Decoded :=
  let d := fld w 20 6; let a := fld w 14 6; let m := fld w 5 3
  let z := w / 2 ^ 8 % 64 == 0
  match w % 2 ^ 5 with
  | 0 => accept z (.vredSum d a m) | 1 => accept z (.vredMax d a m) | 2 => accept z (.vredMin d a m)
  | _ => .error .unassignedSelector
/-- R45, R124, major 0x26. -/
def decVperm (w : Nat) : Decoded :=
  let z := w / 2 ^ 19 % 2 == 0 && w / 2 ^ 8 % 64 == 0
  match w % 2 ^ 8 with
  | 0 => accept true (.vperm (fld w 20 6) (fld w 14 6) (fld w 8 6))
  | 1 => accept z (.vbcastG (fld w 20 6) (fld w 14 5)) | 2 => accept z (.vbcastF (fld w 20 6) (fld w 14 5))
  | _ => .error .unassignedSelector
/-- R45, R125, R126, major 0x27. -/
def decVld (w : Nat) : Decoded :=
  match w % 2 ^ 6 with
  | 0 => accept (w / 2 ^ 19 % 2 == 0) (.vld (fld w 20 6) (fld w 14 5) (fld w 8 6) (fld w 6 2))
  | 1 => accept (w / 2 ^ 19 % 2 == 0 && w / 2 ^ 13 % 2 == 0 && w / 2 ^ 6 % 4 == 0)
      (.vlds (fld w 20 6) (fld w 14 5) (fld w 8 5))
  | _ => .error .unassignedSelector
/-- R45, R130 to R132, major 0x29. -/
def decVfun (w : Nat) : Decoded :=
  let d := fld w 20 6; let a := fld w 14 6; let z := w / 2 ^ 8 % 64 == 0
  match w % 2 ^ 8 with
  | 0 => accept z (.vexp2 d a) | 1 => accept z (.vlog2 d a) | 2 => accept z (.vrcp d a) | 3 => accept z (.vrsq d a)
  | 4 => accept (z && w / 2 ^ 25 % 2 == 0) (.vemax (fld w 20 5) a)
  | 5 => accept (w / 2 ^ 13 % 2 == 0) (.vscl2 d a (fld w 8 5))
  | _ => .error .unassignedSelector
/-- R45, R161 to R164, major 0x2A. -/
def decVtern (w : Nat) : Decoded :=
  let d := fld w 20 6; let a := fld w 14 6
  match w % 2 ^ 8 with
  | 0 => accept (w / 2 ^ 11 % 8 == 0) (.vtunpk d a (fld w 8 3))
  | 1 => accept true (.vtacc d a (fld w 8 6))
  | 2 => accept (w / 2 ^ 13 % 2 == 0) (.vwid d a (bit w 12) (fld w 8 4))
  | 3 => accept (w / 2 ^ 13 % 2 == 0) (.vwidu d a (bit w 12) (fld w 8 4))
  | _ => .error .unassignedSelector
/-- R45, R119, R133, major 0x2B. -/
def decMask (w : Nat) : Decoded :=
  let d := fld w 20 3; let a := fld w 14 3; let b := fld w 8 3
  let z := w / 2 ^ 23 % 8 == 0 && w / 2 ^ 17 % 8 == 0 && w / 2 ^ 11 % 8 == 0
  match w % 2 ^ 8 with
  | 0x00 => accept (w / 2 ^ 25 % 2 == 0 && w / 2 ^ 8 % 2 ^ 12 == 0) (.vstatr (fld w 20 5))
  | 0x10 => accept z (.mand d a b) | 0x11 => accept z (.mor d a b) | 0x12 => accept z (.mxor d a b)
  | 0x13 => accept (z && b == 0) (.mnot d a)
  | _ => .error .unassignedSelector

/-- R46, R73, major 0x2C. -/
def decQueue (w : Nat) : Decoded :=
  let a := fld w 16 5; let z := w / 2 ^ 11 % 32 == 0
  let zp := w / 2 ^ 24 % 4 == 0; let zg := w / 2 ^ 19 % 4 == 0
  match w % 2 ^ 11 with
  | 0 => accept (z && zp) (.qbind (fld w 21 3) a) | 1 => accept (z && zp) (.qput (fld w 21 3) a)
  | 2 => accept (z && zg) (.qget (fld w 21 5) (fld w 16 3)) | 3 => accept (z && zg) (.qcnt (fld w 21 5) (fld w 16 3))
  | _ => .error .unassignedSelector
/-- R46, format T of major 0x2D. -/
def decTile (w : Nat) : Decoded :=
  match w / 2 ^ 22 % 16 with
  | 0 => accept (w % 2 ^ 17 == 0) (.tcfg (fld w 20 2) (fld w 17 3))
  | 1 => accept (w % 2 ^ 17 == 0) (.tzero (fld w 20 2) (fld w 17 3))
  | 2 => accept (w % 2 ^ 12 == 0) (.tztest (fld w 19 3) (fld w 14 5) (fld w 12 2))
  | 3 => accept (w % 2 ^ 18 == 0) (.twait (fld w 18 4))
  | 4 => accept (w % 2 ^ 15 == 0) (.cbld (fld w 20 2) (fld w 15 5))
  | _ => .error .unassignedSelector
/-- R46, format T of major 0x2E. -/
def decTileMem (w : Nat) : Decoded :=
  let z := w % 2 ^ 11 == 0
  match w / 2 ^ 25 % 2 with
  | 0 => accept (z && w / 2 ^ 16 % 16 == 0) (.tld (fld w 23 2) (fld w 20 3) (fld w 11 5))
  | _ => accept z (.tst ⟨bit w 19, fld w 16 3⟩ (fld w 23 2) (fld w 20 3) (fld w 11 5))
/-- R46, majors 0x31, 0x34 and 0x35. -/
def decFork (w : Nat) : Decoded :=
  let d := fld w 21 5; let a := fld w 16 5; let b := fld w 11 5
  let z := d == 0 && a == 0 && b == 0
  match w % 2 ^ 11 with
  | 0 => accept z .fleave
  | 1 => accept (b == 0 && w / 2 ^ 25 % 2 == 0) (.ftile (fld w 23 2) (fld w 21 2) a)
  | 2 => accept z .fpub | 3 => accept z .tret | 4 => accept z .sync
  | 5 => accept (a == 0 && b == 0) (.jinit d) | 6 => accept (b == 0) (.jdec d a)
  | 7 => accept true (.donate d a b) | 8 => accept (b == 0) (.accept d a)
  | _ => .error .unassignedSelector
def decCsr (w : Nat) : Decoded :=
  match w / 2 ^ 12 % 16 with
  | 0 => accept (w / 2 ^ 16 % 32 == 0) (.csrr (fld w 21 5) (fld w 0 12))
  | 1 =>
    let z := w / 2 ^ 21 % 32 == 0
    if w % 2 ^ 12 == 0x004 then accept z (.csrwTvec (fld w 16 5))
    else if w % 2 ^ 12 == 0x0C8 then accept z (.csrwLstate (fld w 16 5))
    else accept z (.csrw (fld w 16 5) (fld w 0 12))
  | _ => .error .illegalCode
def decSys (w : Nat) : Decoded :=
  let d := fld w 21 5; let a := fld w 16 5; let b := fld w 11 5
  let zd := d == 0; let za := a == 0; let zb := b == 0
  match w % 2 ^ 11 with
  | 0x000 => accept (zd && zb) (.trap a) | 0x001 => accept (zd && za && zb) .eret
  | 0x002 => accept (zd && zb) (.svc a) | 0x003 => accept (zd && zb) (.wfe a)
  | 0x010 => accept (w / 2 ^ 13 % 8 == 0) (.oseta d a (fld w 11 2))
  | 0x011 =>
    let z := w / 2 ^ 23 % 8 == 0
    match w / 2 ^ 21 % 4 with
    | 0 => accept z (.rwb a b) | 1 => accept (z && zb) (.rwbLog a) | 2 => accept (z && zb) (.rwbObj a)
    | _ => .error .illegalCode
  | 0x012 =>
    let z := w / 2 ^ 23 % 8 == 0
    match w / 2 ^ 21 % 4 with
    | 0 => accept z (.rinv a b) | 1 => accept (z && zb) (.rinvLog a) | 2 => accept (z && zb) (.rinvObj a)
    | _ => .error .illegalCode
  | 0x013 => if bit w 21 then .error .illegalCode else accept true (.logrdRead (fld w 22 4) a b)
  | 0x020 =>
    match w / 2 ^ 11 % 32 with
    | 0 => accept zd (.orinv a) | 1 => accept (zd && za) .orinvCtx | _ => .error .illegalCode
  | 0x021 =>
    match w / 2 ^ 11 % 32 with
    | 0 => accept zd (.orsync a) | 1 => accept (zd && za) .orsyncCtx | _ => .error .illegalCode
  | 0x030 => accept true (.ttqry d a b)
  | 0x031 =>
    match w / 2 ^ 21 % 32 with
    | 0 => accept true (.clbinv a b) | 1 => accept zb (.clbinvObj a) | _ => .error .illegalCode
  | _ => .error .unassignedSelector

/-- A 32-bit instruction (R36 to R46). A major of R41 that is long or unassigned is not decoded here. -/
def decodeShort (w : Nat) : Decoded :=
  let d := fld w 21 5; let a := fld w 16 5; let i := fld w 0 16
  match majorOf w with
  | 0x01 => decMisc w | 0x02 => decAlu w
  | 0x03 => accept true (.addi d a i) | 0x04 => accept true (.andi d a i)
  | 0x05 => accept true (.ori d a i) | 0x06 => accept true (.xori d a i)
  | 0x07 => decShift w
  | 0x08 => accept (w / 2 ^ 18 % 8 == 0) (.lui d (fld w 16 2) i)
  | 0x09 => decField w
  | 0x10 => decFp w | 0x11 => decFcmp w
  | 0x12 => accept true (.ffma d a (fld w 11 5) (fld w 6 5) (fld w 4 2) (fld w 1 3) (bit w 0))
  | 0x13 => accept true (.fld d a (fld w 13 3) (fld w 0 13))
  | 0x14 => accept true (.ld d a (fld w 13 3) (fld w 0 13))
  | 0x15 => decStore w
  | 0x16 => accept (w / 2 ^ 4 % 2 ^ 7 == 0) (.ldc d a (fld w 11 5) (bit w 3) (fld w 0 3))
  | 0x17 => accept (w / 2 ^ 3 % 16 == 0) (.stc (gGuard w) (fld w 17 5) (fld w 12 5) (fld w 7 5) (bit w 2) (fld w 0 2))
  | 0x18 => accept true (.b (gGuard w) (fld w 0 22)) | 0x19 => accept true (.call (gGuard w) (fld w 0 22))
  | 0x1A => decJump w | 0x1B => decCmp w
  | 0x1C => decOrdLoad w | 0x1D => decOrdStore w | 0x1E => decAmo w | 0x1F => decCas w
  | 0x20 => decVarith w | 0x21 => decVlogic w
  | 0x22 => accept (w / 2 ^ 23 % 8 == 0 && w / 2 ^ 4 % 16 == 0)
      (.vcmp (fld w 20 3) (fld w 14 6) (fld w 8 6) (bit w 3) (fld w 0 3))
  | 0x23 => accept (w / 2 ^ 3 % 2 == 0)
      (.vsel ⟨bit w 7, fld w 4 3⟩ (fld w 20 6) (fld w 14 6) (fld w 8 6) (fld w 0 3))
  | 0x24 => decVcvt w | 0x25 => decVred w | 0x26 => decVperm w | 0x27 => decVld w
  | 0x28 => accept (w / 2 ^ 2 % 8 == 0)
      (.vst ⟨bit w 19, fld w 16 3⟩ (fld w 20 6) (fld w 11 5) (fld w 5 6) (fld w 0 2))
  | 0x29 => decVfun w | 0x2A => decVtern w | 0x2B => decMask w
  | 0x2C => decQueue w | 0x2D => decTile w | 0x2E => decTileMem w
  | 0x30 => accept (w / 2 ^ 16 % 2 ^ 10 == 0) (.fenter (fld w 14 2) (fld w 0 14))
  | 0x31 => decFork w
  | 0x32 => accept (w / 2 ^ 22 % 16 == 0) (.spawn (fld w 0 22))
  | 0x34 => decCsr w | 0x35 => decSys w
  | _ => .error .unassignedMajor

/-- The second word of CPY, CPYT, CPYR, WBIND, GATHER and SCATTER: TOK and HINT. -/
def engMode (v : Nat) : EngMode := ⟨bit v 31, fld v 29 2⟩

def decMatOp (w v : Nat) : MatOp :=
  ⟨fld w 22 4, fld w 20 2, fld w 17 3, fld w 12 5, fld w 7 5, fld w 2 5, fld w 0 2, bit v 31, bit v 30,
    bit v 29, bit v 28, bit v 27, bit v 26, fld v 0 12⟩

/-- A long instruction (R39, R47 and the engine chapter's tables). -/
def decodeLong (w v : Nat) : Decoded :=
  let r21 := fld w 16 5; let r16 := fld w 11 5; let r11 := fld w 6 5; let r6 := fld w 1 5
  let sel := w / 2 ^ 21 % 32
  let z1 := w % 2 == 0
  let zm := v % 2 ^ 28 == 0
  let sc : Scope := ⟨fld w 3 3, fld w 1 2⟩
  match majorOf w with
  | 0x38 => accept (v / 2 ^ 12 % 2 ^ 14 == 0) (.tmma (decMatOp w v))
  | 0x39 => accept (v / 2 ^ 12 % 2 ^ 14 == 0) (.tmmak (decMatOp w v))
  | 0x3C =>
    match sel with
    | 0 => accept (z1 && zm) (.cpy (engMode v) r21 r16 r11 r6 (bit v 28))
    | 1 => accept (z1 && r11 == 0 && zm) (.cpyt (engMode v) r21 r16 r6 (bit v 28))
    | 2 => accept (z1 && zm && v / 2 ^ 28 % 2 == 0) (.cpyr (engMode v) r21 r16 r11 r6)
    | _ => .error .unassignedSelector
  | 0x3D =>
    match sel with
    | 0 => accept (w % 16 == 0 && v % 2 ^ 29 == 0) (.wbind (engMode v) (fld w 4 2) r21 r16 r11)
    | 1 => accept (w % 16 == 0 && r16 == 0 && r11 == 0 && v % 2 ^ 32 == 0) (.wunbind (fld w 4 2) r21)
    | 2 => accept (z1 && v % 2 ^ 32 == 0) (.rwait r21 r16 r11 sc)
    | 3 => accept (z1 && r21 == 0 && v % 2 ^ 32 == 0) (.rrel r16 r11 sc)
    | 4 => accept (r21 == 0 && w % 2 ^ 11 == 0 && v % 2 ^ 32 == 0) (.publish r16)
    | 5 => accept (z1 && r21 == 0 && v % 2 ^ 32 == 0) (.cwait r16 r11 sc)
    | _ => .error .unassignedSelector
  | 0x3E =>
    match sel with
    | 0 => accept (z1 && v / 2 ^ 28 % 2 == 0 && v % 2 ^ 8 == 0)
        (.gather (engMode v) r21 r16 r11 r6 (fld v 16 12) (fld v 8 8))
    | 1 => accept (z1 && v / 2 ^ 28 % 2 == 0 && v % 2 ^ 8 == 0)
        (.scatter (engMode v) r21 r16 r11 r6 (fld v 16 12) (fld v 8 8))
    | 2 => accept (z1 && v % 2 ^ 32 == 0) (.bara r21 r16 r11 sc)
    | 3 => accept (z1 && r21 == 0 && v % 2 ^ 32 == 0) (.barw r16 r11 sc)
    | _ => .error .unassignedSelector
  | _ => .error .unassignedMajor

/-- The instruction in one or two words: R49 rows 2 and 4 (row 3 needs the slot, see the fetch). -/
def decodeWords (w v : Nat) : Decoded :=
  if majorBad (majorOf w) then .error .unassignedMajor
  else if majorLong (majorOf w) then decodeLong w v else decodeShort w

/-- A little-endian 32-bit word at the head of a list of bytes (R31). -/
def wordLE : List Byte → Option (Nat × List Byte)
  | a :: b :: c :: d :: t => some (a.toNat + b.toNat * 2 ^ 8 + c.toNat * 2 ^ 16 + d.toNat * 2 ^ 24, t)
  | _ => none

/-- The decoder over memory bytes: total on every list, with the bytes that follow the instruction. -/
def decodeBytes (l : List Byte) : Except DecodeError (Instr × List Byte) :=
  match wordLE l with
  | none => .error .truncated
  | some (w, t) =>
    if majorLong (majorOf w) && !majorBad (majorOf w) then
      match wordLE t with
      | none => .error .truncated
      | some (v, u) => (decodeWords w v).map fun i => (i, u)
    else (decodeWords w 0).map fun i => (i, t)

/-- Fields of formats A, G, V and the guard, for the encoder. -/
def encA (op : Nat) (d a b : Reg) (f : Nat) : Nat := op * 2 ^ 26 + put d 21 + put a 16 + put b 11 + f
def encG (op : Nat) (g : Guard) (x y : Reg) (tail : Nat) : Nat :=
  op * 2 ^ 26 + putb g.neg 25 + put g.pred 22 + put x 17 + put y 12 + tail
def encV (d a b : VReg) (op f : Nat) : Nat := op * 2 ^ 26 + put d 20 + put a 14 + put b 8 + f
def encAmo (g : Guard) (d a : Reg) (s : Bool) (o : BitVec 2) (sc : Scope) (k : Nat) : Nat :=
  encG 0x1E g d a (k * 2 ^ 8 + putb s 7 + put o 5 + put sc.agent 2 + put sc.store 0)
def encMode (h : EngMode) : Nat := putb h.tok 31 + put h.hint 29
def encL (op sel : Nat) (a b c d : Reg) : Nat :=
  op * 2 ^ 26 + sel * 2 ^ 21 + put a 16 + put b 11 + put c 6 + put d 1
def encSc (op sel : Nat) (a b c : Reg) (sc : Scope) : Nat :=
  op * 2 ^ 26 + sel * 2 ^ 21 + put a 16 + put b 11 + put c 6 + put sc.agent 3 + put sc.store 1
def encMat (op : Nat) (x : MatOp) : Nat × Nat :=
  (op * 2 ^ 26 + put x.pair 22 + put x.acc 20 + put x.z 17 + put x.a 12 + put x.b 7 + put x.s 2 + put x.cb 0,
   putb x.na 31 + putb x.nb 30 + putb x.zc 29 + putb x.sa 28 + putb x.sb 27 + putb x.sat 26 + put x.steps 0)

/-- The words of an instruction: the first, and the second of a long instruction (0 for a short one).
A step that no word encodes has the all-zero word, which is no instruction. -/
def encode : Instr → Nat × Nat
  | .nop => (0x04000000, 0) | .yield => (0x04000001, 0) | .hbeat => (0x04000002, 0)
  | .add d a b => (encA 2 d a b 0x000, 0) | .sub d a b => (encA 2 d a b 0x001, 0) | .mul d a b => (encA 2 d a b 0x002, 0)
  | .mulh d a b => (encA 2 d a b 0x003, 0) | .mulhu d a b => (encA 2 d a b 0x004, 0) | .div d a b => (encA 2 d a b 0x005, 0)
  | .divu d a b => (encA 2 d a b 0x006, 0) | .rem d a b => (encA 2 d a b 0x007, 0) | .remu d a b => (encA 2 d a b 0x008, 0)
  | .and d a b => (encA 2 d a b 0x010, 0) | .or d a b => (encA 2 d a b 0x011, 0) | .xor d a b => (encA 2 d a b 0x012, 0)
  | .sll d a b => (encA 2 d a b 0x018, 0) | .srl d a b => (encA 2 d a b 0x019, 0) | .sra d a b => (encA 2 d a b 0x01A, 0)
  | .min d a b => (encA 2 d a b 0x020, 0) | .max d a b => (encA 2 d a b 0x021, 0) | .minu d a b => (encA 2 d a b 0x022, 0)
  | .maxu d a b => (encA 2 d a b 0x023, 0)
  | .clz d a => (encA 2 d a 0 0x028, 0) | .ctz d a => (encA 2 d a 0 0x029, 0) | .popc d a => (encA 2 d a 0 0x02A, 0)
  | .addi d a i => (encA 3 d a 0 (put i 0), 0) | .andi d a i => (encA 4 d a 0 (put i 0), 0)
  | .ori d a i => (encA 5 d a 0 (put i 0), 0) | .xori d a i => (encA 6 d a 0 (put i 0), 0)
  | .slli d a n => (encA 7 d a 0 (put n 0), 0) | .srli d a n => (encA 7 d a 0 (2 ^ 14 + put n 0), 0)
  | .srai d a n => (encA 7 d a 0 (2 * 2 ^ 14 + put n 0), 0)
  | .lui d h i => (encA 8 d 0 0 (put h 16 + put i 0), 0)
  | .extr d a s p l => (encA 9 d a 0 (putb s 14 + put p 6 + put l 0), 0)
  | .ins d a p l => (encA 9 d a 0 (2 ^ 15 + put p 6 + put l 0), 0)
  | .fadd d a b t r => (encA 0x10 d a b (put t 9 + put r 6 + 0), 0) | .fsub d a b t r => (encA 0x10 d a b (put t 9 + put r 6 + 1), 0)
  | .fmul d a b t r => (encA 0x10 d a b (put t 9 + put r 6 + 2), 0) | .fdiv d a b t r => (encA 0x10 d a b (put t 9 + put r 6 + 3), 0)
  | .fsqrt d a t r => (encA 0x10 d a 0 (put t 9 + put r 6 + 4), 0)
  | .fmin d a b t => (encA 0x10 d a b (put t 9 + 5), 0) | .fmax d a b t => (encA 0x10 d a b (put t 9 + 6), 0)
  | .fclass d a t => (encA 0x10 d a 0 (put t 9 + 7), 0)
  | .fmvgf d a => (encA 0x10 d a 0 8, 0) | .fmvfg d a => (encA 0x10 d a 0 9, 0)
  | .fcmp p a b t c => (0x11 * 2 ^ 26 + put p 21 + put a 16 + put b 11 + put t 6 + put c 0, 0)
  | .fcvt d a r t s => (0x11 * 2 ^ 26 + put d 21 + put a 16 + put r 11 + 2 ^ 8 + put t 5 + put s 2, 0)
  | .ffma d a b c t r n => (encA 0x12 d a b (put c 6 + put t 4 + put r 1 + putb n 0), 0)
  | .fld d a s o => (encA 0x13 d a 0 (put s 13 + put o 0), 0) | .ld d a s o => (encA 0x14 d a 0 (put s 13 + put o 0), 0)
  | .st g a d w o => (encG 0x15 g a d (put w 9 + put o 0), 0)
  | .fst g a d w o => (encG 0x15 g a d (2 ^ 11 + put w 9 + put o 0), 0)
  | .ldc d a c f s => (encA 0x16 d a c (putb f 3 + put s 0), 0)
  | .stc g a c d f w => (encG 0x17 g a c (put d 7 + putb f 2 + put w 0), 0)
  | .b g s => (0x18 * 2 ^ 26 + putb g.neg 25 + put g.pred 22 + put s 0, 0)
  | .call g s => (0x19 * 2 ^ 26 + putb g.neg 25 + put g.pred 22 + put s 0, 0)
  | .jr g a => (encG 0x1A g 0 a 0, 0) | .ret g => (encG 0x1A g 0 0 1, 0) | .sel g d a m => (encG 0x1A g d a (put m 7 + 2), 0)
  | .cmp p a b c => (0x1B * 2 ^ 26 + put p 21 + put a 16 + put b 11 + put c 0, 0)
  | .cmpi p a i c => (0x1B * 2 ^ 26 + 2 ^ 24 + put p 21 + put a 16 + put i 4 + put c 0, 0)
  | .loop k a l => (0x1B * 2 ^ 26 + 2 * 2 ^ 24 + put k 22 + put a 16 + put l 0, 0)
  | .orderedLoad d a s sc q => (encA 0x1C d a 0 (put s 13 + put sc.agent 10 + put sc.store 8 + putb q 6), 0)
  | .fence sc o => (encA 0x1C 0 0 0 (7 * 2 ^ 13 + put sc.agent 10 + put sc.store 8 + put o 6), 0)
  | .orderedStore g a b w sc q => (encG 0x1D g a b (put w 10 + put sc.agent 7 + put sc.store 5 + putb q 4), 0)
  | .amoSwap g d a s o sc => (encAmo g d a s o sc 0, 0) | .amoAdd g d a s o sc => (encAmo g d a s o sc 1, 0)
  | .amoAnd g d a s o sc => (encAmo g d a s o sc 2, 0) | .amoOr g d a s o sc => (encAmo g d a s o sc 3, 0)
  | .amoXor g d a s o sc => (encAmo g d a s o sc 4, 0) | .amoMin g d a s o sc => (encAmo g d a s o sc 5, 0)
  | .amoMax g d a s o sc => (encAmo g d a s o sc 6, 0) | .amoMinu g d a s o sc => (encAmo g d a s o sc 7, 0)
  | .amoMaxu g d a s o sc => (encAmo g d a s o sc 8, 0) | .amoFadd g d a s o sc => (encAmo g d a s o sc 9, 0)
  | .cas g d a s o f sc =>
    (0x1F * 2 ^ 26 + putb g.neg 25 + put g.pred 22 + put d 18 + put a 12 + putb s 11 + put o 9 + putb f 8
      + put sc.agent 5 + put sc.store 3, 0)
  | .vadd d a b m => (encV d a b 0x20 (put m 5), 0) | .vsub d a b m => (encV d a b 0x20 (put m 5 + 1), 0)
  | .vmul d a b m => (encV d a b 0x20 (put m 5 + 2), 0) | .vfma d a b m => (encV d a b 0x20 (put m 5 + 3), 0)
  | .vmin d a b m => (encV d a b 0x20 (put m 5 + 4), 0) | .vmax d a b m => (encV d a b 0x20 (put m 5 + 5), 0)
  | .vabs d a m => (encV d a 0 0x20 (put m 5 + 6), 0) | .vneg d a m => (encV d a 0 0x20 (put m 5 + 7), 0)
  | .vand d a b => (encV d a b 0x21 0, 0) | .vor d a b => (encV d a b 0x21 1, 0) | .vxor d a b => (encV d a b 0x21 2, 0)
  | .vnot d a => (encV d a 0 0x21 3, 0) | .vsll d a b => (encV d a b 0x21 4, 0) | .vsrl d a b => (encV d a b 0x21 5, 0)
  | .vsra d a b => (encV d a b 0x21 6, 0) | .vslli d a n => (encV d a n 0x21 8, 0) | .vsrli d a n => (encV d a n 0x21 9, 0)
  | .vsrai d a n => (encV d a n 0x21 10, 0)
  | .vcmp k a b u c => (0x22 * 2 ^ 26 + put k 20 + put a 14 + put b 8 + putb u 3 + put c 0, 0)
  | .vsel g d a b k => (encV d a b 0x23 (putb g.neg 7 + put g.pred 4 + put k 0), 0)
  | .vcvt d a p r => (encV d a 0 0x24 (put p 8 + put r 5), 0) | .vcvtToE4m3 d a p r => (encV d a 0 0x24 (put p 8 + put r 5 + 1), 0)
  | .vcvtToE5m2 d a p r => (encV d a 0 0x24 (put p 8 + put r 5 + 2), 0)
  | .vcvtFromE4m3 d a p r => (encV d a 0 0x24 (put p 8 + put r 5 + 3), 0)
  | .vcvtFromE5m2 d a p r => (encV d a 0 0x24 (put p 8 + put r 5 + 4), 0)
  | .vredSum d a m => (encV d a 0 0x25 (put m 5), 0) | .vredMax d a m => (encV d a 0 0x25 (put m 5 + 1), 0)
  | .vredMin d a m => (encV d a 0 0x25 (put m 5 + 2), 0)
  | .vperm d a b => (encV d a b 0x26 0, 0)
  | .vbcastG d a => (0x26 * 2 ^ 26 + put d 20 + put a 14 + 1, 0) | .vbcastF d a => (0x26 * 2 ^ 26 + put d 20 + put a 14 + 2, 0)
  | .vld d a o e => (0x27 * 2 ^ 26 + put d 20 + put a 14 + put o 8 + put e 6, 0)
  | .vlds d a s => (0x27 * 2 ^ 26 + put d 20 + put a 14 + put s 8 + 1, 0)
  | .vst g v a o e => (0x28 * 2 ^ 26 + put v 20 + putb g.neg 19 + put g.pred 16 + put a 11 + put o 5 + put e 0, 0)
  | .vexp2 d a => (encV d a 0 0x29 0, 0) | .vlog2 d a => (encV d a 0 0x29 1, 0) | .vrcp d a => (encV d a 0 0x29 2, 0)
  | .vrsq d a => (encV d a 0 0x29 3, 0)
  | .vemax d a => (0x29 * 2 ^ 26 + put d 20 + put a 14 + 4, 0)
  | .vscl2 d a n => (0x29 * 2 ^ 26 + put d 20 + put a 14 + put n 8 + 5, 0)
  | .vtunpk d a i => (0x2A * 2 ^ 26 + put d 20 + put a 14 + put i 8, 0)
  | .vtacc d a t => (encV d a t 0x2A 1, 0)
  | .vwid d a n p => (0x2A * 2 ^ 26 + put d 20 + put a 14 + putb n 12 + put p 8 + 2, 0)
  | .vwidu d a n p => (0x2A * 2 ^ 26 + put d 20 + put a 14 + putb n 12 + put p 8 + 3, 0)
  | .vstatr d => (0x2B * 2 ^ 26 + put d 20, 0)
  | .mand d a b => (0x2B * 2 ^ 26 + put d 20 + put a 14 + put b 8 + 0x10, 0)
  | .mor d a b => (0x2B * 2 ^ 26 + put d 20 + put a 14 + put b 8 + 0x11, 0)
  | .mxor d a b => (0x2B * 2 ^ 26 + put d 20 + put a 14 + put b 8 + 0x12, 0)
  | .mnot d a => (0x2B * 2 ^ 26 + put d 20 + put a 14 + 0x13, 0)
  | .qbind q a => (0x2C * 2 ^ 26 + put q 21 + put a 16, 0) | .qput q a => (0x2C * 2 ^ 26 + put q 21 + put a 16 + 1, 0)
  | .qget d q => (0x2C * 2 ^ 26 + put d 21 + put q 16 + 2, 0) | .qcnt d q => (0x2C * 2 ^ 26 + put d 21 + put q 16 + 3, 0)
  | .tcfg d t => (0x2D * 2 ^ 26 + put d 20 + put t 17, 0) | .tzero d z => (0x2D * 2 ^ 26 + 2 ^ 22 + put d 20 + put z 17, 0)
  | .tztest z a s => (0x2D * 2 ^ 26 + 2 * 2 ^ 22 + put z 19 + put a 14 + put s 12, 0)
  | .twait m => (0x2D * 2 ^ 26 + 3 * 2 ^ 22 + put m 18, 0)
  | .cbld c a => (0x2D * 2 ^ 26 + 4 * 2 ^ 22 + put c 20 + put a 15, 0)
  | .tld d z a => (0x2E * 2 ^ 26 + put d 23 + put z 20 + put a 11, 0)
  | .tst g d z a => (0x2E * 2 ^ 26 + 2 ^ 25 + put d 23 + put z 20 + putb g.neg 19 + put g.pred 16 + put a 11, 0)
  | .tmma x => encMat 0x38 x | .tmmak x => encMat 0x39 x
  | .fenter al s => (0x30 * 2 ^ 26 + put al 14 + put s 0, 0)
  | .fleave => (encA 0x31 0 0 0 0, 0)
  | .ftile k t a => (0x31 * 2 ^ 26 + put k 23 + put t 21 + put a 16 + 1, 0)
  | .fpub => (encA 0x31 0 0 0 2, 0) | .tret => (encA 0x31 0 0 0 3, 0) | .sync => (encA 0x31 0 0 0 4, 0)
  | .jinit d => (encA 0x31 d 0 0 5, 0) | .jdec d a => (encA 0x31 d a 0 6, 0) | .donate d a b => (encA 0x31 d a b 7, 0)
  | .accept d a => (encA 0x31 d a 0 8, 0)
  | .spawn s => (0x32 * 2 ^ 26 + put s 0, 0)
  | .csrr d n => (0x34 * 2 ^ 26 + put d 21 + put n 0, 0) | .csrw a n => (0x34 * 2 ^ 26 + put a 16 + 2 ^ 12 + put n 0, 0)
  | .csrwTvec a => (0x34 * 2 ^ 26 + put a 16 + 2 ^ 12 + 0x004, 0) | .csrwLstate a => (0x34 * 2 ^ 26 + put a 16 + 2 ^ 12 + 0x0C8, 0)
  | .trap a => (encA 0x35 0 a 0 0, 0) | .eret => (encA 0x35 0 0 0 1, 0) | .svc a => (encA 0x35 0 a 0 2, 0)
  | .wfe a => (encA 0x35 0 a 0 3, 0)
  | .oseta d a c => (0x35 * 2 ^ 26 + put d 21 + put a 16 + put c 11 + 0x010, 0)
  | .rwb a b => (encA 0x35 0 a b 0x011, 0) | .rwbLog a => (encA 0x35 1 a 0 0x011, 0) | .rwbObj a => (encA 0x35 2 a 0 0x011, 0)
  | .rinv a b => (encA 0x35 0 a b 0x012, 0) | .rinvLog a => (encA 0x35 1 a 0 0x012, 0) | .rinvObj a => (encA 0x35 2 a 0 0x012, 0)
  | .logrdRead d a c => (0x35 * 2 ^ 26 + put d 22 + put a 16 + put c 11 + 0x013, 0)
  | .logrdStatus d a c => (0x35 * 2 ^ 26 + put d 22 + put a 16 + put c 11 + 0x013, 0)
  | .logrdRetire d a c => (0x35 * 2 ^ 26 + put d 22 + put a 16 + put c 11 + 0x013, 0)
  | .logrdReset d a c => (0x35 * 2 ^ 26 + put d 22 + put a 16 + put c 11 + 0x013, 0)
  | .orinv a => (encA 0x35 0 a 0 0x020, 0) | .orinvCtx => (encA 0x35 0 0 1 0x020, 0)
  | .orsync a => (encA 0x35 0 a 0 0x021, 0) | .orsyncCtx => (encA 0x35 0 0 1 0x021, 0)
  | .ttqry d a c => (encA 0x35 d a c 0x030, 0) | .clbinv a c => (encA 0x35 0 a c 0x031, 0)
  | .clbinvObj a => (encA 0x35 1 a 0 0x031, 0)
  | .cpy h d s l f sh => (encL 0x3C 0 d s l f, encMode h + putb sh 28)
  | .cpyt h d c f sh => (encL 0x3C 1 d c 0 f, encMode h + putb sh 28)
  | .cpyr h d s l f => (encL 0x3C 2 d s l f, encMode h)
  | .wbind h w d c f => (0x3D * 2 ^ 26 + put d 16 + put c 11 + put f 6 + put w 4, encMode h)
  | .wunbind w d => (0x3D * 2 ^ 26 + 2 ^ 21 + put d 16 + put w 4, 0)
  | .rwait d r n sc => (encSc 0x3D 2 d r n sc, 0) | .rrel r n sc => (encSc 0x3D 3 0 r n sc, 0)
  | .publish a => (encL 0x3D 4 0 a 0 0, 0) | .cwait f v sc => (encSc 0x3D 5 0 f v sc, 0)
  | .gather h d i b f n z => (encL 0x3E 0 d i b f, encMode h + put n 16 + put z 8)
  | .scatter h d i b f n z => (encL 0x3E 1 d i b f, encMode h + put n 16 + put z 8)
  | .bara d b n sc => (encSc 0x3E 2 d b n sc, 0) | .barw b p sc => (encSc 0x3E 3 0 b p sc, 0)
  | .engineWrite .. | .commandComplete .. | .thatchAdmission .. | .groupDeadline .. | .matrixIssue ..
  | .issueEnd .. | .stealRound .. | .continuationResume .. | .preemption .. | .migration ..
  | .resumption .. | .pendingSlot .. | .registerLineFill .. | .watchdogStop .. | .watchdogRecord ..
  | .tokenInjection | .stallEnd .. | .bulkWr .. | .bulkRd .. | .flag .. | .ord .. | .syncClass .. | .don ..
  | .peerAnswer .. | .discardedPacket .. | .remoteTimeout .. | .lineEviction .. | .snoop .. | .flitReplay ..
  | .replayExhausted .. | .laneGroupMapout .. | .recoveryTimeout .. | .patrolScrub .. | .mapOut ..
  | .mirrorRestore .. | .lockstepMismatch | .flashing | .warningWithdrawn | .supplyReturn
  | .auxRailExpiry | .boot | .create .. | .define .. | .load .. | .launch .. | .importPeer .. | .donsetup ..
  | .query .. | .attest .. | .resume .. | .endCtx .. | .partition .. | .timeout .. | .budget .. | .clock ..
  | .diestate .. | .port .. | .svcEnd .. | .report .. | .refill .. | .powerCap .. | .illegalInstruction ..
  | .fetchFault .. | .tickEdge | .holdUpEnd | .objectRelocation .. | .tileFree .. | .residencyChange .. => (0, 0)

/-- The rows LOGRD STATUS, RETIRE and RESET share the word of LOGRD READ: bits 63:62 of a register
select among them when the instruction executes (R228). -/
def Instr.canon : Instr → Instr
  | .logrdStatus d a c => .logrdRead d a c
  | .logrdRetire d a c => .logrdRead d a c
  | .logrdReset d a c => .logrdRead d a c
  | i => i

/-- Four bytes of a word, little-endian. -/
def leBytes4 (w : Nat) : List Byte :=
  [BitVec.ofNat 8 w, BitVec.ofNat 8 (w / 2 ^ 8), BitVec.ofNat 8 (w / 2 ^ 16), BitVec.ofNat 8 (w / 2 ^ 24)]

/-- The eight bytes that hold a table word of `nbits` bits, every bit above them zero. -/
def tableBytes (nbits w : Nat) : List Byte :=
  leBytes4 (w % 2 ^ nbits) ++ leBytes4 (w % 2 ^ nbits / 2 ^ 32)

/-- The instruction the decoder reads from a word numbered as the opcode table numbers it. -/
def decodeTableWord (nbits w : Nat) : Option Instr :=
  match decodeBytes (tableBytes nbits w) with
  | .ok (i, _) => some i
  | .error _ => none

end Sys2Proof
end

