-- ==== Sys2Proof/Machine/Objects.lean ====
section
/-! DEFINITION. Object records (R333 to R338): their fields, when they are valid, where an element
lies, and the walk that translates an address (R19, R20, R342, R377, R378). -/

namespace Sys2Proof.Machine

/-- What an access needs (R343). -/
inductive AKind where
  | read | write | atomic | ewrite | exec
  deriving DecidableEq, Repr

/-- The eight doublewords of an object record (R334). -/
abbrev ORec := List Word
def ORec.dw (r : ORec) (i : Nat) : Word := (r[i]?).getD 0
def ORec.valid (r : ORec) : Bool := bitOf (r.dw 0) 63
def ORec.kind (r : ORec) : Nat := slice (r.dw 0) 60 3
def ORec.fmt (r : ORec) : Nat := slice (r.dw 0) 56 4
def ORec.rank (r : ORec) : Nat := slice (r.dw 0) 54 2 + 1
def ORec.coh (r : ORec) : Nat := slice (r.dw 0) 52 2
def ORec.layout (r : ORec) : Nat := slice (r.dw 0) 48 4
def ORec.permX (r : ORec) : Bool := bitOf (r.dw 0) 47
def ORec.permEW (r : ORec) : Bool := bitOf (r.dw 0) 46
def ORec.permAT (r : ORec) : Bool := bitOf (r.dw 0) 45
def ORec.permW (r : ORec) : Bool := bitOf (r.dw 0) 44
def ORec.permRD (r : ORec) : Bool := bitOf (r.dw 0) 43
def ORec.reloc (r : ORec) : Bool := bitOf (r.dw 0) 42
def ORec.sh (r : ORec) : Bool := bitOf (r.dw 0) 41
def ORec.part (r : ORec) : BitVec 3 := BitVec.ofNat 3 (slice (r.dw 0) 37 3)
def ORec.cpown (r : ORec) : Nat := slice (r.dw 0) 26 11
def ORec.ext (r : ORec) (d : Nat) : Nat := slice (r.dw (1 + d / 2)) (32 * (d % 2)) 32
def ORec.place (r : ORec) : Nat := slice (r.dw 3) 0 52
def ORec.shadow (r : ORec) : Nat := slice (r.dw 4) 0 52
def ORec.pool (r : ORec) : BitVec 18 := BitVec.ofNat 18 (slice (r.dw 4) 0 18)
def ORec.background (r : ORec) : Word := r.dw 5
def ORec.stride (r : ORec) (d : Nat) : Nat :=
  if d = 1 then slice (r.dw 5) 0 32 else if d = 2 then slice (r.dw 5) 32 32 else slice (r.dw 6) 0 32
def ORec.logv (r : ORec) : Bool := bitOf (r.dw 7) 63
def ORec.log (r : ORec) : BitVec 18 := BitVec.ofNat 18 (slice (r.dw 7) 44 18)
def ORec.subTile (r : ORec) : Nat := 4096 * 2 ^ slice (r.dw 7) 40 4
def ORec.ringN (r : ORec) : Nat := 2 ^ slice (r.dw 4) 0 5
def ORec.ringS (r : ORec) : Nat := (slice (r.dw 4) 20 17 + 1) * 16
def ORec.handleState (r : ORec) : Nat := slice (r.dw 0) 0 2
def ORec.grant (r : ORec) : Nat := slice (r.dw 3) 0 45

def kDENSE : Nat := 0
def kMAPPED : Nat := 1
def kSPARSE : Nat := 2
def kRING : Nat := 3
def kBARRIER : Nat := 4
def kPEER : Nat := 5
def cohHC : Nat := 0
def cohSC : Nat := 1
def cohCP : Nat := 2

/-- R335: the element size in nibbles; 0 for an invalid format. -/
def fmtNibbles (f : Nat) : Nat := (([16, 8, 4, 4, 2, 2, 2, 1, 1, 4, 8, 16, 2] : List Nat)[f]?).getD 0
def ORec.nib (r : ORec) : Nat := fmtNibbles r.fmt

def ceilDiv (a b : Nat) : Nat := (a + b - 1) / b

/-- R336: the offset of an element, in nibbles. -/
def ORec.elemNibble (r : ORec) (c0 c1 c2 c3 : Nat) : Nat :=
  let z := r.nib
  let e0 := r.ext 0
  let e1 := r.ext 1
  let sq := c2 + r.ext 2 * c3
  if r.layout = 0 then z * (c0 + e0 * (c1 + e1 * sq))
  else if r.layout = 1 then z * c0 + 2 * (r.stride 1 * c1 + r.stride 2 * c2 + r.stride 3 * c3)
  else
    let t := 256 / z
    if r.layout = 2 then
      let g0 := ceilDiv e0 t
      let g1 := ceilDiv e1 16
      2 * (2048 * (c0 / t + g0 * (c1 / 16 + g1 * sq)) + 128 * (c1 % 16)) + z * (c0 % t)
    else
      let g0 := ceilDiv e0 32
      let g1 := ceilDiv e1 t
      2 * (4096 * (c0 / 32 + g0 * (c1 / t + g1 * sq))) + 32 * z * (c1 % t) + z * (c0 % 32)

/-- R336: the object's byte size. A 4-bit object of an odd number of elements ends in a whole byte. -/
def ORec.bytes (r : ORec) : Nat :=
  let z := r.nib
  let e0 := r.ext 0
  let e1 := r.ext 1
  let e2 := r.ext 2
  let e3 := r.ext 3
  if r.kind = kRING then 64 + r.ringN * r.ringS
  else if r.kind = kBARRIER then 32
  else if r.kind = kSPARSE then e0 * e1 * e2
  else if r.layout = 0 then ceilDiv (z * e0 * e1 * e2 * e3) 2
  else if r.layout = 1 then
    ceilDiv (z * e0) 2 + (e1 - 1) * r.stride 1 + (e2 - 1) * r.stride 2 + (e3 - 1) * r.stride 3
  else
    let t := 256 / z
    if r.layout = 2 then 2048 * ceilDiv e0 t * ceilDiv e1 16 * e2 * e3
    else 4096 * ceilDiv e0 32 * ceilDiv e1 t * e2 * e3

/-- All bits of a doubleword outside a mask are zero. -/
def zeroBut (x : Word) (mask : Nat) : Bool := x &&& ~~~(W mask) == 0

/-- R334, R337: the conditions on the doublewords of a record of a local kind. -/
def ORec.kindOk (r : ORec) : Bool :=
  let log := 2 ^ 63 + (2 ^ 18 - 1) * 2 ^ 44
  let strided : Bool :=
    if r.layout = 1 then
      zeroBut (r.dw 6) (2 ^ 32 - 1) && decide (2 ≤ r.rank)
        && r.stride 1 % 16 == 0 && r.stride 2 % 16 == 0 && r.stride 3 % 16 == 0
    else r.dw 5 == 0 && r.dw 6 == 0
  let tiled : Bool := r.layout < 2 || decide (2 ≤ r.rank)
  if r.kind = kDENSE then
    strided && tiled && r.place % 4096 == 0 && zeroBut (r.dw 3) (2 ^ 52 - 1)
      && (if r.sh then zeroBut (r.dw 4) (2 ^ 52 - 1) && r.shadow % 4096 == 0 else r.dw 4 == 0)
      && zeroBut (r.dw 7) log
  else if r.kind = kMAPPED then
    strided && tiled && r.place % 64 == 0 && zeroBut (r.dw 3) (2 ^ 52 - 1)
      && (if r.sh then zeroBut (r.dw 4) (2 ^ 52 - 1) && r.shadow % 64 == 0 else r.dw 4 == 0)
      && zeroBut (r.dw 7) (log + 15 * 2 ^ 40) && decide (slice (r.dw 7) 40 4 ≤ 12)
  else if r.kind = kSPARSE then
    decide (r.rank ≤ 3) && r.layout == 0 && r.fmt != 7 && r.fmt != 8
      && decide (r.ext 0 ≤ 65536) && decide (r.ext 1 ≤ 65536) && decide (r.ext 2 ≤ 65536)
      && zeroBut (r.dw 3) (2 ^ 52 - 1) && r.place % 512 == 0
      && zeroBut (r.dw 4) (2 ^ 18 - 1) && decide (r.pool.toNat < 0x3F000)
      && zeroBut (r.dw 5) (2 ^ (4 * r.nib) - 1) && r.dw 6 == 0 && zeroBut (r.dw 7) log
  else if r.kind = kRING then
    r.coh == cohHC && r.rank == 1 && r.layout == 0 && zeroBut (r.dw 3) (2 ^ 52 - 1) && r.place % 4096 == 0
      && zeroBut (r.dw 4) (31 + (2 ^ 17 - 1) * 2 ^ 20)
      && decide (1 ≤ slice (r.dw 4) 0 5) && decide (slice (r.dw 4) 0 5 ≤ 16) && decide (r.ringS ≤ 2 ^ 20)
      && r.dw 5 == 0 && r.dw 6 == 0 && r.dw 7 == 0
  else if r.kind = kBARRIER then
    r.coh == cohHC && r.rank == 1 && r.layout == 0 && zeroBut (r.dw 3) (2 ^ 52 - 1) && r.place % 32 == 0
      && r.dw 4 == 0 && r.dw 5 == 0 && r.dw 6 == 0 && r.dw 7 == 0
  else false

/-- R337: the conditions every local record meets. -/
def ORec.localOk (r : ORec) : Bool :=
  let dim (d : Nat) : Bool := r.ext d != 0 && (d < r.rank || r.ext d == 1)
  r.fmt ≤ 12 && r.coh != 3 && r.layout ≤ 3 && !bitOf (r.dw 0) 40 && slice (r.dw 0) 0 26 == 0
    && dim 0 && dim 1 && dim 2 && dim 3
    && (r.kind == kSPARSE || decide (r.bytes ≤ 2 ^ 44))
    && !(r.permX && (r.permW || r.permAT || r.permEW))
    && (r.coh == cohCP || r.cpown == 0) && r.kindOk

/-- R334: a PEER record uses only its own fields, and the handle state 0b11 is invalid. -/
def ORec.peerOk (r : ORec) : Bool :=
  zeroBut (r.dw 0) (2 ^ 63 + 7 * 2 ^ 60 + 31 * 2 ^ 43 + 3) && r.handleState != 3
    && zeroBut (r.dw 1) (2 ^ 35 - 1) && zeroBut (r.dw 2) ((2 ^ 18 - 1) * 2 ^ 44 + 4095)
    && zeroBut (r.dw 3) (2 ^ 45 - 1) && !(r.permX && (r.permW || r.permAT || r.permEW))
    && r.dw 4 == 0 && r.dw 5 == 0 && r.dw 6 == 0 && r.dw 7 == 0

/-- R334: the physical core that CPOWN names by logical numbers in the record's partition. -/
def ORec.owner (s : State) (r : ORec) : Option CoreId :=
  match physicalDie s r.part (r.cpown / 256) with
  | some d => if r.cpown / 8 % 32 < clusterCount s d then
      some (BitVec.ofNat 11 (d.toNat * 256 + r.cpown % 256)) else none
  | none => none

/-- R337: whether a record standing at an object number is valid. -/
def ORec.ok (s : State) (n : BitVec 18) (r : ORec) : Bool :=
  if 0x3F000 ≤ n.toNat then r.valid && r.kind == kPEER && r.peerOk
  else r.valid && r.localOk && (r.coh != cohCP || (r.owner s).isSome)

/-- R333: where the record of an object number stands, if it has one. -/
def recordAddr (ortbase : Word) (n : BitVec 18) : Option Nat :=
  let base := slice ortbase 12 40 * 4096
  let size := 2 ^ slice ortbase 52 5
  if 0x3F000 ≤ n.toNat then some (base + 64 * size + 64 * (n.toNat - 0x3F000))
  else if n.toNat < size then some (base + 64 * n.toNat)
  else none

def readRecord (s : State) (a : Nat) : ORec := (List.range 8).map fun i => memWord s.mem (a + 8 * i)

/-- R340, R341: a cluster goes on using the version of a record that it holds. -/
def cachedRecord (s : State) (c : ClusterId) (t : Tag) (n : BitVec 18) : Option ORec :=
  ((clusterGet s c).recs.find? fun e => e.ctx == t && e.obj == n).map (·.words)

/-- An agent that makes accesses: a core, the strand's tag and its table (R166). -/
structure Agent where
  core : CoreId
  tag : Tag
  ortbase : Word
  /-- SPGRP of its core (R378) -/
  groups : Word
  deriving DecidableEq, Repr

/-- The current strand as an agent. -/
def self (s : State) : Agent := ⟨s.cur, tagOf s.core.strand, s.core.strand.ortbase, s.core.spgrp⟩

/-- R227: whether an OSETA of another core's strand is changing the attribute of an object. -/
def changing (s : State) (g : Agent) (n : BitVec 18) : Bool :=
  (allCores s).any fun e => e.1 != g.core && e.2.strand.begun && e.2.strand.changing == some n
    && tagOf e.2.strand == g.tag
/-- R342: the valid record of an object number, or the fault. -/
def findRecord (s : State) (g : Agent) (n : BitVec 18) (tval : Word) : M ORec :=
  match cachedRecord s (clusterOf g.core) g.tag n with
  | some r => .ok r
  | none =>
    match recordAddr g.ortbase n with
    | none => trapM cTRANSLATION tval
    | some a =>
      if (firstPoison s.poison a 64).isSome then trapM cPOISON tval
      else if (readRecord s a).ok s n then .ok (readRecord s a) else trapM cTRANSLATION tval

/-- R342, R227: the record for a translation, which waits while the attribute of its object is being changed. -/
def lookup (s : State) (g : Agent) (n : BitVec 18) (tval : Word) : M ORec :=
  if changing s g n then waitM else findRecord s g n tval

/-- R343: the permission of a kind of access. -/
def ORec.permits (r : ORec) : AKind → Bool
  | .read => r.permRD | .write => r.permW | .atomic => r.permAT | .ewrite => r.permEW | .exec => r.permX

/-- The record checks of R342 up to the CP check, for a record that is not PEER. -/
def recordChecks (s : State) (g : Agent) (r : ORec) (k : AKind) (tval : Word) : M Unit := do
  need (r.part == partOfCore s g.core) cISOLATION tval
  need (r.permits k) cPERMISSION tval
  need (r.coh != cohCP || r.owner s == some g.core) cISOLATION tval

/-- A range of at most sixteen bytes at a storage address, and what kind of storage it is. -/
structure Piece where
  key : Nat
  len : Nat
  kind : PlaceKind
  deriving DecidableEq, Repr

def objOf (va : Word) : BitVec 18 := BitVec.ofNat 18 (va.toNat / 2 ^ 44)
def offOf (va : Word) : Nat := va.toNat % 2 ^ 44
def spaceOf (va : Word) : Nat := va.toNat / 2 ^ 62
/-- R14: whether an address lies in the peer window. -/
def inPeerWindow (va : Word) : Bool := spaceOf va == 0 && decide (0x3F000 ≤ (objOf va).toNat)

/-- Cut `len` bytes from an offset at sixteen-byte boundaries; `fuel` bounds the pieces. -/
def cuts : Nat → Nat → Nat → List (Nat × Nat)
  | 0, _, _ => []
  | fuel + 1, o, len =>
    if len = 0 then []
    else
      let n := min len (16 - o % 16)
      (o, n) :: cuts fuel (o + n) (len - n)
def cutRange (o len : Nat) : List (Nat × Nat) := cuts (len / 16 + 2) o len

/-- R233's class of an object's bytes. -/
def ORec.placeKind (s : State) (r : ORec) : PlaceKind :=
  if r.coh = cohSC then .sc else if r.coh = cohCP then .cp ((r.owner s).getD 0) else .hc

/-- R338: the map entry of a sub-tile is resident and well formed; its physical base. -/
def mapEntry (s : State) (r : ORec) (place i : Nat) : Option Nat :=
  let e := memWord s.mem (place + 8 * i)
  let pa := slice e 12 40 * 4096
  if bitOf e 63 && slice e 52 11 == 0 && slice e 0 12 == 0 && pa % r.subTile == 0 then some pa else none

/-- R366: a translation that the core's look-aside buffer holds. -/
def clbFind (s : State) (g : Agent) (n : BitVec 18) (key : Nat) : Option Nat :=
  ((coreGet s g.core).clb.find? fun e => e.ctx == g.tag && e.obj == n && e.key == key).map (·.base)

/-- R338: the storage address of a byte of a DENSE or MAPPED object, or RESIDENCY. -/
def placeByte (s : State) (g : Agent) (n : BitVec 18) (r : ORec) (o : Nat) (tval : Word) : M Nat :=
  if r.kind = kMAPPED then
    let i := o / r.subTile
    match clbFind s g n i with
    | some b => .ok (b + o % r.subTile)
    | none =>
      if (firstPoison s.poison (r.place + 8 * i) 8).isSome then trapM cPOISON tval
      else match mapEntry s r r.place i with
        | some b => .ok (b + o % r.subTile)
        | none => trapM cRESIDENCY tval
  else .ok (r.place + o)

/-- R327: the data reply of a snoop waits for the stall of a cluster that holds the line dirty. -/
def snoopBusy (s : State) (c : ClusterId) (a : Nat) : Bool :=
  s.dirty.any fun e => e.addr == a / 64 * 64 && clusterOf e.core != c && stalled s (clusterOf e.core)
def snoopReady (s : State) (c : ClusterId) (ps : List Piece) : M Unit :=
  if ps.any fun p => snoopBusy s c p.key then waitM else .ok ()

/-- R342 after the record checks: the shape, relocation and residency steps over a range of an object. -/
def objectSpan (s : State) (g : Agent) (va : Word) (r : ORec) (w : Nat) (k : AKind) : M (List Piece) := do
  let o := offOf va
  let b := r.bytes
  let ctl : Bool := r.kind == kRING && (k == .write || k == .atomic || k == .ewrite) && decide (o < 64)
  let fetch : Bool := k == .exec && (r.kind == kRING || r.kind == kBARRIER)
  need (r.kind != kSPARSE && !ctl && !fetch) cPERMISSION va
  need (decide (o + w ≤ b)) cSHAPE (if o < b then va + W (b - o) else va)
  need (!(r.reloc && (k == .write || k == .atomic || k == .ewrite))) cRELOCATION va
  let ps ← (cutRange o w).mapM fun c => do
    let key ← placeByte s g (objOf va) r c.1 (va + W (c.1 - o))
    pure ⟨key, c.2, r.placeKind s⟩
  snoopReady s (clusterOf g.core) ps
  pure ps

/-- R377: whether a context holds shares with these offsets on a core, outside the spill carve-out of every strand. -/
def shareHeld (s : State) (t : Tag) (k : CoreId) (o w : Nat) : Bool :=
  let mine := ((contextGet s t).map (·.held)).getD []
  ((cutRange o w).all fun p => mine.any fun h =>
      h.core == k && decide (h.lay.shareBase ≤ p.1) && decide (p.1 + p.2 ≤ h.lay.shareLimit))
    && !(s.svc.contexts.any fun c => c.held.any fun h =>
      h.core == k && decide (h.lay.spillBase < o + w) && decide (o < h.lay.spillTop))

/-- R378: whether an agent may read these offsets of a core as a shared read region of its group. -/
def sharedRead (s : State) (g : Agent) (k : CoreId) (o w : Nat) : Bool :=
  (coreGet s k).spshr.toList.any fun x =>
    let grp := slice x 56 8
    grp != 0 && decide (slice x 0 21 ≤ o) && decide (o + w ≤ slice x 32 21)
      && (List.range 4).any fun i => slice g.groups (8 * i) 8 == grp

/-- R17: the global scratchpad address that an address names on a core, die counted by logical number. -/
def resolveAlias (s : State) (k : CoreId) (va : Word) : Word :=
  if spaceOf va = 2 then
    W (2 ^ 62 + logicalDie s (dieOf k) * 2 ^ 28 + k.toNat % 256 * 2 ^ 20 + va.toNat % 2 ^ 20)
  else va

/-- R19, R400: the core that a global scratchpad address names, or the fault with TVAL `tval`. -/
def spCore (s : State) (g : Agent) (va tval : Word) : M CoreId := do
  need (slice va 31 31 == 0) cSHAPE tval
  match physicalDie s (partOfCore s g.core) (slice va 28 3) with
  | none => trapM cSHAPE tval
  | some d =>
    need (decide (slice va 23 5 < clusterCount s d)) cSHAPE tval
    pure (BitVec.ofNat 11 (d.toNat * 256 + slice va 20 8))

/-- R327: an access to another cluster's scratchpad or SRAM waits for the stall of that cluster. -/
def remoteReady (s : State) (g : Agent) (c : ClusterId) : M Unit :=
  if c ≠ clusterOf g.core ∧ stalled s c = true then waitM else .ok ()

/-- R19, R377, R378: the checks of a scratchpad access of `w` bytes. That a failed one reports the address as the
instruction names it, a local alias unresolved, is the model's choice (log 76). -/
def spSpan (s : State) (g : Agent) (va : Word) (w : Nat) (k : AKind) : M (List Piece) := do
  need (spaceOf va != 2 || slice va 20 42 == 0) cSHAPE va
  let core ← if spaceOf va = 2 then pure g.core else spCore s g va va
  let o := slice va 0 20
  let cap := spCapOf s (dieOf core)
  need (decide (o + w ≤ cap)) cSHAPE (if o < cap then va + W (cap - o) else va)
  need (!fenced s (clusterOf core)) cPOISON va
  need (!dieOff s (dieOf core)) cISOLATION va
  need (shareHeld s g.tag core o w || (k == .read && sharedRead s g core o w)) cISOLATION va
  remoteReady s g (clusterOf core)
  pure ((cutRange o w).map fun c => ⟨spBase core + c.1, c.2, .sp⟩)

/-- R20: the checks of a cluster SRAM access of `w` bytes. -/
def sramSpan (s : State) (g : Agent) (va : Word) (w : Nat) : M (List Piece) := do
  need (slice va 31 31 == 0 && slice va 18 5 == 0) cSHAPE va
  match physicalDie s (partOfCore s g.core) (slice va 28 3) with
  | none => trapM cSHAPE va
  | some d =>
    need (decide (slice va 23 5 < clusterCount s d)) cSHAPE va
    let o := slice va 0 18
    need (decide (o + w ≤ 0x40000)) cSHAPE (va + W (0x40000 - o))
    need (decide (0x1000 ≤ o)) cPERMISSION va
    let c := mkCluster d (slice va 23 5)
    need (!fenced s c) cPOISON va
    need (!dieOff s d) cISOLATION va
    remoteReady s g c
    pure ((cutRange o w).map fun p => ⟨sramBase c + p.1, p.2, .sram⟩)

/-- R103: translate an access of `w` bytes that may not name the peer window (R261). -/
def translate (s : State) (g : Agent) (va : Word) (w : Nat) (k : AKind) : M (List Piece) :=
  match spaceOf va with
  | 0 => do
    need (!inPeerWindow va) cPERMISSION va
    let r ← lookup s g (objOf va) va
    recordChecks s g r k va
    objectSpan s g va r w k
  | 3 => sramSpan s g va w
  | _ => spSpan s g va w k

/-- R262: the checks of a handle for an access of the kinds it needs. -/
def peerChecks (r : ORec) (va : Word) (w : Nat) (ks : List AKind) : M Unit := do
  need (r.handleState == 0) cREMOTE va
  need (ks.all r.permits) cPERMISSION va
  need (decide (offOf va + w ≤ r.grant)) cSHAPE va

/-- R340: the cluster of an agent holds the version of a record that a translation used. -/
def noteRecord (g : Agent) (n : BitVec 18) (s : State) : State :=
  match recordAddr g.ortbase n with
  | none => s
  | some a =>
    let cl := clusterOf g.core
    let c := clusterGet s cl
    if c.recs.any fun e => e.ctx == g.tag && e.obj == n then s
    else clusterSet s cl { c with recs := (⟨g.tag, n, readRecord s a⟩ :: c.recs).take 512 }
/-- R366: make a look-aside buffer entry of an agent's core the most recently used. -/
def clbNote (s : State) (g : Agent) (e : ClbEntry) : State :=
  let k := coreGet s g.core
  coreSet s g.core { k with clb := (e :: k.clb.filter fun d => d != e).take 256 }
/-- R366: the sub-tile of a MAPPED object that an access of an agent used, if it is resident. -/
def noteSubTile (g : Agent) (n : BitVec 18) (r : ORec) (i : Nat) (s : State) : State :=
  match (clbFind s g n i).orElse fun _ => mapEntry s r r.place i with
  | none => s
  | some b => clbNote s g ⟨g.tag, n, i, b⟩

/-- The translations an access leaves in the record cache and the look-aside buffer (R340, R366). -/
def noteTranslation (g : Agent) (va : Word) (w : Nat) (s : State) : State :=
  if spaceOf va ≠ 0 then s
  else
    let n := objOf va
    match recordAddr g.ortbase n with
    | none => s
    | some a =>
      let r := (cachedRecord s (clusterOf g.core) g.tag n).getD (readRecord s a)
      let s1 := noteRecord g n s
      if r.kind ≠ kMAPPED then s1
      else
        let i0 := offOf va / r.subTile
        let n1 := (offOf va + w - 1) / r.subTile + 1 - i0
        (List.range n1).foldl (fun s2 j => noteSubTile g n r (i0 + j) s2) s1

end Sys2Proof.Machine
end

