-- ==== Sys2Proof/Machine/Access.lean ====
section
/-! DEFINITION. Reading and writing storage under the memory model: one copy of scratchpad and cluster
SRAM bytes (R16), hardware-coherent bytes at their home, software-coherent lines in the clusters that
hold them (R217 to R221), poison (R395), full-empty bits (R127) and bound windows (R243). -/

namespace Sys2Proof.Machine

/-- The line of a storage address. -/
def lineOf (a : Nat) : Nat := a / 64 * 64

def Cluster.line (c : Cluster) (a : Nat) : Option L1Line := c.l1.find? fun l => l.addr == a
/-- Replace or insert a line in a list kept by rising address. -/
def l1Set (x : L1Line) : List L1Line → List L1Line
  | [] => [x]
  | y :: t => if x.addr < y.addr then x :: y :: t else if x.addr = y.addr then x :: t else y :: l1Set x t
def l2Get (s : State) (d : DieId) (a : Nat) : Option L2Line :=
  (s.l2.find? fun e => e.1 == d && e.2.addr == a).map (·.2)
/-- The byte `i` of a line with bytes replaced where the mask has a 1. -/
def mergeBytes (mask : Nat) : List Byte → List Byte → List Byte
  | o :: os, n :: ns => (if mask % 2 = 1 then n else o) :: mergeBytes (mask / 2) os ns
  | os, _ => os
def l2Drop (s : State) (d : DieId) (a : Nat) : State :=
  { s with l2 := s.l2.filter fun e => !(e.1 == d && e.2.addr == a) }
def l2DropAll (s : State) (a : Nat) : State := { s with l2 := s.l2.filter fun e => e.2.addr != a }

/-- R354: fills of lines that are charged to a context. -/
def chargeFills (t : Tag) (n : Nat) (s : State) : State := if n = 0 then s else charge t n 0 0 s
/-- R217: a line that a cluster lacks is fetched from its die's L2 or else from the home, with its mark (R395). -/
def fillLine (s : State) (c : ClusterId) (t : Tag) (a : Nat) : State :=
  match (clusterGet s c).line a with
  | some _ => s
  | none =>
    let d := dieOfCluster c
    let have2 := l2Get s d a
    let data := match have2 with
      | some l => l.data
      | none => memRead s.mem a 64
    let bad := match have2 with
      | some l => l.bad
      | none => s.poison.contains a
    let s1 := if have2.isSome then s else { s with l2 := (d, ⟨a, data, 0, bad⟩) :: s.l2 }
    let cl := clusterGet s1 c
    charge t (if have2.isSome then 1 else 2) 0 0
      (clusterSet s1 c { cl with l1 := l1Set ⟨a, data, 0, t, 0, bad⟩ cl.l1 })

/-- R395: the mark of a unit into which bytes of a line are merged: a poisoned line carries its mark there, and a sound one
clears the mark only when it brings every byte. -/
def mergeMark (bad : Bool) (mask : BitVec 64) (old : Bool) : Bool := bad || old && mask != BitVec.allOnes 64
/-- The mark of the home of a line, changed by a merge. -/
def mergeHome (bad : Bool) (mask : BitVec 64) (a : Nat) (p : List Nat) : List Nat :=
  if mergeMark bad mask (p.contains a) then sortedInsert a p else p.filter (· != a)
/-- The same at the copy of a die's L2. -/
def l2Merge (s : State) (d : DieId) (a : Nat) (bad : Bool) (mask : BitVec 64) (data : List Byte) : State :=
  { s with l2 := s.l2.map fun e =>
      if e.1 = d ∧ e.2.addr = a then
        (e.1, { e.2 with data := mergeBytes mask.toNat e.2.data data, bad := mergeMark bad mask e.2.bad })
      else e }
/-- R218, R395: merge a line's dirty bytes at the home and the L2 copy, with its mark; the mask becomes zero. -/
def writeBackLine (s : State) (c : ClusterId) (a : Nat) : State :=
  match (clusterGet s c).line a with
  | none => s
  | some l =>
    if l.mask = 0 then s
    else
      let s1 := l2Merge { s with
          mem := memMerge s.mem a l.mask.toNat l.data
          poison := mergeHome l.bad l.mask a s.poison } (dieOfCluster c) a l.bad l.mask l.data
      let cl := clusterGet s1 c
      charge l.tag 0 1 0 (clusterSet s1 c { cl with l1 := l1Set { l with mask := 0 } cl.l1 })
/-- Remove a line from a cluster's L1Ds. -/
def dropLine (s : State) (c : ClusterId) (a : Nat) : State :=
  let cl := clusterGet s c
  clusterSet s c { cl with l1 := cl.l1.filter fun l => l.addr != a }
/-- Write back and remove a line everywhere it is held, the clusters taken in order of number. -/
def purgeLine (s : State) (a : Nat) : State :=
  l2DropAll ((s.clusters.map (·.1)).foldl (fun s c => dropLine (writeBackLine s c a) c a) s) a

/-- R354: dirty lines of L1Ds leave them, each charged to the tag it carries. -/
def dropDirty (s : State) (hit : DirtyLine → Bool) : State :=
  (s.dirty.filter hit).foldl (fun s e => charge e.tag 0 1 0 s) { s with dirty := s.dirty.filter fun e => !hit e }
/-- The lines of a range are dirty in no cache. -/
def cleanRange (s : State) (a n : Nat) : State :=
  dropDirty s fun e => decide (lineOf a ≤ e.addr) && decide (e.addr < a + n)
/-- R218: the mask of bytes at an address. -/
def byteMask (a n : Nat) : BitVec 64 := BitVec.ofNat 64 (2 ^ n - 1) <<< (a % 64)
/-- A line in a list kept by rising address; the bytes that its core has already written stay marked. -/
def dirtySet (x : DirtyLine) : List DirtyLine → List DirtyLine
  | [] => [x]
  | y :: t =>
    if x.addr < y.addr then x :: y :: t
    else if x.addr = y.addr then { x with mask := if x.core = y.core then x.mask ||| y.mask else x.mask } :: t
    else y :: dirtySet x t
/-- R218, R354: bytes of a hardware-coherent line have been written in a core's L1D by a context, which is charged the fill
of a line that the core did not hold dirty. That an AMO or CAS is performed near is the model's choice (log 43). -/
def markDirty (s : State) (k : CoreId) (t : Tag) (a n : Nat) : State :=
  chargeFills t (if s.dirty.any fun e => e.addr == lineOf a && e.core == k then 0 else 2)
    { s with dirty := dirtySet ⟨lineOf a, k, byteMask a n, t⟩ s.dirty }

/-- The bytes of a piece as an agent of a cluster reads them. -/
def pieceRead (s : State) (c : ClusterId) (p : Piece) : List Byte :=
  match p.kind with
  | .sc =>
    match (clusterGet s c).line (lineOf p.key) with
    | some l => (l.data.drop (p.key % 64)).take p.len
    | none => match l2Get s (dieOfCluster c) (lineOf p.key) with
      | some l => (l.data.drop (p.key % 64)).take p.len
      | none => memRead s.mem p.key p.len
  | _ => memRead s.mem p.key p.len

/-- The lines of HBM that a list of addresses lies in, each run of one line counted once. -/
def lineRuns : List Nat → Nat
  | [] => 0
  | [_] => 1
  | a :: b :: l => lineRuns (b :: l) + if lineOf a = lineOf b then 0 else 1
/-- R354: the lines that an access misses: those of hardware-coherent storage that no L1D of the cluster holds dirty. They
leave the caches again clean (log 43). -/
def missed (s : State) (c : ClusterId) (ps : List Piece) : Nat :=
  lineRuns ((ps.filter fun p => p.kind != .sc && p.kind != .sp && p.kind != .sram
    && !s.dirty.any fun e => e.addr == lineOf p.key && clusterOf e.core == c).map (·.key))
/-- The state after an agent has read pieces: the software-coherent lines it missed are filled, and the fills of the
others are charged. -/
def fillPieces (s : State) (c : ClusterId) (t : Tag) (ps : List Piece) : State :=
  chargeFills t (2 * missed s c ps)
    (ps.foldl (fun s p => if p.kind = .sc then fillLine s c t (lineOf p.key) else s) s)

/-- R395: whether the unit that a cluster's agent finds at an address is poisoned: its own copy of a software-coherent
line, else its die's, else what stands at the home. -/
def unitBad (s : State) (c : ClusterId) (k : Nat) : Bool :=
  match (clusterGet s c).line (lineOf k) with
  | some l => l.bad
  | none => match l2Get s (dieOfCluster c) (lineOf k) with
    | some l => l.bad
    | none => s.poison.contains (poisonUnit k)
/-- The first poisoned byte of a piece of one line as a cluster's agent reads it. -/
def pieceBad (s : State) (c : ClusterId) (p : Piece) : Option Nat :=
  if p.kind = .sc then (if p.len ≠ 0 ∧ unitBad s c p.key then some p.key else none)
  else firstPoison s.poison p.key p.len
/-- R372: the first poisoned byte of an access by the current core, as an offset from its start. -/
def poisonAt (s : State) : Nat → List Piece → Option Nat
  | _, [] => none
  | o, p :: t => match pieceBad s (clusterOf s.cur) p with
    | some a => some (o + (a - p.key))
    | none => poisonAt s (o + p.len) t
/-- R395: a use of a poisoned unit traps. -/
def needClean (s : State) (va : Word) (ps : List Piece) : M Unit :=
  match poisonAt s 0 ps with
  | none => .ok ()
  | some o => trapM cPOISON (va + W o)

/-- The doublewords of a ring's control line (R244), at the ring's base. -/
def ringW (s : State) (base i : Nat) : Nat := (memWord s.mem (base + 8 * i)).toNat
def ringSet (s : State) (base i v : Nat) : State := { s with mem := memSetWord s.mem (base + 8 * i) (W v) }

/-- The ring that an object's record names as its write-range log (R219). That a record whose LOGV is 1 and whose LOG names no
valid ring with slots of 16 bytes has no log is the model's choice (log 42). -/
def logRing (s : State) (g : Agent) (r : ORec) : Option ORec :=
  if !r.logv then none
  else match findRecord s g r.log 0 with
    | .ok l => if l.kind = kRING ∧ l.ringS = 16 then some l else none
    | .error _ => none

/-- R219: the doublewords of a log record. -/
def logDw0 (n : BitVec 18) (o : Nat) : Word := W (n.toNat * 2 ^ 44 + o % 2 ^ 44)
def logDw1 (o die cl len : Nat) : Word :=
  W (2 ^ 63 + o / 2 ^ 44 % 128 * 2 ^ 43 + die * 2 ^ 40 + cl * 2 ^ 35 + len)
def logOffset (d0 d1 : Word) : Nat := slice d0 0 44 + slice d1 43 7 * 2 ^ 44
def logLength (d1 : Word) : Nat := slice d1 0 21

/-- R220: one addition to a write-range log, for the line at linear offset `o` of object `n`. -/
def logAdd (s : State) (c : ClusterId) (l : ORec) (n : BitVec 18) (o : Nat) : State :=
  let base := l.place
  let wp := ringW s base 0
  let rp := ringW s base 1
  let die := logicalDie s (dieOfCluster c)
  let cl := c.toNat % 32
  let slot (i : Nat) : Nat := base + 64 + 16 * (i % l.ringN)
  if ringW s base 3 % 2 = 1 then s
  else
    let last := slot (wp - 1)
    let d0 := memWord s.mem last
    let d1 := memWord s.mem (last + 8)
    if rp < wp ∧ slice d0 44 18 = n.toNat ∧ slice d1 40 3 = die ∧ slice d1 35 5 = cl
        ∧ logOffset d0 d1 + logLength d1 = o ∧ logLength d1 < 0x100000 then
      { s with mem := memSetWord s.mem (last + 8) (d1 + 64) }
    else if wp - rp < l.ringN then
      let s1 := { s with mem := memSetWord (memSetWord s.mem (slot wp) (logDw0 n o)) (slot wp + 8)
                                  (logDw1 o die cl 64) }
      ringSet (ringSet s1 base 0 (wp + 1)) base 2 (max (ringW s base 2) (wp + 1))
    else ringSet s base 3 (ringW s base 3 + 1)

/-- Where a store's bytes stand for the write-range log: record, object number and linear offset. -/
structure LogAt where
  record : ORec
  obj : BitVec 18
  off : Nat
  deriving DecidableEq, Repr

/-- R219: the addition to its object's log of a store to a line whose dirty mask is `mask`. -/
def noteStore (s : State) (g : Agent) (la : Option LogAt) (mask : BitVec 64) : State :=
  match la with
  | none => s
  | some x =>
    if mask ≠ 0 then s
    else match logRing s g x.record with
      | none => s
      | some lg => logAdd s (clusterOf g.core) lg x.obj (x.off / 64 * 64)

/-- R217 to R219: store bytes of one software-coherent line in the writing cluster. -/
def scWrite (s : State) (g : Agent) (la : Option LogAt) (p : Piece) (bs : List Byte) : State :=
  let c := clusterOf g.core
  let a := lineOf p.key
  let s1 := fillLine s c g.tag a
  match (clusterGet s1 c).line a with
  | none => s1
  | some l =>
    let i := p.key % 64
    let data := l.data.take i ++ bs ++ l.data.drop (i + bs.length)
    let mask : BitVec 64 := l.mask ||| byteMask p.key bs.length
    let s2 := noteStore s1 g la l.mask
    let cl := clusterGet s2 c
    clusterSet s2 c { cl with l1 := l1Set ⟨a, data, mask, g.tag, coreNo g.core, l.bad⟩ cl.l1 }

/-- Store the bytes of one piece by a strand. -/
def pieceWrite (s : State) (g : Agent) (la : Option LogAt) (p : Piece) (bs : List Byte) : State :=
  let put : State := { s with mem := memWrite s.mem p.key bs, poison := clearPoison s.poison p.key bs.length }
  match p.kind with
  | .sc => scWrite s g la p bs
  | .hc | .cp _ => markDirty put g.core g.tag p.key bs.length
  | .sram => claimSram g.tag p.key bs.length put
  | _ => put

/-- Store bytes over pieces in increasing address order. -/
def piecesWrite (g : Agent) (la : Option LogAt) : List Piece → List Byte → State → State
  | [], _, s => s
  | p :: t, bs, s =>
    piecesWrite g (la.map fun x => { x with off := x.off + p.len }) t (bs.drop p.len)
      (pieceWrite s g la p (bs.take p.len))

/-- R395: whether pieces hold every byte of a unit of poison. -/
def coverUnit (ps : List Piece) (a : Nat) : Bool :=
  (List.range (poisonSize a)).all fun i => ps.any fun p => decide (p.key ≤ a + i) && decide (a + i < p.key + p.len)
/-- R395: the units that a store of a cluster covers whole lose their poison: those of storage of one copy, and the
cluster's own copies of software-coherent lines. -/
def soundUnits (c : ClusterId) (ps : List Piece) (s : State) : State :=
  let own := ps.filter fun p => p.kind == .sc
  let s1 := { s with poison := s.poison.filter fun a => !coverUnit (ps.filter fun p => p.kind != .sc) a }
  if own = [] then s1
  else
    let cl := clusterGet s1 c
    clusterSet s1 c { cl with l1 := cl.l1.map fun l => { l with bad := l.bad && !coverUnit (own.filter fun p => lineOf p.key == l.addr) l.addr } }
/-- A strand's store over pieces. -/
def storePieces (g : Agent) (la : Option LogAt) (ps : List Piece) (bs : List Byte) (s : State) : State :=
  soundUnits (clusterOf g.core) ps (piecesWrite g la ps bs s)

/-- R391: the strand whose share holds a granule that is set FULL has an event. -/
def signalFull (s : State) (a : Nat) : State :=
  let k : CoreId := BitVec.ofNat 11 (a / 2 ^ 20)
  let c := coreGet s k
  let o := a % 2 ^ 20
  if c.mode ≠ .vacant ∧ slice c.spshare 0 21 ≤ o ∧ o < slice c.spshare 32 21 then
    coreSet s k { c with strand := c.strand.setEv }
  else s
/-- Set FULL the granules of a range of scratchpad (R127, R233). -/
def markFull (s : State) (a n : Nat) : State := signalFull { s with empty := setFull s.empty a n } a

/-- R230: the engine commands of a core, and those that hold a die-to-die entry of its cluster. -/
def queued (s : State) (k : CoreId) : Nat := (s.cmds.filter fun c => c.core == k).length
def queuedD2d (s : State) (c : ClusterId) : Nat := (s.cmds.filter fun x => clusterOf x.core == c && x.d2d).length

/-- The number of 4 KiB pieces of data a command moves (R322). -/
def Cmd.pieces (c : Cmd) : Nat := ceilDiv c.size 4096

/-- R235: the tokens owed to a strand by outstanding commands of the kind of one. -/
def owed (s : State) (c : Cmd) : Nat :=
  (s.cmds.filter fun d => d.strand == c.strand && d.tok && d.gather == c.gather).length
/-- R231 stage 5: room in the queues and for the token. -/
def engineRoom (s : State) (c : Cmd) : Bool :=
  decide (queued s c.core < 8) && (!c.d2d || decide (queuedD2d s (clusterOf c.core) < 8))
    && (!c.tok || (findStrand c.strand s).all fun t => tokenRoom t c.kind (owed s c))
/-- R354: the lines of HBM that a command reads, whose fills its context is charged. -/
def Cmd.sourceLines (c : Cmd) : Nat :=
  lineRuns ((c.units.flatMap fun u => u.bytes.filterMap (·.src)).filter fun k => !(isSp k || isSram k))
/-- R231 stage 6, R322: the command is enqueued and debited. -/
def enqueue (c : Cmd) (s : State) : State :=
  debitAt c.core c.ctx (.engine c.pieces) (chargeFills c.ctx c.sourceLines
    { s with cmds := s.cmds ++ [{ c with id := s.nextId }], nextId := s.nextId + 1 })

/-- Change a window of a core. -/
def windowSet (s : State) (k : CoreId) (i : BitVec 2) (w : Window) : State :=
  let c := coreGet s k
  coreSet s k { c with win := c.win.set i.toNat w i.isLt }
def windowGet (s : State) (k : CoreId) (i : BitVec 2) : Window := (coreGet s k).win[i.toNat]'(i.isLt)
/-- A byte as a cluster's engine reads it at its coherence point (R233). -/
def engineByte (s : State) (c : ClusterId) (k : Nat) : Byte :=
  match (clusterGet s c).line (lineOf k) with
  | some l => l.data.getD (k % 64) 0
  | none => match l2Get s (dieOfCluster c) (lineOf k) with
    | some l => l.data.getD (k % 64) 0
    | none => memGet s.mem k
/-- A whole byte. -/
def EByte.of (src : Option Nat) (x : Byte) : EByte := { src := src, val := x }
/-- R240: the pair of 4-bit elements in the high half of one byte and the low half of the next. -/
def splice (x y : Byte) : Byte := x >>> 4 ||| y <<< 4
/-- A byte as its source holds it now. -/
def refreshByte (s : State) (c : ClusterId) (b : EByte) : EByte :=
  match b.src, b.src2 with
  | some k, some j => { b with val := splice (engineByte s c k) (engineByte s c j) }
  | some k, none => { b with val := engineByte s c k }
  | none, _ => b
/-- A unit with its source bytes read again. -/
def refreshUnit (s : State) (c : ClusterId) (u : EUnit) : EUnit :=
  { u with
    bytes := u.bytes.map (refreshByte s c)
    poisoned := u.bytes.any fun b => match b.src with
      | some k => unitBad s c k || b.src2.any (unitBad s c)
      | none => u.poisoned }

/-- R242: the copy of a touched window is enqueued when there is room, and reads its source then. -/
def startWindow (k : CoreId) (s : State) (i : BitVec 2) : State :=
  let w := windowGet s k i
  match w.cmd with
  | some c =>
    if w.st = .copying ∧ engineRoom s c then
      enqueue { c with units := c.units.map (refreshUnit s (clusterOf k)) } (windowSet s k i { w with cmd := none })
    else s
  | none => s
/-- R242: every touched window whose copy still waits for room is tried again. -/
def startWindows (s : State) : State :=
  (allCores s).foldl (fun s e => ([0, 1, 2, 3] : List (BitVec 2)).foldl (startWindow e.1) s) s

/-- R243: whether an access touches a window. -/
def touches (t : Tag) (ps : List Piece) (w : Window) : Bool :=
  w.st == .bound && w.ctx == t
    && w.granules.any fun g => ps.any fun p => decide (g < p.key + p.len) && decide (p.key < g + 16)
/-- R243: start the copies of the bound windows of a core that an access of the running context touches. -/
def touchCore (ps : List Piece) (s : State) (k : CoreId) : State :=
  ([0, 1, 2, 3] : List (BitVec 2)).foldl (fun s i =>
    let w := windowGet s k i
    if touches (tagOf s.core.strand) ps w then startWindow k (windowSet s k i { w with st := .copying }) i else s) s
/-- R243: an access touches the windows of every core. -/
def touch (s : State) (ps : List Piece) : State := ((allCores s).map (·.1)).foldl (touchCore ps) s

/-- R70, R71, R342: the bytes of a plain read of the current strand, and the state it leaves. -/
def loadBytes (s : State) (va : Word) (w : Nat) : M (List Byte × State) := do
  let g := self s
  let ps ← translate s g va w .read
  needClean s va ps
  let s1 := fillPieces (noteTranslation g va w s) (clusterOf g.core) g.tag ps
  pure ((ps.map (pieceRead s (clusterOf g.core))).flatten, touch s1 ps)

/-- The place in its object of a store, for the write-range log. -/
def logAtOf (s : State) (g : Agent) (va : Word) : Option LogAt :=
  if spaceOf va ≠ 0 then none
  else match lookup s g (objOf va) va with
    | .ok r => some ⟨r, objOf va, offOf va⟩
    | .error _ => none

/-- R70 to R72: a plain store by the current strand. -/
def storeBytes (s : State) (va : Word) (bs : List Byte) : M State := do
  let g := self s
  let ps ← translate s g va bs.length .write
  pure (touch (storePieces g (logAtOf s g va) ps bs (noteTranslation g va bs.length s)) ps)

end Sys2Proof.Machine
end

