-- ==== Sys2Proof/Machine/Operands.lean ====
section
/-! DEFINITION. Operand forms: widths and extensions of loads and stores (R70), the value a trap reports
for an instruction (R50), and the register lines an instruction names (R27, R382). -/

namespace Sys2Proof.Machine

/-- R40: the bytes of a load's size code. -/
def szBytes (sz : BitVec 3) : Nat := 2 ^ (sz.toNat % 4)
/-- R40: the bytes of a store's width code. -/
def wBytes (w : BitVec 2) : Nat := 2 ^ w.toNat
/-- R70: a loaded value extended to 64 bits; codes from 0b100 extend with zeros. -/
def loadExt (sz : BitVec 3) (v : Nat) : Word :=
  if 4 ≤ sz.toNat then W v else sextNat (8 * szBytes sz) v
/-- R70: the effective address with a sign-extended offset. -/
def effAddr {n : Nat} (base : Word) (off : BitVec n) : Word := base + off.signExtend 64

/-- R50: the instruction as TVAL reports it. -/
def instrVal (i : Instr) : Word := W ((encode i).1 + (encode i).2 * 2 ^ 32)
/-- An illegal-instruction trap of R49 row 6 whose rule names no other value (R50). -/
def illegal {α : Type} (i : Instr) : M α := trapM cILLEGAL (instrVal i)

/-- Bits `lo + n - 1 : lo` set. -/
def bitsAt (lo n : Nat) : Nat := (2 ^ n - 1) * 2 ^ lo
/-- R4: the RSV bits of a control register. -/
def csrReserved (n : BitVec 12) : Word :=
  W (match n.toNat with
    | 0x000 => bitsAt 3 61
    | 0x001 => bitsAt 9 54
    | 0x005 => bitsAt 12 52
    | 0x006 => bitsAt 57 7 + bitsAt 0 12
    | 0x007 | 0x008 | 0x0D0 => bitsAt 20 44 + bitsAt 0 6
    | 0x009 => bitsAt 52 12 + bitsAt 0 6
    | 0x010 => bitsAt 18 46 + bitsAt 13 3 + bitsAt 5 3
    | 0x011 => bitsAt 15 49 + bitsAt 7 1
    | 0x020 => bitsAt 10 54
    | 0x021 => bitsAt 9 55 + bitsAt 4 4
    | 0x022 => bitsAt 2 62
    | 0x024 => bitsAt 12 52
    | 0x029 => bitsAt 48 14
    | 0x031 => bitsAt 32 32 + bitsAt 2 6
    | 0x032 | 0x0DA => bitsAt 32 32
    | 0x033 | 0x0D2 => bitsAt 21 43
    | 0x0C4 | 0x0C5 | 0x0C6 => bitsAt 0 6
    | 0x0C8 => bitsAt 51 13
    | 0x0D1 => bitsAt 21 43 + bitsAt 0 6
    | 0x0D3 => bitsAt 16 48
    | 0x0D5 => bitsAt 53 11 + bitsAt 21 11
    | 0x0D6 | 0x0D7 | 0x0D8 | 0x0D9 => bitsAt 53 3 + bitsAt 21 11
    | _ => 0)
/-- Image offsets of the 64-byte lines that hold registers (R27). -/
def lineG (r : Reg) : List Nat := [0x2000 + r.toNat / 8 * 64]
def lineF (r : Reg) : List Nat := [0x2100 + r.toNat / 8 * 64]
def lineM (r : BitVec 3) : List Nat := [0x2200 + r.toNat / 4 * 64]
def lineV (r : VReg) : List Nat := [r.toNat * 128, r.toNat * 128 + 64]
def lineA (a : BitVec 2) : List Nat := (List.range 32).map fun i => a.toNat * 2048 + 64 * i
def lineCb (c : BitVec 2) : List Nat := [0x2280 + c.toNat / 2 * 64]
def lineP : List Nat := [0x2300]
def lineLoop : List Nat := [0x2340]
def lineQ (q : BitVec 3) : List Nat := [0x2380, 0x2400 + q.toNat * 128, 0x2440 + q.toNat * 128]
def lineCtl (slot : Nat) : List Nat := [0x2800 + slot / 8 * 64]
def lineGuard (g : Guard) : List Nat := if g.pred = 0 then [] else lineP

/-- R375: the control slot of a numbered register of the image. -/
def csrLine (n : BitVec 12) : List Nat :=
  match n.toNat with
  | 0x000 => lineCtl 0 | 0x001 => lineCtl 1 | 0x002 => lineCtl 2 | 0x003 => lineCtl 3 | 0x004 => lineCtl 4
  | 0x005 => lineCtl 5 | 0x006 => lineCtl 6 | 0x007 => lineCtl 7 | 0x008 => lineCtl 8 | 0x009 => lineCtl 9
  | 0x010 => lineCtl 10 | 0x011 => lineCtl 11 | 0x020 => lineCtl 12 | 0x021 => lineCtl 13 | 0x024 => lineCtl 14
  | 0x022 => lineCtl 15 | 0x028 => lineCtl 16 | 0x029 => lineCtl 17
  | 0x0C0 | 0x0C1 | 0x0C2 | 0x0C4 | 0x0C5 | 0x0C6 | 0x0C8 => lineLoop
  | _ => []

/-- R382: the register lines that an instruction reads or writes. -/
def regLines : Instr → List Nat
  | .add d a b | .sub d a b | .mul d a b | .mulh d a b | .mulhu d a b | .div d a b | .divu d a b
  | .rem d a b | .remu d a b | .and d a b | .or d a b | .xor d a b | .sll d a b | .srl d a b | .sra d a b
  | .min d a b | .max d a b | .minu d a b | .maxu d a b | .donate d a b | .ttqry d a b => lineG d ++ lineG a ++ lineG b
  | .clz d a | .ctz d a | .popc d a | .jdec d a | .accept d a => lineG d ++ lineG a
  | .addi d a _ | .andi d a _ | .ori d a _ | .xori d a _ => lineG d ++ lineG a
  | .slli d a _ | .srli d a _ | .srai d a _ => lineG d ++ lineG a
  | .lui d _ _ => lineG d
  | .extr d a _ _ _ | .ins d a _ _ => lineG d ++ lineG a
  | .fadd d a b _ _ | .fsub d a b _ _ | .fmul d a b _ _ | .fdiv d a b _ _ =>
    lineF d ++ lineF a ++ lineF b ++ lineCtl 10
  | .fsqrt d a _ _ => lineF d ++ lineF a ++ lineCtl 10
  | .fmin d a b _ | .fmax d a b _ => lineF d ++ lineF a ++ lineF b ++ lineCtl 10
  | .fclass d a _ => lineG d ++ lineF a
  | .fmvgf d a => lineF d ++ lineG a
  | .fmvfg d a => lineG d ++ lineF a
  | .fcmp _ a b _ _ => lineP ++ lineF a ++ lineF b ++ lineCtl 10
  | .fcvt d a _ t s =>
    (if cvtIsInt t then lineG d else lineF d) ++ (if cvtIsInt s then lineG a else lineF a) ++ lineCtl 10
  | .ffma d a b c _ _ _ => lineF d ++ lineF a ++ lineF b ++ lineF c ++ lineCtl 10
  | .fld d a _ _ => lineF d ++ lineG a
  | .ld d a _ _ => lineG d ++ lineG a
  | .st g a d _ _ => lineGuard g ++ lineG a ++ lineG d
  | .fst g a d _ _ => lineGuard g ++ lineG a ++ lineF d
  | .ldc d a c f _ => (if f then lineF d else lineG d) ++ lineG a ++ lineG c
  | .stc g a c d f _ => lineGuard g ++ (if f then lineF d else lineG d) ++ lineG a ++ lineG c
  | .b g _ => lineGuard g
  | .call g _ => lineGuard g ++ lineG 1
  | .jr g a => lineGuard g ++ lineG a
  | .ret g => lineGuard g ++ lineG 1
  | .sel g d a m => lineGuard g ++ lineG d ++ lineG a ++ lineG m
  | .cmp _ a b _ => lineP ++ lineG a ++ lineG b
  | .cmpi _ a _ _ => lineP ++ lineG a
  | .loop _ a _ => lineLoop ++ lineG a
  | .orderedLoad d a _ _ _ => lineG d ++ lineG a
  | .orderedStore g a b _ _ _ => lineGuard g ++ lineG a ++ lineG b
  | .amoSwap g d a _ _ _ | .amoAdd g d a _ _ _ | .amoAnd g d a _ _ _ | .amoOr g d a _ _ _
  | .amoXor g d a _ _ _ | .amoMin g d a _ _ _ | .amoMax g d a _ _ _ | .amoMinu g d a _ _ _
  | .amoMaxu g d a _ _ _ | .amoFadd g d a _ _ _ => lineGuard g ++ lineG d ++ lineG a
  | .cas g d a _ _ _ _ => lineGuard g ++ lineG (BitVec.ofNat 5 (2 * d.toNat)) ++ lineG a
  | .vadd d a b _ | .vsub d a b _ | .vmul d a b _ | .vfma d a b _ | .vmin d a b _ | .vmax d a b _ =>
    lineP ++ lineV d ++ lineV a ++ lineV b ++ lineCtl 11
  | .vabs d a _ | .vneg d a _ => lineP ++ lineV d ++ lineV a ++ lineCtl 11
  | .vand d a b | .vor d a b | .vxor d a b | .vsll d a b | .vsrl d a b | .vsra d a b =>
    lineP ++ lineV d ++ lineV a ++ lineV b
  | .vnot d a | .vslli d a _ | .vsrli d a _ | .vsrai d a _ => lineP ++ lineV d ++ lineV a
  | .vcmp k a b _ _ => lineP ++ lineM k ++ lineV a ++ lineV b ++ lineCtl 11
  | .vsel g d a b k => lineGuard g ++ lineP ++ lineM k ++ lineV d ++ lineV a ++ lineV b
  | .vcvt d a _ _ | .vcvtToE4m3 d a _ _ | .vcvtToE5m2 d a _ _ | .vcvtFromE4m3 d a _ _
  | .vcvtFromE5m2 d a _ _ => lineP ++ lineV d ++ lineV a ++ lineCtl 11
  | .vredSum d a _ | .vredMax d a _ | .vredMin d a _ => lineP ++ lineV d ++ lineV a ++ lineCtl 11
  | .vperm d a b => lineP ++ lineV d ++ lineV a ++ lineV b
  | .vbcastG d a => lineP ++ lineV d ++ lineG a
  | .vbcastF d a => lineP ++ lineV d ++ lineF a
  | .vld d a _ _ => lineV d ++ lineG a
  | .vlds d a s => lineP ++ lineV d ++ lineG a ++ lineG s
  | .vst g v a _ _ => lineGuard g ++ lineV v ++ lineG a
  | .vexp2 d a | .vlog2 d a | .vrcp d a | .vrsq d a => lineP ++ lineV d ++ lineV a ++ lineCtl 11
  | .vemax d a => lineP ++ lineG d ++ lineV a ++ lineCtl 11
  | .vscl2 d a n => lineP ++ lineV d ++ lineV a ++ lineG n ++ lineCtl 11
  | .vtunpk d a _ => lineP ++ lineV d ++ lineV a ++ lineCtl 11
  | .vtacc d a t => lineP ++ lineV d ++ lineV a ++ lineV t ++ lineCtl 11
  | .vwid d a _ _ | .vwidu d a _ _ => lineP ++ lineV d ++ lineV a
  | .vstatr d => lineG d ++ lineCtl 11
  | .mand d a b | .mor d a b | .mxor d a b => lineM d ++ lineM a ++ lineM b
  | .mnot d a => lineM d ++ lineM a
  | .qbind q a | .qput q a => lineQ q ++ lineG a
  | .qget d q | .qcnt d q => lineQ q ++ lineG d
  | .tcfg d _ => lineP ++ lineA d
  | .tzero d _ => lineP ++ lineA d
  | .tztest _ a _ => lineP ++ lineG a
  | .twait _ => []
  | .cbld c a => lineCb c ++ lineG a
  | .tld d _ a => lineP ++ lineA d ++ lineG a
  | .tst g d _ a => lineGuard g ++ lineP ++ lineA d ++ lineG a
  | .tmma x | .tmmak x => lineP ++ lineA x.acc ++ lineG x.a ++ lineG x.b ++ lineF x.s ++ lineCb x.cb ++ lineCtl 14
  | .fenter _ _ | .fleave => lineG 1 ++ lineG 2
  | .ftile _ _ a => lineG 2 ++ lineG a
  | .tret => lineG 1 ++ lineG 2 ++ lineCtl 0 ++ lineCtl 15
  | .sync => lineG 2 ++ lineCtl 15
  | .jinit d => lineG d ++ lineG 2
  | .spawn _ => lineG 1 ++ lineG 2 ++ lineCtl 15
  | .csrr d n => lineG d ++ csrLine n
  | .csrw a n => lineG a ++ csrLine n
  | .csrwTvec a => lineG a ++ lineCtl 4
  | .csrwLstate a => lineG a ++ lineLoop
  | .trap a | .svc a => lineG a ++ lineCtl 0
  | .eret => lineCtl 0
  | .wfe a => lineG a ++ lineCtl 0
  | .hbeat => lineCtl 16
  | .oseta d a _ => lineG d ++ lineG a
  | .rwb a b | .rinv a b | .clbinv a b => lineG a ++ lineG b
  | .rwbLog a | .rwbObj a | .rinvLog a | .rinvObj a | .orinv a | .orsync a | .clbinvObj a => lineG a
  | .logrdRead d a c | .logrdStatus d a c | .logrdRetire d a c | .logrdReset d a c =>
    lineG (BitVec.ofNat 5 (2 * d.toNat)) ++ lineG a ++ lineG c
  | .cpy _ d s l f _ | .cpyr _ d s l f => lineG d ++ lineG s ++ lineG l ++ lineG f
  | .cpyt _ d c f _ => lineG d ++ lineG c ++ lineG f
  | .wbind _ _ d c f => lineG d ++ lineG c ++ lineG f
  | .wunbind _ d => lineG d
  | .rwait d r n _ | .bara d r n _ => lineG d ++ lineG r ++ lineG n
  | .rrel r n _ | .cwait r n _ | .barw r n _ => lineG r ++ lineG n
  | .publish a => lineG a
  | .gather _ d i b f _ _ | .scatter _ d i b f _ _ => lineG d ++ lineG i ++ lineG b ++ lineG f
  | _ => []

/-- R37, R47, R153: the guard of an instruction that has one, and the tile predicate of one that has. -/
def guardOf : Instr → Option Guard
  | .st g _ _ _ _ | .fst g _ _ _ _ | .stc g _ _ _ _ _ | .b g _ | .call g _ | .jr g _ | .ret g | .sel g _ _ _
  | .orderedStore g _ _ _ _ _ | .amoSwap g _ _ _ _ _ | .amoAdd g _ _ _ _ _ | .amoAnd g _ _ _ _ _ | .amoOr g _ _ _ _ _
  | .amoXor g _ _ _ _ _ | .amoMin g _ _ _ _ _ | .amoMax g _ _ _ _ _ | .amoMinu g _ _ _ _ _ | .amoMaxu g _ _ _ _ _
  | .amoFadd g _ _ _ _ _ | .cas g _ _ _ _ _ _ | .vsel g _ _ _ _ | .vst g _ _ _ _ | .tst g _ _ _ => some g
  | _ => none
def tilePredOf : Instr → Option (BitVec 3)
  | .tzero _ z | .tld _ z _ | .tst _ _ z _ => some z
  | .tmma x | .tmmak x => some x.z
  | _ => none
/-- R49 row 5: whether an instruction's guard and tile predicate let it act. -/
def Strand.lets (t : Strand) (i : Instr) : Bool := (guardOf i).all (guardHolds · t) && (tilePredOf i).all t.readZ
/-- The lines that the decision reads. -/
def predLines (i : Instr) : List Nat :=
  (guardOf i).elim [] lineGuard ++ (tilePredOf i).elim [] fun z => if z = 0 then [] else lineP

/-- R264: the instruction at the pc has been sent to a peer; it completes before any stop or restarts. -/
def Strand.midCall (t : Strand) : Bool := t.peer.wait.isSome || t.peer.answer.isSome
/-- R67: whether an instruction that acts runs no end check as it completes. -/
def transfers : Instr → Bool
  | .b .. | .call .. | .jr .. | .ret _ | .spawn _ | .tret | .sync | .eret | .trap _ | .svc _ => true
  | _ => false
/-- R67, R382: the loop line, when counters are active and the instruction is to retire in sequence: the end check reads
it. -/
def checkLines (t : Strand) (i : Instr) : List Nat :=
  if t.lact ≠ 0 ∧ !(transfers i && t.lets i) then lineLoop else []
/-- R382, R60, R153: the lowest lost line among `more` and those that an instruction would read or write; one that is not to
act reads its predicates only. -/
def lostLine (t : Strand) (i : Instr) (more : List Nat) : Option Nat :=
  if t.midCall then none
  else t.lost.find? fun l =>
    (if t.lets i then regLines i ++ more else predLines i).contains l || (checkLines t i).contains l

end Sys2Proof.Machine
end

