-- ==== Sys2Proof/Machine/Flags.lean ====
section
/-! DEFINITION. The conditions of compares (R59), and the flags that floating-point and vector
instructions leave in FCSR and VSTAT, with the arithmetic trap (R97 to R101). -/

namespace Sys2Proof.Machine

/-- R59: the truth of a condition code. -/
def intCond (c : BitVec 4) (a b : Word) : Bool :=
  match c.toNat with
  | 0 => a == b
  | 1 => a != b
  | 2 => decide (a.toInt < b.toInt)
  | 3 => decide (b.toInt ≤ a.toInt)
  | 4 => decide (a.toNat < b.toNat)
  | 5 => decide (b.toNat ≤ a.toNat)
  | 6 => a &&& b != 0
  | _ => a &&& b == 0

/-- R97, R98: the enable bits of FCSR or VSTAT in the order of the conditions. -/
def Strand.enables (t : Strand) (vec : Bool) : Conds :=
  BitVec.ofNat 7 (slice (if vec then t.vstat else t.fcsr) 8 7)
/-- R101: the sticky flags of a set of conditions are set. -/
def Strand.flag (t : Strand) (vec : Bool) (c : Conds) : Strand :=
  if vec then { t with vstat := t.vstat ||| c.zeroExtend 64 } else { t with fcsr := t.fcsr ||| c.zeroExtend 64 }

/-- R99, R102: Raise. The flags are set; an enabled condition traps with the conditions in TVAL. -/
def raise (s : State) (vec : Bool) (c : Conds) : M State :=
  let s1 := strandSet s (s.core.strand.flag vec c)
  if c &&& s.core.strand.enables vec = 0 then .ok s1 else .error (.trapIn s1 cARITHMETIC (c.zeroExtend 64))

end Sys2Proof.Machine
end

