-- ==== Sys2Proof/Machine/Scalar.lean ====
section
/-! DEFINITION. Plain scalar loads and stores (R70 to R72) and the queue registers (R73 to R78). -/

namespace Sys2Proof.Machine

/-- R71 row 1: the alignment of an access of `w` bytes. -/
def aligned (ea : Word) (w : Nat) : M Unit := need (ea.toNat % w == 0) cALIGNMENT ea

/-- R70: LD. -/
def execLd (d a : Reg) (sz : BitVec 3) (o : BitVec 13) (s : State) : Outcome State :=
  finish s (do
    let ea := effAddr (s.core.strand.readG a) o
    aligned ea (szBytes sz)
    let (bs, s1) ← loadBytes s ea (szBytes sz)
    pure (retireWith .scalar s1 (s1.core.strand.writeG d (loadExt sz (bytesNat bs)))))

/-- R70: ST. -/
def execSt (g : Guard) (a d : Reg) (w : BitVec 2) (o : BitVec 9) (s : State) : Outcome State :=
  let t := s.core.strand
  if guardHolds g t then
    finish s (do
      let ea := effAddr (t.readG a) o
      aligned ea (wBytes w)
      let s1 ← storeBytes s ea (natBytes (wBytes w) (t.readG d).toNat)
      pure (retire .scalar s1))
  else .next (retire .scalar s)

/-- R73: whether a descriptor is one QBIND accepts on a core. -/
def bindOk (k : CoreId) (x : Word) : Bool :=
  let kind := slice x 0 4
  let pcore := slice x 4 3
  let any := bitOf x 7
  let pq := slice x 8 3
  slice x 11 53 == 0 &&
    (if kind = 1 then !any && pcore != (coreNo k).toNat
     else if kind = 2 then pq == 0 && (if any then pcore == 0 else pcore != (coreNo k).toNat)
     else decide (kind ≤ 5) && pcore == 0 && !any && pq == 0)

/-- R73, R74: QBIND. That the slots of the discarded entries hold zero is the model's choice (log 74). -/
def execQbind (q : BitVec 3) (a : Reg) (s : State) : Outcome State :=
  let t := s.core.strand
  finish s (do
    need (bindOk s.cur (t.readG a)) cILLEGAL (t.readG a)
    pure (retireWith .scalar s (t.writeQ q { Queue.zero with bind := BitVec.ofNat 11 (t.readG a).toNat })))

/-- R75: the core that a SEND queue of a core delivers to. -/
def sendTarget (k : CoreId) (q : Queue) : CoreId := coreAt (clusterOf k) q.pcore.toNat
/-- R75: whether a target core's queue can accept from a sender; the free entries, 0 if it cannot. -/
def freeEntries (s : State) (t : Strand) (q : Queue) : Nat :=
  let c := coreGet s (sendTarget s.cur q)
  let r := c.strand.readQ q.pq
  if c.mode ≠ .vacant ∧ c.strand.ctxid = t.ctxid ∧ r.kind = 2 ∧ (r.any ∨ r.pcore = coreNo s.cur) then
    16 - r.count.toNat
  else 0

/-- R75: deliver an entry to the target queue; the receiver has an event (R391). -/
def sendEntry (s : State) (q : Queue) (x : Word) : State :=
  let k := sendTarget s.cur q
  let c := coreGet s k
  coreSet s k { c with strand := (c.strand.writeQ q.pq ((c.strand.readQ q.pq).push x)).setEv }

/-- R75: QPUT. -/
def execQput (q : BitVec 3) (a : Reg) (s : State) : Outcome State :=
  let t := s.core.strand
  let r := t.readQ q
  finish s (
    if r.kind ≠ 1 then illegal (.qput q a)
    else if freeEntries s t r = 0 then waitM
    else pure (retire .scalar (sendEntry s r (t.readG a))))

/-- R75: QGET takes the oldest entry or token. -/
def execQget (d : Reg) (q : BitVec 3) (s : State) : Outcome State :=
  let t := s.core.strand
  let r := t.readQ q
  finish s (
    if r.kind < 2 then illegal (.qget d q)
    else if r.count = 0 then waitM
    else pure (retireWith .scalar s ((t.writeQ q r.pop).writeG d r.oldest)))

/-- R75: QCNT never waits. -/
def execQcnt (d : Reg) (q : BitVec 3) (s : State) : Outcome State :=
  let t := s.core.strand
  let r := t.readQ q
  let n := if r.kind = 0 then 0 else if r.kind = 1 then freeEntries s t r else r.count.toNat
  .next (retireWith .scalar s (t.writeG d (W n)))

end Sys2Proof.Machine
end

