-- ==== Sys2Proof/Machine/Atomics.lean ====
section
/-! DEFINITION. Strong single accesses and read-modify-writes of local storage (R202 to R212), with the
software-coherent access performed at the home (R205). -/

namespace Sys2Proof.Machine

/-- R205: agent scopes wider than a cluster act on a software-coherent line at its home. -/
def wideScope (sc : Scope) : Bool := decide (2 ≤ sc.agent.toNat)

/-- R205: the issuing cluster's dirty bytes of the line go home; the cluster and its die keep no copy. -/
def leaveLine (s : State) (c : ClusterId) (a : Nat) : State :=
  l2Drop (dropLine (writeBackLine s c a) c a) (dieOfCluster c) a

/-- The pieces and state of an ordered access once its line stands where the access is performed. -/
def atHome (s : State) (g : Agent) (sc : Scope) (ps : List Piece) : List Piece × State :=
  if wideScope sc && ps.any fun p => p.kind == .sc then
    (ps.map fun p => if p.kind = .sc then { p with kind := .home } else p,
      ps.foldl (fun s p => leaveLine s (clusterOf g.core) (lineOf p.key)) s)
  else (ps, s)

/-- R202, R204: an ordered load of local storage. -/
def orderedRead (s : State) (va : Word) (w : Nat) (sc : Scope) : M (List Byte × State) := do
  let g := self s
  aligned va w
  let ps ← translate s g va w .read
  needClean s va ps
  let (qs, s1) := atHome (noteTranslation g va w s) g sc ps
  let s2 := fillPieces s1 (clusterOf g.core) g.tag qs
  pure ((qs.map (pieceRead s1 (clusterOf g.core))).flatten, touch s2 ps)

/-- R203, R204: an ordered store to local storage. -/
def orderedWrite (s : State) (va : Word) (bs : List Byte) (sc : Scope) : M State := do
  let g := self s
  aligned va bs.length
  let ps ← translate s g va bs.length .write
  let (qs, s1) := atHome (noteTranslation g va bs.length s) g sc ps
  pure (touch (storePieces g (logAtOf s g va) qs bs s1) ps)

/-- R207, R209, R210, R211: read a location and write the value `f` gives of it, in one action; no write
when `f` gives none. The value read, and the state. -/
def readModifyWrite (s : State) (va : Word) (w : Nat) (sc : Scope) (f : Nat → Option Nat) : M (Nat × State) := do
  let g := self s
  aligned va w
  let ps ← translate s g va w .atomic
  needClean s va ps
  let (qs, s1) := atHome (noteTranslation g va w s) g sc ps
  let s2 := fillPieces s1 (clusterOf g.core) g.tag qs
  let old := bytesNat ((qs.map (pieceRead s1 (clusterOf g.core))).flatten)
  let s3 := match f old with
    | none => s2
    | some v => storePieces g (logAtOf s g va) qs (natBytes w v) s2
  pure (old, touch s3 ps)

/-- R207: the operations of AMO on numbers of `n` bits, but for FADD. -/
inductive AmoOp where
  | swap | add | and | or | xor | min | max | minu | maxu
  deriving DecidableEq, Repr

def AmoOp.apply (o : AmoOp) (n old src : Nat) : Nat :=
  match o with
  | .swap => src % 2 ^ n
  | .add => (old + src) % 2 ^ n
  | .and => old &&& src
  | .or => old ||| src
  | .xor => old ^^^ src
  | .min => if toSigned n old ≤ toSigned n src then old else src
  | .max => if toSigned n old ≤ toSigned n src then src else old
  | .minu => Nat.min old src
  | .maxu => Nat.max old src

end Sys2Proof.Machine
end

