-- ==== Sys2Proof/Machine/Peer.lean ====
section
/-! DEFINITION. Requests to peer devices (R256 to R268): the handle's checks, the request a strand sends
and waits for, posted stores, and the change of a handle's state at a remote failure. -/

namespace Sys2Proof.Machine

/-- R264: an instruction that first needs the strand's posted stores acknowledged. -/
def settled (s : State) : M Unit :=
  let p := s.core.strand.peer
  if p.posted ≠ [] then waitM
  else match p.lost with
    | some a => trapM cREMOTE a
    | none => .ok ()

/-- R267: set a handle's state to FAILED (1) or REVOKED (2), in the record and every cached copy. -/
def failHandle (g : Agent) (h : BitVec 12) (st : Nat) (s : State) : State :=
  let n : BitVec 18 := BitVec.ofNat 18 (0x3F000 + h.toNat)
  let put (x : Word) : Word := (x &&& ~~~(3 : Word)) ||| W st
  let s1 := match recordAddr g.ortbase n with
    | some a => { s with mem := memSetWord s.mem a (put (memWord s.mem a)) }
    | none => s
  { s1 with clusters := s1.clusters.map fun e =>
      (e.1, { e.2 with recs := e.2.recs.map fun r =>
        if r.ctx = g.tag ∧ r.obj = n then { r with words := r.words.set 0 (put (ORec.dw r.words 0)) } else r }) }

/-- R267, R402: a remote failure: the handle leaves VALID and the service receives a record. -/
def remoteFails (g : Agent) (h : BitVec 12) (st : Nat) (s : State) : State :=
  machineCheck g.tag kRemote (unitOfCore g.core) 0 cREMOTE.toNat (failHandle g h st s)

def handleOf (va : Word) : BitVec 12 := BitVec.ofNat 12 (va.toNat / 2 ^ 44)

/-- R256, R260: the request that an operation through a handle sends. -/
def mkReq (s : State) (r : ORec) (off : Nat) (op : PeerOp) : PeerReq :=
  ⟨s.nextId, BitVec.ofNat 32 (slice (r.dw 1) 0 32) == s.pkg.devId, BitVec.ofNat 32 (slice (r.dw 1) 0 32),
    BitVec.ofNat 3 (slice (r.dw 1) 32 3), BitVec.ofNat 12 (slice (r.dw 2) 0 12), BitVec.ofNat 18 (slice (r.dw 2) 44 18), BitVec.ofNat 44 off, op⟩

/-- R267: whether a device and a logical device on it can be reached; a logical device of this package's own can when some
die belongs to it (R256). -/
def reachableReq (s : State) (q : PeerReq) : Bool :=
  if q.own then diesOf s q.ldev ≠ [] else Config.reachable q.dev q.ldev
def handleReachable (s : State) (r : ORec) : Bool := reachableReq s (mkReq s r 0 (.flag 0))

def sendReq (s : State) (r : ORec) (va : Word) (op : PeerOp) (use : PeerUse) : State :=
  { s with
    out := s.out ++ [⟨mkReq s r (offOf va) op, use, s.cur, tagOf s.core.strand, handleOf va, va, s.pkg.time⟩]
    nextId := s.nextId + 1 }

/-- R261, R262: the valid handle that an address names, with its checks. -/
def peerHandle (s : State) (va : Word) (w : Nat) (ks : List AKind) : M ORec := do
  let r ← lookup s (self s) (objOf va) va
  peerChecks r va w ks
  pure r

/-- R264, R267: an operation that waits for the peer's answer. The first turn sends the request; while it
is unanswered the instruction waits; the answer ends it. -/
def peerCall (s : State) (va : Word) (w : Nat) (ks : List AKind) (op : PeerOp) (release : Bool) :
    M (Word × List Byte × State) :=
  let t := s.core.strand
  match t.peer.answer with
  | some (.done v bs) => .ok (v, bs, strandSet s { t with peer := { t.peer with answer := none } })
  | some .poisoned => trapM cPOISON va
  | some _ => trapM cREMOTE va
  | none =>
    if t.peer.wait.isSome then waitM
    else do
      let r ← peerHandle s va w ks
      if release then settled s
      if handleReachable s r then
        let s1 := sendReq s r va op (.wait t.spillovf)
        .error (.waitIn (strandSet s1 { t with peer := { t.peer with wait := some s.nextId } }))
      else
        .error (.waitIn (strandSet (remoteFails (self s) (handleOf va) 1 s)
          { t with peer := { t.peer with answer := some .failed } }))

/-- R264: a posted ordered store to the peer window. Of several that have failed, the first counts (log 90). -/
def peerStore (s : State) (va : Word) (w : Nat) (v : Word) (release : Bool) : M State := do
  let t := s.core.strand
  let r ← peerHandle s va w [.write]
  if release then settled s
  if handleReachable s r then
    pure (strandSet (sendReq s r va (.store w v) (.posted t.spillovf))
      { t with peer := { t.peer with posted := t.peer.posted ++ [s.nextId] } })
  else
    pure (strandSet (remoteFails (self s) (handleOf va) 1 s) { t with peer := { t.peer with lost := some (t.peer.lost.getD va) } })

end Sys2Proof.Machine
end

