-- ==== Sys2Proof/Machine/Rings.lean ====
section
/-! DEFINITION. Rings and transaction barriers at their atomic units (R244 to R247, R252 to R255, R359). -/

namespace Sys2Proof.Machine

/-- The object-space address of byte `o` of object `n`. -/
def objAddr (n : BitVec 18) (o : Nat) : Word := W (n.toNat * 2 ^ 44 + o)
/-- R244: the offset in a ring of the slot of a sequence number. -/
def slotOff (r : ORec) (n : Nat) : Nat := 64 + r.ringS * (n % r.ringN)

/-- R245: claim the next slot; the sequence number, or none when the ring is full. -/
def ringClaim (s : State) (base n : Nat) : Option (Nat × State) :=
  let resv := ringW s base 2
  if resv - ringW s base 1 < n then some (resv, ringSet s base 2 (resv + 1)) else none
/-- R247: release slots up to a sequence number. -/
def ringRelease (s : State) (base : Nat) (n : Nat) : State :=
  ringSet s base 1 (Nat.max (ringW s base 1) (Nat.min (n + 1) (ringW s base 0)))

/-- R245: the slots of peers that are filled and next in sequence are passed by WPTR. -/
def settleAppends : Nat → State → State
  | 0, s => s
  | n + 1, s => match s.appends.find? fun a => a.left == 0 && ringW s a.base 0 == a.seq with
    | none => s
    | some a => settleAppends n (ringSet { s with appends := s.appends.filter (· != a) } a.base 0 (a.seq + 1))

/-- R253: the phase check, made once after an update. -/
def phaseCheck (s : State) (base : Nat) : State :=
  let d0 := memWord s.mem base
  if slice d0 0 32 = 0 ∧ memWord s.mem (base + 8) = 0 then
    let d := setSlice (setSlice d0 63 1 (1 - slice d0 63 1)) 0 32 (slice (memWord s.mem (base + 16)) 0 32)
    { s with mem := memSetWord s.mem base d }
  else s

/-- R254: an arrival that expects `n` more bytes; the value BARA returns. -/
def barArrive (s : State) (base : Nat) (n : Word) : Word × State :=
  let d0 := memWord s.mem base
  let left := slice d0 0 32
  let gone : Bool := left == 0
  let m1 := memSetWord s.mem base (if gone then d0 else setSlice d0 0 32 (left - 1))
  let m2 := memSetWord m1 (base + 8) (memWord s.mem (base + 8) + n)
  (W (slice d0 63 1 + 2 * gone.toNat), phaseCheck { s with mem := m2 } base)
/-- R254: the update that an engine's completion makes. -/
def barBytes (s : State) (base n : Nat) : State :=
  phaseCheck { s with mem := memSetWord s.mem (base + 8) (memWord s.mem (base + 8) - W n) } base

/-- R247, R255: the record of a local object of a kind with the permissions needed. -/
def kindRecord (s : State) (g : Agent) (va : Word) (kind : Nat) (ks : List AKind) : M ORec := do
  need (spaceOf va == 0) cPERMISSION va
  let r ← lookup s g (objOf va) va
  ks.forM fun k => recordChecks s g r k va
  need (r.kind == kind) cPERMISSION va
  pure r

/-- R395: the control line that an operation at an atomic unit reads is sound. -/
def unitClean (s : State) (va : Word) (base : Nat) : M Unit :=
  need (firstPoison s.poison base 32).isNone cPOISON (objAddr (objOf va) 0)

/-- R246: RWAIT. -/
def execRwait (d r n : Reg) (_sc : Scope) (s : State) : Outcome State :=
  let t := s.core.strand
  let va := t.readG r
  let n := (t.readG n).toNat
  finish s (
    if inPeerWindow va then do
      let (v, _, s1) ← peerCall s va 1 [.read] (.rwait (W n)) false
      pure (retireLong .scalar (strandSet s1 (s1.core.strand.writeG d (objAddr (objOf va) 0 + v))))
    else do
      let l ← kindRecord s (self s) va kRING [.read]
      unitClean s va l.place
      if n < ringW s l.place 0 then
        pure (retireLong .scalar (strandSet s (t.writeG d (objAddr (objOf va) (slotOff l n)))))
      else waitM)

/-- R247: RREL, a release at its scopes. -/
def execRrel (r n : Reg) (sc : Scope) (s : State) : Outcome State :=
  let t := s.core.strand
  let va := t.readG r
  let n := t.readG n
  finish s (
    if inPeerWindow va then do
      let (_, _, s1) ← peerCall s va 1 [.read, .write] (.rrel n) true
      pure (retireLong .scalar s1)
    else do
      let l ← kindRecord s (self s) va kRING [.read, .write]
      unitClean s va l.place
      if sc.agent = 4 then settled s
      pure (retireLong .scalar (ringRelease s l.place n.toNat)))

/-- R250: CWAIT. -/
def execCwait (f v : Reg) (sc : Scope) (s : State) : Outcome State :=
  let t := s.core.strand
  let va := t.readG f
  let v := t.readG v
  finish s (do
    aligned va 8
    if inPeerWindow va then
      let (_, _, s1) ← peerCall s va 8 [.read] (.cwait v) false
      pure (retireLong .scalar s1)
    else
      if spaceOf va = 0 then
        let r ← lookup s (self s) (objOf va) va
        recordChecks s (self s) r .read va
        need (r.kind != kBARRIER) cPERMISSION va
      let (bs, s1) ← orderedRead s va 8 sc
      if v.toNat ≤ bytesNat bs then pure (retireLong .scalar s1) else waitM)

/-- R254: BARA. -/
def execBara (d b n : Reg) (sc : Scope) (s : State) : Outcome State :=
  let t := s.core.strand
  let va := t.readG b
  let n := t.readG n
  finish s (do
    aligned va 32
    if inPeerWindow va then
      let (v, _, s1) ← peerCall s va 32 [.atomic] (.bara n) true
      pure (retireLong .scalar (strandSet s1 (s1.core.strand.writeG d v)))
    else
      let r ← kindRecord s (self s) va kBARRIER [.atomic]
      need (offOf va == 0) cSHAPE va
      unitClean s va r.place
      if sc.agent = 4 then settled s
      let (v, s1) := barArrive s r.place n
      pure (retireLong .scalar (strandSet s1 (t.writeG d v))))

/-- R255: BARW. -/
def execBarw (b p : Reg) (_sc : Scope) (s : State) : Outcome State :=
  let t := s.core.strand
  let va := t.readG b
  let ph := slice (t.readG p) 0 1
  finish s (do
    aligned va 32
    if inPeerWindow va then
      let (_, _, s1) ← peerCall s va 32 [.atomic] (.barw (W ph)) false
      pure (retireLong .scalar s1)
    else
      let r ← kindRecord s (self s) va kBARRIER [.atomic]
      need (offOf va == 0) cSHAPE va
      unitClean s va r.place
      if slice (memWord s.mem r.place) 63 1 ≠ ph then pure (retireLong .scalar s) else waitM)

end Sys2Proof.Machine
end

