-- ==== Sys2Proof/Machine/Ordered.lean ====
section
/-! DEFINITION. Ordered loads and stores, AMO and CAS, local and through the peer window, and FENCE (R202
to R214). One step at a time stands for one order of all accesses, so a fence has only to see that posted
stores are acknowledged (log 2). -/

namespace Sys2Proof.Machine

/-- R202: an ordered load. -/
def execOrderedLoad (d a : Reg) (sz : BitVec 3) (sc : Scope) (_acq : Bool) (s : State) : Outcome State :=
  let va := s.core.strand.readG a
  let w := szBytes sz
  finish s (
    if inPeerWindow va then do
      aligned va w
      let (v, _, s1) ← peerCall s va w [.read] (.load w) false
      pure (retireWith .scalar s1 (s1.core.strand.writeG d (loadExt sz v.toNat)))
    else do
      let (bs, s1) ← orderedRead s va w sc
      pure (retireWith .scalar s1 (s1.core.strand.writeG d (loadExt sz (bytesNat bs)))))

/-- R264: a release at SYSTEM scope first waits for the posted stores. -/
def systemRelease (s : State) (sc : Scope) (rel : Bool) : M Unit :=
  if sc.agent = 4 ∧ rel then settled s else .ok ()

/-- R203: an ordered store. -/
def execOrderedStore (g : Guard) (a b : Reg) (w : BitVec 2) (sc : Scope) (rel : Bool) (s : State) :
    Outcome State :=
  let t := s.core.strand
  let va := t.readG a
  let n := wBytes w
  if !guardHolds g t then .next (retire .scalar s)
  else finish s (
    if inPeerWindow va then do
      aligned va n
      let s1 ← peerStore s va n (W ((t.readG b).toNat % 2 ^ (8 * n))) rel
      pure (retire .scalar s1)
    else do
      systemRelease s sc rel
      let s1 ← orderedWrite s va (natBytes n (t.readG b).toNat) sc
      pure (retire .scalar s1))

/-- R213: FENCE. -/
def execFence (sc : Scope) (o : BitVec 2) (s : State) : Outcome State :=
  finish s (do
    systemRelease s sc (o == 2 || o == 3)
    pure (retire .scalar s))

/-- R207: an AMO whose operation on numbers of `n` bits is `f`; `code` names it to a peer. -/
def amo (code : BitVec 4) (f : Nat → Nat → Nat → Nat) (g : Guard) (d a : Reg) (size : Bool) (o : BitVec 2)
    (sc : Scope) (s : State) : Outcome State :=
  let t := s.core.strand
  let va := t.readG a
  let w := if size then 8 else 4
  let src := (t.readG d).toNat % 2 ^ (8 * w)
  let rel : Bool := o == 2 || o == 3
  if !guardHolds g t then .next (retire .scalar s)
  else finish s (
    if inPeerWindow va then do
      aligned va w
      let (v, _, s1) ← peerCall s va w [.atomic] (.amo code w (W src)) rel
      pure (retireWith .scalar s1 (s1.core.strand.writeG d (sextNat (8 * w) v.toNat)))
    else do
      systemRelease s sc rel
      let (old, s1) ← readModifyWrite s va w sc fun x => some (f (8 * w) x src)
      pure (retireWith .scalar s1 (s1.core.strand.writeG d (sextNat (8 * w) old))))

def execAmoSwap (g : Guard) (d a : Reg) (z : Bool) (o : BitVec 2) (sc : Scope) (s : State) : Outcome State :=
  amo 0 AmoOp.swap.apply g d a z o sc s
def execAmoAdd (g : Guard) (d a : Reg) (z : Bool) (o : BitVec 2) (sc : Scope) (s : State) : Outcome State :=
  amo 1 AmoOp.add.apply g d a z o sc s
def execAmoAnd (g : Guard) (d a : Reg) (z : Bool) (o : BitVec 2) (sc : Scope) (s : State) : Outcome State :=
  amo 2 AmoOp.and.apply g d a z o sc s
def execAmoOr (g : Guard) (d a : Reg) (z : Bool) (o : BitVec 2) (sc : Scope) (s : State) : Outcome State :=
  amo 3 AmoOp.or.apply g d a z o sc s
def execAmoXor (g : Guard) (d a : Reg) (z : Bool) (o : BitVec 2) (sc : Scope) (s : State) : Outcome State :=
  amo 4 AmoOp.xor.apply g d a z o sc s
def execAmoMin (g : Guard) (d a : Reg) (z : Bool) (o : BitVec 2) (sc : Scope) (s : State) : Outcome State :=
  amo 5 AmoOp.min.apply g d a z o sc s
def execAmoMax (g : Guard) (d a : Reg) (z : Bool) (o : BitVec 2) (sc : Scope) (s : State) : Outcome State :=
  amo 6 AmoOp.max.apply g d a z o sc s
def execAmoMinu (g : Guard) (d a : Reg) (z : Bool) (o : BitVec 2) (sc : Scope) (s : State) : Outcome State :=
  amo 7 AmoOp.minu.apply g d a z o sc s
def execAmoMaxu (g : Guard) (d a : Reg) (z : Bool) (o : BitVec 2) (sc : Scope) (s : State) : Outcome State :=
  amo 8 AmoOp.maxu.apply g d a z o sc s

/-- R209: CAS; `d` is half the number of the even register. -/
def execCas (g : Guard) (d : BitVec 4) (a : Reg) (z : Bool) (o : BitVec 2) (_facq : Bool) (sc : Scope)
    (s : State) : Outcome State :=
  let t := s.core.strand
  let va := t.readG a
  let w := if z then 8 else 4
  let rn : Reg := BitVec.ofNat 5 (2 * d.toNat)
  let exp := (t.readG rn).toNat % 2 ^ (8 * w)
  let new := (t.readG (rn + 1)).toNat % 2 ^ (8 * w)
  let rel : Bool := o == 2 || o == 3
  if !guardHolds g t then .next (retire .scalar s)
  else finish s (
    if inPeerWindow va then do
      aligned va w
      let (v, _, s1) ← peerCall s va w [.atomic] (.cas w (W exp) (W new)) rel
      pure (retireWith .scalar s1 (s1.core.strand.writeG rn (sextNat (8 * w) v.toNat)))
    else do
      systemRelease s sc rel
      let (old, s1) ← readModifyWrite s va w sc fun x => if x = exp then some new else none
      pure (retireWith .scalar s1 (s1.core.strand.writeG rn (sextNat (8 * w) old))))

end Sys2Proof.Machine
end

