-- ==== Sys2Proof/Machine/FloatScalar.lean ====
section
/-! DEFINITION. Scalar floating-point instructions (R106 to R112) and the floating-point add of AMO
(R207). -/

namespace Sys2Proof.Machine

/-- The value of a source in a format; bits above the width are ignored (R106). -/
def Strand.fp (t : Strand) (f : Fmt) (r : Reg) : Fp := decode f (t.readF r).toNat

/-- R106: write a result, zero above its width, after its conditions are raised (R107). -/
def retireF (s : State) (d : Reg) (r : FRes) : Outcome State :=
  finish s (do
    let s1 ← raise s false r.2
    pure (retireWith .scalar s1 (s1.core.strand.writeF d (W r.1))))

/-- R107: an instruction of two sources and one rounding. -/
def fpBinary (op : Fmt → Rnd → Fp → Fp → FRes) (d a b : Reg) (t : BitVec 2) (rm : BitVec 3) (s : State) :
    Outcome State :=
  let u := s.core.strand
  let f := fmtOf t
  retireF s d (op f (rndOf rm u.fcsr) (u.fp f a) (u.fp f b))

def execFadd (d a b : Reg) (t : BitVec 2) (r : BitVec 3) (s : State) : Outcome State := fpBinary fpAdd d a b t r s
def execFsub (d a b : Reg) (t : BitVec 2) (r : BitVec 3) (s : State) : Outcome State := fpBinary fpSub d a b t r s
def execFmul (d a b : Reg) (t : BitVec 2) (r : BitVec 3) (s : State) : Outcome State := fpBinary fpMul d a b t r s
def execFdiv (d a b : Reg) (t : BitVec 2) (r : BitVec 3) (s : State) : Outcome State := fpBinary fpDiv d a b t r s
def execFsqrt (d a : Reg) (t : BitVec 2) (r : BitVec 3) (s : State) : Outcome State :=
  let u := s.core.strand
  let f := fmtOf t
  retireF s d (fpSqrt f (rndOf r u.fcsr) (u.fp f a))

/-- R108 -/
def fpPick (isMax : Bool) (d a b : Reg) (t : BitVec 2) (s : State) : Outcome State :=
  let u := s.core.strand
  let f := fmtOf t
  let low (r : Reg) : Nat := (u.readF r).toNat % 2 ^ f.width
  retireF s d (fpMinMax f isMax (low a) (low b))
def execFmin (d a b : Reg) (t : BitVec 2) (s : State) : Outcome State := fpPick false d a b t s
def execFmax (d a b : Reg) (t : BitVec 2) (s : State) : Outcome State := fpPick true d a b t s

/-- R110: FCLASS raises no condition. -/
def execFclass (d a : Reg) (t : BitVec 2) (s : State) : Outcome State :=
  let u := s.core.strand
  .next (retireWith .scalar s (u.writeG d (W (fpClass (fmtOf t) (u.readF a).toNat))))
/-- R106: register moves carry all 64 bits. -/
def execFmvgf (d a : Reg) (s : State) : Outcome State :=
  let u := s.core.strand
  .next (retireWith .scalar s (u.writeF d (u.readG a)))
def execFmvfg (d a : Reg) (s : State) : Outcome State :=
  let u := s.core.strand
  .next (retireWith .scalar s (u.writeG d (u.readF a)))

/-- R110: FCMP. -/
def execFcmp (p : BitVec 3) (a b : Reg) (t : BitVec 2) (c : BitVec 3) (s : State) : Outcome State :=
  let u := s.core.strand
  let f := fmtOf t
  let r := fpCompare c.toNat (u.fp f a) (u.fp f b)
  finish s (do
    let s1 ← raise s false (condIf r.2 cNV)
    pure (retireWith .scalar s1 (s1.core.strand.writeP p r.1)))

/-- R40: whether a conversion type is signed, and its width in bits. -/
def cvtSigned (t : BitVec 3) : Bool := t == 4 || t == 6
def cvtWidth (t : BitVec 3) : Nat := if t = 4 ∨ t = 5 then 64 else 32
/-- R84: the limits of an integer type. -/
def intLo (signed : Bool) (w : Nat) : Int := if signed then -2 ^ (w - 1) else 0
def intHi (signed : Bool) (w : Nat) : Int := if signed then 2 ^ (w - 1) - 1 else 2 ^ w - 1
def cvtFmt (t : BitVec 3) : Fmt := fmtOf (BitVec.ofNat 2 t.toNat)

/-- R111: FCVT. -/
def execFcvt (d a : Reg) (rm dst src : BitVec 3) (s : State) : Outcome State :=
  let u := s.core.strand
  let rnd := rndOf rm u.fcsr
  if cvtIsInt src then
    let w := cvtWidth src
    let x := (u.readG a).toNat
    retireF s d (intToFp (cvtFmt dst) rnd (if cvtSigned src then toSigned w x else (x % 2 ^ w : Nat)))
  else if cvtIsInt dst then
    let sg := cvtSigned dst
    let w := cvtWidth dst
    let r := fpToInt (intLo sg w) (intHi sg w) rnd (u.fp (cvtFmt src) a)
    finish s (do
      let s1 ← raise s false r.2
      pure (retireWith .scalar s1 (s1.core.strand.writeG d (BitVec.ofInt 64 r.1))))
  else retireF s d (fpConvert (cvtFmt dst) rnd (u.fp (cvtFmt src) a))

/-- R109: FFMA. -/
def execFfma (d a b c : Reg) (t : BitVec 2) (r : BitVec 3) (n : Bool) (s : State) : Outcome State :=
  let u := s.core.strand
  let f := fmtOf t
  retireF s d (fpFma f (rndOf r u.fcsr) n (u.fp f a) (u.fp f b) (u.fp f c))

/-- R112: the bytes of a floating-point load or store. -/
def fBytes (z : Nat) : Nat := if z = 0 then 8 else if z = 1 then 4 else 2
/-- R112: FLD. -/
def execFld (d a : Reg) (z : BitVec 3) (o : BitVec 13) (s : State) : Outcome State :=
  let ea := effAddr (s.core.strand.readG a) o
  finish s (do
    aligned ea (fBytes z.toNat)
    let (bs, s1) ← loadBytes s ea (fBytes z.toNat)
    pure (retireWith .scalar s1 (s1.core.strand.writeF d (W (bytesNat bs)))))
/-- R112: FST. -/
def execFst (g : Guard) (a d : Reg) (z : BitVec 2) (o : BitVec 9) (s : State) : Outcome State :=
  let u := s.core.strand
  let ea := effAddr (u.readG a) o
  if guardHolds g u then
    finish s (do
      aligned ea (fBytes z.toNat)
      let s1 ← storeBytes s ea (natBytes (fBytes z.toNat) (u.readF d).toNat)
      pure (retire .scalar s1))
  else .next (retire .scalar s)

/-- R207: FADD rounds to nearest even in FP64 or FP32 and sets no flag. -/
def amoFadd (n old src : Nat) : Nat :=
  let f := if n = 64 then fp64 else fp32
  (fpAdd f .rne (decode f old) (decode f src)).1
def execAmoFadd (g : Guard) (d a : Reg) (z : Bool) (o : BitVec 2) (sc : Scope) (s : State) : Outcome State :=
  amo 9 amoFadd g d a z o sc s

end Sys2Proof.Machine
end

