-- ==== Sys2Proof/Machine/Vector.lean ====
section
/-! DEFINITION. Vector instructions (R113 to R133) and the narrow-integer instructions of major 0x2A
(R161 to R165). -/

namespace Sys2Proof.Machine

/-- The element type of a lane: a floating-point format or a signed integer of some bits. -/
inductive Lane where
  | fp (f : Fmt)
  | int (w : Nat)
  deriving DecidableEq, Repr
/-- R40: the lane type of a TCFG code. -/
def laneOf (t : BitVec 3) : Lane :=
  match t.toNat with
  | 0 => .fp fp32 | 1 => .int 32 | 2 => .fp bf16 | 3 => .fp fp16 | 4 => .int 16 | _ => .int 8
def Lane.width : Lane → Nat
  | .fp f => f.width
  | .int w => w
def Lane.count (l : Lane) : Nat := 1024 / l.width
def Lane.isInt : Lane → Bool
  | .int _ => true
  | .fp _ => false
/-- The accumulator that holds a row, and T(vn). -/
def tileOf (v : VReg) : BitVec 2 := BitVec.ofNat 2 (v.toNat / 16)
def Strand.tyOf (t : Strand) (a : BitVec 2) : BitVec 3 := t.ty[a.toNat]'(a.isLt)
def Strand.lane (t : Strand) (v : VReg) : Lane := laneOf (t.tyOf (tileOf v))

/-- R114, R151: the wait for older matrix results in the accumulators named, then the poison of the rows read; of several
poisoned rows the first in the order vs1, vs2, vd gives TVAL (the model's choice, log 78). -/
def rowsReady (s : State) (reads writes : List VReg) : M Unit := do
  waitAcc s ((reads ++ writes).map tileOf)
  reads.forM fun v => need (!s.core.strand.rowPoison.getLsbD v.toNat) cPOISON (W (128 * v.toNat))

/-- R96: the union of the conditions of lanes. -/
def unionConds (l : List FRes) : Conds := l.foldl (fun c r => c ||| r.2) 0

/-- Raise a vector instruction's conditions and write its row. -/
def retireV (s : State) (d : VReg) (r : Row) (c : Conds) : M State := do
  let s1 ← raise s true c
  pure (retireWith .vector s1 (s1.core.strand.writeV d r))
def retireLanes (s : State) (d : VReg) (w : Nat) (l : List FRes) : M State :=
  retireV s d (packRow w (l.map (·.1))) (unionConds l)

/-- R115: the operations of major 0x20. -/
inductive VOp where
  | add | sub | mul | fma | min | max | abs | neg
  deriving DecidableEq, Repr

/-- R115, R116: one floating-point lane. -/
def VOp.fp (o : VOp) (f : Fmt) (rnd : Rnd) (x y z : Nat) : FRes :=
  match o with
  | .add => fpAdd f rnd (decode f x) (decode f y)
  | .sub => fpSub f rnd (decode f x) (decode f y)
  | .mul => fpMul f rnd (decode f x) (decode f y)
  | .fma => fpFma f rnd false (decode f x) (decode f y) (decode f z)
  | .min => fpMinMax f false x y
  | .max => fpMinMax f true x y
  | .abs => (x % 2 ^ (f.width - 1), 0)
  | .neg => ((x + 2 ^ (f.width - 1)) % 2 ^ f.width, 0)
/-- R115: the exact value of one integer lane. -/
def VOp.int (o : VOp) (x y z : Int) : Int :=
  match o with
  | .add => x + y
  | .sub => x - y
  | .mul => x * y
  | .fma => x * y + z
  | .min => if x ≤ y then x else y
  | .max => if x ≤ y then y else x
  | .abs => x.natAbs
  | .neg => -x
/-- R95: an integer lane wrapped, or saturated under mode 1. -/
def intResult (w : Nat) (m : BitVec 3) (e : Int) : FRes :=
  if m = 1 then
    let v := satInt (intLo true w) (intHi true w) e
    (ofSigned w v, condIf (v != e) cSAT)
  else (ofSigned w e, 0)
/-- R115, R116: whether a mode suits the lane type. -/
def VOp.modeOk (o : VOp) (l : Lane) (m : BitVec 3) : Bool :=
  if l.isInt then m == 0 || (m == 1 && o != .min && o != .max)
  else if o = .abs ∨ o = .neg then m == 0 else rmOk m
/-- The sources an operation reads. -/
def VOp.sources (o : VOp) (d a b : VReg) : List VReg :=
  match o with
  | .fma => [a, b, d]
  | .abs | .neg => [a]
  | _ => [a, b]

/-- R45, R113: whether the modes, conditions and element types of a vector instruction suit one another (R49 row 6). -/
def suits (t : Strand) : Instr → Bool
  | .vadd d a b m => arith .add d a b m
  | .vsub d a b m => arith .sub d a b m
  | .vmul d a b m => arith .mul d a b m
  | .vfma d a b m => arith .fma d a b m
  | .vmin d a b m => arith .min d a b m
  | .vmax d a b m => arith .max d a b m
  | .vabs d a m => arith .abs d a a m
  | .vneg d a m => arith .neg d a a m
  | .vsll d a b | .vsrl d a b | .vsra d a b => (t.lane d).isInt && t.lane a == t.lane d && t.lane b == t.lane d
  | .vslli d a _ | .vsrli d a _ | .vsrai d a _ => (t.lane d).isInt && t.lane a == t.lane d
  | .vcmp _ a b u c => t.lane b == t.lane a && if (t.lane a).isInt then c != 6 else !u
  | .vsel _ d a b _ => t.lane a == t.lane d && t.lane b == t.lane d
  | .vcvt d a p rm => conv (t.lane a) (t.lane d) p rm
  | .vcvtToE4m3 _ a p rm => conv (t.lane a) (.fp fe4m3) p rm
  | .vcvtToE5m2 _ a p rm => conv (t.lane a) (.fp fe5m2) p rm
  | .vcvtFromE4m3 d _ p rm => conv (.fp fe4m3) (t.lane d) p rm
  | .vcvtFromE5m2 d _ p rm => conv (.fp fe5m2) (t.lane d) p rm
  | .vredSum d a m => t.lane a == t.lane d && VOp.add.modeOk (t.lane d) m
  | .vredMax d a m => t.lane a == t.lane d && VOp.max.modeOk (t.lane d) m
  | .vredMin d a m => t.lane a == t.lane d && VOp.min.modeOk (t.lane d) m
  | .vperm d a b => t.lane a == t.lane d && t.lane b == .int (t.lane d).width
  | .vexp2 d a | .vlog2 d a | .vrcp d a | .vrsq d a | .vscl2 d a _ => !(t.lane d).isInt && t.lane a == t.lane d
  | .vemax _ a => !(t.lane a).isInt
  | .vtunpk d _ _ => t.lane d == .int 8
  | .vtacc d a v => t.lane d == .int 32 && t.lane a == .int 8 && t.lane v == .int 8
  | .vwid d _ n p | .vwidu d _ n p =>
    let w := if n then 4 else 8
    (t.lane d).isInt && decide (w < (t.lane d).width) && decide (p.toNat < (t.lane d).width / w)
  | _ => true
where
  arith (o : VOp) (d a b : VReg) (m : BitVec 3) : Bool :=
    ((o.sources d a b).all fun v => t.lane v == t.lane d) && o.modeOk (t.lane d) m
  conv (src dst : Lane) (p : BitVec 2) (rm : BitVec 3) : Bool :=
    decide (p.toNat < Nat.max src.count dst.count / Nat.min src.count dst.count) && !(src.isInt && dst.isInt && rm != 0)

/-- Three lists of lanes combined. -/
def zip3 (g : Nat → Nat → Nat → FRes) : List Nat → List Nat → List Nat → List FRes
  | x :: xs, y :: ys, z :: zs => g x y z :: zip3 g xs ys zs
  | _, _, _ => []

def vecArith (o : VOp) (i : Instr) (d a b : VReg) (m : BitVec 3) (s : State) : Outcome State :=
  let t := s.core.strand
  let l := t.lane d
  let w := l.width
  finish s (do
    if !suits t i then illegal i
    rowsReady s (o.sources d a b) [d]
    let g : Nat → Nat → Nat → FRes := match l with
      | .fp f => o.fp f (rndOf m t.fcsr)
      | .int w => fun x y z => intResult w m (o.int (toSigned w x) (toSigned w y) (toSigned w z))
    retireLanes s d w (zip3 g (lanes w (t.readV a)) (lanes w (t.readV b)) (lanes w (t.readV d))))

def execVadd (d a b : VReg) (m : BitVec 3) (s : State) : Outcome State := vecArith .add (.vadd d a b m) d a b m s
def execVsub (d a b : VReg) (m : BitVec 3) (s : State) : Outcome State := vecArith .sub (.vsub d a b m) d a b m s
def execVmul (d a b : VReg) (m : BitVec 3) (s : State) : Outcome State := vecArith .mul (.vmul d a b m) d a b m s
def execVfma (d a b : VReg) (m : BitVec 3) (s : State) : Outcome State := vecArith .fma (.vfma d a b m) d a b m s
def execVmin (d a b : VReg) (m : BitVec 3) (s : State) : Outcome State := vecArith .min (.vmin d a b m) d a b m s
def execVmax (d a b : VReg) (m : BitVec 3) (s : State) : Outcome State := vecArith .max (.vmax d a b m) d a b m s
def execVabs (d a : VReg) (m : BitVec 3) (s : State) : Outcome State := vecArith .abs (.vabs d a m) d a a m s
def execVneg (d a : VReg) (m : BitVec 3) (s : State) : Outcome State := vecArith .neg (.vneg d a m) d a a m s

/-- R117: logic on all 128 bytes, without conditions. -/
def vecLogic (f : Row → Row → Row) (d a b : VReg) (s : State) : Outcome State :=
  let t := s.core.strand
  finish s (do
    rowsReady s [a, b] [d]
    retireV s d (f (t.readV a) (t.readV b)) 0)
def execVand (d a b : VReg) (s : State) : Outcome State := vecLogic (· &&& ·) d a b s
def execVor (d a b : VReg) (s : State) : Outcome State := vecLogic (· ||| ·) d a b s
def execVxor (d a b : VReg) (s : State) : Outcome State := vecLogic (· ^^^ ·) d a b s
def execVnot (d a : VReg) (s : State) : Outcome State := vecLogic (fun x _ => ~~~x) d a a s

/-- R117: one lane shifted by an unsigned count. -/
inductive VShift where
  | sll | srl | sra
  deriving DecidableEq, Repr
def VShift.lane (o : VShift) (w x n : Nat) : Nat :=
  match o with
  | .sll => if w ≤ n then 0 else x * 2 ^ n % 2 ^ w
  | .srl => if w ≤ n then 0 else x / 2 ^ n
  | .sra => ofSigned w (toSigned w x / 2 ^ (Nat.min n w))
/-- R117: a shift by the lanes of a register or by a number. -/
def vecShift (o : VShift) (i : Instr) (d a : VReg) (b : Option VReg) (n : Nat) (s : State) : Outcome State :=
  let t := s.core.strand
  let l := t.lane d
  let w := l.width
  finish s (do
    if !suits t i then illegal i
    rowsReady s (a :: b.toList) [d]
    let ns := match b with
      | some b => lanes w (t.readV b)
      | none => List.replicate l.count n
    retireV s d (packRow w (List.zipWith (o.lane w) (lanes w (t.readV a)) ns)) 0)
def execVsll (d a b : VReg) (s : State) : Outcome State := vecShift .sll (.vsll d a b) d a (some b) 0 s
def execVsrl (d a b : VReg) (s : State) : Outcome State := vecShift .srl (.vsrl d a b) d a (some b) 0 s
def execVsra (d a b : VReg) (s : State) : Outcome State := vecShift .sra (.vsra d a b) d a (some b) 0 s
def execVslli (d a : VReg) (n : BitVec 6) (s : State) : Outcome State := vecShift .sll (.vslli d a n) d a none n.toNat s
def execVsrli (d a : VReg) (n : BitVec 6) (s : State) : Outcome State := vecShift .srl (.vsrli d a n) d a none n.toNat s
def execVsrai (d a : VReg) (n : BitVec 6) (s : State) : Outcome State := vecShift .sra (.vsrai d a n) d a none n.toNat s

/-- R118: one floating-point compare; the truth and whether NV is set. -/
def vcmpFp (c : Nat) (a b : Fp) : Bool × Bool :=
  match c with
  | 0 => fpCompare 0 a b
  | 1 => fpCompare 4 a b
  | 2 => fpCompare 1 a b
  | 3 => fpCompare 2 a b
  | 4 => fpCompare 1 b a
  | 5 => fpCompare 2 b a
  | _ => fpCompare 3 a b
/-- R118: one integer compare. -/
def vcmpInt (c : Nat) (a b : Int) : Bool :=
  match c with
  | 0 => a == b
  | 1 => a != b
  | 2 => decide (a < b)
  | 3 => decide (a ≤ b)
  | 4 => decide (b < a)
  | _ => decide (b ≤ a)
/-- R118: VCMP. -/
def execVcmp (k : BitVec 3) (a b : VReg) (u : Bool) (c : BitVec 3) (s : State) : Outcome State :=
  let t := s.core.strand
  let l := t.lane a
  let w := l.width
  finish s (do
    if !suits t (.vcmp k a b u c) then illegal (.vcmp k a b u c)
    rowsReady s [a, b] []
    let g : Nat → Nat → Bool × Bool := match l with
      | .fp f => fun x y => vcmpFp c.toNat (decode f x) (decode f y)
      | .int w => fun x y =>
        if u then (vcmpInt c.toNat x y, false) else (vcmpInt c.toNat (toSigned w x) (toSigned w y), false)
    let rs := List.zipWith g (lanes w (t.readV a)) (lanes w (t.readV b))
    let s1 ← raise s true (condIf (rs.any (·.2)) cNV)
    pure (retireWith .vector s1
      (s1.core.strand.writeM k (BitVec.ofNat 128 (packNat 1 (rs.map fun r => r.1.toNat))))))

/-- R120: VSEL. -/
def execVsel (g : Guard) (d a b : VReg) (k : BitVec 3) (s : State) : Outcome State :=
  let t := s.core.strand
  let l := t.lane d
  let w := l.width
  if guardHolds g t then
    finish s (do
      if !suits t (.vsel g d a b k) then illegal (.vsel g d a b k)
      rowsReady s [a, b] [d]
      let pick (i x y : Nat) : FRes := (if (t.readM k).getLsbD i then x else y, 0)
      retireLanes s d w (zip3 pick (List.range l.count) (lanes w (t.readV a)) (lanes w (t.readV b))))
  else .next (retire .vector s)

/-- R94, R122: one converted lane. -/
def convLane (src dst : Lane) (rnd : Rnd) (x : Nat) : FRes :=
  match src, dst with
  | .fp f, .fp g => fpConvert g rnd (decode f x)
  | .fp f, .int w =>
    let r := fpToInt (intLo true w) (intHi true w) rnd (decode f x)
    (ofSigned w r.1, r.2)
  | .int w, .fp g => intToFp g rnd (toSigned w x)
  | .int v, .int w => intResult w 1 (toSigned v x)

/-- R121: lanes from `at_` upward replaced. -/
def spliceLanes (old new : List Nat) (at_ : Nat) : List Nat := old.take at_ ++ new ++ old.drop (at_ + new.length)

/-- R121, R122: a conversion between lane types. -/
def vecConvert (i : Instr) (src dst : Lane) (d a : VReg) (p : BitVec 2) (rm : BitVec 3) (s : State) :
    Outcome State :=
  let t := s.core.strand
  let ls := src.count
  let ld := dst.count
  finish s (do
    if !suits t i then illegal i
    rowsReady s [a] [d]
    let xs := lanes src.width (t.readV a)
    let xs := if ld < ls then (xs.drop (p.toNat * ld)).take ld else xs
    let rs := xs.map (convLane src dst (rndOf rm t.fcsr))
    let out := if ls < ld then spliceLanes (lanes dst.width (t.readV d)) (rs.map (·.1)) (p.toNat * ls)
      else rs.map (·.1)
    retireV s d (packRow dst.width out) (unionConds rs))
def execVcvt (d a : VReg) (p : BitVec 2) (r : BitVec 3) (s : State) : Outcome State :=
  vecConvert (.vcvt d a p r) (s.core.strand.lane a) (s.core.strand.lane d) d a p r s
def execVcvtToE4m3 (d a : VReg) (p : BitVec 2) (r : BitVec 3) (s : State) : Outcome State :=
  vecConvert (.vcvtToE4m3 d a p r) (s.core.strand.lane a) (.fp fe4m3) d a p r s
def execVcvtToE5m2 (d a : VReg) (p : BitVec 2) (r : BitVec 3) (s : State) : Outcome State :=
  vecConvert (.vcvtToE5m2 d a p r) (s.core.strand.lane a) (.fp fe5m2) d a p r s
def execVcvtFromE4m3 (d a : VReg) (p : BitVec 2) (r : BitVec 3) (s : State) : Outcome State :=
  vecConvert (.vcvtFromE4m3 d a p r) (.fp fe4m3) (s.core.strand.lane d) d a p r s
def execVcvtFromE5m2 (d a : VReg) (p : BitVec 2) (r : BitVec 3) (s : State) : Outcome State :=
  vecConvert (.vcvtFromE5m2 d a p r) (.fp fe5m2) (s.core.strand.lane d) d a p r s

/-- R123: one level of the tree: neighbours combined. -/
def pairUp (g : Nat → Nat → FRes) : List Nat → List FRes
  | x :: y :: t => g x y :: pairUp g t
  | _ => []
/-- R123: the tree; `n` is the number of levels. -/
def reduceTree (g : Nat → Nat → FRes) : Nat → List Nat → FRes
  | 0, l => (l.headD 0, 0)
  | n + 1, l =>
    let r := pairUp g l
    let x := reduceTree g n (r.map (·.1))
    (x.1, x.2 ||| unionConds r)

/-- R123: VRED; on integer lanes the sum is exact and wraps or saturates once. -/
def vecReduce (o : VOp) (i : Instr) (d a : VReg) (m : BitVec 3) (s : State) : Outcome State :=
  let t := s.core.strand
  let l := t.lane d
  let w := l.width
  finish s (do
    if !suits t i then illegal i
    rowsReady s [a] [d]
    let xs := lanes w (t.readV a)
    let r : FRes := match l with
      | .fp f => reduceTree (fun x y => o.fp f (rndOf m t.fcsr) x y 0) (Nat.log2 l.count) xs
      | .int w =>
        let vs := xs.map (toSigned w)
        intResult w m (vs.tail.foldl (fun x y => o.int x y 0) (vs.headD 0))
    retireV s d (packRow w (r.1 :: List.replicate (l.count - 1) 0)) r.2)
def execVredSum (d a : VReg) (m : BitVec 3) (s : State) : Outcome State := vecReduce .add (.vredSum d a m) d a m s
def execVredMax (d a : VReg) (m : BitVec 3) (s : State) : Outcome State := vecReduce .max (.vredMax d a m) d a m s
def execVredMin (d a : VReg) (m : BitVec 3) (s : State) : Outcome State := vecReduce .min (.vredMin d a m) d a m s

/-- R124: VPERM. -/
def execVperm (d a b : VReg) (s : State) : Outcome State :=
  let t := s.core.strand
  let l := t.lane d
  let w := l.width
  finish s (do
    if !suits t (.vperm d a b) then illegal (.vperm d a b)
    rowsReady s [a, b] [d]
    let xs := lanes w (t.readV a)
    retireV s d (packRow w ((lanes w (t.readV b)).map fun i => xs.getD i 0)) 0)
/-- R124: VBCAST. -/
def vecBroadcast (d : VReg) (x : Word) (s : State) : Outcome State :=
  let l := s.core.strand.lane d
  finish s (do
    rowsReady s [] [d]
    retireV s d (packRow l.width (List.replicate l.count x.toNat)) 0)
def execVbcastG (d : VReg) (a : Reg) (s : State) : Outcome State := vecBroadcast d (s.core.strand.readG a) s
def execVbcastF (d : VReg) (a : Reg) (s : State) : Outcome State := vecBroadcast d (s.core.strand.readF a) s

/-- R125: the effective address of a row access. -/
def rowAddr (base : Word) (o : BitVec 6) : Word := base + 128 * o.signExtend 64
/-- R125 rows 1 and 2. -/
def rowChecks (ea : Word) (fe : Bool) : M Unit := do
  need (ea.toNat % 16 == 0) cALIGNMENT ea
  need (!fe || spaceOf ea == 1 || spaceOf ea == 2) cALIGNMENT ea
/-- R127, R394: whether granules read FULL; a poisoned granule does. -/
def readsFull (s : State) (a n : Nat) : Bool := allFull (s.empty.filter fun g => !s.poison.contains g) a n

/-- R125, R127: VLD and its full-empty forms. `.fe.clr` counts as a write (R378); a wait touches a bound window (R243). -/
def execVld (d : VReg) (a : Reg) (o : BitVec 6) (fe : BitVec 2) (s : State) : Outcome State :=
  let ea := rowAddr (s.core.strand.readG a) o
  finish s (do
    waitAcc s [tileOf d]
    rowChecks ea (fe != 0)
    let ps ← translate s (self s) ea 128 (if fe = 2 then .write else .read)
    let key := (ps.head?.map (·.key)).getD 0
    if fe != 0 && !readsFull s key 128 then .error (.waitIn (touch s ps))
    let (bs, s1) ← loadBytes s ea 128
    let s2 := if fe = 2 then { s1 with empty := setEmpty s1.empty key 8 } else s1
    pure (retireWith .vector s2 (s2.core.strand.writeV d (rowOfBytes bs))))

/-- R125, R127: VST. That a poisoned row traps before a misaligned address is the model's choice (log 73). -/
def execVst (g : Guard) (v : VReg) (a : Reg) (o : BitVec 6) (fe : BitVec 2) (s : State) : Outcome State :=
  let t := s.core.strand
  let ea := rowAddr (t.readG a) o
  if guardHolds g t then
    finish s (do
      rowsReady s [v] []
      rowChecks ea (fe != 0)
      let ps ← translate s (self s) ea 128 .write
      let s1 ← storeBytes s ea (rowBytes (t.readV v))
      pure (retire .vector (if fe = 0 then s1 else markFull s1 ((ps.head?.map (·.key)).getD 0) 128)))
  else .next (retire .vector s)

/-- R126: the fault of a lane is reported at the lane's address. -/
def atLane {α : Type} (ea : Word) : M α → M α
  | .error (.trap c _) => trapM c ea
  | r => r
/-- R126: VLDS. -/
def execVlds (d : VReg) (a st : Reg) (s : State) : Outcome State :=
  let t := s.core.strand
  let l := t.lane d
  let w := l.width / 8
  let eas := (List.range l.count).map fun j => t.readG a + W j * t.readG st
  finish s (do
    waitAcc s [tileOf d]
    let g := self s
    let ls ← eas.mapM fun ea => do
      aligned ea w
      let ps ← atLane ea (translate s g ea w .read)
      pure (ea, ps)
    ls.forM fun x => needClean s x.1 x.2
    let c := clusterOf s.cur
    let s1 := ls.foldl (fun u x => touch (fillPieces (noteTranslation g x.1 w u) c g.tag x.2) x.2) s
    let bs := ls.flatMap fun x => x.2.flatMap (pieceRead s c)
    pure (retireWith .vector s1 (s1.core.strand.writeV d (rowOfBytes bs))))

/-- R130: a special function of each floating-point lane. -/
def vecSpecial (g : Fmt → Fp → FRes) (i : Instr) (d a : VReg) (s : State) : Outcome State :=
  let t := s.core.strand
  match t.lane d with
  | .int _ => finish s (illegal i)
  | .fp f => finish s (do
    if !suits t i then illegal i
    rowsReady s [a] [d]
    retireLanes s d f.width ((lanes f.width (t.readV a)).map fun x => g f (decode f x)))
def execVexp2 (d a : VReg) (s : State) : Outcome State := vecSpecial fpExp2 (.vexp2 d a) d a s
def execVlog2 (d a : VReg) (s : State) : Outcome State := vecSpecial fpLog2 (.vlog2 d a) d a s
def execVrcp (d a : VReg) (s : State) : Outcome State := vecSpecial fpRcp (.vrcp d a) d a s
def execVrsq (d a : VReg) (s : State) : Outcome State := vecSpecial fpRsq (.vrsq d a) d a s
/-- R132: VSCL2. -/
def execVscl2 (d a : VReg) (n : Reg) (s : State) : Outcome State :=
  let k := (s.core.strand.readG n).toInt
  vecSpecial (fun f x => fpScale f x k) (.vscl2 d a n) d a s

/-- R131: the larger of two lanes that are not NaN. -/
def maxFp (a b : Fp) : Fp := if ltFp a b then b else a
/-- R131: the value and conditions of VEMAX over lanes. -/
def emax (l : List Fp) : Word × Conds :=
  let sig := condIf (l.any (·.isSig)) cNV
  match l.filter fun x => !x.isNan with
  | [] => (W (2 ^ 63), sig)
  | x :: t =>
    match t.foldl maxFp x with
    | .inf true => (W (2 ^ 63), sig)
    | .fin n m e =>
      let c := ceilFp n m e
      let v := satInt (-2 ^ 63) (2 ^ 63 - 1) c
      (BitVec.ofInt 64 v, sig ||| condIf (v != c) cNV)
    | _ => (W (2 ^ 63 - 1), sig ||| cNV)
def execVemax (d : Reg) (a : VReg) (s : State) : Outcome State :=
  let t := s.core.strand
  match t.lane a with
  | .int _ => finish s (illegal (.vemax d a))
  | .fp f => finish s (do
    rowsReady s [a] []
    let r := emax ((lanes f.width (t.readV a)).map (decode f))
    let s1 ← raise s true r.2
    pure (retireWith .vector s1 (s1.core.strand.writeG d r.1)))

/-- R161: digit `i` of a byte by multiplication and shift, as a trit in eight bits. -/
def t5Mul (i : Nat) : Nat := (([65536, 21846, 7282, 2428, 810] : List Nat)[i]?).getD 0
def t5Trit (i v : Nat) : FRes :=
  let q := v * t5Mul i / 2 ^ 16
  let d := q - 3 * (q * 21846 / 2 ^ 16)
  if 243 ≤ v then (0, cTERN) else (if d = 2 then 255 else d, 0)
def execVtunpk (d a : VReg) (i : BitVec 3) (s : State) : Outcome State :=
  let t := s.core.strand
  finish s (do
    if !suits t (.vtunpk d a i) then illegal (.vtunpk d a i)
    rowsReady s [a] [d]
    retireLanes s d 8 ((lanes 8 (t.readV a)).map (t5Trit i.toNat)))

/-- R163: the sum of activations signed by trits. -/
def tritSum : List Nat → List Nat → Int
  | a :: as, t :: ts =>
    let x := toSigned 8 a
    let y := toSigned 8 t
    (if 0 < y then x else if y < 0 then -x else 0) + tritSum as ts
  | _, _ => 0
def execVtacc (d a v : VReg) (s : State) : Outcome State :=
  let t := s.core.strand
  finish s (do
    if !suits t (.vtacc d a v) then illegal (.vtacc d a v)
    rowsReady s [a, v, d] [d]
    let quads (r : Row) : List (List Nat) := chunks 4 32 (lanes 8 r)
    let sums := List.zipWith tritSum (quads (t.readV a)) (quads (t.readV v))
    retireV s d (packRow 32 (List.zipWith (fun c x => ofSigned 32 (toSigned 32 c + x))
      (lanes 32 (t.readV d)) sums)) 0)

/-- R164: VWID and VWIDU. -/
def vecWiden (signed : Bool) (i : Instr) (d a : VReg) (n4 : Bool) (p : BitVec 4) (s : State) : Outcome State :=
  let t := s.core.strand
  let l := t.lane d
  let w := if n4 then 4 else 8
  finish s (do
    if !suits t i then illegal i
    rowsReady s [a] [d]
    let xs := ((lanes w (t.readV a)).drop (p.toNat * l.count)).take l.count
    retireV s d (packRow l.width (xs.map fun x => if signed then ofSigned l.width (toSigned w x) else x)) 0)
def execVwid (d a : VReg) (n : Bool) (p : BitVec 4) (s : State) : Outcome State :=
  vecWiden true (.vwid d a n p) d a n p s
def execVwidu (d a : VReg) (n : Bool) (p : BitVec 4) (s : State) : Outcome State :=
  vecWiden false (.vwidu d a n p) d a n p s

/-- R133: VSTATR. -/
def execVstatr (d : Reg) (s : State) : Outcome State :=
  let t := s.core.strand
  .next (retireWith .vector s ({ t with vstat := t.vstat &&& ~~~(0x7F : Word) }.writeG d t.vstat))

/-- R119: mask logic. -/
def maskLogic (f : BitVec 128 → BitVec 128 → BitVec 128) (d a b : BitVec 3) (s : State) : Outcome State :=
  let t := s.core.strand
  .next (retireWith .vector s (t.writeM d (f (t.readM a) (t.readM b))))
def execMand (d a b : BitVec 3) (s : State) : Outcome State := maskLogic (· &&& ·) d a b s
def execMor (d a b : BitVec 3) (s : State) : Outcome State := maskLogic (· ||| ·) d a b s
def execMxor (d a b : BitVec 3) (s : State) : Outcome State := maskLogic (· ^^^ ·) d a b s
def execMnot (d a : BitVec 3) (s : State) : Outcome State := maskLogic (fun x _ => ~~~x) d a a s

end Sys2Proof.Machine
end

