-- ==== Sys2Proof/Machine/Matrix.lean ====
section
/-! DEFINITION. The matrix unit: matrix commands and their exact results (R134 to R152), the thatch and
its arbiter (R305 to R312), tile predicates and the tile instructions (R153 to R158). -/

namespace Sys2Proof.Machine

/-- The rows of an accumulator. -/
def rowsOf (a : BitVec 2) : List VReg := (List.range 16).map fun r => BitVec.ofNat 6 (16 * a.toNat + r)
def Strand.tile (t : Strand) (a : BitVec 2) : List Row := (rowsOf a).map t.readV
/-- Write the sixteen rows of an accumulator. -/
def Strand.writeTile (t : Strand) (a : BitVec 2) (rows : List Row) : Strand :=
  ((rowsOf a).zip rows).foldl (fun t x => t.writeV x.1 x.2) t
/-- The poison marks of the rows of an accumulator replaced. -/
def Strand.markTile (t : Strand) (a : BitVec 2) (marks : List Bool) : Strand :=
  { t with rowPoison := ((rowsOf a).zip marks).foldl (fun p x =>
      if x.2 then p ||| (1#64 <<< x.1.toNat) else p &&& ~~~(1#64 <<< x.1.toNat)) t.rowPoison }
def Strand.cleanTile (t : Strand) (a : BitVec 2) : Strand := t.markTile a (List.replicate 16 false)

/-- R155: TCFG. -/
def execTcfg (d : BitVec 2) (ty : BitVec 3) (s : State) : Outcome State :=
  let t := s.core.strand
  finish s (do
    waitAcc s [d]
    pure (retireWith .scalar s { t with ty := t.ty.set d.toNat ty d.isLt }))
/-- R156: TZERO. -/
def execTzero (d : BitVec 2) (z : BitVec 3) (s : State) : Outcome State :=
  let t := s.core.strand
  if t.readZ z then
    finish s (do
      waitAcc s [d]
      pure (retireWith .scalar s ((t.writeTile d (List.replicate 16 0)).cleanTile d)))
  else .next (retire .scalar s)
/-- R154: TZTEST. -/
def execTztest (z : BitVec 3) (a : Reg) (sz : BitVec 2) (s : State) : Outcome State :=
  let ea := s.core.strand.readG a
  let n := 2048 * 2 ^ sz.toNat
  finish s (do
    aligned ea n
    let (bs, s1) ← loadBytes s ea n
    pure (retireWith .tile s1 (s1.core.strand.writeZ z (bs.any (· != 0)))))
/-- The accumulators of a mask (R148). -/
def accsOf (m : BitVec 4) : List (BitVec 2) :=
  ((List.range 4).filter fun i => m.getLsbD i).map (BitVec.ofNat 2)
/-- R148: TWAIT. -/
def execTwait (m : BitVec 4) (s : State) : Outcome State :=
  finish s (do
    waitAcc s (accsOf m)
    pure (retire .scalar s))
/-- R158: CBLD. -/
def execCbld (c : BitVec 2) (a : Reg) (s : State) : Outcome State :=
  let ea := s.core.strand.readG a
  finish s (do
    aligned ea 32
    let (bs, s1) ← loadBytes s ea 32
    let t := s1.core.strand
    pure (retireWith .scalar s1 { t with cb := t.cb.set c.toNat (BitVec.ofNat 256 (bytesNat bs)) c.isLt }))
/-- R157: TLD. -/
def execTld (d : BitVec 2) (z : BitVec 3) (a : Reg) (s : State) : Outcome State :=
  let ea := s.core.strand.readG a
  if s.core.strand.readZ z then
    finish s (do
      waitAcc s [d]
      aligned ea 128
      let (bs, s1) ← loadBytes s ea 2048
      let rows := (chunks 128 16 bs).map rowOfBytes
      pure (retireWith .tile s1 ((s1.core.strand.writeTile d rows).cleanTile d)))
  else .next (retire .tile s)
/-- R157: TST. -/
def execTst (g : Guard) (d : BitVec 2) (z : BitVec 3) (a : Reg) (s : State) : Outcome State :=
  let t := s.core.strand
  let ea := t.readG a
  if guardHolds g t && t.readZ z then
    finish s (do
      waitAcc s [d]
      aligned ea 128
      let _ ← translate s (self s) ea 2048 .write
      rowsReady s (rowsOf d) []
      let s1 ← storeBytes s ea ((t.tile d).map rowBytes).flatten
      pure (retire .tile s1))
  else .next (retire .tile s)

/-- R135: the width of an element of A and of B in bits, and the depth K of a step. -/
def pairBits (p : BitVec 4) : Nat × Nat × Nat :=
  match p.toNat with
  | 0 | 1 => (16, 16, 64)
  | 2 | 3 | 4 | 5 | 6 => (8, 8, 128)
  | 7 => (4, 4, 256)
  | 8 => (16, 4, 64)
  | 9 => (8, 4, 128)
  | _ => (8, 4, 128)
/-- R135: the bytes of B that a step reads. -/
def pairBBytes (p : BitVec 4) : Nat := let (_, b, k) := pairBits p; 32 * k * b / 8
/-- R47: the formats of A and of B of a floating-point pair; a CB4 operand's entries are BF16. -/
def pairFmts (p : BitVec 4) : Fmt × Fmt :=
  match p.toNat with
  | 0 | 8 => (bf16, bf16)
  | 1 => (fp16, fp16)
  | 2 => (fe4m3, fe4m3)
  | 3 => (fe4m3, fe5m2)
  | 4 => (fe5m2, fe4m3)
  | 5 => (fe5m2, fe5m2)
  | _ => (fe4m3, bf16)

/-- R136: elements of `w` bits of a list of bytes, the first lowest. -/
def elements (w : Nat) (bs : List Byte) : List Nat :=
  if w = 16 then (chunks 2 bs.length bs).map bytesNat
  else if w = 8 then bs.map (·.toNat)
  else (bs.map fun b => [b.toNat % 16, b.toNat / 16]).flatten

/-- R138: a value multiplied by an E8M0 scale below 0xFF. -/
def Fp.scaled (x : Fp) (sc : BitVec 8) : Fp :=
  match x with
  | .fin n m e => .fin n m (e + sc.toNat - 127)
  | y => y
def Fp.negIf (x : Fp) (b : Bool) : Fp := if b then x.neg else x

/-- R140: the exact sum of products, given the least exponent of the finite ones. -/
def groupSum (l : List Fp) : Fp :=
  let pos := l.any (· == .inf false)
  let neg := l.any (· == .inf true)
  if l.any (·.isNan) || (pos && neg) then .nan false
  else if pos then .inf false
  else if neg then .inf true
  else
    let lo := l.foldl (fun e x => match x with
      | .fin _ m f => if m = 0 then e else min e f
      | _ => e) 0
    let v := l.foldl (fun (v : Int) x => match x with
      | .fin n m f =>
        let y : Int := (m * 2 ^ (f - lo).toNat : Nat)
        if n then v - y else v + y
      | _ => v) 0
    if v = 0 then .fin (l.all (·.signBit)) 0 0 else .fin (decide (v < 0)) v.natAbs lo

/-- R140: s ← RNE32(s + gsum) over the groups of sixteen products. -/
def fpDot (s : Nat) (products : List Fp) : Nat :=
  (chunks 16 64 products).foldl (fun s g => (roundFp fp32 .rne (addFp .rne (decode fp32 s) (groupSum g)).1).1) s
/-- R141: the same loops on integers. -/
def intDot (sat : Bool) (s : Int) (products : List Int) : Int :=
  (chunks 16 64 products).foldl (fun s g =>
    let x := s + g.foldl (· + ·) 0
    if sat then satInt (-2 ^ 31) (2 ^ 31 - 1) x else toSigned 32 (ofSigned 32 x)) s

/-- Column `n` of the stationary tile: the elements of index 32k + n. -/
def column {α : Type} (b : Array α) (zero : α) (k n : Nat) : List α :=
  (List.range k).map fun i => (b[32 * i + n]?).getD zero

/-- R140, R141: the rows of D from the bytes of A and B and the rows of C. -/
def matrixRows (c : MxCmd) (a b : List Byte) (old : List Row) : List Row :=
  let (wa, wb, k) := pairBits c.pair
  let as := chunks k 16 (elements wa a)
  let bs := elements wb b
  let cs := old.map fun r => if c.zc then List.replicate 32 0 else lanes 32 r
  if pairIsInt c.pair then
    let dec (uns : Bool) (w : Nat) (neg : Bool) (x : Nat) : Int :=
      let v : Int := if uns then x else toSigned w x
      if neg then -v else v
    let bv := (bs.map (dec c.sb wb c.nb)).toArray
    let cols := (List.range 32).map (column bv 0 k)
    List.zipWith (fun ra rc =>
      let av := ra.map (dec c.sa wa c.na)
      packRow 32 (List.zipWith (fun col x =>
        ofSigned 32 (intDot c.sat (toSigned 32 x) (List.zipWith (· * ·) av col))) cols rc)) as cs
  else if c.scA = 0xFF ∨ c.scB = 0xFF then List.replicate 16 (packRow 32 (List.replicate 32 fp32.canon))
  else
    let (fa, fb) := pairFmts c.pair
    let entry (i : Nat) : Nat := c.cb.toNat / 2 ^ (16 * i) % 2 ^ 16
    let bv := (bs.map fun x =>
      ((decode fb (if pairIsCb c.pair then entry x else x)).scaled c.scB).negIf c.nb).toArray
    let cols := (List.range 32).map (column bv (.fin false 0 0) k)
    List.zipWith (fun ra rc =>
      let av := ra.map fun x => ((decode fa x).scaled c.scA).negIf c.na
      packRow 32 (List.zipWith (fun col x =>
        fpDot x (List.zipWith (fun p q => (mulFp p q).1) av col)) cols rc)) as cs

/-- R137: the logical die and cluster of an address and of the issuing core. -/
def addrCluster (a : Nat) : Nat := a / 2 ^ 23 % 256
def ownCluster (s : State) : Nat := logicalDie s (dieOf s.cur) * 32 + clusterNo s.cur

/-- R137 row 2: the first byte of a range outside the issuing core's cluster. -/
def leavesCluster (s : State) (a n : Nat) : Option Nat :=
  let e := (a / 2 ^ 23 + 1) * 2 ^ 23
  if addrCluster a ≠ ownCluster s then some a else if e < a + n then some e else none
/-- R137 row 2 for an operand of `n` steps `step` bytes apart, of `len` bytes each. That TVAL is the global address where the
local alias names the operand is the model's choice (log 76). -/
def inCluster (s : State) (va : Word) (step len n : Nat) : M Unit := do
  need (spaceOf va == 1 || spaceOf va == 2) cALIGNMENT va
  if spaceOf va = 1 then
    need (addrCluster va.toNat == ownCluster s) cALIGNMENT va
  if spaceOf va = 1 ∨ slice va 20 42 = 0 then
    let base := (resolveAlias s s.cur va).toNat
    (List.range n).forM fun k =>
      match leavesCluster s (base + step * k) len with
      | none => .ok ()
      | some b => trapM cALIGNMENT (W b)
/-- Cut a range of scratchpad addresses at the ends of cores. -/
def coreCuts : Nat → Nat → Nat → List (Nat × Nat)
  | 0, _, _ => []
  | fuel + 1, a, n =>
    if n = 0 then []
    else
      let m := min n (2 ^ 20 - a % 2 ^ 20)
      (a, m) :: coreCuts fuel (a + m) (n - m)
/-- R137 row 3, with the share checks of R377 and R378, whose place among the rows and whose TVAL are the model's choice
(log 77). -/
def operandChecks (s : State) (va : Word) (step len n : Nat) : M Unit := do
  need (spaceOf va != 2 || slice va 20 42 == 0) cSHAPE va
  let base := (resolveAlias s s.cur va).toNat
  (List.range n).forM fun k => (coreCuts 8 (base + step * k) len).forM fun c => do
    let _ ← spSpan s (self s) (W c.1) c.2 .read
/-- The storage address of an operand that passed its checks. -/
def operandKey (s : State) (va : Word) : Nat :=
  let base := (resolveAlias s s.cur va).toNat
  2 ^ 62 + (dieOf s.cur).toNat * 2 ^ 28 + base % 2 ^ 28

/-- R135: whether an accumulator has the type that a pair code needs (R49 row 6). -/
def accSuits (t : Strand) (x : MatOp) : Bool := t.tyOf x.acc == (if pairIsInt x.pair then 1 else 0)
/-- R143 stages 3 and 4. -/
def matrixChecks (s : State) (i : Instr) (x : MatOp) : M Unit := do
  let t := s.core.strand
  let a := t.readG x.a
  let b := t.readG x.b
  let n := x.steps.toNat + 1
  let nb := pairBBytes x.pair
  if !accSuits t x then illegal i
  need (a.toNat % 2048 == 0) cALIGNMENT a
  need (b.toNat % 4096 == 0) cALIGNMENT b
  inCluster s a 2048 2048 n
  inCluster s b 4096 nb n
  operandChecks s a 2048 2048 n
  operandChecks s b 4096 nb n

/-- R139: the command of step `k`, with what it captures. -/
def captureStep (s : State) (x : MatOp) (k : Nat) : MxCmd :=
  let t := s.core.strand
  let f := if pairIsInt x.pair then 0 else (t.readF x.s).toNat
  { id := s.nextId
    core := s.cur
    strand := t.spillovf
    ctx := tagOf t
    solo := bitOf t.mweight 8
    addr := t.pc
    pair := x.pair
    acc := x.acc
    a := operandKey s (t.readG x.a) + 2048 * k
    b := operandKey s (t.readG x.b) + 4096 * k
    na := x.na
    nb := x.nb
    zc := x.zc && k == 0
    sa := x.sa
    sb := x.sb
    sat := x.sat
    scA := BitVec.ofNat 8 f
    scB := BitVec.ofNat 8 (f / 256)
    cb := t.cb[x.cb.toNat]'(x.cb.isLt)
    cls := t.cls
    hold := BitVec.ofNat 10 (slice t.mhold 0 10)
    token := k == x.steps.toNat
    due := 0
    alone := false }

/-- R143, R149, R322: enqueue a step and debit it, or wait for a place in the queue or for its token's room. -/
def enqueueStep (s : State) (x : MatOp) (k : Nat) : M State := do
  let t := s.core.strand
  let c := clusterGet s (clusterOf s.cur)
  let out := (c.mx.pending.filter fun d => d.strand == t.spillovf && d.token).length
  if decide (8 ≤ (c.mx.queue.filter fun d => d.core == s.cur).length) || !tokenRoom t 3 out then waitM
  let s1 := clusterSet s (clusterOf s.cur)
    { c with mx := { c.mx with queue := c.mx.queue ++ [captureStep s x k] } }
  pure (debitAt s.cur (tagOf t) .matrix { s1 with nextId := s1.nextId + 1 })

/-- R143: TMMA. -/
def execTmma (x : MatOp) (s : State) : Outcome State :=
  if s.core.strand.readZ x.z then
    finish s (do
      matrixChecks s (.tmma x) x
      let s1 ← enqueueStep s x 0
      pure (retireFree s1))
  else .next (retireFree s)
/-- R144: TMMAK, one enqueue at a time; MSTEP counts the steps enqueued. -/
def execTmmak (x : MatOp) (s : State) : Outcome State :=
  let setStep (n : Nat) (s : State) : State := strandSet s { s.core.strand with mstep := W n }
  if s.core.strand.readZ x.z then
    finish s (do
      matrixChecks s (.tmmak x) x
      let k := slice s.core.strand.mstep 0 12
      let n := x.steps.toNat + 1
      if k < n then
        let s1 ← enqueueStep s x k
        pure (if k + 1 < n then noteIssue (setStep (k + 1) s1) else retireFree (setStep 0 s1))
      else pure (retireFree (setStep 0 s)))
  else .next (retireFree s)

/-- R308: whether two commands have the same key. -/
def sameKey (c d : MxCmd) : Bool :=
  c.b == d.b && c.pair == d.pair && (!pairIsInt c.pair || c.sb == d.sb) && c.scB == d.scB
    && (!pairIsCb c.pair || c.cb == d.cb) && c.nb == d.nb && ((!c.solo && !d.solo) || c.ctx == d.ctx)
/-- R310: whether a command can join a group. -/
def joins (c : MxCmd) (g : MxGroup) : Bool := decide (g.members.length < 8) && g.members.all (sameKey c)
/-- R310: a group with a member added. -/
def addMember (now : Nat) (c : MxCmd) (dl : Nat) (g : MxGroup) : MxGroup :=
  let d := Nat.min g.deadline dl
  ⟨g.members ++ [c], d, g.ready || g.members.length == 7 || decide (d ≤ now)⟩
/-- Change the first element that satisfies a test. -/
def mapFirst {α : Type} (p : α → Bool) (f : α → α) : List α → List α
  | [] => []
  | x :: t => if p x then f x :: t else x :: mapFirst p f t
/-- R310: the earliest deadline of the held groups. -/
def earliest (gs : List MxGroup) : Option Nat :=
  (gs.filter fun g => !g.ready).foldl (fun m g => match m with
    | none => some g.deadline
    | some d => some (Nat.min d g.deadline)) none

/-- R310, R311: of two held groups of the earliest deadline the one opened first makes room (the model's choice, log 40).
Admission of a command to the thatch; one that a stop has withdrawn forms a ready group of its own. -/
def mxAdmit (u : MxUnit) (c : MxCmd) : MxUnit :=
  let dl := if c.cls = 3 then u.cycle else u.cycle + c.hold.toNat
  let c := { c with due := dl }
  let fresh : MxGroup := ⟨[c], dl, decide (dl ≤ u.cycle)⟩
  if c.alone then { u with groups := u.groups ++ [⟨[c], u.cycle, true⟩] }
  else if u.groups.any (joins c) then { u with groups := mapFirst (joins c) (addMember u.cycle c dl) u.groups }
  else if (u.groups.filter fun g => !g.ready).length < 4 then { u with groups := u.groups ++ [fresh] }
  else
    let gs := match earliest u.groups with
      | none => u.groups
      | some d => mapFirst (fun g => !g.ready && g.deadline == d) (fun g => { g with ready := true }) u.groups
    { u with groups := gs ++ [fresh] }

/-- The matrix unit of a cluster changed. -/
def mapMx (c : ClusterId) (f : MxUnit → MxUnit) (s : State) : State :=
  let x := clusterGet s c
  clusterSet s c { x with mx := f x.mx }

/-- R310, R314: the groups whose deadline has come by a cycle are ready. -/
def MxUnit.reach (u : MxUnit) (now : Nat) : MxUnit :=
  { u with
    cycle := now
    groups := u.groups.map fun g => { g with ready := g.ready || decide (g.deadline ≤ now) } }

/-- R306, R310: the head of a core's queue goes to the thatch when it may leave. -/
def admitHead (k : CoreId) (s : State) : State :=
  let u := (clusterGet s (clusterOf k)).mx
  match mxHead u k with
  | none => s
  | some c =>
    if mxMayLeave u c then
      mapMx (clusterOf k) (fun u => mxAdmit { u with queue := u.queue.filter fun d => d.id != c.id } c) s
    else s
/-- R327: a unit of a cluster acts, unless a stall holds its work. -/
def unlessStalled (c : ClusterId) (f : State → State) (s : State) : Outcome State := .next (if stalled s c then s else f s)
def execThatchAdmission (k : CoreId) (s : State) : Outcome State := unlessStalled (clusterOf k) (admitHead k) s

/-- R310: the current cycle reaches the earliest deadline of the held groups. -/
def reachDeadline (c : ClusterId) (s : State) : State :=
  match earliest (clusterGet s c).mx.groups with
  | none => s
  | some d => mapMx c (fun u => u.reach (Nat.max u.cycle d)) s
def execGroupDeadline (c : ClusterId) (s : State) : Outcome State := unlessStalled c (reachDeadline c) s

def MxGroup.cls (g : MxGroup) : Nat := g.members.foldl (fun m c => Nat.max m c.cls.toNat) 0
/-- Core numbers in rotation from a pointer (R307). -/
def rotation (p : BitVec 3) : List (BitVec 3) := (List.range 8).map fun i => p + BitVec.ofNat 3 i
/-- The oldest ready command of a core among groups, with its group's position in the list. -/
def oldestOf (k : BitVec 3) (gs : List MxGroup) : Option MxGroup :=
  let mine (g : MxGroup) : List Nat := (g.members.filter fun c => coreNo c.core == k).map (·.id)
  (gs.foldl (fun (best : Option (Nat × MxGroup)) g =>
    (mine g).foldl (fun best i => match best with
      | some (j, h) => if i < j then some (i, g) else some (j, h)
      | none => some (i, g)) best) none).map (·.2)

/-- R305, R307: the credits of a core after replenishment. -/
def weightOf (s : State) (c : ClusterId) (k : Nat) : Nat :=
  let w := slice (coreGet s (coreAt c k)).strand.mweight 0 4
  if w = 0 then 1 else w

/-- R307: the issue the arbiter chooses, with the unit after the choice. -/
def arbitrate (s : State) (c : ClusterId) (u : MxUnit) : Option (MxGroup × MxUnit) :=
  let ready := u.groups.filter (·.ready)
  let top := ready.filter fun g => g.cls == 3
  let low := ready.filter fun g => g.cls != 3
  let note (b : Bool) (u : MxUnit) : MxUnit := { u with recent := (b :: u.recent).take 3 }
  if top ≠ [] ∧ !(low != [] && u.recent == [true, true, true]) then
    match (rotation u.ptr3).findSome? fun k => (oldestOf k top).map fun g => (k, g) with
    | none => none
    | some (k, g) => some (g, note true { u with ptr3 := k + 1 })
  else
    let has (u : MxUnit) (k : BitVec 3) : Option (BitVec 3 × MxGroup) :=
      if u.credits[k.toNat] = 0 then none else (oldestOf k low).map fun g => (k, g)
    let u := if (rotation u.ptr).any fun k => (has u k).isSome then u
      else { u with credits := Vector.ofFn fun i => weightOf s c i.val }
    match (rotation u.ptr).findSome? (has u) with
    | none => none
    | some (k, g) =>
      let spent := g.members.foldl (fun (v : Vector Nat 8) m =>
        v.set (coreNo m.core).toNat (v[(coreNo m.core).toNat] - 1)) u.credits
      some (g, note false { u with ptr := k + 1, credits := spent })

/-- R147, R151: a member's operands read, its rows computed, and their poison: that of A, B and C, a row of C whose register
line is lost (R382) among them. -/
def matrixResult (s : State) (c : MxCmd) : MxResult :=
  let t := (findStrand c.strand s).getD Strand.zero
  let nb := pairBBytes c.pair
  let bad (r : Nat) : Bool :=
    (firstPoison s.poison (c.a + 128 * r) 128).isSome || (firstPoison s.poison c.b nb).isSome
      || (!c.zc && (t.rowPoison.getLsbD (16 * c.acc.toNat + r) || t.lost.any fun l => l / 128 == 16 * c.acc.toNat + r))
  ⟨c, matrixRows c (memRead s.mem c.a 2048) (memRead s.mem c.b nb) (t.tile c.acc), (List.range 16).map bad⟩

/-- R307, R311: the arbiter chooses a ready group, which reads A, B and C for every member. -/
def startIssue (c : ClusterId) (s : State) : State :=
  let u := (clusterGet s c).mx
  if u.issued ≠ [] then s
  else match arbitrate s c u with
    | none => s
    | some (g, v) =>
      mapMx c (fun _ =>
        { v with groups := v.groups.filter (· != g), issued := g.members.map (matrixResult s) }) s
def execMatrixIssue (c : ClusterId) (s : State) : Outcome State := unlessStalled c (startIssue c) s

/-- R134, R149, R151: a member's rows and marks are written, the marks and losses that stood there replaced (log 39), and its
token is posted. -/
def completeMember (r : MxResult) (s : State) : State :=
  mapStrand r.cmd.strand (fun t =>
    let t := (t.writeTile r.cmd.acc r.rows).markTile r.cmd.acc r.poison
    let t := { t with lost := t.lost.filter fun l => l / 2048 != r.cmd.acc.toNat }
    if r.cmd.token then
      postToken 3 ((r.cmd.addr &&& ~~~(3 : Word)) ||| r.cmd.acc.zeroExtend 64) t
    else t) s
/-- R311: the issue ends. An issue of r rows takes r/2 cycles (R307). -/
def endIssue (c : ClusterId) (s : State) : State :=
  let rs := (clusterGet s c).mx.issued
  mapMx c (fun u => { u.reach (u.cycle + 8 * rs.length) with issued := [] })
    (rs.foldl (fun s r => completeMember r s) s)
def execIssueEnd (c : ClusterId) (s : State) : Outcome State := unlessStalled c (endIssue c) s

end Sys2Proof.Machine
end

