-- ==== Sys2Proof/Machine/Sparse.lean ====
section
/-! DEFINITION. Sparse volumes: the tree walk with allocation on write (R355 to R365), coordinate
accesses (R346), and the removal of look-aside buffer entries (R366, R370). -/

namespace Sys2Proof.Machine

/-- R356: the number of bits of a coordinate that lie inside a leaf. -/
def leafShift (rank : Nat) : Nat := if rank = 1 then 12 else if rank = 2 then 6 else 4
/-- R356: the index width of an extent. -/
def idxWidth (e edge : Nat) : Nat :=
  let q := ceilDiv e edge
  if q ≤ 1 then 0 else Nat.log2 (q - 1) + 1
def ORec.idx (r : ORec) (d : Nat) : Nat :=
  if d < r.rank then idxWidth (r.ext d) (2 ^ leafShift r.rank) else 0
/-- R356: the levels of interior nodes. -/
def ORec.levels (r : ORec) : Nat := Nat.max 1 (ceilDiv (r.idx 0 + r.idx 1 + r.idx 2) 6)
/-- R335: the element size in bytes of a volume. -/
def ORec.elem (r : ORec) : Nat := r.nib / 2
def ORec.leafBytes (r : ORec) : Nat := 4096 * r.elem
/-- R356: the leaf key and the element index of coordinates. -/
def ORec.key (r : ORec) (c0 c1 c2 : Nat) : Nat :=
  let e := 2 ^ leafShift r.rank
  c0 / e + 2 ^ r.idx 0 * (c1 / e) + 2 ^ (r.idx 0 + r.idx 1) * (c2 / e)
def ORec.elemIdx (r : ORec) (c0 c1 c2 : Nat) : Nat :=
  let e := 2 ^ leafShift r.rank
  if r.rank = 1 then c0 % e else if r.rank = 2 then e * (c1 % e) + c0 % e
  else e * e * (c2 % e) + e * (c1 % e) + c0 % e

/-- R359: whether a record is a pool that a volume can pop from. -/
def poolOk (r pool : ORec) : Bool := pool.kind == kRING && pool.ringS == 16 && pool.part == r.part

/-- R359: the record of a volume's pool, if it can be popped. -/
def poolOf (s : State) (g : Agent) (r : ORec) : Option ORec :=
  match findRecord s g r.pool 0 with
  | .ok p => if poolOk r p then some p else none
  | .error _ => none

/-- R359: pop a tile; none when the pop fails. -/
def popTile (s : State) (g : Agent) (r : ORec) : Option (Nat × State) :=
  match poolOf s g r with
  | none => none
  | some p =>
    let rp := ringW s p.place 1
    let slot := p.place + slotOff p rp
    let d0 := memWord s.mem slot
    if rp = ringW s p.place 0 then none
    else if slice d0 52 12 = 0 ∧ memWord s.mem (slot + 8) = 0 ∧ d0.toNat % r.leafBytes = 0 then
      some (d0.toNat, ringSet s p.place 1 (rp + 1))
    else none

/-- R395: whether a pop would read a poisoned unit of its pool. -/
def poolBad (s : State) (g : Agent) (r : ORec) : Bool :=
  (poolOf s g r).any fun p => (firstPoison s.poison p.place 32).isSome
    || (ringW s p.place 1 != ringW s p.place 0 && (firstPoison s.poison (p.place + slotOff p (ringW s p.place 1)) 16).isSome)

/-- R359: push a tile; none while the ring has no free slot, or a lower slot is still being filled. -/
def pushTile (s : State) (p : ORec) (tile : Nat) : Option State :=
  let resv := ringW s p.place 2
  if resv - ringW s p.place 1 < p.ringN ∧ ringW s p.place 0 = resv then
    let slot := p.place + slotOff p resv
    let s1 := { s with mem := memSetWord (memSetWord s.mem slot (W tile)) (slot + 8) 0 }
    some (ringSet (ringSet s1 p.place 2 (resv + 1)) p.place 0 (resv + 1))
  else none

/-- Remove every cached copy of the lines of a range, dirty bytes included. -/
def dropRange (s : State) (a n : Nat) : State :=
  let out (x : Nat) : Bool := decide (x < a) || decide (a + n ≤ x)
  { s with
    clusters := s.clusters.map fun e => (e.1, { e.2 with l1 := e.2.l1.filter fun l => out l.addr })
    l2 := s.l2.filter fun e => out e.2.addr }

/-- R360 step 2: fill a tile at its home. -/
def fillTile (s : State) (r : ORec) (leaf : Bool) (tile : Nat) : State :=
  let bs : List Byte := if leaf then (List.replicate 4096 (natBytes r.elem r.background.toNat)).flatten
    else List.replicate 512 0
  let s1 := dropRange s tile bs.length
  { cleanRange s1 tile bs.length with mem := memWrite s1.mem tile bs, poison := clearPoison s1.poison tile bs.length }

/-- R357: whether an entry is well formed. -/
def entryOk (r : ORec) (leaf : Bool) (e : Word) : Bool :=
  bitOf e 63 && slice e 52 11 == 0 && slice e 0 9 == 0
    && (!leaf || slice e 0 52 % r.leafBytes == 0)

/-- R358, R360: the walk below a node with `i` levels still to go. It gives the leaf, or none when a read
met a null entry, the number of interior levels found, and the state; `va` and `at_` are the TVAL of a
poisoned entry and of a malformed one or a failed allocation. -/
def walkTree (g : Agent) (r : ORec) (va at_ : Word) (key : Nat) (alloc : Bool) :
    Nat → Nat → State → M (Option Nat × Nat × State)
  | 0, node, s => .ok (some node, 0, s)
  | i + 1, node, s =>
    let a := node + 8 * (key / 64 ^ i % 64)
    let ent := memWord s.mem a
    if (firstPoison s.poison a 8).isSome then .error (.trapIn s cPOISON va)
    else if ent = 0 then
      if !alloc then .ok (none, 1, s)
      else if poolBad s g r then .error (.trapIn s cPOISON va)
      else match popTile s g r with
        | none => .error (.trapIn s cALLOCATION at_)
        | some (t, s1) =>
          let s2 := fillTile s1 r (i == 0) t
          let s3 := { s2 with mem := memSetWord s2.mem a (W (2 ^ 63 + t)) }
          (walkTree g r va at_ key alloc i t s3).map fun x => (x.1, x.2.1 + 1, x.2.2)
    else if entryOk r (i == 0) ent then
      (walkTree g r va at_ key alloc i (slice ent 0 52) s).map fun x => (x.1, x.2.1 + 1, x.2.2)
    else .error (.trapIn s cTRANSLATION at_)

/-- R358, R366: the leaf of a key through the look-aside buffer or the tree; `note` says whether a walk makes an
entry. -/
def leafOf (s : State) (g : Agent) (n : BitVec 18) (r : ORec) (va at_ : Word) (key : Nat)
    (alloc note : Bool) : M (Option Nat × Nat × State) :=
  match clbFind s g n key with
  | some b => .ok (some b, r.levels, clbNote s g ⟨g.tag, n, key, b⟩)
  | none => (walkTree g r va at_ key alloc r.levels r.place s).map fun x =>
      match x.1 with
      | some b => (some b, x.2.1, if note then clbNote x.2.2 g ⟨g.tag, n, key, b⟩ else x.2.2)
      | none => x

/-- R346: the coordinate of a dimension. -/
def coord (c : Word) (d : Nat) : Nat := slice c (16 * d) 16
def ORec.keyAt (r : ORec) (c : Word) : Nat := r.key (coord c 0) (coord c 1) (coord c 2)
def ORec.elemAt (r : ORec) (c : Word) : Nat := r.elemIdx (coord c 0) (coord c 1) (coord c 2)

/-- R346 rows 1 to 4. -/
def coordRecord (s : State) (ga : Word) (k : AKind) : M ORec := do
  let g := self s
  need (spaceOf ga == 0 && offOf ga == 0) cALIGNMENT ga
  need (!inPeerWindow ga) cPERMISSION ga
  let r ← lookup s g (objOf ga) ga
  recordChecks s g r k ga
  need (r.kind != kRING && r.kind != kBARRIER) cPERMISSION ga
  pure r
/-- R346 row 6. -/
def coordShape (r : ORec) (gc : Word) : M Unit :=
  need ((List.range 4).all fun d => decide (coord gc d < r.ext d) && (decide (d < r.rank) || coord gc d == 0))
    cSHAPE gc

/-- R336: the byte offset of coordinates in an object that is not sparse. -/
def ORec.byteAt (r : ORec) (gc : Word) : Nat :=
  r.elemNibble (coord gc 0) (coord gc 1) (coord gc 2) (coord gc 3) / 2

/-- A check made after a walk: when it fails, what the walk has left stays (R358). -/
def stopIn {α : Type} (s : State) (m : M α) : M α :=
  match m with
  | .error (.trap c v) => .error (.trapIn s c v)
  | .error .wait => .error (.waitIn s)
  | r => r

/-- R346: the pieces of an element, none for an unallocated leaf that is read, with its place in the
object for the write-range log (R368). -/
def elemPlace (s : State) (ga gc : Word) (w : Nat) (k : AKind) :
    M (Option (List Piece) × LogAt × State) := do
  let g := self s
  let n := objOf ga
  let r ← coordRecord s ga k
  need (2 * w == r.nib) cALIGNMENT ga
  coordShape r gc
  if r.kind = kSPARSE then
    let key := r.keyAt gc
    let e := w * r.elemAt gc
    let (b, _, s1) ← leafOf s g n r ga gc key (k == .write) true
    stopIn s1 (snoopReady s1 (clusterOf g.core) ((b.map fun b => [⟨b + e, w, r.placeKind s⟩]).getD []))
    pure (b.map fun b => [⟨b + e, w, r.placeKind s⟩], ⟨r, n, w * 4096 * key + e⟩, s1)
  else
    let o := r.byteAt gc
    let ps ← objectSpan s g (ga + W o) r w k
    pure (some ps, ⟨r, n, o⟩, s)

/-- R346: the bytes of a coordinate load, with the state it leaves. -/
def loadElem (s : State) (ga gc : Word) (w : Nat) : M (List Byte × State) := do
  let g := self s
  let (ps, la, s1) ← elemPlace s ga gc w .read
  let s1 := noteTranslation g (ga + W (if la.record.kind = kSPARSE then 0 else la.off)) w s1
  match ps with
  | none => pure (natBytes w la.record.background.toNat, s1)
  | some ps =>
    stopIn s1 (needClean s1 (if la.record.kind = kSPARSE then ga else ga + W la.off) ps)
    let s2 := fillPieces s1 (clusterOf g.core) g.tag ps
    pure ((ps.map (pieceRead s1 (clusterOf g.core))).flatten, touch s2 ps)

/-- R346: a coordinate store. -/
def storeElem (s : State) (ga gc : Word) (bs : List Byte) : M State := do
  let g := self s
  let (ps, la, s1) ← elemPlace s ga gc bs.length .write
  let s1 := noteTranslation g (ga + W (if la.record.kind = kSPARSE then 0 else la.off)) bs.length s1
  let ps := ps.getD []
  pure (touch (storePieces g (some la) ps bs s1) ps)

/-- R346: LDC. -/
def execLdc (d a c : Reg) (f : Bool) (sz : BitVec 3) (s : State) : Outcome State :=
  let t := s.core.strand
  finish s (do
    let (bs, s1) ← loadElem s (t.readG a) (t.readG c) (szBytes sz)
    let t1 := s1.core.strand
    pure (retireWith .scalar s1
      (if f then t1.writeF d (W (bytesNat bs)) else t1.writeG d (loadExt sz (bytesNat bs)))))

/-- R346: STC. -/
def execStc (g : Guard) (a c d : Reg) (f : Bool) (w : BitVec 2) (s : State) : Outcome State :=
  let t := s.core.strand
  if guardHolds g t then
    finish s (do
      let v := if f then t.readF d else t.readG d
      let s1 ← storeElem s (t.readG a) (t.readG c) (natBytes (wBytes w) v.toNat)
      pure (retire .scalar s1))
  else .next (retire .scalar s)

/-- R369: TTQRY. -/
def execTtqry (d a c : Reg) (s : State) : Outcome State :=
  let t := s.core.strand
  let ga := t.readG a
  let gc := t.readG c
  finish s (do
    let r ← coordRecord s ga .read
    coordShape r gc
    need (r.kind == kSPARSE) cPERMISSION ga
    let (b, n, s1) ← leafOf s (self s) (objOf ga) r ga gc (r.keyAt gc) false false
    let s2 := noteTranslation (self s) ga 1 s1
    pure (retireWith .scalar s2 (s2.core.strand.writeG d (W (2 * n + b.isSome.toNat)))))

/-- R366: remove look-aside buffer entries of a logical device's cores. -/
def clbDrop (s : State) (p : BitVec 3) (bad : ClbEntry → Bool) : State :=
  let clean (k : CoreId) (c : Core) : Core :=
    if partOfCore s k = p then { c with clb := c.clb.filter fun e => !bad e } else c
  { s with core := clean s.cur s.core, others := s.others.map fun e => (e.1, clean e.1 e.2) }

/-- R349, R350, R370: note a removal of versions, or of some leaves' translations, for a later ORSYNC. -/
def noteRemoval (s : State) (t : Tag) (n : Option (BitVec 18)) (keys : Option (List Nat)) : State :=
  { s with removals := s.removals ++ [⟨t, n, keys, s.nextId + 1⟩], nextId := s.nextId + 1 }
/-- R370: the keys of the look-aside buffer entries of a logical device that a removal takes. -/
def clbKeys (s : State) (p : BitVec 3) (bad : ClbEntry → Bool) : List Nat :=
  (allCores s).flatMap fun e => if partOfCore s e.1 = p then (e.2.clb.filter bad).map (·.key) else []

/-- R370: CLBINV, by leaf or by object. -/
def clbInvalidate (ga : Word) (gc : Option Word) (s : State) : Outcome State :=
  let g := self s
  let n := objOf ga
  finish s (do
    need (spaceOf ga == 0) cALIGNMENT ga
    let hit (e : ClbEntry) : Bool := e.ctx == g.tag && e.obj == n &&
      match gc with
      | none => true
      | some c => match findRecord s g n ga with
        | .ok r => r.kind == kSPARSE && e.key == r.keyAt c
            && (List.range 4).all fun d => decide (coord c d < r.ext d)
        | .error _ => false
    let p := partOfCore s s.cur
    let s1 := clbDrop s p hit
    pure (retire .scalar (match clbKeys s p hit with
      | [] => s1
      | gone => noteRemoval s1 g.tag (some n) (some gone))))
def execClbinv (a c : Reg) (s : State) : Outcome State :=
  let t := s.core.strand
  clbInvalidate (t.readG a) (some (t.readG c)) s
def execClbinvObj (a : Reg) (s : State) : Outcome State := clbInvalidate (s.core.strand.readG a) none s

end Sys2Proof.Machine
end

