-- ==== Sys2Proof/Machine/Coherence.lean ====
section
/-! DEFINITION. The coherence attributes: write-back and invalidation of software-coherent lines, changes
of attribute, the write-range log, removals of cached versions, and the edges of R192 (R215 to R229,
R349, R350, R249). -/

namespace Sys2Proof.Machine

/-- R356, R364: the allocated leaves below a node with `i` levels to go, as key and base. -/
def leavesBelow (s : State) : Nat → Nat → Nat → List (Nat × Nat)
  | 0, node, key => [(key, node)]
  | i + 1, node, key => (List.range 64).flatMap fun j =>
      let e := memWord s.mem (node + 8 * j)
      if bitOf e 63 then leavesBelow s i (slice e 0 52) (64 * key + j) else []

/-- The storage of an object: linear offset, base and length of each part that is present (R222). -/
def extents (s : State) (r : ORec) : List (Nat × Nat × Nat) :=
  if r.kind = kSPARSE then
    (leavesBelow s r.levels r.place 0).map fun x => (r.leafBytes * x.1, x.2, r.leafBytes)
  else if r.kind = kMAPPED then
    (List.range (ceilDiv r.bytes r.subTile)).filterMap fun i =>
      (mapEntry s r r.place i).map fun b => (i * r.subTile, b, Nat.min r.subTile (r.bytes - i * r.subTile))
  else [(0, r.place, r.bytes)]

/-- Whether a line holds bytes of an object at linear offsets in a range. -/
def inExtents (ext : List (Nat × Nat × Nat)) (lo hi a : Nat) : Bool :=
  ext.any fun x => decide (x.2.1 ≤ a) && decide (a < x.2.1 + x.2.2)
    && decide (lo < x.1 + (a - x.2.1) + 64) && decide (x.1 + (a - x.2.1) < hi)

/-- R220: the unretired records of a log, oldest first. -/
def logRecords (s : State) (l : ORec) : List (Word × Word) :=
  let rp := ringW s l.place 1
  (List.range (ringW s l.place 0 - rp)).map fun i =>
    let a := l.place + slotOff l (rp + i)
    (memWord s.mem a, memWord s.mem (a + 8))
def logObj (x : Word × Word) : Nat := slice x.1 44 18
/-- The die and cluster of a record (R219). -/
def logCluster (x : Word × Word) : Nat := slice x.2 35 8
def logFrom (x : Word × Word) : Nat := logOffset x.1 x.2
def logTo (x : Word × Word) : Nat := logOffset x.1 x.2 + logLength x.2
/-- The logical die and cluster that name a cluster in log records. -/
def logName (s : State) (c : ClusterId) : Nat := logicalDie s (dieOfCluster c) * 32 + c.toNat % 32

/-- R395: the log's control line and its unretired records from the `lo`-th on, `cnt` of them, are sound; `n` is the object
that holds the log. -/
def logClean (s : State) (n : BitVec 18) (l : ORec) (lo cnt : Nat) : M Unit := do
  need (firstPoison s.poison l.place 32).isNone cPOISON (objAddr n 0)
  (List.range cnt).forM fun i =>
    let o := slotOff l (ringW s l.place 1 + lo + i)
    need (firstPoison s.poison (l.place + o) 16).isNone cPOISON (objAddr n o)
/-- The count of unretired records. -/
def logCount (s : State) (l : ORec) : Nat := ringW s l.place 0 - ringW s l.place 1

/-- R221: the linear ranges that a log-driven operation of a cluster uses; all of the object when its log
has overflowed or is absent. -/
def logRanges (s : State) (g : Agent) (n : BitVec 18) (r : ORec) (own : Option ClusterId) : List (Nat × Nat) :=
  match logRing s g r with
  | none => [(0, 2 ^ 52)]
  | some l =>
    if ringW s l.place 3 % 2 = 1 then [(0, 2 ^ 52)]
    else ((logRecords s l).filter fun x => logObj x == n.toNat
        && own.all fun c => logCluster x == logName s c).map fun x => (logFrom x, logTo x)

/-- The software-coherent lines that a cluster holds in ranges of an object. -/
def heldLines (s : State) (c : ClusterId) (r : ORec) (ranges : List (Nat × Nat)) : List Nat :=
  let ext := extents s r
  ((clusterGet s c).l1.map (·.addr)).filter fun a => ranges.any fun x => inExtents ext x.1 x.2 a

/-- R222: RWB's effect on the lines of a cluster. -/
def writeBackLines (s : State) (c : ClusterId) (l : List Nat) : State := l.foldl (fun s a => writeBackLine s c a) s
/-- R222: RINV's effect. -/
def invalidateLines (s : State) (c : ClusterId) (r : ORec) (ranges : List (Nat × Nat)) : State :=
  let ext := extents s r
  let s1 := (heldLines s c r ranges).foldl (fun s a => dropLine (writeBackLine s c a) c a) s
  { s1 with l2 := s1.l2.filter fun e =>
      !(e.1 == dieOfCluster c && ranges.any fun x => inExtents ext x.1 x.2 e.2.addr) }
/-- R226, R228: every cluster's dirty bytes in the lines that meet `hit` are merged at the home and every cached
copy of those lines is removed. -/
def purgeHit (s : State) (hit : Nat → Bool) : State :=
  let s1 := s.clusters.foldl (fun s e => (((clusterGet s e.1).l1.map (·.addr)).filter hit).foldl
    (fun s a => dropLine (writeBackLine s e.1 a) e.1 a) s) s
  dropDirty { s1 with l2 := s1.l2.filter fun e => !hit e.2.addr } fun e => hit e.addr
def purgeRanges (s : State) (r : ORec) (ranges : List (Nat × Nat)) : State :=
  let ext := extents s r
  purgeHit s fun a => ranges.any fun x => inExtents ext x.1 x.2 a

/-- How an instruction of R222 names its lines. -/
inductive RMode where
  | range (len : Word)
  | log
  | obj
  deriving DecidableEq, Repr

/-- R223, R222: the checks, then the lines acted on by the issuing cluster. -/
def reconcile (inv : Bool) (m : RMode) (ea : Word) (s : State) : Outcome State :=
  let g := self s
  let c := clusterOf s.cur
  let isRange : Bool := match m with
    | .range _ => true
    | _ => false
  finish s (
    if m = .range 0 ∨ spaceOf ea ≠ 0 then pure (retire .scalar s)
    else do
      need (!inPeerWindow ea) cPERMISSION ea
      let n := objOf ea
      let r ← lookup s g n ea
      recordChecks s g r .read ea
      need (!(isRange && r.kind == kSPARSE)) cPERMISSION ea
      let s1 := noteRecord g n s
      let ranges ← (match m with
        | .range len => do
          need (decide (offOf ea + len.toNat ≤ r.bytes)) cSHAPE ea
          pure [(offOf ea, offOf ea + len.toNat)]
        | .log => do
          match (if r.coh = cohSC then logRing s g r else none) with
          | some l => logClean s r.log l 0 (if ringW s l.place 3 % 2 = 1 then 0 else logCount s l)
          | none => pure ()
          pure (logRanges s g n r (if inv then none else some c))
        | .obj => pure [(0, 2 ^ 52)])
      let s2 := if r.coh ≠ cohSC then s1
        else if inv then invalidateLines s1 c r ranges
        else writeBackLines s1 c (heldLines s1 c r ranges)
      pure (retire .scalar s2))

def execRwb (a b : Reg) (s : State) : Outcome State :=
  reconcile false (.range (s.core.strand.readG b)) (s.core.strand.readG a) s
def execRwbLog (a : Reg) (s : State) : Outcome State := reconcile false .log (s.core.strand.readG a) s
def execRwbObj (a : Reg) (s : State) : Outcome State := reconcile false .obj (s.core.strand.readG a) s
def execRinv (a b : Reg) (s : State) : Outcome State :=
  reconcile true (.range (s.core.strand.readG b)) (s.core.strand.readG a) s
def execRinvLog (a : Reg) (s : State) : Outcome State := reconcile true .log (s.core.strand.readG a) s
def execRinvObj (a : Reg) (s : State) : Outcome State := reconcile true .obj (s.core.strand.readG a) s

/-- Every cached version of an object's record in a logical device is removed; all of a context's objects when none is
named. -/
def dropRecords (s : State) (p : BitVec 3) (t : Tag) (n : Option (BitVec 18)) : State :=
  let keep (e : ClusterId × Cluster) : ClusterId × Cluster :=
    if partOfDie s (dieOfCluster e.1) = p then
      (e.1, { e.2 with recs := e.2.recs.filter fun x => !(x.ctx == t && n.all fun m => m == x.obj) })
    else e
  { s with clusters := s.clusters.map keep }
/-- R349: the cached versions are removed with their look-aside buffer entries. -/
def dropVersions (s : State) (p : BitVec 3) (t : Tag) (n : Option (BitVec 18)) : State :=
  noteRemoval (dropRecords (clbDrop s p fun e => e.ctx == t && n.all fun m => m == e.obj) p t n) t n none

/-- R349: ORINV of an object or of every object of the context. -/
def removeVersions (n : Option (BitVec 18)) (s : State) : State :=
  dropVersions s (partOfCore s s.cur) (tagOf s.core.strand) n
def execOrinv (a : Reg) (s : State) : Outcome State :=
  let va := s.core.strand.readG a
  finish s (do
    need (spaceOf va == 0) cALIGNMENT va
    pure (retire .scalar (removeVersions (some (objOf va)) s)))
def execOrinvCtx (s : State) : Outcome State := .next (retire .scalar (removeVersions none s))

/-- R350: whether a removal concerns the objects of an ORSYNC. -/
def removalOf (t : Tag) (n : Option (BitVec 18)) (x : Removal) : Bool :=
  x.ctx == t && (n.isNone || x.obj.isNone || x.obj == n)
/-- R350, R370: whether translations numbered `at_`, of these objects and leaves, were made under versions that have been
removed. -/
def removedSince (s : State) (t : Tag) (n : Option (BitVec 18)) (at_ : Nat) (objs : List (BitVec 18))
    (keys : List (BitVec 18 × Nat)) : Bool :=
  s.removals.any fun x => removalOf t n x && decide (at_ < x.before)
    && (objs.any fun o => n.all (· == o) && x.obj.all (· == o))
    && x.keys.all fun l => keys.any fun k => x.obj == some k.1 && l.contains k.2
/-- R350, R231: whether a command, a bound window or a request to a peer of a context was translated under a version that
has been removed, and has not completed. -/
def underRemoved (s : State) (t : Tag) (n : Option (BitVec 18)) : Bool :=
  let old (c : Cmd) : Bool := c.ctx == t && removedSince s t n c.checked c.objs c.keys
  s.cmds.any old
    || ((allCores s).any fun e => e.2.win.toList.any fun w => w.cmd.any old)
    || s.out.any fun x => x.ctx == t && removedSince s t n x.req.id [BitVec.ofNat 18 (0x3F000 + x.handle.toNat)] []
/-- R350: ORSYNC. -/
def syncVersions (t : Tag) (n : Option (BitVec 18)) (s : State) : M State :=
  if underRemoved s t n then waitM
  else .ok { s with removals := s.removals.filter fun x => !(x.ctx == t && (n.isNone || x.obj == n)) }
def execOrsync (a : Reg) (s : State) : Outcome State :=
  let va := s.core.strand.readG a
  finish s (do
    need (spaceOf va == 0) cALIGNMENT va
    let s1 ← syncVersions (tagOf s.core.strand) (some (objOf va)) s
    pure (retire .scalar s1))
def execOrsyncCtx (s : State) : Outcome State :=
  finish s (do
    let s1 ← syncVersions (tagOf s.core.strand) none s
    pure (retire .scalar s1))

/-- The record with the shadow as its placement. -/
def ORec.shadowed (r : ORec) : ORec := r.set 3 (W r.shadow)

/-- R249 steps 3 and 4: placement and shadow are exchanged. -/
def publishRecord (s : State) (p : BitVec 3) (t : Tag) (ortbase : Word) (n : BitVec 18) (r : ORec) : State :=
  let s1 := purgeRanges (purgeRanges s r [(0, 2 ^ 52)]) r.shadowed [(0, 2 ^ 52)]
  match recordAddr ortbase n with
  | none => s1
  | some a =>
    let m := memSetWord (memSetWord s1.mem (a + 24) (memWord s1.mem (a + 32))) (a + 32) (memWord s1.mem (a + 24))
    dropVersions { s1 with mem := m } p t (some n)

/-- R227 rows 2 to 4 and 6: the record that an attribute or log instruction names. -/
def attrRecord (s : State) (ea : Word) (k : AKind) : M ORec := do
  need (spaceOf ea == 0) cALIGNMENT ea
  need (!inPeerWindow ea) cPERMISSION ea
  let r ← lookup s (self s) (objOf ea) ea
  need (r.part == partOfCore s s.cur) cISOLATION ea
  need (r.permits k) cPERMISSION ea
  pure r
def ownerOnly (s : State) (r : ORec) (ea : Word) : M Unit :=
  need (r.coh != cohCP || r.owner s == some s.cur) cISOLATION ea

/-- R318, R227: an instruction that completes before any stop has begun and waits; an OSETA holds the translations of its
object off. -/
def beginWait (s : State) (n : Option (BitVec 18)) : M Unit :=
  .error (.waitIn (strandSet s { s.core.strand with begun := true, changing := n }))
/-- R249: PUBLISH. -/
def execPublish (a : Reg) (s : State) : Outcome State :=
  let t := s.core.strand
  let ea := t.readG a
  let n := objOf ea
  finish s (do
    let r ← attrRecord s ea .write
    ownerOnly s r ea
    need ((r.kind == kDENSE || r.kind == kMAPPED) && r.sh) cPERMISSION ea
    if s.cmds.any fun c => c.strand == t.spillovf && c.shadowOf == some n then beginWait s none
    let s := strandSet s { t with begun := false }
    pure (retireLong .scalar (publishRecord s (partOfCore s s.cur) (tagOf t) t.ortbase n r)))

/-- R242: the copies of touched windows that wait for room, with the commands under way. -/
def underWay (s : State) : List Cmd :=
  s.cmds ++ (allCores s).flatMap fun e => e.2.win.toList.filterMap fun w => if w.st = .copying then w.cmd else none
/-- R226: whether an L1D other than the issuing core's holds a dirty byte of the object, or another core's
command that names it has not completed. -/
def cpRefused (s : State) (n : BitVec 18) (r : ORec) : Bool :=
  let ext := extents s r
  let hit (a : Nat) : Bool := inExtents ext 0 (2 ^ 52) a
  (s.clusters.any fun e => (clusterGet s e.1).l1.any fun l => hit l.addr && l.mask != 0
      && !(e.1 == clusterOf s.cur && l.writer == coreNo s.cur))
    || (s.dirty.any fun e => hit e.addr && e.core != s.cur)
    || ((underWay s).any fun c => c.core != s.cur && c.ctx == tagOf s.core.strand && c.objs.contains n)

/-- R226, R366: the record with another attribute, its cached versions removed; look-aside buffer entries stay. -/
def setAttr (s : State) (n : BitVec 18) (attr : Nat) : State :=
  let own := if attr = cohCP then logicalDie s (dieOf s.cur) * 256 + s.cur.toNat % 256 else 0
  match recordAddr s.core.strand.ortbase n with
  | none => s
  | some a =>
    let d0 := setSlice (setSlice (memWord s.mem a) 52 2 attr) 26 11 own
    dropRecords { s with mem := memSetWord s.mem a d0 } (partOfCore s s.cur) (tagOf s.core.strand) (some n)

/-- R226: HC to SC: the lines that cores hold dirty keep their masks. -/
def keepMasks (s : State) (r : ORec) : State :=
  let ext := extents s r
  let hit (e : DirtyLine) : Bool := inExtents ext 0 (2 ^ 52) e.addr
  (s.dirty.filter hit).foldl (fun s e =>
    let c := clusterGet s (clusterOf e.core)
    clusterSet s (clusterOf e.core)
      { c with l1 := l1Set ⟨e.addr, memRead s.mem e.addr 64, e.mask, e.tag, coreNo e.core, s.poison.contains e.addr⟩ c.l1 })
    { s with dirty := s.dirty.filter fun e => !hit e }
/-- R226: HC or SC to CP, once it is not refused: the issuing core keeps the lines that it holds dirty, and no other copy
remains. -/
def keepOwn (s : State) (r : ORec) : State :=
  let ext := extents s r
  let hit (a : Nat) : Bool := inExtents ext 0 (2 ^ 52) a
  let s1 := s.clusters.foldl (fun s e => ((clusterGet s e.1).l1.filter fun l => hit l.addr).foldl (fun s l =>
    let s1 := dropLine s e.1 l.addr
    if l.mask = 0 then s1
    else { s1 with
      mem := memMerge s1.mem l.addr l.mask.toNat l.data
      poison := mergeHome l.bad l.mask l.addr s1.poison
      dirty := dirtySet ⟨l.addr, s.cur, l.mask, l.tag⟩ s1.dirty }) s) s
  { s1 with l2 := s1.l2.filter fun e => !hit e.2.addr }
/-- R227: whether an engine command that names the object has still to complete. -/
def namedByCmd (s : State) (n : BitVec 18) : Bool :=
  (underWay s).any fun c => c.ctx == tagOf s.core.strand && c.objs.contains n

/-- R226: OSETA. -/
def execOseta (d a : Reg) (attr : BitVec 2) (s : State) : Outcome State :=
  let ea := s.core.strand.readG a
  let n := objOf ea
  finish s (do
    let r ← attrRecord s ea .write
    need (r.kind != kRING && r.kind != kBARRIER) cPERMISSION ea
    ownerOnly s r ea
    let done (s : State) (v : Word) : State :=
      retireWith .scalar s ({ s.core.strand with begun := false }.writeG d v)
    if r.coh = attr.toNat then pure (done (noteRecord (self s) n s) 0)
    else if attr = 2 && cpRefused s n r then pure (done s 1)
    else
      if namedByCmd s n then beginWait s (some n)
      let s1 := if attr = 2 then keepOwn s r
        else if r.coh = cohHC then keepMasks s r
        else purgeRanges s r [(0, 2 ^ 52)]
      pure (done (setAttr s1 n attr.toNat) 0))

/-- R228: the status pair of a log. -/
def logStatus (s : State) (l : ORec) : Word × Word :=
  (W (ringW s l.place 3 % 2 * 2 ^ 63 + (ringW s l.place 0 - ringW s l.place 1) % 2 ^ 32), W l.ringN)

/-- R228: retire the oldest records, after their ranges are purged throughout the logical device. That a record whose object
has no valid record is retired with nothing purged is the model's choice (log 42). -/
def logRetire (s : State) (g : Agent) (l : ORec) (n : Nat) : State :=
  let s1 := ((logRecords s l).take n).foldl (fun s x =>
    match findRecord s g (BitVec.ofNat 18 (logObj x)) 0 with
    | .ok r => purgeRanges s r [(logFrom x, logTo x)]
    | .error _ => s) s
  ringSet s1 l.place 1 (ringW s l.place 1 + n)

/-- R228, R229: LOGRD; `op` is what bits 63:62 of G[gc] select. That a CP object answers as one without a log is the
model's choice (log 42). -/
def logrd (op : Nat) (i : Instr) (d : BitVec 4) (a c : Reg) (s : State) : Outcome State :=
  let t := s.core.strand
  let gc := t.readG c
  let ea := t.readG a
  let rd : Reg := BitVec.ofNat 5 (2 * d.toNat)
  let g := self s
  finish s (do
    if d = 0 then illegal i
    need (slice gc 32 30 == 0) cILLEGAL gc
    let r ← attrRecord s ea (if op < 2 then .read else .write)
    ownerOnly s r ea
    let s0 := noteRecord g (objOf ea) s
    let done (s : State) (x : Word × Word) : State :=
      retireWith .scalar s ((s.core.strand.writeG rd x.1).writeG (rd + 1) x.2)
    match (if r.coh = cohSC then logRing s g r else none) with
    | none => pure (done s0 (0, 0))
    | some l =>
      let cnt := logCount s l
      let n := slice gc 0 32
      logClean s r.log l (if op = 0 then n else 0) (if op = 0 ∧ n < cnt then 1 else if op = 2 then Nat.min n cnt else 0)
      if op = 0 then pure (done s0 (((logRecords s l)[n]?).getD (0, 0)))
      else if op = 1 then pure (done s0 (logStatus s l))
      else if op = 2 then
        let s1 := logRetire s0 g l (Nat.min n cnt)
        pure (done s1 (logStatus s1 l))
      else
        let s1 := ringSet (purgeRanges s0 r [(0, 2 ^ 52)]) l.place 1 (ringW s l.place 0)
        let s2 := ringSet s1 l.place 3 (ringW s l.place 3 / 2 * 2)
        pure (done s2 (logStatus s2 l)))
def execLogrdRead (d : BitVec 4) (a c : Reg) (s : State) : Outcome State := logrd 0 (.logrdRead d a c) d a c s
def execLogrdStatus (d : BitVec 4) (a c : Reg) (s : State) : Outcome State := logrd 1 (.logrdStatus d a c) d a c s
def execLogrdRetire (d : BitVec 4) (a c : Reg) (s : State) : Outcome State := logrd 2 (.logrdRetire d a c) d a c s
def execLogrdReset (d : BitVec 4) (a c : Reg) (s : State) : Outcome State := logrd 3 (.logrdReset d a c) d a c s

end Sys2Proof.Machine
end

