-- ==== Sys2Proof/Machine/ForkJoin.lean ====
section
/-! DEFINITION. Frames, continuations, join records, deques, stealing and donation (R269 to R296, R426). -/

namespace Sys2Proof.Machine

/-! Edges (R192). -/

/-- The releasing side writes back its dirty software-coherent lines; those of other contexts in the cluster go home
too, as an eviction may send them at any time (log 62). -/
def edgeRelease (s : State) (c : ClusterId) : State := writeBackLines s c ((clusterGet s c).l1.map (·.addr))
/-- Whether the acquiring side's copy of a line goes: it lies in a logged range, or its object is not
known from the cluster's record cache. -/
def edgeHits (s : State) (g : Agent) (rs : List (BitVec 18 × ORec)) (a : Nat) : Bool :=
  let mine := rs.filter fun x => inExtents (extents s x.2) 0 (2 ^ 52) a
  mine.isEmpty || mine.any fun x =>
    (logRanges s g x.1 x.2 none).any fun y => inExtents (extents s x.2) y.1 y.2 a
/-- The acquiring side's cluster copies of the logged ranges are removed. -/
def edgeAcquire (s : State) (g : Agent) : State :=
  let c := clusterOf g.core
  let rs := ((clusterGet s c).recs.filter fun e => e.ctx == g.tag && ORec.coh e.words == cohSC).map
    fun e => (e.obj, e.words)
  let s1 := (((clusterGet s c).l1.map (·.addr)).filter (edgeHits s g rs)).foldl
    (fun s a => dropLine (writeBackLine s c a) c a) s
  { s1 with l2 := s1.l2.filter fun e => !(e.1 == dieOfCluster c && edgeHits s g rs e.2.addr) }

/-! Frames. -/

/-- The global scratchpad address of an offset of a core (R14). -/
def globalAt (s : State) (k : CoreId) (o : Nat) : Word :=
  W (2 ^ 62 + logicalDie s (dieOf k) * 2 ^ 28 + k.toNat % 256 * 2 ^ 20 + o)
/-- R270: the fields of the arena's registers. -/
def Core.base (c : Core) : Nat := slice c.fabase 0 20
def Core.limit (c : Core) : Nat := slice c.falimit 0 21
def Core.top (c : Core) : Nat := slice c.ftop 0 21

/-- R271: the alignment and the size that a SIZE field names. -/
def frameAlign (imm : Nat) : Nat := (([64, 2048, 4096, 16384] : List Nat)[imm / 2 ^ 14 % 4]?).getD 64
def frameSize (imm : Nat) : Nat := imm % 2 ^ 14 * 64
/-- R273: the base that a frame would have in an arena. -/
def frameBase (c : Core) (imm : Nat) : Nat := ceilDiv c.top (frameAlign imm) * frameAlign imm

/-- R273: FENTER. -/
def execFenter (al : BitVec 2) (sz : BitVec 14) (s : State) : Outcome State :=
  let t := s.core.strand
  let imm := al.toNat * 2 ^ 14 + sz.toNat
  let base := frameBase s.core imm
  let top := base + frameSize imm
  finish s (do
    if sz = 0 then illegal (.fenter al sz)
    need (decide (top ≤ s.core.limit)) cALLOCATION (W top)
    let a := spBase s.cur + base
    let bs := natBytes 8 (t.readG 2).toNat ++ natBytes 8 (t.readG 1).toNat ++ natBytes 8 0
      ++ natBytes 8 imm ++ natBytes 32 0
    let s1 := { s with mem := memWrite s.mem a bs, poison := clearPoison s.poison a 64,
                       core := { s.core with ftop := W top } }
    let s2 := touch s1 ((cutRange a 64).map fun c => ⟨c.1, c.2, .sp⟩)
    pure (retireWith .scalar s2 (t.writeG 2 (globalAt s s.cur base))))

/-- R274, R377, R378: the offset of the current frame, which lies in the arena, for an access to its header. -/
def currentFrame (s : State) (k : AKind) : M Nat := do
  let g2 := s.core.strand.readG 2
  let o := g2.toNat - (globalAt s s.cur 0).toNat
  need (decide ((globalAt s s.cur s.core.base).toNat ≤ g2.toNat)
    && decide (g2.toNat < (globalAt s s.cur s.core.top).toNat)) cILLEGAL g2
  let _ ← spSpan s (self s) g2 64 k
  match firstPoison s.poison (spBase s.cur + o) 64 with
  | some a => trapM cPOISON (globalAt s s.cur (a - spBase s.cur))
  | none => pure o
/-- A doubleword of the current frame's header. -/
def header (s : State) (o i : Nat) : Word := memWord s.mem (spBase s.cur + o + 8 * i)
/-- Write a doubleword of the header. -/
def setHeader (s : State) (o i : Nat) (x : Word) : State :=
  { s with mem := memSetWord s.mem (spBase s.cur + o + 8 * i) x }

/-- R426: the storage address of a join record. -/
def joinRecord (s : State) (va : Word) : M Nat := do
  need (spaceOf va == 3 && va.toNat % 16 == 0) cALIGNMENT va
  let ps ← sramSpan s (self s) va 16
  pure ((ps.head?.map (·.key)).getD 0)
/-- R395: a record that is read is sound. -/
def joinClean (s : State) (va : Word) (k : Nat) : M Unit := need (firstPoison s.poison k 16).isNone cPOISON va
/-- R278: the fields of a record. -/
def joinCount (s : State) (k : Nat) : Nat := slice (memWord s.mem k) 0 32
def joinParked (s : State) (k : Nat) : Bool := bitOf (memWord s.mem k) 63
def joinLaunch (s : State) (k : Nat) : Bool := bitOf (memWord s.mem (k + 8)) 3
def setCount (s : State) (k n : Nat) : State :=
  claimSram (tagOf s.core.strand) k 8 { s with mem := memSetWord s.mem k (setSlice (memWord s.mem k) 0 32 n) }
/-- The address by which the current logical device's strands name a record. -/
def joinName (s : State) (k : Nat) : Word :=
  W (3 * 2 ^ 62 + logicalDie s (BitVec.ofNat 3 (k / 2 ^ 28)) * 2 ^ 28 + k % 2 ^ 28)

/-- R286: change the pool of join records of a context in a cluster. -/
def mapPool (t : Tag) (c : ClusterId) (f : List Nat → List Nat) (s : State) : State :=
  match contextGet s t with
  | none => s
  | some x =>
    let ps := if x.pools.any fun e => e.1 == c then x.pools else x.pools ++ [(c, [])]
    contextSet s { x with pools := ps.map fun e => if e.1 = c then (e.1, f e.2) else e }
/-- The cluster of a record. -/
def joinCluster (k : Nat) : ClusterId := BitVec.ofNat 8 (k / 2 ^ 23)
/-- Return a record to its pool. -/
def freeRecord (t : Tag) (k : Nat) (s : State) : State := mapPool t (joinCluster k) (· ++ [k % 2 ^ 18]) s

/-- R274: FLEAVE. -/
def execFleave (s : State) : Outcome State :=
  let t := s.core.strand
  finish s (do
    let o ← currentFrame s .read
    let j := header s o 2
    let s1 ← (if j = 0 then pure s else do
      let k ← joinRecord s j
      joinClean s j k
      need (joinCount s k == 0 && !joinParked s k) cILLEGAL j
      pure (freeRecord (tagOf t) k s))
    let t1 := (t.writeG 1 (header s o 1)).writeG 2 (header s o 0)
    pure (retireWith .scalar { s1 with core := { s1.core with ftop := W o } } t1))

/-- R275: FTILE. -/
def execFtile (k n : BitVec 2) (a : Reg) (s : State) : Outcome State :=
  let x := s.core.strand.readG a
  let size := 2048 * 2 ^ k.toNat
  finish s (do
    let o ← currentFrame s .write
    let imm := slice (header s o 3) 0 16
    let off := x.toNat
    need (off == 0 || (off % size == 0 && decide (size ≤ frameAlign imm) && decide (64 ≤ off)
      && decide (off + size ≤ frameSize imm))) cILLEGAL x
    let d := if off = 0 then 0 else off / 64 * 4 + k.toNat
    pure (retire .scalar (setHeader s o 4 (setSlice (header s o 4) (16 * n.toNat) 16 d))))

/-- R282: FPUB. -/
def execFpub (s : State) : Outcome State := .next (retire .scalar s)

/-! Continuations. -/

/-- R290: the core and the offset of a frame, as a core of its logical device names it. -/
def frameAt (s : State) (k : CoreId) (va : Word) : Option (CoreId × Nat) :=
  if spaceOf va ≠ 1 then none
  else match spCore s ⟨k, 0, 0, 0⟩ va va with
    | .ok j => some (j, slice va 0 20)
    | .error _ => none

/-- One past the last byte of the frame at an offset of a core, as its header gives the size. -/
def frameEnd (s : State) (k : CoreId) (o : Nat) : Nat := o + frameSize (slice (memWord s.mem (spBase k + o + 24)) 0 16)
/-- R272: FTOP of a core whose strand is idle: above the parked frames of its arena. -/
def idleTop (s : State) (k : CoreId) (c : Core) : Nat :=
  ((c.parkedTop.filter fun o => decide (c.base ≤ o) && decide (o < c.limit)).map (frameEnd s k)).foldl Nat.max c.base
/-- R272: a frame leaves a core. -/
def unparkFrame (k : CoreId) (o : Nat) (s : State) : State :=
  let c := coreGet s k
  let c1 := { c with parkedTop := c.parkedTop.filter (· != o) }
  coreSet s k (if c.mode = .idle then { c1 with ftop := W (idleTop s k c1) } else c1)
/-- R272: a frame that is resident on the core that resumes it is parked no more, and stays allocated. -/
def claimFrame (k : CoreId) (o : Nat) (s : State) : State :=
  let c := coreGet s k
  coreSet s k { c with
    parkedTop := c.parkedTop.filter (· != o)
    ftop := if c.mode = .idle then W (Nat.max c.top (frameEnd s k o)) else c.ftop }

/-- Whether a granule at an offset of a frame lies in a named tile (R271). -/
def inNamedTile (tiles : Word) (o : Nat) : Bool :=
  (List.range 4).any fun i =>
    let d := slice tiles (16 * i) 16
    d != 0 && decide (d / 4 * 64 ≤ o) && decide (o < d / 4 * 64 + 2048 * 2 ^ (d % 4))

/-- R290: copy `n` bytes of a frame, with its full-empty bits in named tiles and its poison. -/
def copyFrame (src dst n : Nat) (tiles : Word) (s : State) : State :=
  let gs := List.range (n / 16)
  let m := memWrite s.mem dst (memRead s.mem src n)
  let holes := gs.filter fun i => inNamedTile tiles (16 * i) && s.empty.contains (poisonUnit (src + 16 * i))
  let bad := gs.filter fun i => s.poison.contains (poisonUnit (src + 16 * i))
  let s1 := { s with
    mem := m
    empty := holes.foldl (fun e i => sortedInsert (dst + 16 * i) e) (setFull s.empty dst n)
    poison := bad.foldl (fun p i => sortedInsert (dst + 16 * i) p) (clearPoison s.poison dst n) }
  if n = 0 then s1 else signalFull s1 dst

/-- R377, R271, R5: the frame at an address, which a strand of a core's context may use: its core, its offset and its
size. The header and every byte that its SIZE names lie in shares that the context holds; the part of the header that is
read is sound (R395). That a forged frame is met by ISOLATION is the model's choice (log 47). -/
def frameCheck (s : State) (k : CoreId) (va : Word) : M (CoreId × Nat × Nat) := do
  let g : Agent := ⟨k, tagOf (coreGet s k).strand, 0, 0⟩
  need (spaceOf va == 1) cISOLATION va
  let _ ← spSpan s g va 64 .write
  let j ← spCore s g va va
  let a := spBase j + slice va 0 20
  need (firstPoison s.poison (a + 16) 32).isNone cPOISON (va + 16)
  let n := frameSize (slice (memWord s.mem (a + 24)) 0 16)
  let _ ← spSpan s g va (Nat.max 64 n) .write
  pure (j, slice va 0 20, n)

/-- R290: transfer a continuation's frame into a core, or the fault; an arena without room gives the offset it lacks. -/
def transferFrame (k : CoreId) (c : Cont) (s : State) : M (Cont × State) := do
  let (j, o, n) ← frameCheck s k c.frame
  if j = k then pure (c, claimFrame k o s)
  else
    let core := coreGet s k
    let base := frameBase core (slice (memWord s.mem (spBase j + o + 24)) 0 16)
    need (decide (base + n ≤ core.limit)) cALLOCATION (W (base + n))
    let s1 := coreSet s k { core with ftop := W (base + n) }
    let s2 := copyFrame (spBase j + o) (spBase k + base) n c.tiles s1
    pure ({ c with frame := globalAt s k base }, unparkFrame j o s2)

/-- R281 steps 2 to 4 on the current core. -/
def enterCont (c : Cont) (s : State) : State :=
  let t := s.core.strand
  let t1 := (t.writeG 2 c.frame)
  { s with core := { s.core with
      mode := .running
      strand := { t1 with prio := W c.cls.toNat, pc := c.pc } } }
/-- R281: resume a continuation on the current core, or the fault of its frame's transfer. -/
def resumeHere (c : Cont) (s : State) : M State := do
  let (c1, s1) ← transferFrame s.cur c s
  pure (enterCont c1 s1)

/-- R281: a continuation whose frame is in place resumes. -/
def execContinuationResume (k : CoreId) (s : State) : Outcome State :=
  let s1 := focus s k
  match s1.core.mode with
  | .arriving c => .next (focus (enterCont c s1) s.cur)
  | _ => .next s

/-- R272, R316: the current strand goes idle. -/
def goIdle (s : State) : State :=
  let t := s.core.strand
  let t1 := { t with hbeat := if slice t.wdmode 62 2 = 2 then setSlice t.hbeat 0 48 0 else t.hbeat, decDone := false }
  { s with core := { s.core with mode := .idle, strand := t1, ftop := W (idleTop s s.cur s.core) } }

/-- R284, R285: pop the tail and resume it, or go idle. -/
def popOrIdle (s : State) : M State :=
  match s.core.deque.getLast? with
  | some c => resumeHere c (dequeSet s s.cur s.core.deque.dropLast)
  | none => .ok (goIdle s)

/-- R283: SPAWN. -/
def execSpawn (d : BitVec 22) (s : State) : Outcome State :=
  let t := s.core.strand
  finish s (do
    let o ← currentFrame s .read
    let j := header s o 2
    need (j != 0) cILLEGAL (t.readG 2)
    let _ ← joinRecord s j
    let cap := slice s.core.dqcap 0 16
    need (decide (s.core.deque.length < cap)) cALLOCATION (W cap)
    let c : Cont := ⟨nextBlock t.pc, t.cls, t.readG 2, j, header s o 4⟩
    let s1 := dequeSet s s.cur (s.core.deque ++ [c])
    pure (jumpTo (blockTarget t.pc d) .scalar (strandSet s1 (t.writeG 1 j))))

/-- R278: the address of the frame that a record names. -/
def parkedFrame (s : State) (key : Nat) : Word := W (2 ^ 62 + slice (memWord s.mem key) 32 31)
/-- R377: a decrement that would return a parked continuation finds its frame in the context's shares. -/
def parkedOk (s : State) (key : Nat) : M Unit :=
  if joinCount s key = 1 ∧ joinParked s key = true then (frameCheck s s.cur (parkedFrame s key)).map fun _ => ()
  else .ok ()
/-- R278: the continuation parked in a record. -/
def parkedCont (s : State) (k : CoreId) (j : Word) (key : Nat) : Cont :=
  let d1 := memWord s.mem (key + 8)
  let f := parkedFrame s key
  let tiles := match frameAt s k f with
    | some x => memWord s.mem (spBase x.1 + x.2 + 32)
    | none => 0
  ⟨blockOf d1, BitVec.ofNat 2 (slice d1 4 2), f, j, tiles⟩

/-- R278, R284, R411: a launch whose record has come to zero is answered OK. -/
def reportLaunch (t : Tag) (key : Nat) (s : State) : State :=
  match contextGet s t with
  | none => s
  | some x =>
    let s1 := (x.launches.filter fun e => e.2 == key).foldl (fun s e => emit (.answer 4 0 e.1 t []) s) s
    contextSet s1 { x with launches := x.launches.filter fun e => e.2 != key }

/-- R284: Dec at a record whose COUNT is not 0; the continuation it returns. -/
def decrement (j : Word) (key : Nat) (s : State) : Option Cont × State :=
  let t := tagOf s.core.strand
  let s0 := edgeRelease s (clusterOf s.cur)
  let n := joinCount s0 key - 1
  let s1 := setCount s0 key n
  if n ≠ 0 then (none, s1)
  else
    let s2 := if joinLaunch s1 key then reportLaunch t key s1 else s1
    if joinParked s2 key then
      (some (parkedCont s2 s2.cur j key),
        { s2 with mem := memSetWord s2.mem key (setSlice (memWord s2.mem key) 63 1 0) })
    else (none, s2)

/-- The pending slot takes a continuation and the strand stops (R388). -/
def toSlot (c : Cont) (s : State) : State :=
  let t := s.core.strand
  strandSet s { t with slot := some c.bytes, decDone := true, status := t.status ||| 2 }

/-- R284: TRET. -/
def execTret (s : State) : Outcome State :=
  let t := s.core.strand
  let j := t.readG 1
  let rest (s : State) : M State := do
    let s1 ← popOrIdle s
    pure (debit .scalar s1)
  finish s (do
    settled s
    need (!bitOf t.status 1) cALLOCATION t.tval
    if t.decDone then rest (strandSet s { t with decDone := false })
    else if j = 0 then rest s
    else
      let k ← joinRecord s j
      if s.core.deque.getLast?.any fun c => c.jrec == j then rest s
      else
        joinClean s j k
        need (joinCount s k != 0) cILLEGAL j
        parkedOk s k
        match decrement j k s with
        | (none, s1) => rest s1
        | (some p, s1) => match transferFrame s.cur p s1 with
          | .ok (p1, s2) => pure (debit .scalar (edgeAcquire (enterCont p1 s2) (self s)))
          | .error (.trap c v) => .error (.trapIn (toSlot p s1) c v)
          | .error e => .error e)

/-- R285: park the current frame in a record. -/
def parkInRecord (s : State) (o key : Nat) : State :=
  let t := s.core.strand
  let d0 := setSlice (setSlice (memWord s.mem key) 63 1 1) 32 31 (slice (t.readG 2) 0 31)
  let d1 := setSlice (setSlice (memWord s.mem (key + 8)) 6 58 (slice (nextBlock t.pc) 6 58)) 4 2 t.cls.toNat
  { claimSram (tagOf t) key 16 s with
    mem := memSetWord (memSetWord s.mem key d0) (key + 8) d1
    core := { s.core with parkedTop := s.core.parkedTop ++ [o] } }

/-- R285: SYNC. -/
def execSync (s : State) : Outcome State :=
  let t := s.core.strand
  finish s (do
    let o ← currentFrame s .read
    let j := header s o 2
    if j = 0 then pure (jumpTo (nextBlock t.pc) .scalar s)
    else
      let k ← joinRecord s j
      joinClean s j k
      need (!joinParked s k) cILLEGAL j
      if joinCount s k = 0 then pure (jumpTo (nextBlock t.pc) .scalar (edgeAcquire s (self s)))
      else
        let s1 ← popOrIdle (parkInRecord s o k)
        pure (debit .scalar s1))

/-- R286: JINIT. -/
def execJinit (d : Reg) (s : State) : Outcome State :=
  let t := s.core.strand
  finish s (do
    let o ← currentFrame s .write
    let j := header s o 2
    if j ≠ 0 then
      let k ← joinRecord s j
      joinClean s j k
      need (joinCount s k == 0 && !joinParked s k) cILLEGAL j
      pure (retireWith .scalar s (t.writeG d j))
    else
      let c := clusterOf s.cur
      let pool := ((contextGet s (tagOf t)).bind fun x => (x.pools.find? fun e => e.1 == c).map (·.2)).getD []
      match pool with
      | [] => trapM cALLOCATION (t.readG 2)
      | r :: _ =>
        let key := sramBase c + r
        let s1 := mapPool (tagOf t) c (·.drop 1) s
        let s2 := { s1 with mem := memWrite s1.mem key (natBytes 16 0), poison := clearPoison s1.poison key 16 }
        let name := joinName s key
        pure (retireWith .scalar (setHeader s2 o 2 name) (t.writeG d name)))

/-- R286: JDEC. -/
def execJdec (d a : Reg) (s : State) : Outcome State :=
  let t := s.core.strand
  let j := t.readG a
  finish s (do
    let k ← joinRecord s j
    joinClean s j k
    let n := joinCount s k
    if n = 0 then pure (retireWith .scalar s (t.writeG d 0))
    else
      let cap := slice s.core.dqcap 0 16
      need (n != 1 || !joinParked s k || decide (s.core.deque.length < cap)) cALLOCATION (W cap)
      parkedOk s k
      let (p, s1) := decrement j k s
      let s1 := if p.isSome then edgeAcquire s1 (self s1) else s1
      let s2 := match p with
        | some c => dequeSet s1 s1.cur (c :: s1.core.deque)
        | none => s1
      pure (retireWith .scalar s2 (s2.core.strand.writeG d (W n))))

/-! Stealing. -/

/-- R287: a step of the terrier's shift register. -/
def lfsrStep (x : BitVec 16) : BitVec 16 := if x.getLsbD 0 then (x >>> 1) ^^^ 0xB400 else x >>> 1

/-- R289, R292: the head entry of a core that a context may take, and the state without it. -/
def headEntry (s : State) (v : CoreId) (t : Tag) : Option (Cont × State) :=
  let c := coreGet s v
  match (if c.mode ≠ .vacant ∧ tagOf c.strand = t then c.deque else []) with
  | e :: rest => some (e, dequeSet s v rest)
  | [] =>
    match s.svc.off.find? fun o => o.core == v && o.ctx == t && o.deque != [] with
    | none => none
    | some o => match o.deque with
      | [] => none
      | e :: _ => some (e, { s with svc := { s.svc with off := s.svc.off.map fun x =>
          if x = o then { x with area := x.area.drop 32 } else x } })

/-- R289: a probe of core `v` by the current core's terrier. A FE whose cluster stalls holds it (R327); one that finds no
frame it may take ends without a steal (log 47). -/
def probe (s : State) (v : CoreId) : Option State :=
  let t := tagOf s.core.strand
  if fenced s (clusterOf v) || stalled s (clusterOf v) then none
  else match headEntry s v t with
    | none => none
    | some (c, s1) =>
      let took : M State := do
        let k ← joinRecord s1 c.jrec
        joinClean s1 c.jrec k
        let s2 := setCount s1 k (joinCount s1 k + 1)
        let (c1, s3) ← transferFrame s.cur c (edgeRelease s2 (clusterOf v))
        let s4 := edgeAcquire s3 (self s3)
        pure { s4 with core := { s4.core with mode := .arriving c1 } }
      match took with
      | .ok s4 => some s4
      | .error _ => none

/-- R287: the elements of a list from an index upward, cyclically. -/
def cyclic {α : Type} (l : List α) (i : Nat) : List α := l.drop (i % l.length) ++ l.take (i % l.length)
/-- R287: the cores that a probe of a cluster examines, and those of a die. -/
def clusterProbe (x : BitVec 16) (c : ClusterId) : List CoreId :=
  (cyclic (List.range 8) (x.toNat / 256)).map (coreAt c)
def dieProbe (s : State) (x : BitVec 16) (d : DieId) : List CoreId :=
  (cyclic (List.range (clusterCount s d)) (x.toNat / 8)).flatMap fun n => clusterProbe x (mkCluster d n)
/-- R287: the cores a level examines, in order. -/
def levelCores (s : State) (level : Nat) (x : BitVec 16) : List CoreId :=
  let c := clusterOf s.cur
  let d := dieOf s.cur
  let start {α : Type} (l : List α) : List α := cyclic l x.toNat
  if level = 0 then start (((List.range 8).map (coreAt c)).filter (· != s.cur))
  else if level = 1 then
    (start (((List.range (clusterCount s d)).map (mkCluster d)).filter (· != c))).flatMap (clusterProbe x)
  else (start ((diesOf s (partOfDie s d)).filter (· != d))).flatMap (dieProbe s x)

/-- R287: the levels of a round that are still to come. -/
def roundFrom : List Nat → State → State
  | [], s => s
  | l :: ls, s =>
    let x := lfsrStep s.core.lfsr
    let s1 := { s with core := { s.core with lfsr := x } }
    match (levelCores s1 l x).findSome? (probe s1) with
    | some s2 => s2
    | none => roundFrom ls s1

/-- R295: the donation ring of the current strand when it holds a descriptor. -/
def donationRing (s : State) : M (Option ORec) :=
  let dr := s.core.dring
  if dr = 0 then .ok none
  else do
    let r ← kindRecord s (self s) dr kRING []
    pure (if ringW s r.place 1 = ringW s r.place 0 then none else some r)
/-- R295: take the oldest descriptor of a ring. -/
def takeDescriptor (s : State) (r : ORec) : List Byte × State :=
  let rp := ringW s r.place 1
  (memRead s.mem (r.place + slotOff r rp) 64, ringSet s r.place 1 (rp + 1))

/-- R395: the first poisoned byte of the oldest descriptor of a ring, as an offset in the ring, or of its control line. -/
def descriptorPoison (s : State) (r : ORec) : Option Nat :=
  ((firstPoison s.poison r.place 32).orElse fun _ =>
    firstPoison s.poison (r.place + slotOff r (ringW s r.place 1)) 64).map (· - r.place)

/-- R296: an idle accept. A poisoned descriptor is not taken (log 63). -/
def idleAccept (s : State) : State :=
  match donationRing s with
  | .ok (some r) => if (descriptorPoison s r).isSome then s else
    let (bs, s1) := takeDescriptor s r
    let w (i : Nat) : Word := W (bytesNat ((bs.drop (8 * i)).take 8))
    let t := s1.core.strand
    let t1 := (List.range 7).foldl (fun (t : Strand) i => t.writeG (BitVec.ofNat 5 (4 + i)) (w (i + 1))) t
    let t2 := (t1.writeG 1 0).writeG 2 (globalAt s1 s1.cur s1.core.top)
    { s1 with core := { s1.core with mode := .running, strand := { t2 with pc := w 0, prio := 0 } } }
  | _ => s

/-- R287: an idle strand pops its own deque, or its terrier makes a round. -/
def stealRound (s : State) : State :=
  match s.core.deque.getLast? with
  | some c =>
    match transferFrame s.cur c (dequeSet s s.cur s.core.deque.dropLast) with
    | .ok (c1, s1) => { s1 with core := { s1.core with mode := .arriving c1 } }
    | .error _ => s
  | none =>
    let s1 := roundFrom [0, 1, 2] s
    if s1.core.mode = .idle then idleAccept s1 else s1
def execStealRound (k : CoreId) (s : State) : Outcome State :=
  let s1 := focus s k
  if s1.core.mode = .idle then .next (focus (stealRound s1) s.cur) else .next s

/-! Donation. -/

/-- R294: DONATE. -/
def execDonate (d a b : Reg) (s : State) : Outcome State :=
  let t := s.core.strand
  let va := t.readG a
  let ring := t.readG b
  let call (s : State) (desc : List Word) : M State := do
    let (v, _, s1) ← peerCall s ring 64 [.ewrite, .atomic] (.donate desc) true
    pure (retireWith .scalar s1 (s1.core.strand.writeG d v))
  finish s (
    if t.peer.answer.isSome || t.peer.wait.isSome then call s []
    else do
      need (va.toNat % 64 == 0) cALIGNMENT va
      let (bs, s1) ← loadBytes s va 64
      let pc := W (bytesNat (bs.take 8))
      need (pc.toNat % 64 == 0) cALIGNMENT pc
      need (inPeerWindow ring && offOf ring == 0) cPERMISSION ring
      call s1 ((List.range 8).map fun i => W (bytesNat ((bs.drop (8 * i)).take 8))))

/-- R295: ACCEPT. -/
def execAccept (d a : Reg) (s : State) : Outcome State :=
  let t := s.core.strand
  let va := t.readG a
  finish s (do
    match ← donationRing s with
    | none => pure (retireWith .scalar s (t.writeG d 0))
    | some r =>
      need (va.toNat % 64 == 0) cALIGNMENT va
      let (bs, s1) := takeDescriptor s r
      let _ ← translate s (self s) va 64 .write
      match descriptorPoison s r with
      | some o => trapM cPOISON (s.core.dring + W o)
      | none => pure ()
      let s2 ← storeBytes s1 va bs
      pure (retireWith .scalar s2 (s2.core.strand.writeG d 1)))

end Sys2Proof.Machine
end

