-- ==== Sys2Proof/Machine/Image.lean ====
section
/-! DEFINITION. The context image of a strand: its 12 KiB layout (R27) and the reserved bytes that keep an
image from being loaded (R28). -/

namespace Sys2Proof.Machine

def wordBytes (x : Word) : List Byte := natBytes 8 x.toNat
def zeros (n : Nat) : List Byte := List.replicate n 0

/-- R73, R78: the state doubleword of a queue. -/
def Queue.word (q : Queue) : Word := W (q.bind.toNat + q.head.toNat * 2 ^ 16 + q.count.toNat * 2 ^ 24)
/-- R27: the control registers in slot order. -/
def Strand.controls (t : Strand) : List Word :=
  [t.status, t.cause, t.epc, t.tval, t.tvec, t.ctxid, t.ortbase, t.spillbase, t.spilltop, t.spillovf,
    t.fcsr, t.vstat, t.mhold, t.mweight, t.mstep, t.prio, t.hbeat, t.wdmode]

/-- R27: the bytes of a strand's image. -/
def Strand.image (t : Strand) : List Byte :=
  t.v.toList.flatMap rowBytes
    ++ wordBytes 0 ++ (t.g.toList.drop 1).flatMap wordBytes
    ++ t.f.toList.flatMap wordBytes
    ++ t.m.toList.flatMap (fun x => natBytes 16 x.toNat)
    ++ t.cb.toList.flatMap (fun x => natBytes 32 x.toNat)
    ++ ([t.p ||| 1, t.z ||| 1] ++ t.ty.toList.map (fun x => x.zeroExtend 8) ++ zeros 58)
    ++ (t.lcnt.toList.flatMap wordBytes ++ t.lbeg.toList.flatMap wordBytes
      ++ t.llen.toList.flatMap (fun x => natBytes 2 x.toNat) ++ [t.lact.zeroExtend 8] ++ zeros 9)
    ++ t.q.toList.flatMap (fun q => wordBytes q.word)
    ++ (wordBytes t.pc ++ wordBytes t.mxseq ++ zeros 48)
    ++ t.q.toList.flatMap (fun q => q.slots.toList.flatMap wordBytes)
    ++ t.controls.flatMap wordBytes ++ zeros 112
    ++ zeros 0x700

/-- A field of an image. -/
def imgNat (b : List Byte) (o n : Nat) : Nat := bytesNat ((b.drop o).take n)
def imgWord (b : List Byte) (o : Nat) : Word := W (imgNat b o 8)
def imgCtl (b : List Byte) (i : Nat) : Word := imgWord b (0x2800 + 8 * i)
def allZero (b : List Byte) (o n : Nat) : Bool := ((b.drop o).take n).all (· == 0)

/-- R28, R315: whether an image may be loaded: reserved bytes zero, the mode not the reserved one. Which bytes and bits count
as reserved is the model's choice (log 72). -/
def imageOk (b : List Byte) : Bool :=
  let queueOk (i : Nat) : Bool := imgWord b (0x2380 + 8 * i) &&& ~~~(W (0x7FF + 0xF * 2 ^ 16 + 0x1F * 2 ^ 24)) == 0
  allZero b 0x2306 58 && allZero b 0x2377 9 && allZero b 0x23D0 48 && allZero b 0x2890 112 && allZero b 0x2900 0x700
    && (List.range 8).all queueOk && slice (imgCtl b 17) 62 2 != 3

def imgQueue (b : List Byte) (i : Nat) : Queue :=
  let x := imgWord b (0x2380 + 8 * i)
  ⟨BitVec.ofNat 11 (slice x 0 11), BitVec.ofNat 4 (slice x 16 4), BitVec.ofNat 5 (slice x 24 5),
    Vector.ofFn fun j => imgWord b (0x2400 + 128 * i + 8 * j.val)⟩

/-- R4: a word of an image as the register whose slot it is, RSV bits zero (log 72). -/
def imgCsr (b : List Byte) (slot : Nat) (n : BitVec 12) : Word := imgCtl b slot &&& ~~~csrReserved n

/-- R27: a strand with the fields of an image; what stands beside the image stays. That the slot of g0 and the RSV bits of
control slots are dropped is the model's choice (log 72). -/
def Strand.loadImage (t : Strand) (b : List Byte) : Strand :=
  { t with
    v := Vector.ofFn fun i => rowOfBytes ((b.drop (128 * i.val)).take 128)
    g := Vector.ofFn fun i => if i.val = 0 then 0 else imgWord b (0x2000 + 8 * i.val)
    f := Vector.ofFn fun i => imgWord b (0x2100 + 8 * i.val)
    m := Vector.ofFn fun i => BitVec.ofNat 128 (imgNat b (0x2200 + 16 * i.val) 16)
    cb := Vector.ofFn fun i => BitVec.ofNat 256 (imgNat b (0x2280 + 32 * i.val) 32)
    p := BitVec.ofNat 8 (imgNat b 0x2300 1) ||| 1
    z := BitVec.ofNat 8 (imgNat b 0x2301 1) ||| 1
    ty := Vector.ofFn fun i => BitVec.ofNat 3 (imgNat b (0x2302 + i.val) 1)
    lcnt := Vector.ofFn fun i => imgWord b (0x2340 + 8 * i.val)
    lbeg := Vector.ofFn fun i => imgWord b (0x2358 + 8 * i.val) &&& ~~~csrReserved 0x0C4
    llen := Vector.ofFn fun i => BitVec.ofNat 16 (imgNat b (0x2370 + 2 * i.val) 2)
    lact := BitVec.ofNat 3 (imgNat b 0x2376 1)
    q := Vector.ofFn fun i => imgQueue b i.val
    pc := imgWord b 0x23C0
    mxseq := imgWord b 0x23C8
    status := imgCsr b 0 0x000
    cause := imgCsr b 1 0x001
    epc := imgCsr b 2 0x002
    tval := imgCsr b 3 0x003
    tvec := imgCtl b 4 &&& ~~~(63 : Word)
    ctxid := imgCsr b 5 0x005
    ortbase := imgCsr b 6 0x006
    spillbase := imgCsr b 7 0x007
    spilltop := imgCsr b 8 0x008
    spillovf := imgCsr b 9 0x009
    fcsr := imgCsr b 10 0x010
    vstat := imgCsr b 11 0x011
    mhold := imgCsr b 12 0x020
    mweight := imgCsr b 13 0x021
    mstep := imgCsr b 14 0x024
    prio := imgCsr b 15 0x022
    hbeat := imgCsr b 16 0x028
    wdmode := imgCsr b 17 0x029 }

/-- R374: bytes of an image written by the service. -/
def editImage (b : List Byte) (edits : List (Nat × Byte)) : List Byte :=
  edits.foldl (fun b e => b.set e.1 e.2) b

end Sys2Proof.Machine
end

