-- ==== Sys2Proof/Machine/System.lean ====
section
/-! DEFINITION. Control registers (R375, R376, R392), HBEAT and the watchdog (R315 to R319), TRAP, SVC, ERET and
WFE (R389 to R391), the traps of bad words and of fetch, and the tick of TIME (R316). -/

namespace Sys2Proof.Machine

/-- R376: CAPS and DIECAP as the current core reads them. -/
def capsOf (s : State) : Word :=
  let d := dieOf s.cur
  W ((partOfDie s d).toNat * 2 ^ 24 + 8 * 2 ^ 16 + clusterCount s d * 2 ^ 8 + (diesOf s (partOfDie s d)).length)
def dieCaps (s : State) (p : BitVec 3) : Word := W (packNat 8 ((diesOf s p).map (clusterCount s)))
/-- R328: CLKSTAT. -/
def clkStat (s : State) : Word :=
  let p := powerGet s (clusterOf s.cur)
  W (p.store.toNat * 2 ^ 16 + p.freq.toNat * 2 ^ 8 + p.ratio.toNat)
/-- R69: LSTATE. -/
def Strand.lstate (t : Strand) : Word :=
  W (packNat 16 [t.llen[0].toNat, t.llen[1].toNat, t.llen[2].toNat, t.lact.toNat])

/-- R375: the contents of a control register. -/
def csrHeld (s : State) (n : BitVec 12) : Option Word :=
  let t := s.core.strand
  let c := s.core
  match n.toNat with
  | 0x000 => some t.status | 0x001 => some t.cause | 0x002 => some t.epc | 0x003 => some t.tval
  | 0x004 => some t.tvec | 0x005 => some t.ctxid | 0x006 => some t.ortbase | 0x007 => some t.spillbase
  | 0x008 => some t.spilltop | 0x009 => some t.spillovf | 0x010 => some t.fcsr | 0x011 => some t.vstat
  | 0x020 => some t.mhold | 0x021 => some t.mweight | 0x022 => some t.prio | 0x024 => some t.mstep
  | 0x028 => some t.hbeat | 0x029 => some t.wdmode
  | 0x030 => some (W s.pkg.time) | 0x031 => some (clkStat s) | 0x032 => some (capsOf s)
  | 0x033 => some (W (spCapOf s (dieOf s.cur))) | 0x034 => some (dieCaps s (partOfCore s s.cur))
  | 0x0C0 => some t.lcnt[0] | 0x0C1 => some t.lcnt[1] | 0x0C2 => some t.lcnt[2]
  | 0x0C4 => some t.lbeg[0] | 0x0C5 => some t.lbeg[1] | 0x0C6 => some t.lbeg[2] | 0x0C8 => some t.lstate
  | 0x0D0 => some c.fabase | 0x0D1 => some c.falimit | 0x0D2 => some c.ftop | 0x0D3 => some c.dqcap
  | 0x0D4 => some c.dring | 0x0D5 => some c.spshare
  | 0x0D6 => some c.spshr[0] | 0x0D7 => some c.spshr[1] | 0x0D8 => some c.spshr[2] | 0x0D9 => some c.spshr[3]
  | 0x0DA => some c.spgrp
  | _ => none

/-- R4, R375: the value of a control register; its RSV bits read zero. -/
def csrRead (s : State) (n : BitVec 12) : Option Word := (csrHeld s n).map (· &&& ~~~csrReserved n)
/-- R4: the RW bits of a register, given the value written where the rule of R392 has let it pass. -/
def csrWritten (n : BitVec 12) (v : Word) (t : Strand) : Strand :=
  match n.toNat with
  | 0x000 => { t with status := (t.status &&& ~~~(1 : Word)) ||| (v &&& 1) }
  | 0x001 => { t with cause := (t.cause &&& ~~~(511 : Word)) ||| (v &&& 511) }
  | 0x002 => { t with epc := v }
  | 0x003 => { t with tval := v }
  | 0x004 => { t with tvec := v }
  | 0x010 => { t with fcsr := v }
  | 0x011 => { t with vstat := v }
  | 0x020 => { t with mhold := v }
  | 0x022 => { t with prio := v }
  | 0x024 => { t with mstep := v }
  | 0x0C0 => { t with lcnt := t.lcnt.set 0 v }
  | 0x0C1 => { t with lcnt := t.lcnt.set 1 v }
  | 0x0C2 => { t with lcnt := t.lcnt.set 2 v }
  | 0x0C4 => { t with lbeg := t.lbeg.set 0 v }
  | 0x0C5 => { t with lbeg := t.lbeg.set 1 v }
  | 0x0C6 => { t with lbeg := t.lbeg.set 2 v }
  | 0x0C8 =>
    { t with
      llen := ((t.llen.set 0 (BitVec.ofNat 16 v.toNat)).set 1 (BitVec.ofNat 16 (slice v 16 16))).set 2
        (BitVec.ofNat 16 (slice v 32 16))
      lact := BitVec.ofNat 3 (slice v 48 3) }
  | _ => t

/-- R392: CSRR. -/
def execCsrr (d : Reg) (n : BitVec 12) (s : State) : Outcome State :=
  finish s (match csrRead s n with
    | none => illegal (.csrr d n)
    | some v => pure (retireWith .scalar s (s.core.strand.writeG d v)))

/-- R392, R4: a write to a control register. -/
def csrWrite (i : Instr) (n : BitVec 12) (v : Word) (s : State) : M State := do
  if (csrRead s n).isNone then illegal i
  if v &&& csrReserved n ≠ 0 then illegal i
  pure (retireWith .scalar s (csrWritten n v s.core.strand))
def execCsrw (a : Reg) (n : BitVec 12) (s : State) : Outcome State :=
  finish s (csrWrite (.csrw a n) n (s.core.strand.readG a) s)
/-- R34: a handler address must start a fetch block. -/
def execCsrwTvec (a : Reg) (s : State) : Outcome State :=
  let v := s.core.strand.readG a
  finish s (do
    need (slice v 0 6 == 0) cALIGNMENT v
    csrWrite (.csrwTvec a) 0x004 v s)
/-- R69: LSTATE leaves no active counter with a length of 0 or above 256. -/
def lstateBad (v : Word) : Bool :=
  (List.range 3).any fun k => bitOf v (48 + k) && (slice v (16 * k) 16 == 0 || decide (256 < slice v (16 * k) 16))
def execCsrwLstate (a : Reg) (s : State) : Outcome State :=
  let v := s.core.strand.readG a
  finish s (do
    if lstateBad v then illegal (.csrwLstate a)
    csrWrite (.csrwLstate a) 0x0C8 v s)

/-- R315: the fields of WDMODE and HBEAT. -/
def Strand.wdMode (t : Strand) : Nat := slice t.wdmode 62 2
def Strand.limit (t : Strand) : Nat := slice t.wdmode 0 48
def Strand.run (t : Strand) : Nat := slice t.hbeat 0 48
def Strand.beats (t : Strand) : Nat := slice t.hbeat 48 16
def Strand.setRun (t : Strand) (n : Nat) : Strand := { t with hbeat := setSlice t.hbeat 0 48 n }

/-- R319: HBEAT. -/
def execHbeat (s : State) : Outcome State :=
  let t := s.core.strand
  let t1 := if t.wdMode = 2 then t.setRun 0 else t
  let t2 := if t.wdMode = 0 then t1 else { t1 with hbeat := setSlice t1.hbeat 48 16 (t1.beats + 1) }
  .next (retireWith .scalar s t2)

/-- R389 -/
def execTrap (a : Reg) (s : State) : Outcome State := finish s (trapM cTRAP (s.core.strand.readG a))
def execSvc (a : Reg) (s : State) : Outcome State := finish s (trapM cSVC (s.core.strand.readG a))

/-- R390: ERET. -/
def execEret (s : State) : Outcome State :=
  let t := s.core.strand
  finish s (do
    need (slice t.epc 0 2 == 0) cALIGNMENT t.epc
    pure (debit .scalar (strandSet s (returnFromTrap t))))

/-- R391: WFE. -/
def execWfe (a : Reg) (s : State) : Outcome State :=
  let t := s.core.strand
  let dl := (t.readG a).toNat
  finish s (
    if !t.ev && (dl == 0 || decide (s.pkg.time < dl)) then waitM
    else pure (retireWith .scalar s { t with status := t.status &&& ~~~(4 : Word) }))

/-- R48, R50: a word that is no instruction traps; TVAL is the word, or both words of a long instruction. -/
def execIllegalInstruction (long : Bool) (w : Word) (s : State) : Outcome State :=
  finish s (trapM cILLEGAL (if long then w else W (slice w 0 32)))
/-- R345: a fetch that fails. -/
def execFetchFault (cause : BitVec 8) (tval : Word) (s : State) : Outcome State :=
  .next (takeTrap cause true tval s)

/-! The watchdog. -/

/-- Whether a peer operation that waits restarts after a stop (R385), where the others complete first (R318). -/
def peerRestarts : PeerOp → Bool
  | .rwait _ | .cwait _ | .barw _ => true
  | _ => false
/-- R318: the current strand at a point where a stop may be taken, its wait on a peer withdrawn. -/
def stopPoint (s : State) : Option State :=
  let p := s.core.strand.peer
  match p.wait with
  | none => if p.answer.isSome || s.core.strand.begun then none else some s
  | some id =>
    if s.out.any fun x => x.req.id == id && peerRestarts x.req.op then
      some (strandSet { s with out := s.out.filter fun x => x.req.id != id }
        { s.core.strand with peer := { p with wait := none } })
    else none

/-- R317, R401, R408: whether a core's cluster lets its strand run. -/
def clusterRuns (s : State) (c : ClusterId) : Bool :=
  let p := powerGet s c
  s.svc.phase == .running && !p.asleep && p.stall.isNone && s.pkg.mode[(dieOfCluster c).toNat] == .active && !fenced s c
/-- R316: whether a strand on a core is accountable. -/
def accountable (s : State) (k : CoreId) (c : Core) : Bool :=
  c.mode != .vacant && c.mode != .idle && clusterRuns s (clusterOf k) && !s.ckpt.flashing
/-- R316, R318: one counted edge. -/
def countEdge (c : Core) : Core :=
  let t := c.strand
  if (t.wdMode = 1 ∨ t.wdMode = 2) ∧ t.run < t.limit then
    { c with strand := t.setRun (t.run + 1), wdReq := c.wdReq || t.run + 1 == t.limit }
  else c

/-- R316: a tick of TIME. -/
def execTickEdge (s : State) : Outcome State :=
  let edge (k : CoreId) (c : Core) : Core := if accountable s k c then countEdge c else c
  let s := injectDue s
  .next (startWindows { s with
    core := edge s.cur s.core
    others := s.others.map fun e => (e.1, edge e.1 e.2)
    pkg := { s.pkg with time := s.pkg.time + 1, injected := false } })

end Sys2Proof.Machine
end

