-- ==== Sys2Proof/Machine/Contexts.lean ====
section
/-! DEFINITION. Stops by the service and the watchdog, and the return of a strand to a core: pre-emption
(R384), resumption (R374), migration (R386), the pending slot (R388), register lines (R379 to R382) and the
watchdog's record (R407); shares and the registers a core holds for a context (R270, R377). -/

namespace Sys2Proof.Machine

/-! What a core holds for a context. -/

/-- Cells outside a range. -/
def clearCells (m : List Host.Cell) (a n : Nat) : List Host.Cell :=
  m.filter fun e => decide (e.1 < a) || decide (a + n ≤ e.1)
/-- Storage cleared to zero, FULL and sound, and held in no cache (R180). -/
def clearRange (a n : Nat) (s : State) : State :=
  { cleanRange (dropRange s a n) a n with
    mem := clearCells s.mem a n
    empty := setFull s.empty a n
    poison := s.poison.filter fun u => decide (u < a) || decide (a + n ≤ u) }

/-- R287: the seed of a core's shift register. -/
def lfsrSeed (s : State) (k : CoreId) : BitVec 16 :=
  BitVec.ofNat 16 (logicalDie s (dieOf k) * 256 + k.toNat % 256 + 1)
/-- R331, R329: the service wakes a die before it places a strand there. -/
def wakeDie (d : DieId) (s : State) : State :=
  { s with pkg := { s.pkg with mode := s.pkg.mode.set d.toNat .active d.isLt } }
/-- R279: the overflow area of a context's deque on a core: its offset in cluster SRAM and the entries for which it has room. -/
def Context.area (x : Context) (k : CoreId) : Nat × Nat := ((x.ovf.find? fun e => e.1 == k).map (·.2)).getD (0, 0)
/-- R270, R376: the registers that a core holds for a context and for the strand placed there, on a die that is awake. -/
def outfit (t : Tag) (lay : Layout) (k : CoreId) (s : State) : State :=
  match contextGet s t with
  | none => s
  | some x =>
    let y := { x with cores := if x.cores.contains k then x.cores else x.cores ++ [k] }
    let s := wakeDie (dieOf k) (contextSet s y)
    let c := coreGet s k
    let area := x.area k
    coreSet s k { c with
      fabase := W lay.arenaBase
      falimit := W lay.arenaLimit
      dqcap := W (64 + area.2)
      ovf := sramBase (clusterOf k) + area.1
      dring := x.dring
      spshare := W (lay.shareLimit * 2 ^ 32 + lay.shareBase)
      spgrp := x.groups.zeroExtend 64
      lfsr := if c.lfsr = 0 then lfsrSeed s k else c.lfsr }

/-! Shares (R377). -/

/-- Whether a strand is on a core, or off it with its parked deque there. -/
def strandAt (s : State) (img : Word) (k : CoreId) : Bool :=
  ((coreGet s k).mode != .vacant && (coreGet s k).strand.spillovf == img)
    || s.svc.off.any fun o => o.core == k && o.strand.spillovf == img
/-- R269: the continuations of a context that wait to be resumed. -/
def contsOf (s : State) (t : Tag) : List Cont :=
  ((allCores s).flatMap fun e =>
    if e.2.mode ≠ .vacant ∧ tagOf e.2.strand = t then
      e.2.deque ++ (match e.2.mode with
        | .arriving c => [c]
        | _ => [])
    else [])
    ++ (s.svc.off.filter fun o => o.ctx == t).flatMap fun o => o.deque ++ o.strand.slot.toList.map Cont.ofBytes
/-- A storage address of one core's scratchpad as the same offset of another's. -/
def moveKey (x y : CoreId) (a : Nat) : Nat :=
  if spBase x ≤ a ∧ a < spBase x + 2 ^ 20 then a - spBase x + spBase y else a
/-- R386 step 2: whether a command reads or writes a byte of a range, in data that it still awaits too. -/
def touchesRange (s : State) (c : Cmd) (a n : Nat) : Bool :=
  let hit (k : Nat) : Bool := decide (a ≤ k) && decide (k < a + n)
  let flag := match c.flag with
    | .add k _ => hit k
    | _ => false
  flag || (c.units ++ awaited s c).any fun u => u.bytes.any (fun b => b.src.any hit) || match u.dst with
    | .mem k _ => hit k || hit (k + u.bytes.length - 1)
    | .peer _ _ => false
/-- R377: whether a frame, continuation, window or engine command of a context names a byte of a share. -/
def shareNamed (s : State) (t : Tag) (h : Share) : Bool :=
  let inShare (o : Nat) : Bool := decide (h.lay.shareBase ≤ o) && decide (o < h.lay.shareLimit)
  let a := spBase h.core + h.lay.shareBase
  let n := h.lay.shareLimit - h.lay.shareBase
  ((contsOf s t).any fun c => (frameAt s h.core c.frame).any fun x => x.1 == h.core && inShare x.2)
    || (coreGet s h.core).parkedTop.any inShare
    || (coreGet s h.core).win.toList.any (fun w => w.st != .free && w.ctx == t
        && w.granules.any fun g => decide (a ≤ g) && decide (g < a + n))
    || s.cmds.any fun c => c.ctx == t && touchesRange s c a n
/-- R377: whether the service may reclaim a share: its strand is elsewhere and nothing names it. -/
def reclaimable (s : State) (x : Context) (h : Share) : Bool :=
  h.strand != 0 && !strandAt s h.strand h.core && !shareNamed s x.tag h
def Share.meets (h : Share) (k : CoreId) (lay : Layout) : Bool :=
  h.core == k && decide (lay.shareBase < h.lay.shareLimit) && decide (h.lay.shareBase < lay.shareLimit)
/-- R377, R378: whether a share may be assigned on a core: within its scratchpad, clear of the shared read regions and of
every share that is not to be reclaimed. -/
def layoutFree (s : State) (k : CoreId) (lay : Layout) : Bool :=
  decide (lay.shareLimit ≤ spCapOf s (dieOf k))
    && (coreGet s k).spshr.toList.all (fun x => slice x 56 8 == 0 || decide (slice x 32 21 ≤ lay.shareBase)
        || decide (lay.shareLimit ≤ slice x 0 21))
    && s.svc.contexts.all fun y => y.held.all fun h => !h.meets k lay || reclaimable s y h
/-- R377, R180: a share is assigned on a core, cleared. -/
def giveShare (t : Tag) (k : CoreId) (img : Word) (lay : Layout) (s : State) : State :=
  let s1 := clearRange (spBase k + lay.shareBase) (lay.shareLimit - lay.shareBase) s
  { s1 with svc := { s1.svc with contexts := s1.svc.contexts.map fun y =>
      let kept := y.held.filter fun h => !h.meets k lay
      { y with held := if y.tag = t then kept ++ [⟨k, img, lay⟩] else kept } } }
/-- R377: a share on a core for a strand: the one that waits for it there, or a new one of a layout that is free. -/
def takeShare (x : Context) (k : CoreId) (img : Word) (s : State) : Option (Layout × State) :=
  match x.held.find? fun h => h.core == k && h.strand == 0 with
  | some h => some (h.lay, contextSet s { x with held := x.held.map fun e => if e = h then { h with strand := img } else e })
  | none => (x.layouts.find? (layoutFree s k)).map fun lay => (lay, giveShare x.tag k img lay s)

/-! Stops. -/

/-- One step of a cluster's matrix unit. -/
def mxTurn (c : ClusterId) (s : State) : State :=
  match matrixEvent c (clusterGet s c).mx with
  | some (.issueEnd _) => endIssue c s
  | some (.matrixIssue _) => startIssue c s
  | some (.thatchAdmission k) => admitHead k s
  | some (.groupDeadline _) => reachDeadline c s
  | _ => s
/-- R152, R384 step 3: a strand's matrix commands complete. -/
def drainMatrix (k : CoreId) (img : Word) : Nat → State → State
  | 0, s => s
  | n + 1, s => if mxBusy s k img then drainMatrix k img n (mxTurn (clusterOf k) s) else s
def completeMatrix (k : CoreId) (img : Word) (s : State) : State :=
  let s1 := withdraw s k img
  drainMatrix k img (4 * (clusterGet s1 (clusterOf k)).mx.pending.length + 4) s1

/-- R289: the current core's strand with a continuation that it has been given and not yet entered, entered. -/
def settleMode (s : State) : State :=
  match s.core.mode with
  | .arriving c => enterCont c s
  | _ => s
/-- R384, R318: stop the strand of a core, or none while it is at no stop point, awaits acknowledgements, or has matrix
commands that a stall holds. -/
def stopCore (why : OffWhy) (k : CoreId) (s : State) : Option State :=
  let s2 := settleMode (focus s k)
  if s2.core.mode = .vacant then none
  else match stopPoint s2 with
    | none => none
    | some s3 =>
      let t := s3.core.strand
      if t.peer.posted ≠ [] ∨ (mxBusy s3 k t.spillovf ∧ stalled s3 (clusterOf k)) then none
      else
        let s4 := completeMatrix k t.spillovf s3
        let t := s4.core.strand
        let s5 := match t.peer.lost with
          | some a => deliver cREMOTE false a (strandSet s4 { t with peer := { t.peer with lost := none } })
          | none => parkStrand why s4
        some (focus s5 s.cur)
/-- R384: a pre-emption is taken at the strand's stop point; until then it stands as a request. -/
def execPreemption (k : CoreId) (s : State) : Outcome State :=
  .next (match stopCore .preempted k s with
    | some s1 => s1
    | none =>
      let c := coreGet s k
      if c.mode = .vacant then s else coreSet s k { c with preReq := true })

/-- R318: a requested watchdog stop is taken. -/
def execWatchdogStop (k : CoreId) (s : State) : Outcome State :=
  let s1 := settleMode (focus s k)
  if s1.core.wdReq && s1.core.mode != .vacant then
    match stopPoint s1 with
    | some s2 => .next (focus (takeTrap cWATCHDOG false (W s2.core.strand.limit) s2) s.cur)
    | none => .next s
  else .next s

/-! Returns. -/

/-- R374: where a strand resumes. -/
def Off.resumePc (o : Off) (at_ : Option Word) : Word :=
  at_.getD (if o.why = .preempted then o.strand.pc else o.strand.epc)
/-- R391, R388: a strand as it returns to a core. -/
def Off.awake (o : Off) (pc : Word) : Strand :=
  let t := { o.strand with pc := pc, decDone := o.strand.decDone && pc == o.strand.pc }
  t.setEv
/-- Put a strand that is off its core on a vacant core, where it holds its share. -/
def placeOff (o : Off) (k : CoreId) (pc : Word) (s : State) : State :=
  let s1 := outfit o.ctx o.strand.share k
    { s with svc := { s.svc with off := s.svc.off.filter fun x => x.strand.spillovf != o.strand.spillovf } }
  let c := coreGet s1 k
  let idle := o.idle && pc == o.strand.pc
  let s2 := dequeSet s1 k o.deque
  coreSet s2 k { coreGet s2 k with
    mode := if idle then .idle else .running
    strand := o.awake pc
    ftop := if idle then W (idleTop s1 k c) else o.ftop
    wdReq := o.wdReq
    preReq := false }
/-- R374, R400: a core that can take a strand. -/
def coreFree (s : State) (k : CoreId) : Bool := (coreGet s k).mode == .vacant && !fenced s (clusterOf k)

/-- R374, R28: the bytes of a strand's image with the service's edits. -/
def Off.edit (o : Off) (edits : List (Nat × Byte)) : List Byte := editImage (o.edited.getD o.strand.image) edits
/-- R374, R382: the service writes bytes of a strand's image; a lost line that it has written is whole again. -/
def Off.write (o : Off) (edits : List (Nat × Byte)) : Off :=
  if edits = [] then o
  else
    let hit (l : Nat) : Bool := edits.any fun e => e.1 / 64 * 64 == l
    { o with
      strand := { o.strand with
        lost := o.strand.lost.filter fun l => !hit l
        evicted := o.strand.evicted.filter fun l => !hit l }
      edited := some (o.edit edits) }
/-- R27, R28: the strand with the image that the service has written. -/
def Off.load (o : Off) : Off :=
  match o.edited with
  | none => o
  | some b => { o with strand := o.strand.loadImage b, edited := none }
/-- A doubleword of the image that the service has written, as its register changes (R28). -/
def Off.poke (o : Off) (at_ : Nat) (f : Word → Word) : Off :=
  { o with edited := o.edited.map fun b =>
      editImage b (((List.range 8).zip (wordBytes (f (imgWord b at_)))).map fun e => (at_ + e.1, e.2)) }
/-- A general register of a strand off its core. -/
def Off.writeG (o : Off) (r : Reg) (v : Word) : Off := { o with strand := o.strand.writeG r v }.poke (0x2000 + 8 * r.toNat) fun _ => v
/-- R315, R316: the service sets no MODE but BOUNDED or PERSISTENT, no LIMIT below 100, and no RUN to 0 in BOUNDED mode. -/
def wdEditOk (o : Off) (b : List Byte) : Bool :=
  let w := imgCtl b 17
  let run := slice (imgCtl b 16) 0 48
  (w == o.strand.wdmode || (slice w 62 2 != 0 && decide (100 ≤ slice w 0 48)))
    && (slice w 62 2 != 1 || run != 0 || slice o.strand.hbeat 0 48 == 0)
/-- A strand off its core, replaced. -/
def offSet (o o1 : Off) (s : State) : State :=
  { s with svc := { s.svc with off := s.svc.off.map fun x => if x = o then o1 else x } }
/-- R28: a strand off its core, as the service has written it, is given to `f` with its image loaded; or the device refuses the
image, which stays as it has been written. -/
def takeBack (o o1 : Off) (f : Off → State → State) (s : State) : State :=
  match o1.edited with
  | none => f o1 s
  | some b => if imageOk b then f o1.load s else emit (.imageRefused o1.ctx o1.strand.spillovf cISOLATION) (offSet o o1 s)
/-- R347: the service holds a strand stopped by RELOCATION until the relocation's step 5. -/
def relocHeld (s : State) (o : Off) : Bool :=
  o.why == .trapped && BitVec.ofNat 8 o.strand.cause.toNat == cRELOCATION
    && s.svc.relocs.any fun r => r.ctx == o.ctx && r.obj == objOf o.strand.tval && decide (r.stage < 5)
/-- Whether the service may resume a strand with its edits: one that waits for it to end the context is not resumed. -/
def mayResume (s : State) (o : Off) (edits : List (Nat × Byte)) : Bool :=
  o.why != .held && o.why != .ending && !relocHeld s o && (o.write edits).edited.all (wdEditOk o)
    && !s.svc.waiting.contains (.svcEnd o.strand.spillovf)

/-- R374, R28: the service writes a strand's image and resumes it on its core. -/
def resumeOff (o : Off) (at_ : Option Word) (edits : List (Nat × Byte)) (s : State) : State :=
  if !coreFree s o.core || !mayResume s o edits then s
  else takeBack o (o.write edits) (fun o s => placeOff o o.core (o.resumePc at_) s) s
def execResumption (i : Nat) (at_ : Option Word) (edits : List (Nat × Byte)) (s : State) : Outcome State :=
  match s.svc.off[i]? with
  | none => .next s
  | some o => .next (resumeOff o at_ edits s)

def EDst.move (x y : CoreId) : EDst → EDst
  | .mem k p => .mem (moveKey x y k) p
  | .peer h q => .peer h q

/-- R386 step 5: the windows of a strand move from one core to another. -/
def moveWindows (img : Word) (x y : CoreId) (s : State) : State :=
  ([0, 1, 2, 3] : List (BitVec 2)).foldl (fun s i =>
    let w := windowGet s x i
    if w.strand ≠ img ∨ w.st = .free then s
    else
      let s1 := windowSet s x i Window.zero
      if w.st = .bound then
        windowSet s1 y i { w with
          cmd := w.cmd.map fun c => { c with
            core := y
            units := c.units.map fun u => { u with dst := u.dst.move x y } }
          granules := w.granules.map (moveKey x y) }
      else s1) s

/-- R386 step 6: an address in one core's arena as the same offset of another's. -/
def moveAddr (s : State) (lay : Layout) (from_ dest : CoreId) (va : Word) : Option Word :=
  let lo := (globalAt s from_ lay.arenaBase).toNat
  let hi := (globalAt s from_ lay.arenaLimit).toNat
  if lo ≤ va.toNat ∧ va.toNat < hi then
    some (globalAt s dest (va.toNat - (globalAt s from_ 0).toNat)) else none
/-- R386 step 6: the PREV links from a frame. -/
def movePrev (lay : Layout) (from_ dest : CoreId) : Nat → Nat → State → State
  | 0, _, s => s
  | n + 1, o, s =>
    let a := spBase dest + o
    match moveAddr s lay from_ dest (memWord s.mem a) with
    | none => s
    | some p => movePrev lay from_ dest n (p.toNat - (globalAt s dest 0).toNat) { s with mem := memSetWord s.mem a p }

/-- R379, R395: a strand's image is written at its place, the poison of its accumulator rows with it. -/
def writeImage (t : Strand) (s : State) : State :=
  let a := t.spillovf.toNat
  let bad := ((List.range 64).filter fun r => t.rowPoison.getLsbD r).flatMap fun r => [a + 128 * r, a + 128 * r + 64]
  { s with
    mem := memWrite s.mem a t.image
    poison := bad.foldl (fun p u => sortedInsert u p) (clearPoison s.poison a 0x3000) }

/-- R386 step 4: a share's bytes, full-empty bits and poison at the same offsets of another core. -/
def copyShare (lay : Layout) (from_ dest : CoreId) (s : State) : State :=
  let src := spBase from_ + lay.shareBase
  let size := lay.shareLimit - lay.shareBase
  let inSrc (a : Nat) : Bool := decide (src ≤ a) && decide (a < src + size)
  let s1 := clearRange (spBase dest + lay.shareBase) size s
  { s1 with
    mem := memWrite s1.mem (spBase dest + lay.shareBase) (memRead s.mem src size)
    empty := (s.empty.filter inSrc).foldl (fun l g => sortedInsert (moveKey from_ dest g) l) s1.empty
    poison := (s.poison.filter inSrc).foldl (fun l u => sortedInsert (moveKey from_ dest u) l) s1.poison }

/-- R386, R374: a strand, with the service's edits, resumes on another core, or none while a step has still to wait. -/
def migrate (o : Off) (k : CoreId) (at_ : Option Word) (edits : List (Nat × Byte)) (s : State) : Option State :=
  let lay := o.strand.share
  let share := spBase o.core + lay.shareBase
  let ready : Bool := coreFree s k && layoutFree s k lay && k != o.core && partOfCore s k == partOfCore s o.core
    && mayResume s o edits
    && !(s.cmds.any fun c => c.strand == o.strand.spillovf && touchesRange s c share (lay.shareLimit - lay.shareBase))
    && ([0, 1, 2, 3] : List (BitVec 2)).all fun i =>
      let w := windowGet s o.core i
      !(w.strand == o.strand.spillovf && w.st == .copying)
    && decide (o.deque.length ≤ 64 + (((contextGet s o.ctx).map (·.area k)).getD (0, 0)).2)
  if !ready then none
  else some (takeBack o (o.write edits) (fun o s =>
    let s1 := writeImage o.strand (edgeRelease s (clusterOf o.core))
    let s2 := copyShare lay o.core k (giveShare o.ctx k o.strand.spillovf lay s1)
    let s3 := moveWindows o.strand.spillovf o.core k s2
    let (t, s4) := match moveAddr s3 lay o.core k (o.strand.readG 2) with
      | none => (o.strand, s3)
      | some a => (o.strand.writeG 2 a, movePrev lay o.core k 16384 (a.toNat - (globalAt s3 k 0).toNat) s3)
    let o1 := { o with strand := { t with carved := [] } }
    edgeAcquire (placeOff o1 k (o1.resumePc at_) s4) ⟨k, o.ctx, t.ortbase, 0⟩) s)
def execMigration (m : Move) (k : CoreId) (s : State) : Outcome State :=
  match s.svc.off[m.index]? with
  | none => .next s
  | some o => .next ((migrate o k m.at_ m.edits s).getD s)

/-- R388: whether a core can take a pending continuation at the head of its deque. -/
def takesPending (s : State) (t : Tag) (p : Cont) (k : CoreId) : Bool :=
  let c := coreGet s k
  c.mode != .vacant && tagOf c.strand == t && decide (c.deque.length < slice c.dqcap 0 16)
    && match frameCheck s k p.frame with
      | .error _ => false
      | .ok (j, o, n) => j == k
        || decide (frameBase c (slice (memWord s.mem (spBase j + o + 24)) 0 16) + n ≤ c.limit)
/-- R388: the service places a pending continuation at the head of a deque and resumes the stopped TRET. -/
def execPendingSlot (i : Nat) (k : CoreId) (s : State) : Outcome State :=
  match s.svc.off[i]? with
  | none => .next s
  | some o =>
    match o.strand.slot with
    | none => .next s
    | some b =>
      if takesPending s o.ctx (Cont.ofBytes b) k && coreFree s o.core && mayResume s o [] then
        let u := { o.strand with slot := none, status := o.strand.status &&& ~~~(2 : Word) }
        let o1 := { o with strand := u }.poke 0x2800 (· &&& ~~~(2 : Word))
        let o2 := o1.load
        let put (s : State) : State :=
          edgeAcquire (dequeSet s k (Cont.ofBytes b :: (coreGet s k).deque)) ⟨k, o.ctx, o.strand.ortbase, 0⟩
        .next (if o1.edited.all imageOk then placeOff o2 o.core (o2.resumePc none) (put s)
          else emit (.imageRefused o.ctx o.strand.spillovf cISOLATION) s)
      else .next s

/-! Register lines (R379, R382, R383). -/

/-- The core of a strand, on it or off it, and the strand. -/
def strandPlace (img : Word) (s : State) : Option (CoreId × Strand) :=
  match (allCores s).find? fun e => e.2.mode != .vacant && e.2.strand.spillovf == img with
  | some e => some (e.1, e.2.strand)
  | none => (s.svc.off.find? fun o => o.strand.spillovf == img).map fun o => (o.core, o.strand)
/-- The carve-out of a strand: its first byte on a core, and the lines for which it has room. -/
def carveBase (k : CoreId) (t : Strand) : Nat := spBase k + slice t.spillbase 0 20
def carveRoom (t : Strand) : Nat := (slice t.spilltop 0 20 - slice t.spillbase 0 20) / 64
/-- R379: where the copy of a line stands: in the carve-out when one is there, and otherwise in the image. -/
def lineCopy (k : CoreId) (t : Strand) (line : Nat) : Nat :=
  match t.carved.find? fun e => e.1 == line with
  | some e => carveBase k t + 64 * e.2
  | none => t.spillovf.toNat + line
/-- R379: the place in the carve-out for a line that leaves the register file, if there is room. Which of the free places it
takes is the model's choice (log 80). -/
def carvePlace (t : Strand) (line : Nat) : Option Nat :=
  match t.carved.find? fun e => e.1 == line with
  | some e => some e.2
  | none => (List.range (carveRoom t)).find? fun j => !t.carved.any fun e => e.2 == j
def regLineBytes (t : Strand) (line : Nat) : List Byte := (t.image.drop line).take 64
/-- R383: whether a line is of a poisoned accumulator row. -/
def linePoison (t : Strand) (line : Nat) : Bool := decide (line < 0x2000) && t.rowPoison.getLsbD (line / 128)
/-- Bytes of a line written at its copy, with its row's poison (R383, R395). -/
def putLine (a : Nat) (bad : Bool) (bs : List Byte) (s : State) : State :=
  { s with
    mem := memWrite s.mem a bs
    poison := (List.range (64 / poisonSize a)).foldl
      (fun p i => if bad then sortedInsert (a + poisonSize a * i) p else p) (clearPoison s.poison a 64) }
/-- R379: a dirty line that is sound leaves the register file. -/
def evictLine (img : Word) (line : Nat) (s : State) : State :=
  match strandPlace img s with
  | none => s
  | some (k, t) =>
    let bs := regLineBytes t line
    match carvePlace t line with
    | some j => mapStrand img (fun u => { u with carved := (line, j) :: u.carved.filter fun e => e.1 != line })
        (putLine (carveBase k t + 64 * j) (linePoison t line) bs s)
    | none => putLine (t.spillovf.toNat + line) (linePoison t line) bs s
/-- R379: a line is loaded from its copy. A line whose copy holds other bytes is dirty in the register file and is not loaded.
That a copy with an uncorrectable error leaves the line lost is the model's choice (log 80). -/
def loadLine (img : Word) (line : Nat) (s : State) : State :=
  match strandPlace img s with
  | none => s
  | some (k, t) =>
    let a := lineCopy k t line
    if memRead s.mem a 64 ≠ regLineBytes t line ∨ (firstPoison s.poison a 64).isNone then s
    else mapStrand img (fun u =>
      if line < 0x2000 then { u with rowPoison := u.rowPoison ||| 1#64 <<< (line / 128) }
      else { u with lost := sortedInsert line u.lost }) s
/-- R379, R382: a register line of a strand is loaded, or leaves the register file; a dirty line with an uncorrectable
error is lost, and a clean one is loaded again. -/
def execRegisterLineFill (img : Word) (line : Nat) (u : LineUse) (e : EccKind) (s : State) : Outcome State :=
  .next (
    if line % 64 ≠ 0 ∨ 0x3000 ≤ line then s
    else if !u.dirty then (if u.evict then s else loadLine img line s)
    else if e = .uncorrectable then
      mapStrand img (fun t => { t with
        lost := sortedInsert line t.lost
        evicted := if u.evict then some line else t.evicted }) s
    else if u.evict then evictLine img line s
    else s)

/-! The end of contexts. -/

/-- R269: the frames parked in a share are frames no more. -/
def dropFrames (h : Share) (s : State) : State :=
  let c := coreGet s h.core
  coreSet s h.core { c with parkedTop := c.parkedTop.filter fun o => decide (o < h.lay.shareBase) || decide (h.lay.shareLimit ≤ o) }
/-- R353, R400: a strand leaves its core for good; its continuations are discarded (R269). -/
def endCore (k : CoreId) (s : State) : State :=
  let s1 := withdraw (parkStrand .ending (focus s k)) k (coreGet s k).strand.spillovf
  focus { s1 with svc := { s1.svc with off := s1.svc.off.map fun o => if o.why = .ending then { o with area := [] } else o } } s.cur
/-- R152, R327, R379: a strand that has ended goes when its matrix commands are complete, which a stall holds back; its lines go
to its image. -/
def endOff (o : Off) (s : State) : State :=
  let img := o.strand.spillovf
  if mxBusy s o.core img ∧ stalled s (clusterOf o.core) then
    { s with svc := { s.svc with off := s.svc.off.map fun x =>
        if x.strand.spillovf = img then { x with why := .ending, area := [] } else x } }
  else
    let s1 := completeMatrix o.core img s
    let s2 := writeImage ((findStrand img s1).getD o.strand) s1
    { s2 with svc := { s2.svc with off := s2.svc.off.filter fun x => x.strand.spillovf != img } }
/-- The strands of a context stop for good, all but those that `keep` names: each leaves its core, its matrix commands
complete, its lines go to its image (R379), and its continuations and frames are discarded (R269, R400). -/
def dropStrands (keep : Off → Bool) (t : Tag) (s : State) : State :=
  let mine := (allCores s).filter fun e => e.2.mode != .vacant && tagOf e.2.strand == t
  let s1 := mine.foldl (fun s e => endCore e.1 s) s
  let s2 := (s1.svc.off.filter fun o => o.ctx == t && !keep o).foldl (fun s o => endOff o s) s1
  (((contextGet s t).map (·.held)).getD []).foldl (fun s h => dropFrames h s)
    { s2 with svc := { s2.svc with off := s2.svc.off.map fun o => if o.ctx = t then { o with area := [] } else o } }
/-- R400: a context fails; its launches are never answered complete. -/
def failContext (t : Tag) (s : State) : State :=
  match contextGet s t with
  | none => s
  | some x => emit (.failed t) (dropStrands (fun _ => false) t (contextSet s { x with launches := [] }))

/-- R407: the service reports a watchdog stop and applies the context's policy. -/
def execWatchdogRecord (i : Nat) (s : State) : Outcome State :=
  match s.svc.off[i]? with
  | none => .next s
  | some o =>
    let t := o.strand
    if o.why = .trapped ∧ BitVec.ofNat 8 t.cause.toNat = cWATCHDOG then
      let s1 := emit (.watchdog o.ctx t.spillovf t.epc (W t.limit) (BitVec.ofNat 16 t.beats)) s
      if (contextGet s o.ctx).any (·.hold) then
        .next (offSet o { o with why := .held } s1)
      else .next (failContext o.ctx s1)
    else .next s

end Sys2Proof.Machine
end

