-- ==== Sys2Proof/Machine/Engines.lean ====
section
/-! DEFINITION. The copy engine and the fabric element: CPY, CPYR, CPYT, windows, GATHER and SCATTER, the
writes of their commands and their completion (R230 to R251, R263 to R267). -/

namespace Sys2Proof.Machine

/-! Planning: the bytes a command reads and the places it writes. -/

/-- R231 stage 3: check every byte of a range; the first failing address is reported. -/
def span (s : State) (va : Word) (len : Nat) (k : AKind) : M (List Piece) := do
  let l ← (cutRange va.toNat len).mapM fun c => translate s (self s) (va + W (c.1 - va.toNat)) c.2 k
  pure l.flatten

/-- A destination `n` bytes further on, and its address within its unit's place. -/
def EDst.after (d : EDst) (n : Nat) : EDst :=
  match d with
  | .mem k p => .mem (k + n) p
  | .peer h q => .peer h { q with off := q.off + BitVec.ofNat 44 n }
def EDst.place : EDst → Nat
  | .mem k _ => k
  | .peer _ q => q.off.toNat

/-- Whether the unit before a destination of a peer may hold it as well: they share a line. -/
def EDst.joins : EDst → EDst → Bool
  | .peer _ p, .peer _ q => p.off.toNat / 64 == q.off.toNat / 64
  | _, _ => false

/-- The places of the bytes of pieces, and those bytes as an engine reads them with their poison. -/
def placesOf (ps : List Piece) : List EDst :=
  ps.flatMap fun p => (List.range p.len).map fun i => .mem (p.key + i) p.kind
def bytesOf (s : State) (ps : List Piece) : List (EByte × Bool) :=
  ps.flatMap fun p => (List.range p.len).map fun i =>
    (.of (some (p.key + i)) (engineByte s (clusterOf s.cur) (p.key + i)), unitBad s (clusterOf s.cur) (p.key + i))
/-- Bytes that have no source in memory. -/
def plainBytes (l : List Byte) : List (EByte × Bool) := l.map fun b => (.of none b, false)

/-- Put one byte before the units of the bytes that follow it. A unit is sixteen bytes; one that goes to a peer takes
the neighbours of equal poison that share its line (R259, R395). -/
def addByte (x : EDst × EByte × Bool) : List EUnit → List EUnit
  | [] => [⟨x.1, [x.2.1], x.2.2⟩]
  | u :: t =>
    if x.1.after 1 = u.dst ∧ (u.dst.place % 16 ≠ 0 ∨ x.1.joins u.dst ∧ x.2.2 = u.poisoned) then
      ⟨x.1, x.2.1 :: u.bytes, x.2.2 || u.poisoned⟩ :: t
    else ⟨x.1, [x.2.1], x.2.2⟩ :: u :: t
/-- The units of a command. A source byte that lies in the command's own destination is not read again
(R236). -/
def mkUnits (dst : List EDst) (src : List (EByte × Bool)) : List EUnit :=
  let own (k : Nat) : Bool := dst.any fun d => match d with
    | .mem j _ => j == k
    | .peer _ _ => false
  let keep (b : EByte) : EByte := if b.src.any own || b.src2.any own then { b with src := none } else b
  (dst.zip src).foldr (fun x l => addByte (x.1, keep x.2.1, x.2.2) l) []
/-- R251: of the units that write one place, the last counts. That an overwritten unit is not counted among the bytes
written either (R254) is the model's choice (log 89). -/
def lastUnits : List EUnit → List EUnit
  | [] => []
  | u :: t => if t.any fun v => v.dst == u.dst then lastUnits t else u :: lastUnits t

/-- R230: whether a destination holds a die-to-die entry. -/
def EDst.far (s : State) : EDst → Bool
  | .mem k _ => (isSp k || isSram k) && BitVec.ofNat 3 (k / 2 ^ 28) != dieOf s.cur
  | .peer _ _ => true
/-- The object number that an address names. -/
def objName (va : Word) : List (BitVec 18) := if spaceOf va = 0 then [objOf va] else []

/-- R370: the sub-tiles of a MAPPED object that a range of addresses lies in. -/
def keysOf (s : State) (va : Word) (len : Nat) : List (BitVec 18 × Nat) :=
  if spaceOf va ≠ 0 ∨ inPeerWindow va ∨ len = 0 then []
  else match lookup s (self s) (objOf va) va with
    | .ok r =>
      if r.kind = kMAPPED then
        let i := offOf va / r.subTile
        (List.range ((offOf va + len - 1) / r.subTile + 1 - i)).map fun j => (objOf va, i + j)
      else []
    | .error _ => []

/-- A command of the current instruction. -/
def newCmd (s : State) (tok gather : Bool) (size : Nat) (units : List EUnit) (flag : EFlag)
    (objs : List (BitVec 18)) (keys : List (BitVec 18 × Nat)) : Cmd where
  id := 0
  core := s.cur
  ctx := tagOf s.core.strand
  strand := s.core.strand.spillovf
  addr := s.core.strand.pc
  tok := tok
  gather := gather
  units := units
  flag := flag
  ring := none
  checked := s.nextId
  d2d := units.any fun u => u.dst.far s
  window := none
  shadowOf := none
  objs := objs
  written := 0
  sound := []
  keys := keys
  poisoned := false
  failed := false
  out := []
  flagSent := false
  size := size

/-- R238: a flag register of g0 names no flag. -/
def flagAddr (s : State) (f : Reg) : Option Word := if f = 0 then none else some (s.core.strand.readG f)
def flagAligned (fa : Option Word) : M Unit :=
  match fa with
  | none => .ok ()
  | some a => need (a.toNat % 8 == 0) cALIGNMENT a

/-- A request to the peer that a handle names, but for its number. -/
def peerPlace (s : State) (r : ORec) (va : Word) : PeerReq := mkReq s r (offOf va) (.flag 0)

/-- R231 stage 3, R234: the completion flag. -/
def planFlag (s : State) (fa : Option Word) (peers : Bool) : M EFlag :=
  match fa with
  | none => .ok .none
  | some a =>
    if peers && inPeerWindow a then do
      let r ← peerHandle s a 8 [.atomic]
      pure (.peer (handleOf a) (peerPlace s r a))
    else do
      let ps ← translate s (self s) a 8 .atomic
      let bar : Bool := spaceOf a == 0 && match lookup s (self s) (objOf a) a with
        | .ok r => r.kind == kBARRIER
        | .error _ => false
      match ps with
      | p :: _ => pure (if bar then .barrier (p.key / 32 * 32) else .add p.key p.kind)
      | [] => pure .none

/-- R366, R340: the translations that a command has used: the versions of records, and the sub-tiles of MAPPED objects. -/
def noteUses (c : Cmd) (s : State) : State :=
  let g := self s
  let s1 := c.objs.foldl (fun s n => if 0x3F000 ≤ n.toNat then s else noteRecord g n s) s
  c.keys.foldl (fun s k => match lookup s g k.1 0 with
    | .ok r => if r.kind = kMAPPED then noteSubTile g k.1 r k.2 s else s
    | .error _ => s) s1
/-- R231 stages 5 and 6. -/
def issueCmd (c : Cmd) (s : State) : M State :=
  if engineRoom s c then .ok (retireFree (enqueue c (noteUses c s))) else .error (.waitIn s)

/-- R248: the shadow placement's pieces for a range of an object. -/
def shadowSpan (s : State) (va : Word) (len : Nat) : M (List Piece) := do
  need (spaceOf va == 0) cPERMISSION va
  need (!inPeerWindow va) cPERMISSION va
  let r ← lookup s (self s) (objOf va) va
  recordChecks s (self s) r .ewrite va
  need ((r.kind == kDENSE || r.kind == kMAPPED) && r.sh) cPERMISSION va
  let o := offOf va
  need (decide (o + len ≤ r.bytes)) cSHAPE (if o < r.bytes then va + W (r.bytes - o) else va)
  need (!r.reloc) cRELOCATION va
  (cutRange o len).mapM fun c => do
    let tv := va + W (c.1 - o)
    if r.kind = kMAPPED then
      let i := c.1 / r.subTile
      need (!(firstPoison s.poison (r.shadow + 8 * i) 8).isSome) cPOISON tv
      match mapEntry s r r.shadow i with
      | some b => pure ⟨b + c.1 % r.subTile, c.2, .shadow⟩
      | none => trapM cRESIDENCY tv
    else pure ⟨r.shadow + c.1, c.2, .shadow⟩

/-- R245: the ring that a destination names, once it has been checked. -/
def ringDest (s : State) (d : Word) (len : Nat) : M (Option ORec) :=
  if spaceOf d ≠ 0 ∨ inPeerWindow d then .ok none
  else do
    let r ← lookup s (self s) (objOf d) d
    if r.kind = kRING then
      recordChecks s (self s) r .ewrite d
      need (offOf d == 0) cSHAPE d
      need (decide (len ≤ r.ringS)) cSHAPE (d + W r.ringS)
      need (!r.reloc) cRELOCATION d
      pure (some r)
    else pure none

/-- The pieces of bytes that follow one another from a storage address. -/
def runPieces (a len : Nat) (k : PlaceKind) : List Piece := (cutRange a len).map fun c => ⟨c.1, c.2, k⟩

/-- R245 stages 5 and 6 for an append: the slot is claimed as the command is enqueued; `d` is the ring's address. -/
def issueAppend (r : ORec) (d : Word) (len : Nat) (src : List (EByte × Bool)) (c : Cmd) (s : State) : M State :=
  if (firstPoison s.poison r.place 32).isSome then trapM cPOISON d
  else match ringClaim s r.place r.ringN with
  | none => .error (.waitIn s)
  | some (n, s1) =>
    if engineRoom s c then
      let c := { c with
        units := mkUnits (placesOf (runPieces (r.place + slotOff r n) len .hc)) src
        ring := some (r.place, r.ringS, r.ringN, n) }
      .ok (retireFree (enqueue c (noteUses c s1)))
    else .error (.waitIn s)

/-- R259: the units that one read of a peer brings, each with its own mark of poison in the answer. -/
def packets (us : List EUnit) : List (List EUnit) := chunks 64 (us.length + 1) us

/-- Send one request of a command to its peer. -/
def sendCmdReq (cid : Nat) (core : CoreId) (t : Tag) (h : BitVec 12) (q : PeerReq) (use : PeerUse) (s : State) : State :=
  let va := objAddr (BitVec.ofNat 18 (0x3F000 + h.toNat)) q.off.toNat
  { s with
    out := s.out ++ [⟨{ q with id := s.nextId }, use, core, t, h, va, s.pkg.time⟩]
    cmds := s.cmds.map fun c => if c.id = cid then { c with out := c.out ++ [s.nextId] } else c
    nextId := s.nextId + 1 }

/-- R267: a command fails: its remaining units stay untouched, its handle leaves VALID and the service
receives a record. -/
def failCmd (cid : Nat) (h : BitVec 12) (st : Nat) (s : State) : State :=
  match s.cmds.find? fun c => c.id == cid with
  | none => s
  | some c =>
    let s1 := { s with cmds := s.cmds.map fun d => if d.id = cid then { d with failed := true, units := [] } else d }
    let g : Agent := ⟨c.core, c.ctx, ((contextGet s c.ctx).map (·.ortBase)).getD 0, 0⟩
    if c.failed then failHandle g h st s1 else emit (.commandFailed c.ctx cid h) (remoteFails g h st s1)

/-- R259, R263: the requests for the data of a CPYR with a peer source. -/
def requestData (cid : Nat) (h : BitVec 12) (q : PeerReq) (us : List EUnit) (s : State) : State :=
  if reachableReq s q then
    ((packets us).foldl (fun x us =>
      let n := (us.map (·.bytes.length)).sum
      (sendCmdReq cid x.1.cur (tagOf s.core.strand) h { q with off := q.off + BitVec.ofNat 44 x.2, op := .read n } (.cmdRead cid us) x.1,
        x.2 + n)) (s, 0)).1
  else failCmd cid h 1 s

/-- R238: whether two handles name one device and logical device; an invalid one fails at stage 3. -/
def samePeer (s : State) (a b : Word) : Bool :=
  match lookup s (self s) (objOf a) a, lookup s (self s) (objOf b) b with
  | .ok r, .ok q => slice (r.dw 1) 0 35 == slice (q.dw 1) 0 35
  | _, _ => true

/-- R238, stage 2 of CPY and CPYR. -/
def copyChecks (s : State) (remote : Bool) (d sa l : Word) (fa : Option Word) : M Unit := do
  need (d.toNat % 16 == 0) cALIGNMENT d
  need (sa.toNat % 16 == 0) cALIGNMENT sa
  need (l.toNat % 16 == 0 && decide (l.toNat ≤ 0x1000000)) cILLEGAL l
  flagAligned fa
  if remote then
    need (!(inPeerWindow d && inPeerWindow sa)) cILLEGAL sa
    match fa with
    | none => pure ()
    | some a =>
      need (inPeerWindow a == inPeerWindow d && (!inPeerWindow d || l == 0 || samePeer s a d)) cILLEGAL a

/-- R238: the source and the destination places of a copy of `n` bytes, either through a handle. -/
def copySource (s : State) (remote : Bool) (sa : Word) (n : Nat) : M (List (EByte × Bool)) :=
  if remote && inPeerWindow sa then
    if n = 0 then .ok []
    else do
      let _ ← peerHandle s sa n [.read]
      pure (plainBytes (List.replicate n 0))
  else do
    need (!inPeerWindow sa) cPERMISSION sa
    let ps ← span s sa n .read
    pure (bytesOf s ps)
def copyDest (s : State) (remote sh : Bool) (d : Word) (n : Nat) : M (List EDst) :=
  if remote && inPeerWindow d then
    if n = 0 then .ok []
    else do
      let r ← peerHandle s d n [.ewrite]
      let q := { peerPlace s r d with op := .bulk [] false 0 (BitVec.ofNat 44 (offOf d)) n }
      pure ((List.range n).map fun i => .peer (handleOf d) { q with off := q.off + BitVec.ofNat 44 i })
  else do
    need (!inPeerWindow d) cPERMISSION d
    let ps ← if n = 0 then pure [] else if sh then shadowSpan s d n else span s d n .ewrite
    pure (placesOf ps)

/-- R238: CPY and CPYR. -/
def copyCmd (remote tok sh : Bool) (rd rs rl rf : Reg) (s : State) : Outcome State :=
  let t := s.core.strand
  let d := t.readG rd
  let sa := t.readG rs
  let n := (t.readG rl).toNat
  let fa := flagAddr s rf
  finish s (do
    copyChecks s remote d sa (t.readG rl) fa
    let src ← copySource s remote sa n
    let ring ← if n = 0 || sh then pure none else ringDest s d n
    let dst ← if ring.isSome then pure [] else copyDest s remote sh d n
    let flag ← planFlag s fa remote
    let names := objName d ++ objName sa ++ (fa.map objName).getD []
    let keys := keysOf s d n ++ keysOf s sa n ++ (fa.map (keysOf s · 8)).getD []
    let c := newCmd s tok false n (mkUnits dst src) flag names keys
    let c := { c with d2d := c.d2d || (remote && inPeerWindow d), shadowOf := if sh then some (objOf d) else none }
    let pull : Bool := remote && inPeerWindow sa && n != 0
    let hold (c : Cmd) : Cmd := if pull then { c with units := [] } else c
    let send (us : List EUnit) (s1 : State) : M State :=
      if pull then do
        let r ← lookup s (self s) (objOf sa) sa
        pure (requestData s.nextId (handleOf sa) (peerPlace s r sa) us s1)
      else pure s1
    match ring with
    | some r =>
      let s1 ← issueAppend r d n src c s
      let us := match s1.cmds.find? fun x => x.id == s.nextId with
        | some x => x.units
        | none => []
      send us { s1 with cmds := s1.cmds.map fun x => if x.id = s.nextId then hold x else x }
    | none =>
      let s1 ← issueCmd (hold c) s
      send c.units s1)
def execCpy (h : EngMode) (d sa l f : Reg) (sh : Bool) (s : State) : Outcome State :=
  copyCmd false h.tok sh d sa l f s
def execCpyr (h : EngMode) (d sa l f : Reg) (s : State) : Outcome State := copyCmd true h.tok false d sa l f s

/-! Tile copies. -/

/-- A tile-copy descriptor (R239). -/
structure TileDesc where
  obj : Word
  org : Nat × Nat × Nat × Nat
  ext : Nat × Nat × Nat × Nat
  pitch : Nat
  layout : Nat
  dir : Nat
  deriving DecidableEq, Repr

/-- The little-endian field of `n` bytes at an offset. -/
def fieldAt (b : List Byte) (o n : Nat) : Nat := bytesNat ((b.drop o).take n)
def quad (b : List Byte) (o n : Nat) : Nat × Nat × Nat × Nat :=
  (fieldAt b o n, fieldAt b (o + n) n, fieldAt b (o + 2 * n) n, fieldAt b (o + 3 * n) n)
def parseDesc (b : List Byte) : TileDesc :=
  ⟨W (fieldAt b 0 8), quad b 8 4, quad b 24 2, fieldAt b 32 4, fieldAt b 36 1, fieldAt b 37 1⟩
/-- R231: an illegal value of a descriptor. -/
def legal (ok : Bool) (v : Nat) : M Unit := need ok cILLEGAL (W v)

/-- R240: bytes of an element, or of a pair of 4-bit elements, and how many elements that is. -/
def ORec.step (r : ORec) : Nat := if r.nib = 1 then 1 else r.nib / 2
def ORec.group (r : ORec) : Nat := if r.nib = 1 then 2 else 1
def TileDesc.rowLen (d : TileDesc) (r : ORec) : Nat :=
  if d.layout = 1 then d.ext.2.1 * r.step else d.ext.1 / r.group * r.step
def TileDesc.stride (d : TileDesc) (r : ORec) : Nat := if d.pitch = 0 then d.rowLen r else d.pitch
def TileDesc.rows (d : TileDesc) : Nat :=
  (if d.layout = 1 then d.ext.1 else d.ext.2.1) * d.ext.2.2.1 * d.ext.2.2.2
def TileDesc.size (d : TileDesc) (r : ORec) : Nat := d.rowLen r * d.rows

/-- R239, R240: the checks of stage 2 that need the object's record. -/
def TileDesc.check (d : TileDesc) (r : ORec) : M Unit := do
  let beyond (k org ext : Nat) : M Unit := do
    legal (decide (k < r.rank) || org == 0) org
    legal (decide (k < r.rank) || ext == 1) ext
  beyond 1 d.org.2.1 d.ext.2.1
  beyond 2 d.org.2.2.1 d.ext.2.2.1
  beyond 3 d.org.2.2.2 d.ext.2.2.2
  need (decide (r.kind ≤ 2)) cILLEGAL d.obj
  if r.nib = 1 then
    legal (d.org.1 % 2 == 0) d.org.1
    legal (d.ext.1 % 2 == 0) d.ext.1
    legal (d.layout == 0) d.layout
  legal (d.pitch == 0 || decide (d.rowLen r ≤ d.pitch)) d.pitch
  legal (decide (d.size r ≤ 0x1000000)) (d.size r)

/-- R231 stage 2: read a descriptor and check it, first by what needs no record; `bind` says that WBIND reads it (R241). -/
def readDesc (s : State) (gd gc : Word) (fa : Option Word) (bind : Bool) : M (TileDesc × ORec × State) := do
  need (gd.toNat % 16 == 0) cALIGNMENT gd
  need (gc.toNat % 16 == 0) cALIGNMENT gc
  flagAligned fa
  let (b, s1) ← loadBytes s gc 64
  let d := parseDesc b
  need (spaceOf d.obj == 0 && offOf d.obj == 0) cILLEGAL d.obj
  legal (d.ext.1 != 0 && d.ext.2.1 != 0 && d.ext.2.2.1 != 0 && d.ext.2.2.2 != 0) 0
  legal (decide (d.layout ≤ 1)) d.layout
  legal (decide (d.dir ≤ 1) && (!bind || d.dir == 0)) d.dir
  legal (d.pitch % 16 == 0) d.pitch
  match (b.drop 38).find? (· != 0) with
  | some x => legal false x.toNat
  | none => pure ()
  need (!inPeerWindow d.obj) cPERMISSION d.obj
  let r ← lookup s (self s) (objOf d.obj) d.obj
  d.check r
  pure (d, r, s1)

/-- R240: the coordinates of the elements (or pairs) of a tile, in the order of their packed places. -/
def TileDesc.coords (d : TileDesc) (r : ORec) : List (Nat × Nat × Nat × Nat) :=
  let n0 := d.ext.1 / r.group
  let at_ (i0 i1 i2 i3 : Nat) : Nat × Nat × Nat × Nat :=
    (d.org.1 + r.group * i0, d.org.2.1 + i1, d.org.2.2.1 + i2, d.org.2.2.2 + i3)
  (List.range d.ext.2.2.2).flatMap fun i3 => (List.range d.ext.2.2.1).flatMap fun i2 =>
    if d.layout = 1 then
      (List.range n0).flatMap fun i0 => (List.range d.ext.2.1).map fun i1 => at_ i0 i1 i2 i3
    else (List.range d.ext.2.1).flatMap fun i1 => (List.range n0).map fun i0 => at_ i0 i1 i2 i3
/-- R240: the checked pieces of the packed region, row by row. -/
def packedSpan (s : State) (gd : Word) (d : TileDesc) (r : ORec) (k : AKind) : M (List Piece) := do
  let l ← (List.range d.rows).mapM fun j => span s (gd + W (d.stride r * j)) (d.rowLen r) k
  pure l.flatten

/-- R346: coordinates packed as an instruction names them. -/
def packCoords (c0 c1 c2 : Nat) : Word := W (c0 % 65536 + c1 % 65536 * 2 ^ 16 + c2 % 65536 * 2 ^ 32)

/-- The order of stage 4: the elements of a volume by rising leaf and place (R231). -/
def coordInsert (r : ORec) (c : Nat × Nat × Nat) : List (Nat × Nat × Nat) → List (Nat × Nat × Nat)
  | [] => [c]
  | x :: t =>
    let kc := r.key c.1 c.2.1 c.2.2
    let kx := r.key x.1 x.2.1 x.2.2
    if kc = kx then
      (if r.elemIdx c.1 c.2.1 c.2.2 < r.elemIdx x.1 x.2.1 x.2.2 then c :: t else x :: t)
    else if kc < kx then c :: x :: t
    else x :: coordInsert r c t
/-- Thread the state through a list; a stop keeps what the earlier elements have left (R358). -/
def mapState {α β : Type} (f : α → State → M (β × State)) : List α → State → M (List β × State)
  | [], s => .ok ([], s)
  | x :: l, s => do
    let (y, s1) ← stopIn s (f x s)
    let (ys, s2) ← mapState f l s1
    pure (y :: ys, s2)
/-- An element of a volume. -/
abbrev Coords3 := Nat × Nat × Nat
/-- R358: an engine's walk to the leaf of an element. -/
def leafWalk (ga : Word) (r : ORec) (alloc : Bool) (c : Coords3) (s : State) : M (Option Nat × State) := do
  let (b, _, s1) ← leafOf s (self s) (objOf ga) r ga (packCoords c.1 c.2.1 c.2.2) (r.key c.1 c.2.1 c.2.2) alloc true
  pure (b, s1)
/-- The leaves that elements lie in. -/
def leafKeys (ga : Word) (r : ORec) (cs : List Coords3) : List (BitVec 18 × Nat) :=
  (cs.map fun c => (objOf ga, r.key c.1 c.2.1 c.2.2)).eraseDups
/-- R231 stage 4: allocate every leaf that elements lie in. -/
def allocTiles (ga : Word) (r : ORec) (cs : List Coords3) (s : State) : M State :=
  (cs.foldl (fun l c => coordInsert r c l) []).foldlM (fun s c => (leafWalk ga r true c s).map (·.2)) s

/-- The bytes of an element of a volume, the background value where its leaf is not allocated. -/
def sparseBytes (ga : Word) (r : ORec) (c : Coords3) (s : State) : M (List (EByte × Bool) × State) := do
  let (b, s1) ← leafWalk ga r false c s
  match b with
  | some b => do
    stopIn s1 (snoopReady s1 (clusterOf s.cur) [⟨b + r.elem * r.elemIdx c.1 c.2.1 c.2.2, r.elem, r.placeKind s⟩])
    pure (bytesOf s1 [⟨b + r.elem * r.elemIdx c.1 c.2.1 c.2.2, r.elem, r.placeKind s⟩], s1)
  | none => pure (plainBytes (natBytes r.elem r.background.toNat), s1)
/-- The places of an element of a volume whose leaf is allocated. -/
def sparsePlaces (ga : Word) (r : ORec) (c : Coords3) (s : State) : M (List EDst × State) := do
  let (b, s1) ← leafWalk ga r false c s
  pure (placesOf [⟨b.getD 0 + r.elem * r.elemIdx c.1 c.2.1 c.2.2, r.elem, r.placeKind s⟩], s1)

/-- R231 stage 3: the checks of the object side of a tile. -/
def tileShape (d : TileDesc) (r : ORec) (gc : Word) : M Unit :=
  need (decide (d.org.1 + d.ext.1 ≤ r.ext 0) && decide (d.org.2.1 + d.ext.2.1 ≤ r.ext 1)
    && decide (d.org.2.2.1 + d.ext.2.2.1 ≤ r.ext 2) && decide (d.org.2.2.2 + d.ext.2.2.2 ≤ r.ext 3)) cSHAPE gc
/-- The byte offset of an element of an object that is not sparse. -/
def ORec.offsetAt (r : ORec) (c : Nat × Nat × Nat × Nat) : Nat :=
  r.elemNibble c.1 c.2.1 c.2.2.1 c.2.2.2 / 2
def dropLast3 (c : Nat × Nat × Nat × Nat) : Nat × Nat × Nat := (c.1, c.2.1, c.2.2.1)

/-- The first address of a tile's elements in its object, which a failed check of the record reports. -/
def TileDesc.first (d : TileDesc) (r : ORec) : Word :=
  if r.kind = kSPARSE then d.obj else d.obj + W (r.offsetAt d.org)

/-- R240: whether a pair of 4-bit elements lies across two bytes of its object. -/
def ORec.across (r : ORec) (c : Nat × Nat × Nat × Nat) : Bool :=
  r.nib == 1 && r.elemNibble c.1 c.2.1 c.2.2.1 c.2.2.2 % 2 == 1
/-- The bytes of its object that an element, or a pair of 4-bit elements, lies in. -/
def ORec.width (r : ORec) (c : Nat × Nat × Nat × Nat) : Nat := if r.across c then 2 else r.step
/-- One byte from the two that a pair lies in. -/
def pairByte : List (EByte × Bool) → List (EByte × Bool)
  | [x, y] => [({ src := x.1.src, val := splice x.1.val y.1.val, src2 := y.1.src }, x.2 || y.2)]
  | l => l
/-- The two halves of a byte that is written to a pair across two bytes. -/
def pairHalves (x : EByte × Bool) : List (EByte × Bool) :=
  [({ x.1 with half := some false }, x.2), ({ x.1 with half := some true }, x.2)]
/-- The bytes that a tile's elements get from packed ones. -/
def tileBytes (d : TileDesc) (r : ORec) (src : List (EByte × Bool)) : List (EByte × Bool) :=
  if r.nib = 1 then ((d.coords r).zip src).flatMap fun x => if r.across x.1 then pairHalves x.2 else [x.2] else src

/-- R231 stage 3 for a tile that is read: its bytes. -/
def tileRead (d : TileDesc) (r : ORec) (gc : Word) (s : State) : M (List (EByte × Bool) × State) := do
  recordChecks s (self s) r .read (d.first r)
  tileShape d r gc
  let (l, s1) ← mapState (fun c s =>
    if r.kind = kSPARSE then sparseBytes d.obj r (dropLast3 c) s
    else do
      let ps ← objectSpan s (self s) (d.obj + W (r.offsetAt c)) r (r.width c) .read
      pure (if r.across c then pairByte (bytesOf s ps) else bytesOf s ps, s)) (d.coords r) s
  pure (l.flatten, s1)
/-- R231 stage 3 for a tile that is written: its places, none yet for a volume, whose tree is walked. -/
def tileWrite (d : TileDesc) (r : ORec) (gc : Word) (sh : Bool) (s : State) : M (List EDst × State) := do
  recordChecks s (self s) r .ewrite (d.first r)
  tileShape d r gc
  if r.kind = kSPARSE then
    need (!sh) cPERMISSION d.obj
    let (_, s1) ← mapState (fun c s => leafWalk d.obj r false (dropLast3 c) s) (d.coords r) s
    pure ([], s1)
  else
    let l ← (d.coords r).mapM fun c =>
      let va := d.obj + W (r.offsetAt c)
      if sh then shadowSpan s va (r.width c) else objectSpan s (self s) va r (r.width c) .ewrite
    pure (placesOf l.flatten, s)
/-- R370: the leaves or sub-tiles of a tile. -/
def TileDesc.keys (d : TileDesc) (r : ORec) : List (BitVec 18 × Nat) :=
  if r.kind = kSPARSE then leafKeys d.obj r ((d.coords r).map dropLast3)
  else if r.kind = kMAPPED then ((d.coords r).flatMap fun c =>
    [(objOf d.obj, r.offsetAt c / r.subTile), (objOf d.obj, (r.offsetAt c + r.width c - 1) / r.subTile)]).eraseDups
  else []

/-- R240: the command of a descriptor, with the state that stage 4 leaves. -/
def tileCmd (s : State) (tok sh : Bool) (gd gc : Word) (fa : Option Word) (d : TileDesc) (r : ORec) :
    M (Cmd × State) := do
  let names := objName d.obj ++ objName gd ++ (fa.map objName).getD []
  let keys := d.keys r ++ (fa.map (keysOf s · 8)).getD []
  if d.dir = 0 then
    let (src, s1) ← tileRead d r gc s
    let ps ← stopIn s1 (packedSpan s gd d r .ewrite)
    let flag ← stopIn s1 (planFlag s fa false)
    pure (newCmd s tok false (d.size r) (mkUnits (placesOf ps) src) flag names keys, s1)
  else
    let ps ← packedSpan s gd d r .read
    let (dst, s1) ← tileWrite d r gc sh s
    let flag ← stopIn s1 (planFlag s fa false)
    let cmd (dst : List EDst) : Cmd :=
      { newCmd s tok false (d.size r) (mkUnits dst (tileBytes d r (bytesOf s ps))) flag names keys with
        shadowOf := if sh then some (objOf d.obj) else none }
    if r.kind = kSPARSE then
      let cs := (d.coords r).map dropLast3
      let s2 ← allocTiles d.obj r cs s1
      let (l, s3) ← mapState (sparsePlaces d.obj r) cs s2
      pure (cmd l.flatten, s3)
    else pure (cmd dst, s1)

/-- R240: CPYT. -/
def execCpyt (h : EngMode) (rd rc rf : Reg) (sh : Bool) (s : State) : Outcome State :=
  let t := s.core.strand
  let gd := t.readG rd
  let gc := t.readG rc
  let fa := flagAddr s rf
  finish s (do
    let (d, r, s1) ← readDesc s gd gc fa false
    let (c, s2) ← tileCmd s1 h.tok sh gd gc fa d r
    issueCmd c s2)

/-! Bound windows. -/

/-- R241: whether a range of addresses lies in the issuing core's own scratchpad. -/
def ownSp (s : State) (va : Word) (len : Nat) : Bool :=
  let a := resolveAlias s s.cur va
  let own := 2 ^ 62 + logicalDie s (dieOf s.cur) * 2 ^ 28 + s.cur.toNat % 256 * 2 ^ 20
  (spaceOf va == 1 || (spaceOf va == 2 && slice va 20 42 == 0))
    && decide (own ≤ a.toNat) && decide (a.toNat + len ≤ own + spCapOf s (dieOf s.cur))
/-- R241: the storage addresses of a window's granules. -/
def windowGranules (s : State) (gd : Word) (d : TileDesc) (r : ORec) : List Nat :=
  (List.range d.rows).foldl (fun l j =>
    let o := (gd.toNat + d.stride r * j) % 2 ^ 20
    (List.range (ceilDiv (o % 16 + d.rowLen r) 16)).foldl
      (fun l i => sortedInsert (spBase s.cur + o / 16 * 16 + 16 * i) l) l) []
/-- R241: whether a granule belongs to another slot's window that is BOUND or COPYING. -/
def windowTaken (s : State) (w : BitVec 2) (gs : List Nat) : Bool :=
  ([0, 1, 2, 3] : List (BitVec 2)).any fun i =>
    let x := windowGet s s.cur i
    i != w && (x.st == .bound || x.st == .copying) && x.granules.any gs.contains
/-- R242: whether a slot is held by another context. -/
def windowForeign (s : State) (x : Window) : Bool := x.st != .free && x.ctx != tagOf s.core.strand

/-- R241: WBIND. -/
def execWbind (h : EngMode) (w : BitVec 2) (rd rc rf : Reg) (s : State) : Outcome State :=
  let t := s.core.strand
  let gd := t.readG rd
  let gc := t.readG rc
  let fa := flagAddr s rf
  let x := windowGet s s.cur w
  finish s (do
    need (!windowForeign s x) cISOLATION (W w.toNat)
    let (d, r, s1) ← readDesc s gd gc fa true
    need ((List.range d.rows).all fun j => ownSp s (gd + W (d.stride r * j)) (d.rowLen r)) cILLEGAL gd
    let gs := windowGranules s gd d r
    need (!windowTaken s w gs) cILLEGAL gd
    let (c, s2) ← tileCmd s1 h.tok false gd gc fa d r
    if (windowGet s2 s.cur w).st = .copying then .error (.waitIn s2)
    let s3 := { noteUses c s2 with empty := gs.foldl (fun e g => sortedInsert g e) s2.empty }
    pure (retireLong .scalar (windowSet s3 s.cur w ⟨.bound, tagOf t, t.spillovf, some { c with window := some w }, gs⟩)))

/-- R242: WUNBIND. -/
def execWunbind (w : BitVec 2) (rd : Reg) (s : State) : Outcome State :=
  let t := s.core.strand
  let x := windowGet s s.cur w
  let answer (v : Word) (s : State) : State := retireLong .scalar (strandSet s (s.core.strand.writeG rd v))
  finish s (
    if windowForeign s x then pure (answer 3 s)
    else match x.st with
      | .free => pure (answer 2 s)
      | .bound => pure (answer 0 (windowSet s s.cur w ⟨.free, tagOf t, t.spillovf, none, []⟩))
      | .done => pure (answer 1 (windowSet s s.cur w ⟨.free, tagOf t, t.spillovf, none, []⟩))
      | .copying => waitM)

/-! GATHER and SCATTER. -/

/-- R251: the index list, read as plain loads. -/
def readIndices (gi : Word) (n : Nat) (s : State) : M (List Nat × State) :=
  (List.range n).foldlM (fun x i => do
    let (b, s1) ← loadBytes x.2 (gi + W (4 * i)) 4
    pure (x.1 ++ [bytesNat b], s1)) ([], s)

/-- R251: the record of the base when it names a SPARSE object. -/
def sparseBase (s : State) (gb : Word) : Option ORec :=
  if spaceOf gb ≠ 0 ∨ inPeerWindow gb then none
  else match lookup s (self s) (objOf gb) gb with
    | .ok r => if r.kind = kSPARSE then some r else none
    | .error _ => none

/-- R251: the elements of a remote row of a volume. -/
def rowCoords (r : ORec) (size x : Nat) : List (Nat × Nat × Nat) :=
  (List.range (size / r.elem)).map fun j => (j, x, 0)
/-- R251: the packed rows. -/
def packedRows (s : State) (gd : Word) (n size : Nat) (k : AKind) : M (List Piece) := do
  let l ← (List.range n).mapM fun i => span s (gd + W (size * i)) size k
  pure l.flatten
/-- R251: the remote rows of a base that is not sparse. -/
def remoteRows (s : State) (gb : Word) (xs : List Nat) (size : Nat) (k : AKind) : M (List Piece) := do
  need (!inPeerWindow gb) cPERMISSION gb
  let l ← xs.mapM fun x => span s (gb + W (size * x)) size k
  pure l.flatten
/-- R251, R358: one remote row of a volume at stage 3: its shape, then the walks of its elements by `f`. -/
def volumeRow {β : Type} (r : ORec) (size : Nat) (f : Coords3 → State → M (β × State)) (x : Nat) (s : State) :
    M (List β × State) := do
  stopIn s (need (decide (x < r.ext 1)) cSHAPE (W (x * 2 ^ 16)))
  mapState f (rowCoords r size x) s
/-- R251: the remote rows of a volume, in order. -/
def volumeRows {β : Type} (gb : Word) (r : ORec) (xs : List Nat) (size : Nat) (k : AKind)
    (f : Coords3 → State → M (β × State)) (s : State) : M (List β × State) := do
  recordChecks s (self s) r k gb
  let (l, s1) ← mapState (volumeRow r size f) xs s
  pure (l.flatten, s1)

/-- R251: GATHER and SCATTER. -/
def rowsCmd (scatter tok : Bool) (rd ri rb rf : Reg) (cnt : BitVec 12) (sz : BitVec 8) (s : State) :
    Outcome State :=
  let t := s.core.strand
  let gd := t.readG rd
  let gi := t.readG ri
  let gb := t.readG rb
  let fa := flagAddr s rf
  let n := cnt.toNat + 1
  let size := 16 * (sz.toNat + 1)
  finish s (do
    need (gd.toNat % 16 == 0) cALIGNMENT gd
    need (gi.toNat % 16 == 0) cALIGNMENT gi
    flagAligned fa
    let vol := sparseBase s gb
    match vol with
    | none => need (gb.toNat % 16 == 0) cALIGNMENT gb
    | some r =>
      need (r.rank == 2) cILLEGAL gb
      legal (decide (size / r.elem ≤ r.ext 0)) size
    let (xs, s1) ← readIndices gi n s
    let names := objName gb ++ objName gd ++ (fa.map objName).getD []
    let remote := match vol with
      | some r => leafKeys gb r (xs.flatMap (rowCoords r size))
      | none => xs.flatMap fun x => keysOf s1 (gb + W (size * x)) size
    let keys := remote ++ keysOf s1 gd (n * size) ++ (fa.map (keysOf s1 · 8)).getD []
    let cmd (dst : List EDst) (src : List (EByte × Bool)) (flag : EFlag) : Cmd :=
      newCmd s1 tok true (n * size) (mkUnits dst src) flag names keys
    if scatter then
      let ps ← packedRows s1 gd n size .read
      let issue (dst : List EDst) (flag : EFlag) (s : State) : M State :=
        let c := cmd dst (bytesOf s1 ps) flag
        issueCmd { c with units := lastUnits c.units } s
      match vol with
      | some r =>
        let cs := xs.flatMap (rowCoords r size)
        let (_, s2) ← volumeRows gb r xs size .ewrite (leafWalk gb r false) s1
        let flag ← stopIn s2 (planFlag s1 fa false)
        let s3 ← allocTiles gb r cs s2
        let (l, s4) ← mapState (sparsePlaces gb r) cs s3
        issue l.flatten flag s4
      | none =>
        let dst ← remoteRows s1 gb xs size .ewrite
        let flag ← planFlag s1 fa false
        issue (placesOf dst) flag s1
    else
      let (src, s2) ← (match vol with
        | some r => do
          let (l, s2) ← volumeRows gb r xs size .read (sparseBytes gb r) s1
          pure (l.flatten, s2)
        | none => do
          let ps ← remoteRows s1 gb xs size .read
          pure (bytesOf s1 ps, s1) : M (List (EByte × Bool) × State))
      let ps ← stopIn s2 (packedRows s1 gd n size .ewrite)
      let flag ← stopIn s2 (planFlag s1 fa false)
      issueCmd (cmd (placesOf ps) src flag) s2)
def execGather (h : EngMode) (d i b f : Reg) (cnt : BitVec 12) (sz : BitVec 8) (s : State) : Outcome State :=
  rowsCmd false h.tok d i b f cnt sz s
def execScatter (h : EngMode) (d i b f : Reg) (cnt : BitVec 12) (sz : BitVec 8) (s : State) : Outcome State :=
  rowsCmd true h.tok d i b f cnt sz s

/-! The engines' own steps. -/

/-- A byte of storage after half of it, or all of it, has been written. -/
def EByte.put (old : Byte) (b : EByte) : Byte :=
  match b.half with
  | none => b.val
  | some false => (old &&& 0x0F) ||| b.val <<< 4
  | some true => (old &&& 0xF0) ||| b.val >>> 4
/-- A byte of the home once a cluster's dirty bytes of its line are merged there. -/
def mergedByte (s : State) (c : ClusterId) (k : Nat) : Byte :=
  match (clusterGet s c).line (lineOf k) with
  | some l => if l.mask.getLsbD (k % 64) then l.data.getD (k % 64) 0 else memGet s.mem k
  | none => memGet s.mem k
/-- The bytes that a unit puts at an address (R240). -/
def EUnit.put (s : State) (c : ClusterId) (key : Nat) (u : EUnit) : List Byte :=
  if u.bytes.all fun b => b.half.isNone then u.bytes.map (·.val)
  else ((List.range u.bytes.length).zip u.bytes).map fun x => x.2.put (mergedByte s c (key + x.1))
/-- How many bytes of data a unit moves: the two halves of a byte count once. -/
def EUnit.count (u : EUnit) : Nat := (u.bytes.filter fun b => b.half != some true).length

/-- R233, R354: one unit's write at its place. A write at a home dirties the memory-side cache, whose line carries the
tag of the command's context and leaves at once (log 43). -/
def engineStore (c : ClusterId) (tag : Tag) (key : Nat) (kind : PlaceKind) (bs : List Byte) (s : State) : State :=
  let put (s : State) : State := { s with mem := memWrite s.mem key bs }
  let home (s : State) : State := charge tag 0 1 0 (put s)
  match kind with
  | .sp => markFull (put s) key bs.length
  | .sram => claimSram tag key bs.length (put s)
  | .hc | .home => home (cleanRange s key bs.length)
  | .cp k => markDirty (put s) k tag key bs.length
  | .shadow => home (dropRange (cleanRange s (lineOf key) 64) (lineOf key) 64)
  | .sc =>
    let a := lineOf key
    let s1 := home (dropLine (writeBackLine s c a) c a)
    l2Merge s1 (dieOfCluster c) a false (byteMask key bs.length) (List.replicate (key % 64) 0 ++ bs)

/-- R395: the bytes of a line that a command has written sound, with those of one more unit. -/
def Cmd.soundIn (c : Cmd) (key : Nat) (u : EUnit) : BitVec 64 :=
  let m := ((c.sound.find? fun e => e.1 == lineOf key).map (·.2)).getD 0
  if u.poisoned || u.bytes.any (·.half.isSome) then m &&& ~~~byteMask key u.bytes.length
  else m ||| byteMask key u.bytes.length
/-- R232, R395: the poison after a command has written a unit. -/
def enginePoison (key : Nat) (u : EUnit) (c : Cmd) (p : List Nat) : List Nat :=
  if u.poisoned then sortedInsert (poisonUnit key) p
  else if isSp key || isSram key then clearPoison p key u.bytes.length
  else if c.soundIn key u = BitVec.allOnes 64 then p.filter (· != lineOf key)
  else p
/-- R233, R395: the same for the home and, for a software-coherent line, the copy in the die's L2. -/
def engineMarks (key : Nat) (kind : PlaceKind) (u : EUnit) (c : Cmd) (s : State) : State :=
  let p := enginePoison key u c s.poison
  { s with
    poison := p
    l2 := if kind = .sc then s.l2.map fun e =>
        if e.1 = dieOf c.core ∧ e.2.addr = lineOf key then
          (e.1, { e.2 with bad := u.poisoned || e.2.bad && c.soundIn key u != BitVec.allOnes 64 }) else e
      else s.l2 }

/-- Change a command. -/
def mapCmd (id : Nat) (f : Cmd → Cmd) (s : State) : State :=
  { s with cmds := s.cmds.map fun c => if c.id = id then f c else c }

/-- R259: a packet of a command's data, with the bytes it carries. -/
def carrying (q : PeerReq) (cmd : Nat) (bs : List Byte) (bad : Bool) : PeerReq :=
  match q.op with
  | .bulk _ _ _ start total => { q with op := .bulk bs bad cmd start total }
  | _ => q
/-- R236: an engine writes one unit of a command; `fresh` reads its source again first. -/
def execEngineWrite (cmd unit : Nat) (fresh : Bool) (s : State) : Outcome State :=
  match s.cmds.find? fun c => c.id == cmd with
  | none => .next s
  | some c =>
    match c.units[unit]? with
    | none => .next s
    | some u0 =>
      if !mayWrite s c u0 || stalled s (clusterOf c.core) then .next s
      else
        let u := if fresh then refreshUnit s (clusterOf c.core) u0 else u0
        let left (d : Cmd) : Cmd := { d with units := d.units.eraseIdx unit }
        match u.dst with
        | .mem key kind =>
          let s1 := mapCmd cmd (fun d => { left d with
            written := d.written + u.count
            poisoned := d.poisoned || u.poisoned
            sound := if isSp key || isSram key then d.sound else assocSet (lineOf key) (d.soundIn key u) d.sound }) s
          let s2 := engineStore (clusterOf c.core) c.ctx key kind (u.put s (clusterOf c.core) key) s1
          .next (engineMarks key kind u c s2)
        | .peer h q =>
          let s1 := mapCmd cmd left s
          if reachableReq s q then
            .next (sendCmdReq cmd c.core c.ctx h (carrying q cmd (u.bytes.map (·.val)) u.poisoned)
              (.cmdData cmd u.bytes.length u.poisoned) s1)
          else .next (failCmd cmd h 1 s1)

/-- R234 step 2: the completion flag. -/
def flagUpdate (c : Cmd) (s : State) : State :=
  match c.flag with
  | .none => s
  | .peer _ _ => s
  | .barrier k => barBytes s k c.written
  | .add k kind =>
    let s1 := match kind with
      | .sc => leaveLine s (clusterOf c.core) (lineOf k)
      | .sram => claimSram c.ctx k 8 s
      | _ => s
    { s1 with mem := memSetWord s1.mem k (memWord s1.mem k + 1) }
/-- R235: the STATUS of a token. -/
def Cmd.status (c : Cmd) : Nat := (if c.failed then 2 else 0) + c.poisoned.toNat

/-- R234, R242, R245: a command that is complete acts. -/
def execCommandComplete (cmd : Nat) (s : State) : Outcome State :=
  match s.cmds.find? fun c => c.id == cmd with
  | none => .next s
  | some c =>
    if !mayComplete s c || stalled s (clusterOf c.core) then .next s
    else
      match (if c.failed || c.flagSent then none else match c.flag with
        | .peer h q => some (h, q)
        | _ => none) with
      | some (h, q) =>
        if reachableReq s q then
          .next (sendCmdReq cmd c.core c.ctx h { q with op := .flag c.written } (.cmdFlag cmd)
            (mapCmd cmd (fun c => { c with flagSent := true }) s))
        else .next (failCmd cmd h 1 s)
      | none =>
        let s1 := match c.ring with
          | some (base, _, _, n) => settleAppends s.appends.length (ringSet s base 0 (n + 1))
          | none => s
        let s2 := if c.failed then s1 else flagUpdate c s1
        let s3 := if c.tok then
            mapStrand c.strand (postToken c.kind ((c.addr &&& ~~~(3 : Word)) ||| W c.status)) s2
          else s2
        let s4 := match c.window with
          | some w => windowSet s3 c.core w { windowGet s3 c.core w with st := .done }
          | none => s3
        .next (startWindows { s4 with cmds := s4.cmds.filter fun d => d.id != cmd })

end Sys2Proof.Machine
end

