-- ==== Sys2Proof/Machine/PeerEvents.lean ====
section
/-! DEFINITION. Traffic between devices: the requests of peers performed here (R256, R259, R263, R265), the
answers to this device's own requests and their failures (R264, R267), and discarded packets (R257). -/

namespace Sys2Proof.Machine

/-! Requests of peers. -/

/-- The agent that acts for an exporting context. -/
def exporter (s : State) (q : PeerReq) : M (Context × Agent) := do
  let va := objAddr q.obj q.off.toNat
  match contextGet s q.ctx with
  | none => trapM cTRANSLATION va
  | some x =>
    need (x.part == q.ldev) cISOLATION va
    match (diesOf s x.part).head? with
    | none => trapM cISOLATION va
    | some d => pure (x, ⟨BitVec.ofNat 11 (d.toNat * 256), q.ctx, x.ortBase, 0⟩)
/-- R262, R267: a fault of the target's own record checks, poison of its record or map entry included, is a refusal. -/
def refusing {α : Type} (m : M α) : M α :=
  match m with
  | .error (.trap _ v) => trapM cREMOTE v
  | r => r
/-- R263, R352: the exporting context's record that a peer's access names, or a failure. -/
def targetRecord (s : State) (q : PeerReq) (k : AKind) : M ORec := refusing do
  let va := objAddr q.obj q.off.toNat
  let (x, g) ← exporter s q
  need (!inPeerWindow va) cPERMISSION va
  let r ← lookup s g q.obj va
  need (r.part == x.part) cISOLATION va
  need (r.permits k) cPERMISSION va
  need (r.coh != cohCP) cISOLATION va
  pure r
/-- R263: the place of a peer's access. -/
def targetSpan (s : State) (q : PeerReq) (w : Nat) (k : AKind) : M (ORec × List Piece) := refusing do
  let r ← targetRecord s q k
  let (_, g) ← exporter s q
  let ps ← objectSpan s g (objAddr q.obj q.off.toNat) r w k
  pure (r, ps.map fun p => { p with kind := .home })
/-- R263: the bytes at the target's home. -/
def homeRead (s : State) (ps : List Piece) : List Byte := (ps.map fun p => memRead s.mem p.key p.len).flatten
def homeWrite : List Piece → List Byte → State → State
  | [], _, s => s
  | p :: t, bs, s =>
    let s1 := cleanRange s p.key p.len
    homeWrite t (bs.drop p.len)
      { s1 with mem := memWrite s1.mem p.key (bs.take p.len), poison := clearPoison s1.poison p.key p.len }
/-- Whether a request of this package is one that is outstanding here (R256). -/
def outstanding (s : State) (q : PeerReq) : Bool := s.out.any fun x => x.req == q
/-- A request waits for its condition (R246, R250, R255) or for room in a ring (R245). -/
def holdReq (q : PeerReq) (s : State) : State :=
  if q.own || s.held.contains q then s else { s with held := s.held ++ [q] }

/-! Appends of peers (R245, R265). -/

/-- R245: the slot of a ring in which a packet's command writes, claimed by its first packet. -/
def appendSlot (s : State) (q : PeerReq) (r : ORec) (cmd : Nat) (start : BitVec 44) (total : Nat) : M (Append × State) :=
  match s.appends.find? fun a => a.own == q.own && a.cmd == cmd && a.base == r.place with
  | some a => .ok (a, s)
  | none => do
    need (start == 0 && decide (total ≤ r.ringS)) cSHAPE 0
    match ringClaim s r.place r.ringN with
    | none => waitM
    | some (n, s1) =>
      let a : Append := ⟨q.own, cmd, r.place, n, total⟩
      pure (a, { s1 with appends := s1.appends ++ [a] })
/-- R395: an append or a donation reads the control line of its ring; one that finds it poisoned is refused (log 91). -/
def ringSound (s : State) (r : ORec) : M Unit := need (firstPoison s.poison r.place 32).isNone cREMOTE 0
/-- Bytes written at a home with their poison, as an engine writes (R265, R395). -/
def homeEngineWrite (ps : List Piece) (bs : List Byte) (bad : Bool) (s : State) : State :=
  let s1 := homeWrite ps bs s
  { s1 with poison :=
    if bad then ps.foldl (fun l p => sortedInsert (poisonUnit p.key) l) s1.poison
    else s1.poison.filter fun a => !coverUnit ps a }
/-- R245: a packet of an append. -/
def appendPacket (s : State) (q : PeerReq) (r : ORec) (bs : List Byte) (bad : Bool) (cmd : Nat) (start : BitVec 44)
    (total : Nat) : M State := do
  let (a, s1) ← appendSlot s q r cmd start total
  let o := q.off.toNat - start.toNat
  need (decide (o + bs.length ≤ r.ringS)) cSHAPE 0
  let ps := runPieces (r.place + slotOff r a.seq + o) bs.length .home
  let s2 := homeEngineWrite ps bs bad s1
  let left := a.left - bs.length
  pure (settleAppends s2.appends.length
    { s2 with appends := s2.appends.map fun x => if x = a then { x with left := left } else x })

/-! The classes of requests (R259). -/

/-- R265, R395: a packet of a CPYR is written as an engine writes. -/
def doBulkWr (s : State) (q : PeerReq) : M (PeerEnd × State) :=
  match q.op with
  | .bulk bs bad cmd start total => do
    let r ← targetRecord s q .ewrite
    if r.kind = kRING then
      need (!r.reloc) cRELOCATION 0
      ringSound s r
      let s1 ← appendPacket s q r bs bad cmd start total
      pure (.done 0 [], s1)
    else do
      let (_, ps) ← targetSpan s q bs.length .ewrite
      pure (.done 0 [], homeEngineWrite ps bs bad s)
  | _ => waitM
/-- R259, R395: a read of a CPYR, with one bit of poison for each sixteen bytes. -/
def doBulkRd (s : State) (q : PeerReq) : M (PeerEnd × State) :=
  match q.op with
  | .read n => do
    let (_, ps) ← targetSpan s q n .read
    let bad := ps.map fun p => (s.poison.contains (poisonUnit p.key)).toNat
    pure (.done (W (packNat 1 bad)) (homeRead s ps), s)
  | _ => waitM
/-- R265, R234: the completion flag of a CPYR. -/
def doFlag (s : State) (q : PeerReq) : M (PeerEnd × State) :=
  match q.op with
  | .flag n => do
    let (r, ps) ← targetSpan s q 8 .atomic
    if r.kind = kBARRIER then pure (.done 0 [], barBytes s r.place n)
    else
      let v := bytesNat (homeRead s ps)
      pure (.done 0 [], homeWrite ps (natBytes 8 (v + 1)) s)
  | _ => waitM

/-- R207: the operation that a code names. -/
def amoOf (op : BitVec 4) (n old src : Nat) : Nat :=
  match op.toNat with
  | 0 => AmoOp.swap.apply n old src
  | 1 => AmoOp.add.apply n old src
  | 2 => AmoOp.and.apply n old src
  | 3 => AmoOp.or.apply n old src
  | 4 => AmoOp.xor.apply n old src
  | 5 => AmoOp.min.apply n old src
  | 6 => AmoOp.max.apply n old src
  | 7 => AmoOp.minu.apply n old src
  | 8 => AmoOp.maxu.apply n old src
  | _ => amoFadd n old src
/-- R263, R210: a read of a peer, which a poisoned unit turns back. -/
def targetRead (s : State) (q : PeerReq) (w : Nat) (k : AKind) : M (ORec × List Piece × Nat) := do
  let (r, ps) ← targetSpan s q w k
  needClean s 0 ps
  pure (r, ps, bytesNat (homeRead s ps))
/-- R263: an ordered access, AMO or CAS of a peer, performed at the home. -/
def doOrd (s : State) (q : PeerReq) : M (PeerEnd × State) :=
  match q.op with
  | .load w => do
    let (_, _, v) ← targetRead s q w .read
    pure (.done (W v) [], s)
  | .store w v => do
    let (_, ps) ← targetSpan s q w .write
    pure (.done 0 [], homeWrite ps (natBytes w v.toNat) s)
  | .amo op w v => do
    let (_, ps, old) ← targetRead s q w .atomic
    pure (.done (W old) [], homeWrite ps (natBytes w (amoOf op (8 * w) old v.toNat)) s)
  | .cas w e n => do
    let (_, ps, old) ← targetRead s q w .atomic
    pure (.done (W old) [], if old = e.toNat then homeWrite ps (natBytes w n.toNat) s else s)
  | _ => waitM

/-- R246, R247, R250, R254, R255: the ring, flag and barrier operations of a peer. -/
def doSync (s : State) (q : PeerReq) : M (PeerEnd × State) :=
  let kindOf (r : ORec) (kind : Nat) : M Unit := do
    need (r.kind == kind) cPERMISSION 0
    need (firstPoison s.poison r.place 32).isNone cPOISON 0
  match q.op with
  | .rwait n => do
    let (r, _) ← targetSpan s q 1 .read
    kindOf r kRING
    if n.toNat < ringW s r.place 0 then pure (.done (W (slotOff r n.toNat)) [], s) else waitM
  | .rrel n => do
    let (r, _) ← targetSpan s q 1 .read
    need r.permW cPERMISSION 0
    kindOf r kRING
    pure (.done 0 [], ringRelease s r.place n.toNat)
  | .cwait v => do
    let (r, _, x) ← targetRead s q 8 .read
    need (r.kind != kBARRIER) cPERMISSION 0
    if v.toNat ≤ x then pure (.done 0 [], s) else waitM
  | .bara n => do
    let (r, _) ← targetSpan s q 32 .atomic
    kindOf r kBARRIER
    let (v, s1) := barArrive s r.place n
    pure (.done v [], s1)
  | .barw p => do
    let (r, _) ← targetSpan s q 32 .atomic
    kindOf r kBARRIER
    if slice (memWord s.mem r.place) 63 1 ≠ slice p 0 1 then pure (.done 0 [], s) else waitM
  | _ => waitM

/-- R294: a donation is placed in the ring when it has room. -/
def doDon (s : State) (q : PeerReq) : M (PeerEnd × State) :=
  match q.op with
  | .donate ws => do
    let r ← targetRecord s q .ewrite
    need (q.off == 0) cSHAPE 0
    need (!r.reloc) cRELOCATION 0
    need (r.permAT && r.kind == kRING && r.ringS == 64) cPERMISSION 0
    ringSound s r
    match ringClaim s r.place r.ringN with
    | none => pure (.done 1 [], s)
    | some (n, s1) =>
      let a := r.place + slotOff r n
      let m := memWrite s1.mem a (ws.flatMap fun x => natBytes 8 x.toNat)
      let s2 := { s1 with
        mem := m
        poison := clearPoison s1.poison a 64
        appends := s1.appends ++ [⟨q.own, q.id, r.place, n, 0⟩] }
      pure (.done 0 [], settleAppends s2.appends.length s2)
  | _ => waitM

/-! Answers. -/

/-- R267: the failure of a request that a context's handle made. -/
def handleFails (x : PeerOut) (e : PeerEnd) (s : State) : State :=
  match contextGet s x.ctx with
  | none => s
  | some c => remoteFails ⟨x.core, x.ctx, c.ortBase, 0⟩ x.handle (if e = .revoked then 2 else 1) s
/-- The units of a packet, from number `i` on, with the bytes that have arrived and their poison. -/
def fillUnits (v : Word) : Nat → List EUnit → List Byte → List EUnit
  | _, [], _ => []
  | i, u :: t, bs =>
    let n := u.bytes.length
    { u with bytes := (bs.take n).map fun b => EByte.of none b, poisoned := bitOf v i } :: fillUnits v (i + 1) t (bs.drop n)
/-- Whether an answer is a remote failure (R267). -/
def remoteFailure (e : PeerEnd) : Bool :=
  match e with
  | .failed | .revoked => true
  | _ => false

/-- R264, R267: what an answer does to the strand or command that made the request. That the first of several posted
stores to be known failed gives TVAL, and that one REMOTE stop stands for all, is the model's choice (log 90). -/
def deliverAnswer (x : PeerOut) (e : PeerEnd) (s : State) : State :=
  let state := if e = .revoked then 2 else 1
  let fails (s : State) : State := if remoteFailure e then handleFails x e s else s
  let heard (n : Nat) (s : State) : State := mapCmd n (fun c => { c with out := c.out.filter (· != x.req.id) }) s
  match x.use with
  | .wait img =>
    fails (mapStrand img (fun t => if t.peer.wait = some x.req.id then
      { t with peer := { t.peer with wait := none, answer := some e } } else t) s)
  | .posted img =>
    fails (mapStrand img (fun t => { t with peer := { t.peer with
      posted := t.peer.posted.filter (· != x.req.id)
      lost := if remoteFailure e && t.peer.lost.isNone then some x.addr else t.peer.lost } }) s)
  | .cmdData n bytes bad =>
    if remoteFailure e then failCmd n x.handle state (heard n s)
    else mapCmd n (fun c => { c with written := c.written + bytes, poisoned := c.poisoned || bad }) (heard n s)
  | .cmdFlag n => if remoteFailure e then failCmd n x.handle state (heard n s) else heard n s
  | .cmdRead n us => match e with
    | .done v bs => mapCmd n (fun c => if c.failed then c else { c with units := c.units ++ fillUnits v 0 us bs }) (heard n s)
    | .poisoned => mapCmd n (fun c => if c.failed then c else
        { c with units := c.units ++ fillUnits (~~~0) 0 us (List.replicate 1024 0) }) (heard n s)
    | _ => failCmd n x.handle state (heard n s)
/-- An answer to an outstanding request. -/
def peerAnswer (id : Nat) (e : PeerEnd) (s : State) : State :=
  match s.out.find? fun x => x.req.id == id with
  | none => s
  | some x => deliverAnswer x e { s with out := s.out.filter fun y => y.req.id != id }
def execPeerAnswer (id : Nat) (e : PeerEnd) (s : State) : Outcome State := .next (peerAnswer id e s)

/-- R258: TIME at which a request is abandoned: the remote timeout of its logical device is in microseconds. -/
def PeerOut.expires (s : State) (x : PeerOut) : Nat := x.sent + 100 * s.pkg.timeout[(partOfCore s x.core).toNat]
/-- R258: a request that is still unanswered when the timeout expires fails. -/
def abandon (id : Nat) (s : State) : State :=
  match s.out.find? fun x => x.req.id == id with
  | none => s
  | some x => if x.expires s ≤ s.pkg.time then peerAnswer id .failed s else s
def execRemoteTimeout (id : Nat) (s : State) : Outcome State := .next (abandon id s)

/-! Serving requests. -/

/-- The answer to a request: to a peer outside, or straight to the requester when it is a logical device of this package
(R256). A request that waits is held. From a supply-loss warning on there is no answer (R405). -/
def serve (q : PeerReq) (r : M (PeerEnd × State)) (s : State) : Outcome State :=
  let ends (e : PeerEnd) (t : State) : State :=
    if q.own then peerAnswer q.id e t else emit (.peer q.id e) { t with held := t.held.filter (· != q) }
  let fault (c : BitVec 8) : PeerEnd := if c = cPOISON then .poisoned else .failed
  .next (
    if s.ckpt.flashing || !s.ckpt.powered || (q.own && !outstanding s q) then s
    else match r with
    | .ok (e, t) => ends e t
    | .error .wait => holdReq q s
    | .error (.trap c _) => ends (fault c) s
    | .error (.trapIn t c _) => ends (fault c) t
    | .error (.waitIn t) => holdReq q t)

def execBulkWr (q : PeerReq) (s : State) : Outcome State :=
  match q.op with
  | .bulk .. => serve q (doBulkWr s q) s
  | _ => .next s
def execBulkRd (q : PeerReq) (s : State) : Outcome State :=
  match q.op with
  | .read _ => serve q (doBulkRd s q) s
  | _ => .next s
def execFlag (q : PeerReq) (s : State) : Outcome State :=
  match q.op with
  | .flag _ => serve q (doFlag s q) s
  | _ => .next s
def execOrd (q : PeerReq) (s : State) : Outcome State :=
  match q.op with
  | .load _ | .store .. | .amo .. | .cas .. => serve q (doOrd s q) s
  | _ => .next s
def execSyncClass (q : PeerReq) (s : State) : Outcome State :=
  match q.op with
  | .rwait _ | .rrel _ | .cwait _ | .bara _ | .barw _ => serve q (doSync s q) s
  | _ => .next s
def execDon (q : PeerReq) (s : State) : Outcome State :=
  match q.op with
  | .donate _ => serve q (doDon s q) s
  | _ => .next s

/-- R259: the class of a request: what it does, and the event that carries it. -/
def classOf (q : PeerReq) (s : State) : M (PeerEnd × State) × Instr :=
  match q.op with
  | .bulk .. => (doBulkWr s q, .bulkWr q)
  | .read _ => (doBulkRd s q, .bulkRd q)
  | .flag _ => (doFlag s q, .flag q)
  | .load _ | .store .. | .amo .. | .cas .. => (doOrd s q, .ord q)
  | .rwait _ | .rrel _ | .cwait _ | .bara _ | .barw _ => (doSync s q, .syncClass q)
  | .donate _ => (doDon s q, .don q)
/-- The event of the first request of a list that need not wait. -/
def reqEvent (l : List PeerReq) (s : State) : Option Instr :=
  l.findSome? fun q => match classOf q s with
    | (.error .wait, _) | (.error (.waitIn _), _) => none
    | (_, i) => some i

/-- R257: packets of unsupported modes are discarded and counted. -/
def execDiscardedPacket (w : Discard) (s : State) : Outcome State :=
  let i : Fin 3 := match w with
    | .rudi => 0
    | .uud => 1
    | .security => 2
  .next { s with svc := { s.svc with discards := s.svc.discards.set i (s.svc.discards[i] + 1) } }

end Sys2Proof.Machine
end

