-- ==== Sys2Proof/Machine/Placement.lean ====
section
/-! DEFINITION. What the service checks of the places it gives out: HBM of a logical device's own dies (R22, R27,
R333), join-record pools (R286), scratchpad layouts and shared read regions (R270, R377, R378), and the storage that an
object occupies. -/

namespace Sys2Proof.Machine

/-! HBM. -/

/-- R9, R22: whether a range of HBM lies in the stacks of a logical device. The spec does not say which addresses are
whose: the model takes the address divided by 64 GiB as the die position (log 65). -/
def ownHbm (s : State) (p : BitVec 3) (a n : Nat) : Bool :=
  let lo := a / 2 ^ 36
  let hi := (a + n - 1) / 2 ^ 36
  decide (a + n ≤ 2 ^ 39) && (List.range (hi + 1 - lo)).all fun i => (diesOf s p).contains (BitVec.ofNat 3 (lo + i))
/-- Whether two ranges share a byte. -/
def overlap (x y : Nat × Nat) : Bool := decide (x.1 < y.1 + y.2) && decide (y.1 < x.1 + x.2)
/-- R333: the range of a context's table. -/
def tableRange (ortBase : Word) : Nat × Nat := (slice ortBase 12 40 * 4096, 64 * (2 ^ slice ortBase 52 5 + 4096))
/-- R27, R333: the ranges of a context that no program reaches: its images and its table. -/
def Context.hidden (x : Context) : List (Nat × Nat) := [(x.image.toNat, 0x3000 * x.images), tableRange x.ortBase, (x.saveArea, 1)]
/-- Whether a program's storage may lie in a range: HBM of the logical device, clear of images and tables. -/
def placeOk (s : State) (p : BitVec 3) (x : Nat × Nat) : Bool :=
  ownHbm s p x.1 x.2 && s.svc.contexts.all fun y => y.hidden.all fun h => !overlap x h

/-- The bytes of a placement's own storage: a map, a root node or the object itself. -/
def ORec.ownBytes (r : ORec) : Nat :=
  if r.kind = kMAPPED then 8 * ceilDiv r.bytes r.subTile else if r.kind = kSPARSE then 512 else r.bytes
/-- The tiles of a sparse volume's tree below a node with `i` levels to go (R357). -/
def treeRanges (s : State) (r : ORec) : Nat → Nat → List (Nat × Nat)
  | 0, _ => []
  | i + 1, node => (List.range 64).flatMap fun j =>
    let ent := memWord s.mem (node + 8 * j)
    if ent = 0 ∨ !entryOk r (i == 0) ent then []
    else (slice ent 0 52, if i = 0 then r.leafBytes else 512) :: treeRanges s r i (slice ent 0 52)
/-- The tiles that a pool holds (R359), of at least the smallest leaf size. -/
def pooled (s : State) (r : ORec) : List (Nat × Nat) :=
  if r.kind ≠ kRING ∨ r.ringS ≠ 16 then []
  else (List.range (Nat.min r.ringN (ringW s r.place 0 - ringW s r.place 1))).map fun i =>
    (slice (memWord s.mem (r.place + slotOff r (ringW s r.place 1 + i))) 0 52, 4096)
/-- The ranges of storage that an object occupies. -/
def objectRanges (s : State) (r : ORec) : List (Nat × Nat) :=
  let one (q : ORec) : List (Nat × Nat) := (q.place, q.ownBytes) :: (extents s q).map (·.2)
  one r ++ (if r.sh then one r.shadowed else [])
    ++ (if r.kind = kSPARSE then treeRanges s r r.levels r.place else []) ++ pooled s r
/-- Whether a record that the service has installed in a context's table has a property. -/
def anyObject (s : State) (x : Context) (f : ORec → Bool) : Bool :=
  (List.range (Nat.min (2 ^ slice x.ortBase 52 5) 0x3F000)).any fun n =>
    (recordAddr x.ortBase (BitVec.ofNat 18 n)).any fun a =>
      let r := readRecord s a
      r.ok s (BitVec.ofNat 18 n) && f r
/-- Whether a context has a range of HBM that meets another range. -/
def hbmUsed (s : State) (x : Context) (y : Nat × Nat) : Bool :=
  x.hidden.any (overlap y) || anyObject s x fun r => (objectRanges s r).any (overlap y)

/-! Cores and clusters. -/

/-- R279, R286: the areas of cluster SRAM that join records and overflow areas take, by storage address and length. -/
def poolAreas (l : List (ClusterId × List Nat)) : List (Nat × Nat) :=
  l.flatMap fun e => e.2.map fun o => (sramBase e.1 + o, 16)
def overflowAreas (l : List (CoreId × Nat × Nat)) : List (Nat × Nat) :=
  l.map fun e => (sramBase (clusterOf e.1) + e.2.1, 32 * e.2.2)
def Context.sramAreas (x : Context) : List (Nat × Nat) := poolAreas x.areas ++ overflowAreas x.ovf
/-- Whether no two ranges of a list share a byte. -/
def apart : List (Nat × Nat) → Bool
  | [] => true
  | x :: l => l.all (fun y => !overlap x y) && apart l
/-- R20, R279, R286: whether areas may be given: in cluster SRAM of the logical device above the bytes that the service
reserves, apart from each other and from every other context's. -/
def areasOk (s : State) (p : BitVec 3) (l : List (Nat × Nat)) : Bool :=
  apart l && l.all fun e =>
    let c : ClusterId := BitVec.ofNat 8 (e.1 / 2 ^ 23)
    let o := e.1 % 2 ^ 23
    (diesOf s p).contains (dieOfCluster c) && decide (c.toNat % 32 < clusterCount s (dieOfCluster c))
      && e.1 % 16 == 0 && decide (0x1000 ≤ o) && decide (o + e.2 ≤ 0x40000)
      && s.svc.contexts.all fun y => y.sramAreas.all fun h => !overlap e h
/-- R180: ranges of storage are cleared. -/
def clearRanges (l : List (Nat × Nat)) (s : State) : State := l.foldl (fun s e => clearRange e.1 e.2 s) s
/-- R180: the bytes of cluster SRAM that an ended context has written last are cleared, so that no later one reads them. -/
def clearWritten (t : Tag) (s : State) : State :=
  (s.sramBy.filter fun e => e.2 == t).foldl (fun s e => clearRange e.1 1 s)
    { s with sramBy := s.sramBy.filter fun e => e.2 != t }

/-- R270, R377: whether a layout is one the spec allows. -/
def layoutOk (l : Layout) : Bool :=
  l.shareBase % 4096 == 0 && l.shareLimit % 4096 == 0 && decide (l.shareBase < l.shareLimit)
    && decide (l.shareLimit ≤ 0x100000)
    && l.arenaBase % 64 == 0 && l.arenaLimit % 64 == 0 && decide (l.arenaBase < 0x100000)
    && decide (l.shareBase ≤ l.arenaBase) && decide (l.arenaBase ≤ l.arenaLimit) && decide (l.arenaLimit ≤ l.spillBase)
    && l.spillBase % 64 == 0 && l.spillTop % 64 == 0 && decide (l.spillBase ≤ l.spillTop)
    && decide (l.spillBase < 0x100000) && decide (l.spillTop < 0x100000) && decide (l.spillTop ≤ l.shareLimit)
/-- R378: whether a shared read region is one the spec allows: RSV bits zero, aligned, outside every share of the core. -/
def regionOk (s : State) (p : BitVec 3) (k : CoreId) (w : Word) : Bool :=
  let lo := slice w 0 21
  let hi := slice w 32 21
  partOfCore s k == p && zeroBut w (2 ^ 21 - 1 + (2 ^ 21 - 1) * 2 ^ 32 + 255 * 2 ^ 56)
    && lo % 4096 == 0 && hi % 4096 == 0 && decide (lo ≤ hi) && decide (hi ≤ spCapOf s (dieOf k))
    && s.svc.contexts.all fun y => y.held.all fun h =>
      h.core != k || decide (hi ≤ h.lay.shareBase) || decide (h.lay.shareLimit ≤ lo)
/-- R329: nothing reaches the arrays of a die that is OFF; the service wakes it before it writes there. -/
def wakeOff (d : DieId) (s : State) : State := if dieOff s d then wakeDie d s else s
/-- R180, R378: a shared read region is placed, cleared. -/
def placeRegion (e : CoreId × BitVec 2 × Word) (s : State) : State :=
  let lo := slice e.2.2 0 21
  let s1 := clearRange (spBase e.1 + lo) (slice e.2.2 32 21 - lo) (wakeOff (dieOf e.1) s)
  let c := coreGet s1 e.1
  coreSet s1 e.1 { c with spshr := c.spshr.set e.2.1.toNat e.2.2 e.2.1.isLt }
/-- R298: whether a core can serve a context. -/
def coreServes (s : State) (x : Context) (k : CoreId) : Bool :=
  partOfCore s k == x.part && (diesOf s x.part).contains (dieOf k)
    && decide (clusterNo k < clusterCount s (dieOf k)) && !fenced s (clusterOf k)
/-- R378: whether a range lies in a shared read region of a core. -/
def inRegion (s : State) (k : CoreId) (o n : Nat) : Bool :=
  (coreGet s k).spshr.toList.any fun x => slice x 56 8 != 0 && decide (slice x 0 21 ≤ o) && decide (o + n ≤ slice x 32 21)
def layHolds (l : Layout) (o n : Nat) : Bool := decide (l.shareBase ≤ o) && decide (o + n ≤ l.shareLimit)
/-- R377: a context with a share on a core that holds a range, assigned now if none does. -/
def shareFor (s : State) (x : Context) (k : CoreId) (o n : Nat) : Option State :=
  if x.held.any fun h => h.core == k && layHolds h.lay o n then some s
  else (x.layouts.find? fun l => layHolds l o n && layoutFree s k l).map fun l => giveShare x.tag k 0 l s

/-! Objects. -/

/-- R334, R339: the map of a MAPPED object's placement or shadow, written by the service. -/
def writeMap (a : Nat) (map : List Word) (s : State) : State :=
  let bs := map.flatMap wordBytes
  { s with mem := memWrite s.mem a bs, poison := clearPoison s.poison a bs.length }
/-- R180: the storage of a new object, cleared, with its map. -/
def placeObject (s : State) (r : ORec) (map : List Word) : State :=
  let s0 := clearRange r.place r.ownBytes s
  let s1 := if r.kind = kMAPPED then writeMap r.place map s0 else s0
  let s2 := if r.sh then clearRange r.shadow r.ownBytes s1 else s1
  if r.kind = kMAPPED then (extents s2 r).foldl (fun s e => clearRange e.2.1 e.2.2 s) s2 else s2
/-- R357, R360: the leaf of a key below a node with `i` levels to go, the nodes and the leaf that are missing made of tiles that
the service gives. -/
def plant (r : ORec) (key : Nat) : Nat → Nat → List Nat → State → Option (Nat × List Nat × State)
  | 0, node, ts, s => some (node, ts, s)
  | i + 1, node, ts, s =>
    let a := node + 8 * (key / 64 ^ i % 64)
    let ent := memWord s.mem a
    if ent ≠ 0 then plant r key i (slice ent 0 52) ts s
    else match ts with
      | [] => none
      | t :: l =>
        let s1 := fillTile s r (i == 0) t
        plant r key i t l { s1 with mem := memSetWord s1.mem a (W (2 ^ 63 + t)) }
/-- R368, R411: the initial image of a sparse volume, its bytes by linear offset from the first leaf on; that they are so
numbered is the model's choice (log 30). -/
def plantImage (r : ORec) (init : List Byte) : Nat → List Nat → State → Option State
  | 0, _, s => some s
  | k + 1, ts, s => match plant r k r.levels r.place ts s with
    | none => none
    | some (leaf, l, s1) =>
      plantImage r init k l { s1 with mem := memWrite s1.mem leaf ((init.drop (k * r.leafBytes)).take r.leafBytes) }
/-- R411: the initial image of an object, in its storage; none where a byte of it has none. -/
def placeImage (r : ORec) (init : List Byte) (tiles : List Nat) (s : State) : Option State :=
  if r.kind = kSPARSE then plantImage r init (ceilDiv init.length r.leafBytes) tiles s
  else if init.length ≤ r.bytes
      ∧ (r.kind = kMAPPED → (List.range (ceilDiv init.length r.subTile)).all fun i => (mapEntry s r r.place i).isSome) then
    some ((extents s r).foldl (fun s e => { s with mem := memWrite s.mem e.2.1 ((init.drop e.1).take e.2.2) }) s)
  else none
/-- How many leaves a sparse volume can have (R356). -/
def ORec.leaves (r : ORec) : Nat := 2 ^ (r.idx 0 + r.idx 1 + r.idx 2)

end Sys2Proof.Machine
end

