-- ==== Sys2Proof/Machine/Sm3.lean ====
section
/-! DEFINITION. The SM3 digest, which the spec names by its standard GB/T 32905 (R404, R408 to R410). -/

namespace Sys2Proof.Machine.Sm3

abbrev W32 := BitVec 32
def rotl (x : W32) (n : Nat) : W32 := x.rotateLeft (n % 32)
def p0 (x : W32) : W32 := x ^^^ rotl x 9 ^^^ rotl x 17
def p1 (x : W32) : W32 := x ^^^ rotl x 15 ^^^ rotl x 23

/-- The eight words of the digest's running value. -/
structure Regs where
  a : W32
  b : W32
  c : W32
  d : W32
  e : W32
  f : W32
  g : W32
  h : W32
  deriving DecidableEq, Repr

def start : Regs :=
  ⟨0x7380166F, 0x4914B2B9, 0x172442D7, 0xDA8A0600, 0xA96F30BC, 0x163138AA, 0xE38DEE4D, 0xB0FB0E4E⟩

/-- The next word of the message schedule, from the sixteen before it, newest first. -/
def nextWord (l : List W32) : W32 :=
  let w (i : Nat) : W32 := l.getD (i - 1) 0
  p1 (w 16 ^^^ w 9 ^^^ rotl (w 3) 15) ^^^ rotl (w 13) 7 ^^^ w 6
/-- The schedule of 68 words, newest first. -/
def schedule : Nat → List W32 → List W32
  | 0, l => l
  | n + 1, l => schedule n (nextWord l :: l)

/-- One round with its word and the word four further on. -/
def round (j : Nat) (w w4 : W32) (r : Regs) : Regs :=
  let t : W32 := if j < 16 then 0x79CC4519 else 0x7A879D8A
  let ss1 := rotl (rotl r.a 12 + r.e + rotl t j) 7
  let ss2 := ss1 ^^^ rotl r.a 12
  let ff := if j < 16 then r.a ^^^ r.b ^^^ r.c else (r.a &&& r.b) ||| (r.a &&& r.c) ||| (r.b &&& r.c)
  let gg := if j < 16 then r.e ^^^ r.f ^^^ r.g else (r.e &&& r.f) ||| (~~~r.e &&& r.g)
  let tt1 := ff + r.d + ss2 + (w ^^^ w4)
  let tt2 := gg + r.h + ss1 + w
  ⟨tt1, r.a, rotl r.b 9, r.c, p0 tt2, r.e, rotl r.f 19, r.g⟩

/-- The rounds over the schedule, oldest word first. -/
def rounds : Nat → Nat → List W32 → Regs → Regs
  | 0, _, _, r => r
  | n + 1, j, ws, r => rounds n (j + 1) (ws.drop 1) (round j (ws.getD 0 0) (ws.getD 4 0) r)

/-- Big-endian words of bytes. -/
def wordsOf (b : List Byte) : List W32 :=
  (chunks 4 (b.length + 1) b).map fun l => BitVec.ofNat 32 (l.foldl (fun n x => 256 * n + x.toNat) 0)
def bytesOf (n : Nat) (x : W32) : List Byte := (List.range n).map fun i => BitVec.ofNat 8 (x.toNat / 256 ^ (n - 1 - i))

/-- The compression of one block of 64 bytes. -/
def block (r : Regs) (b : List Byte) : Regs :=
  let x := rounds 64 0 (schedule 52 (wordsOf b).reverse).reverse r
  ⟨x.a ^^^ r.a, x.b ^^^ r.b, x.c ^^^ r.c, x.d ^^^ r.d, x.e ^^^ r.e, x.f ^^^ r.f, x.g ^^^ r.g, x.h ^^^ r.h⟩

/-- The message with its padding. -/
def padded (m : List Byte) : List Byte :=
  let n := m.length
  m ++ [0x80] ++ List.replicate ((119 - n % 64) % 64) 0
    ++ (List.range 8).map fun i => BitVec.ofNat 8 (8 * n / 256 ^ (7 - i))

/-- The 32 bytes of a message's digest. -/
def digest (m : List Byte) : List Byte :=
  let p := padded m
  let r := (chunks 64 (p.length + 1) p).foldl block start
  [r.a, r.b, r.c, r.d, r.e, r.f, r.g, r.h].flatMap (bytesOf 4)

end Sys2Proof.Machine.Sm3
end

