-- ==== Sys2Proof/Machine/Sm2.lean ====
section
/-! DEFINITION. SM2 signatures, made (R410) and verified (R408); the spec names them by their standard GB/T 32918. The
recommended curve and the layout of keys and signatures are the standard's (log 64). -/

namespace Sys2Proof.Machine.Sm2

/-- PRESUMED (log 64): the prime field, the coefficients, the order and the base point of the recommended curve. -/
def p : Nat := 0xFFFFFFFEFFFFFFFFFFFFFFFFFFFFFFFFFFFFFFFF00000000FFFFFFFFFFFFFFFF
def a : Nat := p - 3
def b : Nat := 0x28E9FA9E9D9F5E344D5A9E4BCF6509A7F39789F515AB8F92DDBCBD414D940E93
def n : Nat := 0xFFFFFFFEFFFFFFFFFFFFFFFFFFFFFFFF7203DF6B21C6052B53BBF40939D54123
def gx : Nat := 0x32C4AE2C1F1981195F9904466A39C9948FE30BBFF2660BE1715A4589334C74C7
def gy : Nat := 0xBC3736A2F4F6779C59BDCEE36B692153D0A9877CC62A474002DF32E52139F0A0

/-- Big-endian bytes, and the number they write. -/
def beBytes (k x : Nat) : List Byte := (natBytes k x).reverse
def beNat (l : List Byte) : Nat := bytesNat l.reverse

/-- A power in the field, by an exponent of at most `f` bits. -/
def power (x : Nat) : Nat → Nat → Nat
  | 0, _ => 1
  | f + 1, e =>
    let y := power (x * x % p) f (e / 2)
    if e % 2 = 1 then x * y % p else y
def inverse (x : Nat) : Nat := power x 256 (p - 2)
def minus (x y : Nat) : Nat := (x % p + p - y % p) % p

def onCurve (x y : Nat) : Bool :=
  decide (x < p) && decide (y < p) && y * y % p == (x * x * x + a * x + b) % p
/-- A point of the curve as (X, Y, Z): its coordinates are X / Z² and Y / Z³, and Z = 0 is the point at infinity. -/
abbrev Point := Nat × Nat × Nat
def double (q : Point) : Point :=
  match q with
  | (x, y, z) =>
    let s := 4 * x * (y * y % p) % p
    let m := (3 * x * x + a * (z * z % p * (z * z % p) % p)) % p
    let x2 := minus (m * m) (2 * s)
    (x2, minus (m * minus s x2) (8 * (y * y % p) * (y * y % p)), 2 * y * z % p)
def add (q r : Point) : Point :=
  match q, r with
  | (x1, y1, z1), (x2, y2, z2) =>
    if z1 = 0 then r
    else if z2 = 0 then q
    else
      let u := x1 * (z2 * z2 % p) % p
      let v := y1 * (z2 * z2 % p * z2 % p) % p
      let h := minus (x2 * (z1 * z1 % p)) u
      let d := minus (y2 * (z1 * z1 % p * z1 % p)) v
      if h = 0 then if d = 0 then double q else (1, 1, 0)
      else
        let hh := h * h % p
        let x := minus (d * d) (hh * h + 2 * u * hh)
        (x, minus (d * minus (u * hh) x) (v * (hh * h % p)), h * z1 % p * z2 % p)
/-- A multiple of a point, by a factor of at most `f` bits. -/
def times (q : Point) : Nat → Nat → Point
  | 0, _ => (1, 1, 0)
  | f + 1, k =>
    let r := times (double q) f (k / 2)
    if k % 2 = 1 then add q r else r

/-- The digest of the signer's identity: its length in bits, the identifier, the curve and the public key. -/
def identity (ident : List Byte) (x y : Nat) : List Byte :=
  Sm3.digest (beBytes 2 (8 * ident.length) ++ ident ++ beBytes 32 a ++ beBytes 32 b ++ beBytes 32 gx ++ beBytes 32 gy
    ++ beBytes 32 x ++ beBytes 32 y)
/-- Whether the numbers (r, s) sign a message under a public key. -/
def verifies (ident msg : List Byte) (x y r s : Nat) : Bool :=
  let e := beNat (Sm3.digest (identity ident x y ++ msg))
  let t := (r + s) % n
  decide (1 ≤ r) && decide (r < n) && decide (1 ≤ s) && decide (s < n) && t != 0 && onCurve x y
    && match add (times (gx, gy, 1) 256 s) (times (x, y, 1) 256 t) with
      | (x1, _, z1) => z1 != 0 && (e + x1 * inverse (z1 * z1 % p) % p) % n == r

/-- R408: the distinguishing identifier EWEALMAK-MBZ. -/
def vendorIdent : List Byte := [0x45, 0x57, 0x45, 0x41, 0x4C, 0x4D, 0x41, 0x4B, 0x2D, 0x4D, 0x42, 0x5A]
/-- R408: whether a signature of 64 bytes over a digest verifies under a public key of 64 bytes. -/
def slotVerifies (digest key sig : List Byte) : Bool :=
  let half (l : List Byte) (i : Nat) : Nat := beNat ((l.drop (32 * i)).take 32)
  verifies vendorIdent digest (half key 0) (half key 1) (half sig 0) (half sig 1)

/-! Signing (R410). -/

/-- An inverse modulo the order of the base point. -/
def powerN (x : Nat) : Nat → Nat → Nat
  | 0, _ => 1
  | f + 1, e =>
    let y := powerN (x * x % n) f (e / 2)
    if e % 2 = 1 then x * y % n else y
def inverseN (x : Nat) : Nat := powerN x 256 (n - 2)
/-- The coordinates of a point of the curve. -/
def affine (q : Point) : Nat × Nat :=
  match q with
  | (x, y, z) =>
    let i := inverse z
    (x * (i * i % p) % p, y * (i * i % p * i % p) % p)
/-- The public key of a private key, and its 64 bytes. -/
def publicPoint (d : Nat) : Nat × Nat := affine (times (gx, gy, 1) 256 d)
def publicKey (d : Nat) : List Byte := beBytes 32 (publicPoint d).1 ++ beBytes 32 (publicPoint d).2
/-- The standard's signature (r, s) of a message under a private key, with the random number `k` on which its loop ends. -/
def sign (ident msg : List Byte) (d k : Nat) : Nat × Nat :=
  let e := beNat (Sm3.digest (identity ident (publicPoint d).1 (publicPoint d).2 ++ msg))
  let r := (e + (affine (times (gx, gy, 1) 256 k)).1) % n
  (r, inverseN (1 + d) * ((k + n * n - r * (d % n)) % n) % n)

end Sys2Proof.Machine.Sm2
end

