-- ==== Sys2Proof/Machine/Requests.lean ====
section
/-! DEFINITION. The requests that name a context, their order (R411, R413), a launch (R297 to R299), what the
service tells (R354, R410), and the end of a context (R353). -/

namespace Sys2Proof.Machine

/-! Requests and answers. -/

def sOK : BitVec 8 := 0
def sUNSUPPORTED : BitVec 8 := 1
def sBADARG : BitVec 8 := 2
def sNORESOURCE : BitVec 8 := 3
def sRETRY : BitVec 8 := 4
def sDENIED : BitVec 8 := 5
/-- R411: an answer. -/
def reply (h : ReqHead) (kind status : BitVec 8) (body : List Byte) (s : State) : State :=
  emit (.answer kind status h.id h.ctx body) s
/-- R411: the 32-byte header of a request or an answer, with the bytes of the body that follow it. -/
def headerBytes (kind status : BitVec 8) (len : Nat) (id : Word) (ctx : Tag) : List Byte :=
  [kind, status, 0, 0] ++ natBytes 4 len ++ natBytes 8 id.toNat ++ natBytes 2 ctx.toNat ++ zeros 14
/-- R411: a request as it travels, its STATUS 0, and an answer. -/
def ReqHead.bytes (h : ReqHead) (body : List Byte) : List Byte := headerBytes h.kind 0 body.length h.id h.ctx ++ body
def answerBytes (m : Message) : List Byte :=
  match m with
  | .answer kind status id ctx body => headerBytes kind status body.length id ctx ++ body
  | _ => []
/-- R411: the codes of requests. -/
def kindKnown (k : BitVec 8) : Bool := decide (1 ≤ k.toNat) && decide (k.toNat ≤ 0x0B)
/-- R257: how the body of an UNSUPPORTED answer names the part (log 66). -/
def partName (w : Discard) : List Byte :=
  match w with
  | .rudi => [0]
  | .uud => [1]
  | .security => [2]
/-- R257, R408, R411 to R413: whether the service performs a request whose body is that of a kind; else its answer. -/
def accepted (h : ReqHead) (kind : BitVec 8) (operator : Bool) (s : State) (f : State → State) : Outcome State :=
  .next (match s.svc.phase with
    | .unbooted | .stopped => s
    | .recovery => if h.kind = kind ∧ (kind = 7 ∨ kind = 8) then f s else reply h h.kind sDENIED [] s
    | .running =>
      if s.ckpt.flashing then { s with svc := { s.svc with deferred := s.svc.deferred ++ [h] } }
      else if h.ep = .unlisted then reply h h.kind sDENIED [] s
      else match h.needs with
        | some w => reply h h.kind sUNSUPPORTED (partName w) s
        | none =>
          if !kindKnown h.kind then reply h h.kind sBADARG [] s
          else if h.kind ≠ kind then s
          else if operator ∧ h.ep ≠ .operator then reply h kind sDENIED [] s
          else f s)
/-- R413: requests that arrived during flashing are answered. -/
def answerDeferred (s : State) : State :=
  s.svc.deferred.foldl (fun s h => reply h h.kind sRETRY [] s) { s with svc := { s.svc with deferred := [] } }
/-- A request that names a context. -/
def onContext (h : ReqHead) (kind : BitVec 8) (f : Context → State → State) (s : State) : State :=
  match contextGet s h.ctx with
  | none => reply h kind sBADARG [] s
  | some x => f x s

/-- The service as an agent of a context. -/
def serviceAgent (s : State) (x : Context) : Agent :=
  ⟨BitVec.ofNat 11 (((diesOf s x.part).head?.getD 0).toNat * 256), x.tag, x.ortBase, 0⟩
/-- R341: the service writes a record and removes the versions cached of it. -/
def installRecord (x : Context) (n : BitVec 18) (r : ORec) (s : State) : State :=
  match recordAddr x.ortBase n with
  | none => s
  | some a =>
    let m := memWrite s.mem a (((List.range 8).map r.dw).flatMap wordBytes)
    dropVersions { s with mem := m, poison := clearPoison s.poison a 64 } x.part x.tag (some n)

/-- R411, R22, R27, R333: whether the service's choices for a context are ones the spec allows. -/
def layoutFits (q : CreateReq) (s : State) : Bool :=
  let own := [tableRange q.ortBase, (q.image.toNat, 0x3000 * q.images), (q.saveArea, 1)]
  q.layouts.all layoutOk && q.ovf.all (fun e => decide (64 + e.2.2 < 65536))
    && zeroBut q.ortBase (bitsAt 12 45) && decide (6 ≤ slice q.ortBase 52 5) && decide (slice q.ortBase 52 5 ≤ 18)
    && zeroBut q.image (bitsAt 6 46)
    && apart own && own.all (placeOk s q.part) && s.svc.contexts.all (fun y => own.all fun h => !hbmUsed s y h)
    && areasOk s q.part (poolAreas q.pools ++ overflowAreas q.ovf)
    && q.regions.all fun e => regionOk s q.part e.1 e.2.2
/-- The lowest free tag (R24). -/
def freeTag (s : State) : Option Tag :=
  ((List.range 4096).map (BitVec.ofNat 12)).find? fun t => (contextGet s t).isNone
/-- R24, R411: the context that a CREATE makes. -/
def newContext (t : Tag) (q : CreateReq) : Context where
  tag := t
  part := q.part
  mode := q.mode
  limit := q.limit
  hold := q.hold
  solo := q.solo
  weight := q.weight
  ortBase := q.ortBase
  image := q.image
  images := q.images
  groups := q.groups
  layouts := q.layouts
  saveArea := q.saveArea
  ovf := q.ovf
  dring := 0
  args := 0
  pools := q.pools
  areas := q.pools
  cores := []
  launches := []
  held := []
  strands := 0
/-- R411: CREATE. -/
def create (h : ReqHead) (q : CreateReq) (s : State) : State :=
  if !(q.mode == 1 || q.mode == 2) || decide (q.limit.toNat < 100) || diesOf s q.part == [] || !layoutFits q s then
    reply h 1 sBADARG [] s
  else match freeTag s with
    | none => reply h 1 sNORESOURCE [] s
    | some t =>
      let table := tableRange q.ortBase
      let s1 := clearRanges ((table.1, table.2) :: poolAreas q.pools ++ overflowAreas q.ovf) s
      let s2 := q.regions.foldl (fun s e => placeRegion e s) s1
      reply { h with ctx := t } 1 sOK [] { s2 with svc := { s2.svc with contexts := s2.svc.contexts ++ [newContext t q] } }
def execCreate (h : ReqHead) (q : CreateReq) (s : State) : Outcome State := accepted h 1 false s (create h q)

/-- R411: whether the words beside a record are ones that its kind takes: the map of a MAPPED object, or the tiles for the initial
image of a SPARSE volume, which the service takes from storage of the context's own. -/
def besideOk (s : State) (x : Context) (r : ORec) (map : List Word) (init : List Byte) : Bool :=
  if r.kind = kMAPPED then decide (map.length ≤ ceilDiv r.bytes r.subTile)
  else if r.kind = kSPARSE then
    let tiles := map.map fun w => (w.toNat, r.leafBytes)
    apart ((r.place, 512) :: tiles) && tiles.all (fun e => e.1 % r.leafBytes == 0 && placeOk s x.part e)
      && decide (init.length ≤ r.leaves * r.leafBytes)
  else map == []
/-- R411: DEFINE. -/
def define (h : ReqHead) (n : BitVec 18) (r : ORec) (map : List Word) (init : List Byte) (s : State) : State :=
  onContext h 2 (fun x s =>
    let ok : Bool := r.length == 8 && decide (n.toNat < 0x3F000) && (recordAddr x.ortBase n).isSome && r.ok s n
      && r.part == x.part && besideOk s x r map init
    if !ok then reply h 2 sBADARG [] s
    else
      let s1 := placeObject s r map
      match placeImage r init (map.map (·.toNat)) s1 with
      | none => reply h 2 sBADARG [] s
      | some s2 =>
        if (objectRanges s1 r).all (placeOk s x.part) then
          reply h 2 sOK [] (installRecord x n r { s2 with svc := { s2.svc with
            paged := s2.svc.paged.filter fun e => !(e.ctx == x.tag && e.obj == n) } })
        else reply h 2 sBADARG [] s) s

/-- R411: bytes loaded at the home; no cache keeps a copy of their lines. -/
def loadPieces : List Piece → List Byte → State → State
  | [], _, s => s
  | p :: t, bs, s =>
    let s1 := cleanRange (purgeLine s (lineOf p.key)) p.key p.len
    loadPieces t (bs.drop p.len)
      { s1 with mem := memWrite s1.mem p.key (bs.take p.len), poison := clearPoison s1.poison p.key p.len }
/-- R378: bytes loaded in a scratchpad; every granule is left FULL. -/
def loadScratch (k : CoreId) (o : Nat) (bs : List Byte) (s : State) : State :=
  let a := spBase k + o
  let s := wakeOff (dieOf k) s
  let s1 := { s with mem := memWrite s.mem a bs, poison := clearPoison s.poison a bs.length }
  if bs = [] then s1 else markFull s1 a bs.length
/-- R411: LOAD. -/
def load (h : ReqHead) (d : LoadDest) (bs : List Byte) (s : State) : State :=
  onContext h 3 (fun x s =>
    let g := serviceAgent s x
    match d with
    | .object n o =>
      let va := objAddr n o
      let plan : M (List Piece) := do
        need (decide (n.toNat < 0x3F000)) cPERMISSION va
        let r ← lookup s g n va
        objectSpan s g va r bs.length .ewrite
      match plan with
      | .ok ps => reply h 3 sOK [] (loadPieces ps bs s)
      | .error _ => reply h 3 sBADARG [] s
    | .scratch k o =>
      if !coreServes s x k then reply h 3 sBADARG [] s
      else if inRegion s k o bs.length then reply h 3 sOK [] (loadScratch k o bs s)
      else match shareFor s x k o bs.length with
        | some s1 => reply h 3 sOK [] (loadScratch k o bs s1)
        | none => reply h 3 sBADARG [] s) s

/-! Launch (R297). -/

/-- R28, R297: the image of a context's next strand. -/
def newStrand (x : Context) (lay : Layout) : Strand :=
  { Strand.zero with
    ctxid := x.tag.zeroExtend 64
    ortbase := x.ortBase
    spillbase := W lay.spillBase
    spilltop := W lay.spillTop
    spillovf := x.image + W (0x3000 * x.strands)
    mweight := W (x.weight.toNat + x.solo.toNat * 256)
    wdmode := W (x.mode.toNat * 2 ^ 62 + x.limit.toNat)
    share := lay }.writeG 3 x.args
/-- R299: an idle strand of a context is placed on a vacant core, if it finds an image and a share. -/
def placeIdle (t : Tag) (k : CoreId) (s : State) : Option State :=
  match contextGet s t with
  | none => none
  | some x =>
    if x.images ≤ x.strands then none
    else (takeShare x k (x.image + W (0x3000 * x.strands)) s).map fun e =>
      let s1 := outfit t e.1 k (match contextGet e.2 t with
        | some y => contextSet e.2 { y with strands := y.strands + 1 }
        | none => e.2)
      let c := coreGet s1 k
      coreSet s1 k { c with
        mode := .idle, strand := newStrand x e.1, deque := [], ftop := c.fabase, wdReq := false, preReq := false
        lfsr := lfsrSeed s1 k }
/-- Whether a context's strand is off this core. -/
def hasOff (s : State) (t : Tag) (k : CoreId) : Bool := s.svc.off.any fun o => o.ctx == t && o.core == k
/-- R298: the strand of another context on a core is pre-empted for a launch. -/
def freeForLaunch (t : Tag) (k : CoreId) (s : State) : State :=
  let c := coreGet s k
  if c.mode ≠ .vacant ∧ tagOf c.strand ≠ t then
    match stopCore .preempted k s with
    | some s1 => s1
    | none => coreSet s k { c with preReq := true }
  else s
/-- R299: a strand of the context is placed on a core that is free for it. -/
def placeFor (t : Tag) (k : CoreId) (s : State) : State :=
  let s1 := freeForLaunch t k s
  if (coreGet s1 k).mode = .vacant then (placeIdle t k s1).getD s1 else s1
/-- R297: a register of every strand of a context, running ones too (log 75). -/
def writeArgs (t : Tag) (v : Word) (s : State) : State :=
  let put (u : Strand) : Strand := if tagOf u = t then u.writeG 3 v else u
  let core (c : Core) : Core := if c.mode = .vacant then c else { c with strand := put c.strand }
  { s with
    core := core s.core
    others := s.others.map fun e => (e.1, core e.2)
    svc := { s.svc with off := s.svc.off.map fun o => if tagOf o.strand = t then o.writeG 3 v else o } }

/-- The free join records of a context in a cluster. -/
def poolAt (s : State) (t : Tag) (c : ClusterId) : List Nat :=
  ((contextGet s t).bind fun y => (y.pools.find? fun e => e.1 == c).map (·.2)).getD []
/-- R297 steps 2 to 4 on a core that holds an idle strand of the context. G[2] is Gl(FTOP) as R297 has it (log 82). -/
def startRoot (h : ReqHead) (q : LaunchReq) (k : CoreId) (x : Context) (rec : Nat) (s : State) : State :=
  let t := x.tag
  let key := sramBase (clusterOf k) + rec
  let m := memWrite s.mem key (natBytes 8 1 ++ natBytes 8 8)
  let s1 := mapPool t (clusterOf k) (·.drop 1) { s with mem := m, poison := clearPoison s.poison key 16 }
  let s2 := match contextGet s1 t with
    | none => s1
    | some x => contextSet s1 { x with launches := x.launches ++ [(h.id, key)] }
  let s2 := wakeDie (dieOf k) s2
  let c := coreGet s2 k
  let u := (c.strand.writeG 1 (joinName s2 key)).writeG 2 (globalAt s2 k c.top)
  coreSet s2 k { c with
    mode := .running
    strand := { u with
      pc := q.entry, prio := q.cls.zeroExtend 64, mhold := q.hold.zeroExtend 64, hbeat := 0, decDone := false
      mweight := W (x.weight.toNat + x.solo.toNat * 256)
      wdmode := W (x.mode.toNat * 2 ^ 62 + x.limit.toNat) } }

/-- R22: the cores of a logical device. -/
def coresOf (s : State) (p : BitVec 3) : List CoreId :=
  (diesOf s p).flatMap fun d => (List.range (clusterCount s d)).flatMap fun n => (List.range 8).map (coreAt (mkCluster d n))
/-- R297 step 1: the target of a launch: the core it names, or else, of the cores in whose clusters the context has a join record
left, the first with an idle strand of it, the first that is vacant, or the first. That order is the model's choice (log 88). -/
def launchCore (s : State) (x : Context) (q : LaunchReq) : Option CoreId :=
  match q.core with
  | some k => some k
  | none =>
    let l := (coresOf s x.part).filter fun k => coreServes s x k && poolAt s x.tag (clusterOf k) != []
    let idle (k : CoreId) : Bool :=
      let c := coreGet s k
      c.mode == .idle && c.deque == [] && tagOf c.strand == x.tag
    ((l.find? idle).orElse fun _ => l.find? fun k => (coreGet s k).mode == .vacant && !hasOff s x.tag k).orElse
      fun _ => l.head?
/-- R297 to R299: LAUNCH, and whether it is done. A launch onto a core whose strand of the context is not idle, or whose
strand of another context has not stopped yet, waits. -/
def launch (h : ReqHead) (q : LaunchReq) (s : State) : State × Bool :=
  match contextGet s h.ctx with
  | none => (reply h 4 sBADARG [] s, true)
  | some x =>
    if q.entry.toNat % 64 ≠ 0 ∨ (q.core.any fun k => !coreServes s x k) then (reply h 4 sBADARG [] s, true)
    else match launchCore s x q with
    | none => (reply h 4 sNORESOURCE [] s, true)
    | some k => match poolAt s x.tag (clusterOf k) with
      | [] => (reply h 4 sNORESOURCE [] s, true)
      | r :: _ =>
        let s1 := placeFor x.tag k s
        let c := coreGet s1 k
        if c.mode = .vacant ∧ !hasOff s1 x.tag k then (reply h 4 sNORESOURCE [] s, true)
        else if c.mode = .idle ∧ c.deque = [] ∧ tagOf c.strand = x.tag then
          let s2 := (q.idle.filter (coreServes s1 x)).foldl (fun s k => placeFor x.tag k s) s1
          let s3 := writeArgs x.tag q.args (match contextGet s2 x.tag with
            | some y => contextSet s2 { y with args := q.args }
            | none => s2)
          (startRoot h q k x r s3, true)
        else (s1, false)

/-! Handles and donation rings. -/

/-- R260, R334: the record of a handle; the permission bits are read, write, atomic and engine-write. -/
def peerRecord (dev : BitVec 32) (ldev : BitVec 3) (ctx : Tag) (obj : BitVec 18) (perms : BitVec 4) (grant : Nat) : ORec :=
  let p (i j : Nat) : Nat := (perms.getLsbD i).toNat * 2 ^ j
  [W (2 ^ 63 + 5 * 2 ^ 60 + p 0 43 + p 1 44 + p 2 45 + p 3 46), W (dev.toNat + ldev.toNat * 2 ^ 32),
    W (ctx.toNat + obj.toNat * 2 ^ 44), W (grant % 2 ^ 45), 0, 0, 0, 0]
/-- R260: IMPORT; the exporting service may refuse. -/
def importHandle (h : ReqHead) (q : ImportReq) (s : State) : State :=
  onContext h 5 (fun x s =>
    if q.granted then
      reply h 5 sOK [] (installRecord x (BitVec.ofNat 18 (0x3F000 + q.num.toNat))
        (peerRecord q.dev q.ldev q.ctx q.obj q.perms q.grant.toNat) s)
    else reply h 5 sDENIED [] s) s

/-- R293, R337: the record of a donation ring. -/
def donRecord (part : BitVec 3) (place : Word) (slots : Nat) : ORec :=
  [W (2 ^ 63 + 3 * 2 ^ 60 + 15 * 2 ^ 43 + part.toNat * 2 ^ 37), W (1 + 2 ^ 32), W (1 + 2 ^ 32), place,
    W (slots + 3 * 2 ^ 20), 0, 0, 0]
/-- R293, R411: DONSETUP for the accepting context, and the donor's handle when the donor is a context here. -/
def donsetup (h : ReqHead) (q : DonReq) (s : State) : State :=
  onContext h 6 (fun x s =>
    let r := donRecord x.part q.place q.slots.toNat
    if !(decide (q.ringObj.toNat < 0x3F000) && r.ok s q.ringObj && (recordAddr x.ortBase q.ringObj).isSome
        && placeOk s x.part (r.place, r.bytes)) then
      reply h 6 sBADARG [] s
    else
      let dr := objAddr q.ringObj 0
      let s1 := contextSet (installRecord x q.ringObj r (placeObject s r [])) { x with dring := dr }
      let give (c : Core) : Core := if c.mode ≠ .vacant ∧ tagOf c.strand = x.tag then { c with dring := dr } else c
      let s2 := { s1 with core := give s1.core, others := s1.others.map fun e => (e.1, give e.2) }
      let s3 := match contextGet s2 q.donor with
        | none => s2
        | some y => installRecord y (BitVec.ofNat 18 (0x3F000 + q.handle.toNat))
            (peerRecord q.dev q.ldev x.tag q.ringObj 0b1100 r.bytes) s2
      reply h 6 sOK [] s3) s

/-! What the service tells (R354, R410, R411). -/

/-- R410: counts of units mapped out, those that the part never had left aside. -/
def mapOutCounts (s : State) : Nat :=
  let dies := (List.range 8).map (BitVec.ofNat 3)
  let clusters := (dies.map fun d => binClusters s.pkg.bin - clusterCount s d).sum
  let sd := (dies.filter fun d => binSdies s.pkg.bin && !s.pkg.sdie[d.toNat]).length
  let cd := (dies.filter fun d => s.pkg.mapOutDie[d.toNat]).length
  clusters % 256 + sd % 16 * 2 ^ 8 + cd % 16 * 2 ^ 12
/-- R376, R410: CAPS as a core of die 0 of a logical device reads it. -/
def capsFirst (s : State) (p : BitVec 3) : Nat :=
  let l := diesOf s p
  p.toNat * 2 ^ 24 + 8 * 2 ^ 16 + (l.head?.map (clusterCount s)).getD 0 * 2 ^ 8 + l.length
/-- R376: what the capacity registers hold: CAPS and DIECAP of each logical device, and SPCAP of each die position. -/
def capacities (s : State) : List Nat :=
  let ps := (List.range 8).map (BitVec.ofNat 3)
  ps.flatMap (fun p => [capsFirst s p, (dieCaps s p).toNat]) ++ ps.map (spCapOf s)

/-- R411: the body of a QUERY answer, doublewords in the order the spec names their contents. A stack counts as 32
channels of 2 GiB (log 65). -/
def queryBody (h : ReqHead) (q : QuerySel) (s : State) : List Byte :=
  let ws (l : List Nat) : List Byte := l.flatMap (natBytes 8)
  match q with
  | .accounting => match s.svc.accounts.find? fun a => a.tag == h.ctx with
    | some a => ws [a.fills, a.writeBacks, a.tokens]
    | none => ws [0, 0, 0]
  | .discards => ws s.svc.discards.toList
  | .capacities =>
    ws (capacities s ++ [mapOutCounts s, (8 * 32 - s.pkg.hbmOut.length) * 2 ^ 31])
  | .bin => natBytes 4 s.pkg.bin.toNat
  | .checkpoint => ws [s.ckpt.seq.toNat, s.ckpt.phases, s.ckpt.sealedSeq.toNat]
def query (h : ReqHead) (q : QuerySel) (s : State) : State := reply h 7 sOK (queryBody h q s) s

/-- R409: the device ID. -/
def deviceId : List Byte := (Sm3.digest (Sm2.publicKey Config.idPrivate.toNat)).take 16
/-- R410: bytes 0 to 127 of a report. -/
def reportBytes (nonce : BitVec 256) (s : State) : List Byte :=
  let dig := if s.svc.phase = .running then s.svc.svcDigest.toNat else 0
  natBytes 4 0x4D425A41 ++ natBytes 4 1 ++ natBytes 32 nonce.toNat ++ deviceId
    ++ natBytes 32 dig ++ natBytes 4 s.svc.fusedRollback ++ natBytes 4 s.pkg.bin.toNat ++ natBytes 8 (capsFirst s 0)
    ++ natBytes 2 (mapOutCounts s) ++ natBytes 2 s.ckpt.sealedSeq.toNat ++ natBytes 8 (dieCaps s 0).toNat
    ++ natBytes 12 0
/-- R410: the SM2 signature (r, s) over the SM3 digest of bytes, under the identity key. -/
def signature (b : List Byte) (s : State) : List Byte :=
  let x := Sm2.sign Config.idIdent (Sm3.digest b) Config.idPrivate.toNat (Config.random s.svc.signed).toNat
  Sm2.beBytes 32 x.1 ++ Sm2.beBytes 32 x.2
/-- R410: ATTEST. -/
def attest (h : ReqHead) (nonce : BitVec 256) (s : State) : State :=
  let b := reportBytes nonce s
  reply h 8 sOK (b ++ signature b s) { s with svc := { s.svc with signed := s.svc.signed + 1 } }
def execAttest (h : ReqHead) (nonce : BitVec 256) (s : State) : Outcome State := accepted h 8 false s (attest h nonce)

/-! Held strands. -/

/-- A strand off its core, by its image. -/
def offAt (s : State) (img : Word) : Option Off := s.svc.off.find? fun o => o.strand.spillovf == img
/-- R407, R411: RESUME clears RUN (PERSISTENT) or raises LIMIT (BOUNDED), and the strand resumes; it waits for its core. -/
def resumeHeld (h : ReqHead) (img : Word) (limit : BitVec 48) (s : State) : State × Bool :=
  match offAt s img with
  | none => (reply h 9 sBADARG [] s, true)
  | some o =>
    let t := o.strand
    let up : Bool := t.wdMode != 1 || decide (t.limit < limit.toNat)
    if o.ctx ≠ h.ctx ∨ o.why ≠ .held ∨ !up then (reply h 9 sBADARG [] s, true)
    else if !coreFree s o.core then (s, false)
    else
      let o1 : Off := if t.wdMode = 2 then { o with strand := t.setRun 0 }.poke 0x2880 (setSlice · 0 48 0)
        else { o with strand := { t with wdmode := setSlice t.wdmode 0 48 limit.toNat } }.poke 0x2888 (setSlice · 0 48 limit.toNat)
      (reply h 9 sOK [] (takeBack o { o1 with why := .trapped } (fun o s => placeOff o o.core (o.resumePc none) s) s), true)

/-! The end of a context (R353). -/

/-- One step of a context's engine commands. -/
def cmdTurn (t : Tag) (s : State) : Option State :=
  match (s.cmds.filter fun c => c.ctx == t).findSome? (commandEvent s) with
  | some (.engineWrite c u f) => match execEngineWrite c u f s with
    | .next s1 => some s1
    | _ => none
  | some (.commandComplete c) => match execCommandComplete c s with
    | .next s1 => some s1
    | _ => none
  | _ => none
def drainCmds (t : Tag) : Nat → State → State
  | 0, s => s
  | n + 1, s => match cmdTurn t s with
    | none => s
    | some s1 => drainCmds t n s1
/-- R237, R350: a context's engine commands complete, as far as they await neither a peer nor a stall. -/
def completeCmds (t : Tag) (s : State) : State :=
  drainCmds t (((s.cmds.filter fun c => c.ctx == t).map fun c => c.units.length + 2).sum) s
/-- R353: a context's strands have stopped; whether accesses of it, or matrix commands of them all but one, have still to
complete. -/
def accessesLeft (t : Tag) (keep : Off → Bool) (s : State) : Bool :=
  (s.cmds.any fun c => c.ctx == t) || (s.out.any fun x => x.ctx == t) || s.svc.off.any fun o => o.ctx == t && !keep o
/-- The head of a request. -/
def headOf (i : Instr) : Option (BitVec 8 × ReqHead) :=
  match i with
  | .define h .. => some (2, h)
  | .load h .. => some (3, h)
  | .launch h _ => some (4, h)
  | .importPeer h _ => some (5, h)
  | .donsetup h _ => some (6, h)
  | .query h _ => some (7, h)
  | .resume h .. => some (9, h)
  | .endCtx h => some (10, h)
  | _ => none
/-- The context that a waiting request names. -/
def ctxOf (i : Instr) : Option Tag := (headOf i).map (·.2.ctx)
/-- R353, R413: what a context held is removed, and its requests that still wait are answered. -/
def removeContext (x : Context) (s : State) : State :=
  let t := x.tag
  let s2 := clearWritten t (clearRanges x.sramAreas (dropVersions s x.part t none))
  let clean (c : Core) : Core := { c with win := Vector.ofFn fun i => if (c.win[i]).ctx = t then Window.zero else c.win[i] }
  let s3 := { s2 with
    core := clean s2.core
    others := s2.others.map fun e => (e.1, clean e.2)
    removals := s2.removals.filter fun r => r.ctx != t
    svc := { s2.svc with
      contexts := s2.svc.contexts.filter fun c => c.tag != t
      accounts := s2.svc.accounts.filter fun a => a.tag != t
      relocs := s2.svc.relocs.filter fun r => r.ctx != t
      frees := s2.svc.frees.filter fun r => r.ctx != t
      paged := s2.svc.paged.filter fun r => r.ctx != t
      waiting := s2.svc.waiting.filter fun i => ctxOf i != some t } }
  let s4 := x.launches.foldl (fun s l => emit (.answer 4 sBADARG l.1 t []) s) s3
  (s2.svc.waiting.filter fun i => ctxOf i == some t).foldl (fun s i => match headOf i with
    | some (k, h) => reply h k sBADARG [] s
    | none => s) s4
/-- R353: a context ends, and whether the end is complete: its strands stop, and then its accesses complete. -/
def endContext (x : Context) (s : State) : State × Bool :=
  let s1 := completeCmds x.tag (dropStrands (fun _ => false) x.tag s)
  if accessesLeft x.tag (fun _ => false) s1 then (s1, false) else (removeContext x s1, true)
/-- R411: END. -/
def endRequest (h : ReqHead) (s : State) : State × Bool :=
  match contextGet s h.ctx with
  | none => (reply h 10 sBADARG [] s, true)
  | some x =>
    let (s1, done) := endContext x s
    (if done then reply h 10 sOK [] s1 else s1, done)

/-! The order of requests (R413). -/

/-- The strand that waits for a service call (R389, R414). -/
def caller (img : Word) (s : State) : Option Off :=
  (offAt s img).filter fun o => o.why == .trapped && BitVec.ofNat 8 o.strand.cause.toNat == cSVC
/-- R414: END by a strand, and whether it is complete. -/
def svcEnd (img : Word) (s : State) : State × Bool :=
  match caller img s with
  | none => (s, true)
  | some o =>
    match contextGet s o.ctx with
    | none => (s, true)
    | some x =>
      let keep (p : Off) : Bool := p.strand.spillovf == img
      let s1 := completeCmds x.tag (dropStrands keep x.tag s)
      if o.strand.tval ≠ 1 then (s, true)
      else if accessesLeft x.tag keep s1 then (s1, false)
      else (emit (.ended o.ctx (o.strand.readG 5)) (removeContext x (dropStrands (fun _ => false) x.tag s1)), true)
/-- The service performs a request, and whether it is done. -/
def perform (i : Instr) (s : State) : State × Bool :=
  match i with
  | .define h n d b => (define h n d.record d.map b s, true)
  | .load h d b => (load h d b s, true)
  | .launch h q => launch h q s
  | .importPeer h q => (importHandle h q s, true)
  | .donsetup h q => (donsetup h q s, true)
  | .query h q => (query h q s, true)
  | .resume h i l => resumeHeld h i l s
  | .endCtx h => endRequest h s
  | .svcEnd i => svcEnd i s
  | _ => (s, true)
def sameCtx (i j : Instr) : Bool := (ctxOf i).isSome && ctxOf i == ctxOf j
/-- Put a request before the first of its context. -/
def putFirst (i : Instr) : List Instr → List Instr
  | [] => [i]
  | j :: l => if sameCtx i j then i :: j :: l else j :: putFirst i l
/-- R413: a request joins those that wait, in order of arrival; an END that finds a LAUNCH of its context waiting ends the
context, and goes first. -/
def queueRequest (i : Instr) (l : List Instr) : List Instr :=
  let launches (j : Instr) : Bool := match j with
    | .launch .. => true
    | _ => false
  let passes : Bool := match i with
    | .endCtx _ => l.any fun j => sameCtx i j && launches j
    | _ => false
  if passes then putFirst i l else l ++ [i]
def waitingSet (l : List Instr) (s : State) : State := { s with svc := { s.svc with waiting := l } }
/-- The service performs a waiting request that is the first of its context, or leaves it waiting. -/
def attempt (i : Instr) (s : State) : State :=
  let first : Bool := s.svc.waiting.contains i && (s.svc.waiting.find? (sameCtx i)).all (· == i)
  if !first then s
  else
    let (s1, done) := perform i (waitingSet (s.svc.waiting.erase i) s)
    if done then s1 else waitingSet (putFirst i s1.svc.waiting) s1
/-- R413: a request arrives. -/
def arrive (i : Instr) (s : State) : State := attempt i (waitingSet (queueRequest i s.svc.waiting) s)
/-- R413: the service takes up the requests that wait. -/
def serviceTurn (s : State) : State :=
  if s.svc.phase ≠ .running ∨ s.ckpt.flashing then s else s.svc.waiting.foldl (fun s i => attempt i s) s
/-- R401, R412: waiting requests are answered RETRY. -/
def retryWaiting (hit : ReqHead → Bool) (s : State) : State :=
  let out (i : Instr) : Bool := (headOf i).any fun e => hit e.2
  (s.svc.waiting.filter out).foldl (fun s i => match headOf i with
    | some (k, h) => reply h k sRETRY [] s
    | none => s) (waitingSet (s.svc.waiting.filter fun i => !out i) s)

def execDefine (h : ReqHead) (n : BitVec 18) (d : Definition) (init : List Byte) (s : State) : Outcome State :=
  accepted h 2 false s (arrive (.define h n d init))
def execLoad (h : ReqHead) (d : LoadDest) (bs : List Byte) (s : State) : Outcome State :=
  accepted h 3 false s (arrive (.load h d bs))
def execLaunch (h : ReqHead) (q : LaunchReq) (s : State) : Outcome State := accepted h 4 false s (arrive (.launch h q))
def execImportPeer (h : ReqHead) (q : ImportReq) (s : State) : Outcome State :=
  accepted h 5 false s (arrive (.importPeer h q))
def execDonsetup (h : ReqHead) (q : DonReq) (s : State) : Outcome State := accepted h 6 false s (arrive (.donsetup h q))
def execQuery (h : ReqHead) (q : QuerySel) (s : State) : Outcome State :=
  accepted h 7 false s (if s.svc.phase = .running then arrive (.query h q) else query h q)
def execResume (h : ReqHead) (img : Word) (limit : BitVec 48) (s : State) : Outcome State :=
  accepted h 9 false s (arrive (.resume h img limit))
def execEndCtx (h : ReqHead) (s : State) : Outcome State := accepted h 10 false s (arrive (.endCtx h))
/-- R414: END by a strand that made a service call; like a request, it may have to wait. -/
def execSvcEnd (img : Word) (s : State) : Outcome State :=
  .next (match caller img s with
    | none => s
    | some o => if o.strand.tval = 1 then arrive (.svcEnd img) s else s)

end Sys2Proof.Machine
end

