-- ==== Sys2Proof/Machine/Service.lean ====
section
/-! DEFINITION. The resident service: boot (R408), configuration (R412), service calls (R414), the board
controller's registers (R415), and its work on objects (R339, R347, R364). -/

namespace Sys2Proof.Machine

/-! Configuration (R412). -/

/-- Whether a live context occupies a die: with a core, a share, a join record, or memory in its stack. -/
def occupied (s : State) (d : DieId) : Bool :=
  s.svc.contexts.any fun x => x.cores.any (fun k => dieOf k == d) || x.held.any (fun h => dieOf h.core == d)
    || x.areas.any (fun e => dieOfCluster e.1 == d) || hbmUsed s x (d.toNat * 2 ^ 36, 2 ^ 36)
/-- R412, R399: PARTITION; the C-dies that wait to be mapped out leave their logical devices. -/
def partition (h : ReqHead) (p : List (BitVec 3)) (s : State) : State :=
  if p.length ≠ 8 then reply h 11 sBADARG [] s
  else
    let v : Vector (BitVec 3) 8 := Vector.ofFn fun i => p.getD i.val 0
    let busy := (List.range 8).any fun i =>
      let d : DieId := BitVec.ofNat 3 i
      (v[d.toNat] != partOfDie s d || s.pkg.mapOutNext[d.toNat]) && occupied s d
    if busy then reply h 11 sNORESOURCE [] s
    else reply h 11 sOK [] { s with pkg := { s.pkg with
      part := v
      mapOutDie := Vector.ofFn fun i => s.pkg.mapOutDie[i] || s.pkg.mapOutNext[i]
      mapOutNext := Vector.replicate 8 false } }
def execPartition (h : ReqHead) (p : List (BitVec 3)) (s : State) : Outcome State :=
  accepted h 11 true s (partition h p)
/-- R412, R258: TIMEOUT, in microseconds. -/
def execTimeout (h : ReqHead) (ld : BitVec 3) (us : Nat) (s : State) : Outcome State :=
  accepted h 11 true s fun s =>
    if 1000 ≤ us ∧ us ≤ 10000000 then
      reply h 11 sOK [] { s with pkg := { s.pkg with timeout := s.pkg.timeout.set ld.toNat us ld.isLt } }
    else reply h 11 sBADARG [] s
/-- R412, R325: BUDGET. -/
def execBudget (h : ReqHead) (d : DieId) (b high low : Nat) (s : State) : Outcome State :=
  accepted h 11 true s fun s =>
    if low < high then
      reply h 11 sOK [] { s with pkg := { s.pkg with budget := s.pkg.budget.set d.toNat ⟨b, high, low⟩ d.isLt } }
    else reply h 11 sBADARG [] s

/-- R327: the frequencies of a ratio, in units of 100 MHz. -/
def ratioFreqs (r : BitVec 2) : List Nat :=
  match r.toNat with
  | 0 => [40, 36, 32, 28]
  | 1 => [24, 20, 16]
  | 2 => [8, 6, 4]
  | _ => []
/-- R327: a cluster takes a ratio and a frequency; a ratio change stalls it 2 µs and a step 100 ns, and a stall that
still runs goes on to its own end. -/
def reclock (r : BitVec 2) (f : BitVec 8) (c : ClusterId) (s : State) : State :=
  let p := powerGet s c
  let n := if p.ratio ≠ r then 200 else if p.freq ≠ f then 10 else 0
  powerSet s c { p with
    ratio := r
    freq := f
    stall := if n = 0 then p.stall else some (Nat.max (s.pkg.time + n) (p.stall.getD 0)) }
/-- R412: CLOCK. -/
def execClock (h : ReqHead) (u : ClockUnit) (r : BitVec 2) (f : BitVec 8) (s : State) : Outcome State :=
  accepted h 11 true s fun s =>
    if !(ratioFreqs r).contains f.toNat then reply h 11 sBADARG [] s
    else
      let cs := match u with
        | .cluster c => [c]
        | .die d => (List.range (clusterCount s d)).map (mkCluster d)
      reply h 11 sOK [] (cs.foldl (fun s c => reclock r f c s) s)

/-- R329: the scratchpad, cluster SRAM, L1D and L2 of a die that goes OFF are lost. -/
def loseDie (d : DieId) (s : State) : State :=
  let s1 := clearRange (3 * 2 ^ 62 + d.toNat * 2 ^ 28) (2 ^ 28) (clearRange (2 ^ 62 + d.toNat * 2 ^ 28) (2 ^ 28) s)
  { s1 with
    clusters := s1.clusters.map fun e => if dieOfCluster e.1 = d then (e.1, { e.2 with l1 := [] }) else e
    l2 := s1.l2.filter fun e => e.1 != d
    dirty := s1.dirty.filter fun e => dieOf e.core != d }
/-- R412, R329: DIESTATE. -/
def execDiestate (h : ReqHead) (d : DieId) (m : DieMode) (s : State) : Outcome State :=
  accepted h 11 true s fun s =>
    let placed := (allCores s).filter fun e => e.2.mode != .vacant && dieOf e.1 == d
    let runs := placed.any fun e => e.2.mode != .idle
    let used := s.svc.contexts.any fun x => x.cores.any (fun k => dieOf k == d) || x.held.any fun e => dieOf e.core == d
    let ok := match m with
      | .active => true
      | .retain => !runs
      | .off => placed.isEmpty && !used
    if ok then
      let s1 := if m = .off then loseDie d s else s
      reply h 11 sOK [] { s1 with pkg := { s1.pkg with mode := s1.pkg.mode.set d.toNat m d.isLt } }
    else reply h 11 sNORESOURCE [] s
/-- R412, R257: PORT; requests that wait and came through the port are answered RETRY. -/
def execPort (h : ReqHead) (p : BitVec 2) (split : Bool) (s : State) : Outcome State :=
  accepted h 11 true s fun s =>
    let s1 := retryWaiting (fun e => e.port == p) s
    reply h 11 sOK [] { s1 with pkg := { s1.pkg with split := s1.pkg.split.set p.toNat split p.isLt } }

/-! The board controller (R415). -/

/-- R415: what a register reads; one that the table does not name reads zero (log 67). -/
def pmRead (r : BitVec 8) (s : State) : BitVec 16 :=
  let n := r.toNat
  if n < 0x30 then Config.sensor s.pkg.time r
  else if n = 0x30 then s.pkg.capWatts
  else if n = 0x31 then BitVec.ofNat 16 (s.ckpt.warned.toNat + 2 * s.ckpt.flashing.toNat + 4 * s.ckpt.marker.toNat)
  else if n = 0x32 then s.ckpt.seq
  else 0
/-- R415: an access by the board controller: X-die 0 answers at one address, X-die 1 at the other while its pair serves. -/
def execPowerCap (x : PmRequest) (s : State) : Outcome State :=
  .next (
    if !s.ckpt.powered || (x.second && !s.svc.standby) then s
    else match x.access with
      | .read r => emit (.register r (pmRead r s)) s
      | .write r v => if r = 0x30 then { s with pkg := { s.pkg with capWatts := v } } else s)

/-! Service calls (R414). -/

/-- R414: the result goes to g4 and the strand resumes at EPC + 4. -/
def callDone (o : Off) (v : Word) (s : State) : State :=
  let o1 := o.writeG 4 v
  let pc := o1.load.strand.epc + 4
  let o2 := { { o1 with strand := { o1.strand with pc := pc }, why := .preempted, pushed := 0 }.poke 0x23C0 fun _ => pc with
    why := .preempted }
  if coreFree s o.core then takeBack o o2 (fun o s => placeOff o o.core pc s) s else offSet o o2 s
/-- R414: the result of a call that fails. -/
def callFails : Word := BitVec.allOnes 64
/-- R414: the bytes of a REPORT, read as eight plain doubleword loads of the strand. -/
def callBytes (o : Off) (s : State) : M (List Byte) := do
  let groups := ((contextGet s o.ctx).map (·.groups.zeroExtend 64)).getD 0
  let g : Agent := ⟨o.core, o.ctx, o.strand.ortbase, groups⟩
  let l ← (List.range 8).mapM fun i => do
    let va := o.strand.readG 5 + W (8 * i)
    need (va.toNat % 8 == 0) cALIGNMENT va
    let ps ← translate s g va 8 .read
    needClean s va ps
    pure ((ps.map (pieceRead s (clusterOf o.core))).flatten)
  pure l.flatten
/-- R414: REPORT, and the answer to a call number that names nothing. -/
def execReport (img : Word) (s : State) : Outcome State :=
  match caller img s with
  | none => .next s
  | some o =>
    let n := o.strand.tval.toNat
    if n = 2 then
      .next (match callBytes o s with
        | .ok bs => callDone o 0 (emit (.report o.ctx bs) s)
        | .error _ => callDone o callFails s)
    else if n = 1 ∨ n = 3 then .next s
    else .next (callDone o callFails s)
/-- R359, R414: tiles pushed while the ring has room. -/
def pushTiles (p : ORec) : List Nat → State → Nat × State
  | [], s => (0, s)
  | x :: l, s => match pushTile s p x with
    | none => (0, s)
    | some s1 =>
      let (n, s2) := pushTiles p l s1
      (n + 1, s2)
/-- R414, R359: the volume and the pool that a REFILL names. -/
def refillPool (o : Off) (s : State) : M (ORec × ORec) := do
  let va := o.strand.readG 5
  let g : Agent := ⟨o.core, o.ctx, o.strand.ortbase, 0⟩
  need (spaceOf va == 0 && !inPeerWindow va) cPERMISSION va
  let r ← lookup s g (objOf va) va
  need (r.kind == kSPARSE) cPERMISSION va
  match poolOf s g r with
  | some p => pure (r, p)
  | none => trapM cALLOCATION va
/-- R414: REFILL with tiles that the service chooses. The pushes are ordinary ones, so that those which find no room
wait, and the call ends when all are made. -/
def execRefill (img : Word) (tiles : List Nat) (s : State) : Outcome State :=
  match caller img s with
  | none => .next s
  | some o =>
    if o.strand.tval ≠ 3 then .next s
    else .next (match refillPool o s with
      | .error _ => callDone o callFails s
      | .ok (r, p) =>
        let want := (o.strand.readG 6).toNat - o.pushed
        let part := ((contextGet s o.ctx).map (·.part)).getD 0
        let good := (tiles.filter fun x => x % r.leafBytes == 0 && placeOk s part (x, r.leafBytes)).take want
        let (n, s1) := pushTiles p good s
        if n = want then callDone o (o.strand.readG 6) s1
        else offSet o { o with pushed := o.pushed + n } s1)

/-! Boot (R408). -/

/-- R408 steps 2 and 3: whether a slot's image may run. -/
def slotOk (s : State) (b : BootSlot) : Bool :=
  let key := natBytes 64 b.key.toNat
  BitVec.ofNat 256 (bytesNat (Sm3.digest key)) == s.svc.vendorKey
    && Sm2.slotVerifies (Sm3.digest b.image) key (natBytes 64 b.sig.toNat) && decide (s.svc.fusedRollback ≤ b.rollback)
/-- R408: the boot ROM, at power-on and at a reset of the X-dies; the service runs on the pair of X-die 0. -/
def boot (s : State) : State :=
  match (s.svc.flash.take 2).find? (slotOk s) with
  | some b => { s with svc := { s.svc with
      phase := .running, standby := false, svcDigest := BitVec.ofNat 256 (bytesNat (Sm3.digest b.image)) } }
  | none => { s with svc := { s.svc with phase := .recovery, standby := false, svcDigest := 0 } }
/-- R408: a reset of the X-dies while flashing runs waits for its end, and one of a stopped device changes nothing (R401); that is
the model's choice (log 85). -/
def execBoot (s : State) : Outcome State := .next (
    if !s.ckpt.powered ∨ s.ckpt.flashing ∨ s.svc.phase = .stopped then s else boot s)

/-! The service's work on objects. -/

/-- An object of a context that the service may work on. -/
def objectOf (s : State) (t : Tag) (n : BitVec 18) : Option (Context × ORec) :=
  match contextGet s t with
  | none => none
  | some x => match recordAddr x.ortBase n with
    | none => none
    | some a => if (readRecord s a).ok s n then some (x, readRecord s a) else none
/-- R395: the poison of a range of HBM, at another place. -/
def movePoison (src dst n : Nat) (p : List Nat) : List Nat :=
  (p.filter fun u => decide (src ≤ u + 63) && decide (u < src + n)).foldl (fun l u => sortedInsert (dst + u - src) l)
    (clearPoison p dst n)
/-- R347 step 3, R395: the placement's bytes that are present, copied to the shadow with their poison. -/
def copyToShadow (s : State) (r : ORec) : State :=
  (extents s r).foldl (fun s e =>
    let dst := if r.kind = kMAPPED then mapEntry s r r.shadow (e.1 / r.subTile) else some (r.shadow + e.1)
    match dst with
    | none => s
    | some d =>
      let s1 := purgeRanges s r [(e.1, e.1 + e.2.2)]
      let s2 := cleanRange (dropRange s1 d e.2.2) d e.2.2
      { s2 with
        mem := memWrite s2.mem d (memRead s2.mem e.2.1 e.2.2)
        poison := movePoison e.2.1 d e.2.2 s2.poison }) s
/-- The steps of a relocation that have been made; 0 when none is under way. -/
def relocStage (s : State) (t : Tag) (n : BitVec 18) : Nat :=
  ((s.svc.relocs.find? fun r => r.ctx == t && r.obj == n).map (·.stage)).getD 0
/-- A relocation with the number of its steps made; 6 ends it. -/
def setStage (t : Tag) (n : BitVec 18) (k : Nat) (s : State) : State :=
  let rest := s.svc.relocs.filter fun r => !(r.ctx == t && r.obj == n)
  { s with svc := { s.svc with relocs := if k = 6 then rest else rest ++ [⟨t, n, k⟩] } }
/-- R347 step 3: whether every byte of the placement that is present has a place in the shadow. -/
def shadowHolds (s : State) (r : ORec) : Bool :=
  r.kind != kMAPPED || (List.range (ceilDiv r.bytes r.subTile)).all fun i =>
    (mapEntry s r r.place i).isNone || (mapEntry s r r.shadow i).isSome
/-- R347: one step of a relocation, made only after the step before it. -/
def execObjectRelocation (t : Tag) (n : BitVec 18) (st : RelocStep) (s : State) : Outcome State :=
  match objectOf s t n with
  | none => .next s
  | some (x, r) =>
    if r.kind ≠ kDENSE ∧ r.kind ≠ kMAPPED then .next s
    else
      let d0 := r.dw 0
      let k := relocStage s t n
      let step (s1 : State) : State := setStage t n (k + 1) s1
      let sync : State := match syncVersions t (some n) s with
        | .ok s1 => step s1
        | .error _ => s
      .next (match st, k with
        | .begin p map, 0 =>
          let r1 : ORec := (r.set 0 (setSlice d0 41 2 3)).set 4 p
          let s1 := if r.kind = kMAPPED then writeMap r1.shadow (map.take (ceilDiv r.bytes r.subTile)) s else s
          if r1.ok s n && (objectRanges s1 r1).all (placeOk s x.part) && shadowHolds s1 r1 then step (installRecord x n r1 s1) else s
        | .drain, 1 => sync
        | .copy, 2 => if shadowHolds s r then step (copyToShadow s r) else s
        | .publish, 3 => step (publishRecord s x.part t x.ortBase n r)
        | .finish, 4 => step (installRecord x n ((r.set 0 (setSlice d0 41 2 0)).set 4 0) s)
        | .free, 5 => sync
        | _, _ => s)

/-- R364: the value of the entry at an address on the path of a key in a tree, and whether it names a leaf. -/
def pathEntry (s : State) (r : ORec) (key at_ : Nat) : Nat → Nat → Option (Word × Bool)
  | 0, _ => none
  | i + 1, node =>
    let a := node + 8 * (key / 64 ^ i % 64)
    let ent := memWord s.mem a
    if ent = 0 ∨ !entryOk r (i == 0) ent then none
    else if a = at_ then some (ent, i == 0)
    else pathEntry s r key at_ i (slice ent 0 52)
/-- R364: whether a tile may be freed: a leaf, or a node whose every entry is null. -/
def freeable (s : State) (e : Word × Bool) : Bool :=
  e.2 || (List.range 64).all fun i => memWord s.mem (slice e.1 0 52 + 8 * i) == 0
/-- The tile on the path of a volume's key that is being freed and has come to a step. -/
def freeing (s : State) (t : Tag) (n : BitVec 18) (key stage : Nat) : Option TileFreeing :=
  s.svc.frees.find? fun f => f.ctx == t && f.obj == n && f.key == key && f.stage == stage
/-- Replace the record of a tile that is being freed; `none` ends it. -/
def setFreeing (f : TileFreeing) (g : Option TileFreeing) (s : State) : State :=
  { s with svc := { s.svc with frees := (s.svc.frees.filter (· != f)) ++ g.toList } }
/-- R364 step 4, R359: a freed tile goes to a pool. -/
def pushFreed (f : TileFreeing) (pool : Option ORec) (s : State) : State :=
  ((pool.bind fun p => pushTile s p f.tile).map (setFreeing f none)).getD s
/-- The ring of a context that may serve a volume as a pool (R359). -/
def poolNamed (s : State) (x : Context) (r : ORec) (n : BitVec 18) : Option ORec :=
  match findRecord s (serviceAgent s x) n 0 with
  | .ok p => if poolOk r p then some p else none
  | .error _ => none
/-- R362: a tile that the service takes from storage that no context uses, pushed to a volume's pool. -/
def pushFresh (x : Context) (r : ORec) (tile : Nat) (s : State) : State :=
  let y := (tile, r.leafBytes)
  if tile % r.leafBytes = 0 ∧ placeOk s x.part y ∧ s.svc.contexts.all (fun c => !hbmUsed s c y)
      ∧ !s.svc.frees.any (fun f => f.tile == tile) then
    ((poolOf s (serviceAgent s x) r).bind fun p => pushTile s p tile).getD s
  else s
/-- R364: one step of freeing a tile of a volume, made only after the step before it. A push of a tile that is not being freed is the
service's own, which refills a pool (R359, R362). -/
def execTileFree (t : Tag) (n : BitVec 18) (key : Nat) (st : FreeStep) (s : State) : Outcome State :=
  match objectOf s t n with
  | none => .next s
  | some (x, r) =>
    let at_ (k : Nat) : Option TileFreeing := freeing s t n key k
    let done (tile : Nat) : Option TileFreeing := s.svc.frees.find? fun f =>
      f.ctx == t && f.obj == n && f.key == key && f.stage == 3 && f.tile == tile
    let drop (f : TileFreeing) (keys : List Nat) (hit : ClbEntry → Bool) : State :=
      setFreeing f (some { f with stage := 2 }) (noteRemoval (clbDrop s x.part hit) t (some n) (some keys))
    let mine (e : ClbEntry) : Bool := e.ctx == t && e.obj == n
    if r.kind ≠ kSPARSE then .next s
    else .next (match st with
      | .unlink a => match pathEntry s r key a r.levels r.place with
        | none => s
        | some e =>
          if freeable s e then
            let f : TileFreeing := ⟨t, n, key, slice e.1 0 52, 1⟩
            setFreeing f (some f) { s with mem := memSetWord s.mem a 0 }
          else s
      | .invalidate => match at_ 1 with
        | some f => drop f [key] fun e => mine e && e.key == key
        | none => s
      | .invalidateAll => match at_ 1 with
        | some f => drop f (key :: clbKeys s x.part mine) mine
        | none => s
      | .drain => match at_ 2, syncVersions t (some n) s with
        | some f, .ok s1 => setFreeing f (some { f with stage := 3 }) s1
        | _, _ => s
      | .push tile => match done tile with
        | some f => pushFreed f (poolOf s (serviceAgent s x) r) s
        | none => pushFresh x r tile s
      | .pushTo pool tile => match done tile with
        | some f => pushFreed f (poolNamed s x r pool) s
        | none => s
      | .reuse tile => match done tile with
        | some f => setFreeing f none s
        | none => s)

/-- A sub-tile's bytes with the offsets of its poisoned units. -/
def tileSaved (s : State) (t : Tag) (n : BitVec 18) (i base len : Nat) : PagedTile :=
  ⟨t, n, i, memRead s.mem base len,
    (s.poison.filter fun u => decide (base ≤ u) && decide (u < base + len)).map fun u => u - base⟩
/-- A sub-tile's bytes and poison put in storage; that of a sub-tile which has never been resident is cleared (R180). -/
def tilePlaced (x : Option PagedTile) (base len : Nat) (s : State) : State :=
  let s1 := clearRange base len s
  match x with
  | none => s1
  | some p => { s1 with
      mem := memWrite s1.mem base p.bytes
      poison := p.bad.foldl (fun l u => sortedInsert (base + u) l) s1.poison }
/-- R339, R180: a map entry is written. A sub-tile that was resident loses its cached translations, when no command reads or
writes it any more; its bytes are those of its last place, or zero if it has had none. -/
def execResidencyChange (t : Tag) (n : BitVec 18) (i : Nat) (entry : Word) (s : State) : Outcome State :=
  match objectOf s t n with
  | none => .next s
  | some (x, r) =>
    let size := r.subTile
    let old := mapEntry s r r.place i
    let busy : Bool := old.any fun b => s.cmds.any fun c => touchesRange s c b size
    let new := mapEntry (writeMap (r.place + 8 * i) [entry] s) r r.place i
    if r.kind ≠ kMAPPED ∨ ceilDiv r.bytes r.subTile ≤ i ∨ relocStage s t n ≠ 0 ∨ busy
        ∨ !(new.all fun b => placeOk s x.part (b, size)) then .next s
    else
      let s1 := if old.isSome then purgeRanges s r [(i * size, (i + 1) * size)] else s
      let mine (e : PagedTile) : Bool := e.ctx == t && e.obj == n && e.idx == i
      let kept := match old with
        | some b => some (tileSaved s1 t n i b size)
        | none => s1.svc.paged.find? mine
      let rest := s1.svc.paged.filter fun e => !mine e
      let s2 := match new with
        | some b => { tilePlaced kept b size s1 with svc := { s1.svc with paged := rest } }
        | none => { s1 with svc := { s1.svc with paged := rest ++ kept.toList } }
      let s3 := writeMap (r.place + 8 * i) [entry] s2
      .next (if old.isSome then dropVersions s3 x.part t (some n) else s3)

end Sys2Proof.Machine
end

