-- ==== Sys2Proof/Machine/Recovery.lean ====
section
/-! DEFINITION. The promise of recovery: lines that leave caches (R197, R218), links (R396, R397), directory
recovery (R398), mapping out and fencing (R399, R400), the pair of service cores (R401), machine-check
records (R402), and flashing with its marker (R403 to R406, R416). -/

namespace Sys2Proof.Machine

/-! Lines. -/

/-- R354: the write-back of a hardware-coherent line that a core of a cluster holds dirty. -/
def cleanLine (c : ClusterId) (a : Nat) (s : State) : State :=
  dropDirty s fun e => e.addr == a && clusterOf e.core == c
/-- R183, R200, R218: a line leaves a cluster's L1Ds, or its die's L2 when no L1D of the die holds it. -/
def execLineEviction (c : ClusterId) (line : Nat) (s : State) : Outcome State :=
  let a := lineOf line
  .next (
    if ((clusterGet s c).line a).isSome then dropLine (writeBackLine s c a) c a
    else if s.dirty.any fun e => e.addr == a && clusterOf e.core == c then cleanLine c a s
    else if (s.clusters.any fun e => dieOfCluster e.1 == dieOfCluster c && ((clusterGet s e.1).line a).isSome)
        || (l2Get s (dieOfCluster c) a).any (·.mask != 0) then s
    else l2Drop s (dieOfCluster c) a)
/-- R197, R217: an invalidating snoop; a software-coherent line receives none. -/
def execSnoop (c : ClusterId) (line : Nat) (s : State) : Outcome State := .next (cleanLine c (lineOf line) s)

/-! Fencing. -/

/-- The clusters of a die position, or one cluster. -/
inductive FencedUnit where
  | die (d : DieId)
  | cluster (c : ClusterId)
  deriving DecidableEq, Repr
def inUnit (u : FencedUnit) (c : ClusterId) : Bool :=
  match u with
  | .die d => dieOfCluster c == d
  | .cluster x => c == x
/-- The join records that a context was given and has allocated (R286), by storage address. -/
def joinsOf (x : Context) : List Nat :=
  x.areas.flatMap fun e =>
    let free := ((x.pools.find? fun p => p.1 == e.1).map (·.2)).getD []
    (e.2.filter fun o => !free.contains o).map fun o => sramBase e.1 + o
/-- R399, R400: whether a context holds a strand, frame, join record, parked deque, window, share or dirty line
in a unit. -/
def holdsIn (s : State) (u : FencedUnit) (x : Context) : Bool :=
  let here (k : CoreId) : Bool := inUnit u (clusterOf k)
  x.held.any (fun h => here h.core)
    || (joinsOf x).any (fun a => inUnit u (joinCluster a))
    || s.svc.off.any (fun o => o.ctx == x.tag && here o.core)
    || (allCores s).any (fun e => here e.1
        && (e.2.mode != .vacant && tagOf e.2.strand == x.tag
          || e.2.win.toList.any fun w => w.st != .free && w.ctx == x.tag))
    || s.clusters.any (fun e => inUnit u e.1 && e.2.l1.any fun l => l.mask != 0 && l.tag == x.tag)
    || s.dirty.any fun e => here e.core && e.tag == x.tag
/-- R400: the engines, matrix units and caches of a unit answer nothing more; what they held is lost. -/
def silence (u : FencedUnit) (s : State) : State :=
  let clean (k : CoreId) (c : Core) : Core :=
    if inUnit u (clusterOf k) then { c with win := Vector.replicate 4 Window.zero, clb := [] } else c
  { s with
    core := clean s.cur s.core
    others := s.others.map fun e => (e.1, clean e.1 e.2)
    clusters := s.clusters.filter fun e => !inUnit u e.1
    l2 := s.l2.filter fun e => match u with
      | .die d => e.1 != d
      | .cluster _ => true
    dirty := s.dirty.filter fun e => !inUnit u (clusterOf e.core)
    cmds := s.cmds.filter fun c => !inUnit u (clusterOf c.core) }
/-- R400: fencing. -/
def fence (u : FencedUnit) (s : State) : State :=
  let losers := (s.svc.contexts.filter (holdsIn s u)).map (·.tag)
  let s1 := silence u s
  let s2 := { s1 with pkg := match u with
    | .die d => { s1.pkg with fencedDie := s1.pkg.fencedDie.set d.toNat true d.isLt }
    | .cluster c => { s1.pkg with fencedCluster := c :: s1.pkg.fencedCluster } }
  let unit := match u with
    | .die d => unitOf d.toNat 0 0 0 0
    | .cluster c => unitOfCluster c
  machineCheck 0 kFence unit 0 0 (losers.foldl (fun s t => failContext t s) s2)

/-! Links. -/

/-- R396: a flit recovered by replay has the effect of one good delivery. -/
def execFlitReplay (_l : Nat) (s : State) : Outcome State := .next s
/-- R398: the home's entry of a line is rebuilt from the dirty answers. -/
def directoryRecovery (line : Nat) (d : DieId) (s : State) : State :=
  let a := lineOf line
  machineCheck 0 kDirectory (unitOf d.toNat 2 0 0 0) a 0 (dropDirty (purgeLine s a) fun e => e.addr == a)
/-- The number of a flit class in a record's DETAIL: its row of R397. -/
def flitDetail (k : FlitClass) : Nat :=
  match k with
  | .data => 0
  | .request => 1
  | .directory => 2
/-- R394: the poison units of a 64-byte line. -/
def lineUnits (a : Nat) : List Nat := if isSp a || isSram a then [a, a + 16, a + 32, a + 48] else [a]
/-- R397: the fate of a flit of 64 bytes whose replay is exhausted; `die` is the die that cannot be reached. -/
def execReplayExhausted (l : Nat) (k : FlitClass) (line : Nat) (die : DieId) (rerouted : Bool) (s : State) : Outcome State :=
  let a := lineOf line
  let s1 := machineCheck 0 kReplay (unitOf die.toNat 0 0 0 l) a (flitDetail k) s
  .next (match k with
    | .data => { s1 with poison := (lineUnits a).foldl (fun p u => sortedInsert u p) s1.poison }
    | .request => if rerouted then s1 else fence (.die die) s1
    | .directory => directoryRecovery line die s1)
/-- The lane groups left on a link (R396). -/
def laneGroups (s : State) (l : Nat) : Nat := ((s.pkg.links.find? fun e => e.1 == l).map (·.2)).getD 4
/-- R396: the dies that the links without a group leave without a route are fenced. -/
def fenceCutOff (s : State) : State :=
  let dead := (s.pkg.links.filter fun e => e.2 == 0).map (·.1)
  (((List.range 8).map (BitVec.ofNat 3)).filter fun d => !s.pkg.fencedDie[d.toNat] && Config.cutOff dead d).foldl
    (fun s d => fence (.die d) s) s
/-- R396: a link keeps a number of lane groups; one left with none is mapped out. -/
def setGroups (l n : Nat) (s : State) : State :=
  let s1 := { s with pkg := { s.pkg with links := assocSet l n s.pkg.links } }
  if n = 0 then fenceCutOff s1 else s1
/-- R396: a lane group is mapped out. -/
def execLaneGroupMapout (l : Nat) (s : State) : Outcome State :=
  .next (machineCheck 0 kMapOut (unitOf 0 3 0 0 l) 0 (laneGroups s l - 1) (setGroups l (laneGroups s l - 1) s))
/-- R398: a die that has not answered the probe is fenced, and the entry is rebuilt from the others. -/
def execRecoveryTimeout (line : Nat) (die : DieId) (s : State) : Outcome State :=
  .next (directoryRecovery line die (fence (.die die) s))

/-- R402: the UNIT of a storage address. A stack of HBM is that of the die position address / 64 GiB (log 65). -/
def unitAt (a : Nat) : BitVec 24 :=
  if isSp a then
    let k : CoreId := BitVec.ofNat 11 ((a - 2 ^ 62) / 2 ^ 20)
    unitOf (dieOf k).toNat (if a % 2 ^ 20 < 0x80000 then 0 else 1) (clusterNo k) (coreNo k).toNat 0
  else if isSram a then unitOfCluster (joinCluster a)
  else unitOf (a / 2 ^ 36) 2 0 0 0
/-- R394, R395: the line in a cluster's L1Ds, or in a die's L2, is poisoned: the copy of a software-coherent line, and the one line
of storage that the hardware keeps coherent. -/
def spoilL1 (c : ClusterId) (a : Nat) (s : State) : State :=
  let cl := clusterGet s c
  if (cl.line a).isSome then
    clusterSet s c { cl with l1 := cl.l1.map fun l => if l.addr = a then { l with bad := true } else l }
  else { s with poison := sortedInsert a s.poison }
def spoilL2 (d : DieId) (a : Nat) (s : State) : State :=
  if (l2Get s d a).isSome then
    { s with l2 := s.l2.map fun e => if e.1 = d ∧ e.2.addr = a then (e.1, { e.2 with bad := true }) else e }
  else { s with poison := sortedInsert a s.poison }
/-- R394: a check of stored data, by the scrubber or at a read; a poisoned granule reads FULL. -/
def execPatrolScrub (x : EccSite) (e : EccKind) (s : State) : Outcome State :=
  .next (match x, e with
    | _, .sound => s
    | .unit a, .corrected => machineCheck 0 kCorrected (unitAt a) (poisonUnit a) 1 s
    | .unit a, .uncorrectable =>
      machineCheck 0 kPoisoned (unitAt a) (poisonUnit a) 0 { s with
        poison := sortedInsert (poisonUnit a) s.poison
        empty := if isSp a then setFull s.empty (poisonUnit a) 16 else s.empty }
    | .l1 c a, .corrected => machineCheck 0 kCorrected (unitOfCluster c) (lineOf a) 1 s
    | .l1 c a, .uncorrectable => machineCheck 0 kPoisoned (unitOfCluster c) (lineOf a) 0 (spoilL1 c (lineOf a) s)
    | .l2 d a, .corrected => machineCheck 0 kCorrected (unitOf d.toNat 0 0 0 0) (lineOf a) 1 s
    | .l2 d a, .uncorrectable => machineCheck 0 kPoisoned (unitOf d.toNat 0 0 0 0) (lineOf a) 0 (spoilL2 d (lineOf a) s)
    | .fe c, .corrected => machineCheck 0 kCorrected (unitOfCluster c) 0 1 s
    | .fe c, .uncorrectable => fence (.cluster c) s)

/-! Mapping out (R399). -/

/-- The number of the last enabled cluster of a die. -/
def lastCluster (s : State) (d : DieId) : ClusterId := mkCluster d (clusterCount s d - 1)
/-- An address in the scratchpads or the SRAM of one cluster as the same place of another's. -/
def clusterKey (z c : ClusterId) (a : Nat) : Nat :=
  if spBase (coreAt z 0) ≤ a ∧ a < spBase (coreAt z 0) + 2 ^ 23 then a - spBase (coreAt z 0) + spBase (coreAt c 0)
  else if sramBase z ≤ a ∧ a < sramBase z + 2 ^ 23 then a - sramBase z + sramBase c
  else a
def inClusterOf (c : ClusterId) (a : Nat) : Bool :=
  (decide (spBase (coreAt c 0) ≤ a) && decide (a < spBase (coreAt c 0) + 2 ^ 23))
    || (decide (sramBase c ≤ a) && decide (a < sramBase c + 2 ^ 23))
/-- A core of one cluster as the same core of another. -/
def clusterCore (z c : ClusterId) (k : CoreId) : CoreId := if clusterOf k = z then coreAt c k.toNat else k
/-- R3, R10: what the cores and the storage of cluster `c` hold is gone, and what those of cluster `z` hold is found under the number
of `c`. -/
def moveCluster (z c : ClusterId) (s : State) : State :=
  let keys (l : List Nat) : List Nat :=
    ((l.filter fun a => !inClusterOf c a).map (clusterKey z c)).foldl (fun l a => sortedInsert a l) []
  let own (e : CoreId × Core) : CoreId × Core := (e.1, { e.2 with ovf := clusterKey z c e.2.ovf })
  let cores := ((allCores s).filter fun e => clusterOf e.1 != c).map own
  let s1 := (List.range 8).foldl (fun s i => coreSet s (coreAt z i) Core.vacant)
    ((List.range 8).foldl (fun s i =>
      coreSet s (coreAt c i) (((cores.find? fun e => e.1 == coreAt z i).map (·.2)).getD Core.vacant)) s)
  let x := clusterGet s z
  { s1 with
    mem := (s.mem.filter fun e => inClusterOf z e.1).foldl (fun m e => memSet (clusterKey z c e.1) e.2 m)
      (s.mem.filter fun e => !(inClusterOf z e.1 || inClusterOf c e.1))
    empty := keys s.empty
    poison := keys s.poison
    sramBy := (s.sramBy.filter fun e => !inClusterOf c e.1).map fun e => (clusterKey z c e.1, e.2)
    clusters := clustersSet c x (s.clusters.filter fun e => e.1 != z)
    dirty := (s.dirty.filter fun e => clusterOf e.core != c).map fun e => { e with core := clusterCore z c e.core }
    cmds := s.cmds.map fun e => { e with core := clusterCore z c e.core }
    out := s.out.map fun e => { e with core := clusterCore z c e.core }
    svc := { s1.svc with contexts := s.svc.contexts.map fun y =>
      let num (l : List (ClusterId × List Nat)) : List (ClusterId × List Nat) :=
        (l.filter fun e => e.1 != c).map fun e => (if e.1 = z then c else e.1, e.2)
      { y with
        pools := num y.pools
        areas := num y.areas
        ovf := (y.ovf.filter fun e => clusterOf e.1 != c).map fun e => (clusterCore z c e.1, e.2)
        cores := (y.cores.filter fun k => clusterOf k != c).map (clusterCore z c) } } }
/-- What the cores and the storage of a cluster hold is gone. -/
def loseCluster (c : ClusterId) (s : State) : State :=
  let s1 := (List.range 8).foldl (fun s i => coreSet s (coreAt c i) Core.vacant) s
  { s1 with
    mem := s.mem.filter fun e => !inClusterOf c e.1
    empty := s.empty.filter fun a => !inClusterOf c a
    poison := s.poison.filter fun a => !inClusterOf c a
    sramBy := s.sramBy.filter fun e => !inClusterOf c e.1
    clusters := s.clusters.filter fun e => e.1 != c
    dirty := s.dirty.filter fun e => clusterOf e.core != c }
/-- R3, R10, R399: a cluster is mapped out; the position with the die's highest number takes its number, with all that its cores and
its storage hold. -/
def mapOutCluster (c : ClusterId) (s : State) : State :=
  let d := dieOfCluster c
  let z := lastCluster s d
  let l := s.pkg.mesh[d.toNat]
  let n := c.toNat % 32
  let s1 := if c = z then loseCluster c s else powerSet (moveCluster z c s) c (powerGet s z)
  let out := s1.pkg.fencedCluster.filter fun x => x != c
  { s1 with pkg := { s1.pkg with
    mesh := s1.pkg.mesh.set d.toNat ((l.set n (l.getD (clusterCount s d - 1) 0)).dropLast) d.isLt
    fencedCluster := out.map fun x => if x = z then c else x
    power := s1.pkg.power.filter fun e => e.1 != z } }
/-- Whether a live context has anything in a cluster. -/
def clusterUsed (s : State) (c : ClusterId) : Bool := s.svc.contexts.any (holdsIn s (.cluster c))
/-- R399: whether a unit may be mapped out now, and the package with it mapped out. The cluster that takes over the number
must be unused too, so that no live context sees a number change (R3, log 68). A C-die leaves at the next repartition. -/
def mapOutUnit (u : MapUnit) (s : State) : Option State :=
  match u with
  | .cluster c =>
    let d := dieOfCluster c
    if c.toNat % 32 < clusterCount s d ∧ !clusterUsed s c ∧ !clusterUsed s (lastCluster s d) then
      some (mapOutCluster c s) else none
  | .sdie d =>
    if s.svc.contexts.any fun x => x.held.any fun h => decide (0x80000 < h.lay.shareLimit) && dieOf h.core == d then none
    else some { s with pkg := { s.pkg with sdie := s.pkg.sdie.set d.toNat false d.isLt } }
  | .cdie d => some { s with pkg := { s.pkg with mapOutNext := s.pkg.mapOutNext.set d.toNat true d.isLt } }
  | .hbmChannel d ch =>
    if s.svc.contexts.any fun x => hbmUsed s x (d.toNat * 2 ^ 36 + ch % 32 * 2 ^ 31, 2 ^ 31) then none
    else some { s with pkg := { s.pkg with
      hbmOut := if s.pkg.hbmOut.contains (d, ch % 32) then s.pkg.hbmOut else (d, ch % 32) :: s.pkg.hbmOut } }
  | .link l => some (setGroups l 0 s)
/-- R402: the UNIT field of a unit that is mapped out. -/
def mapUnitName (u : MapUnit) : BitVec 24 :=
  match u with
  | .cluster c => unitOfCluster c
  | .sdie d => unitOf d.toNat 1 0 0 0
  | .cdie d => unitOf d.toNat 0 0 0 0
  | .hbmChannel d ch => unitOf d.toNat 2 0 0 ch
  | .link l => unitOf 0 3 0 0 l
def execMapOut (u : MapUnit) (s : State) : Outcome State :=
  .next (match mapOutUnit u s with
    | none => s
    | some s1 => machineCheck 0 kMapOut (mapUnitName u) 0 0 s1)

/-! Flashing (R403). -/

/-- R404: the marker's fields as bytes. -/
def markerBytes (phases : Nat) (seq : BitVec 16) (twarn tseal manifest : Nat) (digest : List Byte) : List Byte :=
  natBytes 4 0x4D425A43 ++ natBytes 2 phases ++ natBytes 2 seq.toNat ++ natBytes 8 twarn ++ natBytes 8 tseal
    ++ natBytes 8 manifest ++ digest
/-- R404: a marker is written, with its copy. -/
def writeMarker (bs : List Byte) (s : State) : State :=
  { s with mem := memWrite (memWrite s.mem Config.ridgeCap bs) Config.ridgeCapMirror bs }
/-- R403: the PHASES field in memory. -/
def markPhases (n : Nat) (s : State) : State :=
  let bits := natBytes 2 (2 ^ n - 1)
  { s with
    mem := memWrite (memWrite s.mem (Config.ridgeCap + 4) bits) (Config.ridgeCapMirror + 4) bits
    ckpt := { s.ckpt with phases := n } }
/-- R403, R404: the device begins flashing, at the board's warning or without it (R401). Both copies of the marker are written, so
that no sealed one is left. -/
def warn (board : Bool) (s : State) : State :=
  let seq := s.ckpt.seq + 1
  writeMarker (markerBytes 0 seq s.pkg.time 0 0 (zeros 32))
    { s with ckpt := { s.ckpt with
      warned := board || s.ckpt.warned, flashing := true, phases := 0, seq := seq, twarn := s.pkg.time, manifest := []
      sealedSeq := 0, marker := false } }

/-- R385, R405: the wait of a strand on a peer at the warning: one that restarts is withdrawn, another will stop
with REMOTE. -/
def cutWait (s : State) : State :=
  let p := s.core.strand.peer
  match p.wait with
  | none => s
  | some id =>
    let again := s.out.any fun x => x.req.id == id && peerRestarts x.req.op
    strandSet { s with out := s.out.filter fun x => x.req.id != id }
      { s.core.strand with peer := { p with wait := none, answer := if again then none else some .failed } }
/-- R403 phase 1: the strand of a core stops. -/
def flashStop (k : CoreId) (s : State) : State :=
  let s1 := focus s k
  let s2 := match s1.core.mode with
    | .arriving c => enterCont c s1
    | _ => s1
  if s2.core.mode = .vacant then s
  else
    let s3 := cutWait s2
    let s4 := completeMatrix k s3.core.strand.spillovf s3
    let img := s4.core.strand.spillovf
    let s5 := focus (parkStrand .preempted s4) s.cur
    { s5 with ckpt := { s5.ckpt with saved := s5.ckpt.saved ++ [img] } }
/-- R403: a region is written to HBM, and the manifest lists it. -/
def saveRegion (a : Nat) (bs : List Byte) (s : State) : State :=
  if bs = [] then s
  else { s with
    mem := memWrite s.mem a bs
    poison := clearPoison s.poison a bs.length
    ckpt := { s.ckpt with manifest := s.ckpt.manifest ++ [(a, bs.length)] } }
/-- R403 phase 2: the duties of a command that it has still to do, in the model's form (log 69). -/
def dutyBytes (c : Cmd) : List Byte :=
  let flag := match c.flag with
    | .none => [0, 0]
    | .add k _ => [1, k]
    | .barrier k => [2, k]
    | .peer h q => [3, h.toNat * 2 ^ 44 + q.off.toNat]
  let unit (u : EUnit) : List Byte :=
    let dst := match u.dst with
      | .mem k _ => [0, k]
      | .peer h q => [1, h.toNat * 2 ^ 44 + q.off.toNat]
    (dst ++ [u.bytes.length, u.poisoned.toNat]).flatMap (natBytes 8) ++ u.bytes.map (·.val)
  ([c.id, c.core.toNat, c.strand.toNat, c.addr.toNat, c.tok.toNat] ++ flag ++ [c.units.length]).flatMap (natBytes 8)
    ++ c.units.flatMap unit
/-- R403 phase 2, R405: a posted store that has not been acknowledged. -/
def postBytes (x : PeerOut) : List Byte :=
  match x.use, x.req.op with
  | .posted _, .store w v => [x.req.id, x.addr.toNat, w, v.toNat].flatMap (natBytes 8)
  | _, _ => []
def engineBytes (s : State) (x : Context) : List Byte :=
  (s.cmds.filter fun c => c.ctx == x.tag).flatMap dutyBytes ++ (s.out.filter fun o => o.ctx == x.tag).flatMap postBytes
def saveEngines (s : State) : State :=
  s.svc.contexts.foldl (fun s x => saveRegion x.saveArea (engineBytes s x) s) s
/-- Storage of a core's side, with a byte for each granule that says whether it is FULL and whether it is poisoned (R395). -/
def granuleBytes (s : State) (a n : Nat) : List Byte :=
  memRead s.mem a n ++ (List.range (n / 16)).map fun i =>
    BitVec.ofNat 8 ((!s.empty.contains (a + 16 * i)).toNat + 2 * (s.poison.contains (a + 16 * i)).toNat)
/-- R403 phase 3: a context's shares, join records and parked deques, the overflow among them. -/
def coreBytes (s : State) (x : Context) : List Byte :=
  x.held.flatMap (fun h => granuleBytes s (spBase h.core + h.lay.shareBase) (h.lay.shareLimit - h.lay.shareBase))
    ++ (joinsOf x).flatMap (fun a => granuleBytes s a 16)
    ++ (s.svc.off.filter fun o => o.ctx == x.tag).flatMap fun o => o.area ++ o.strand.slot.getD []
/-- R403 phase 3: the images of every strand, which are all off their cores; no line stays in a carve-out (R379). -/
def saveImages (s : State) : State :=
  let s1 := s.svc.off.foldl (fun s o =>
    let s1 := writeImage o.strand s
    { s1 with ckpt := { s1.ckpt with manifest := s1.ckpt.manifest ++ [(o.strand.spillovf.toNat, 0x3000)] } }) s
  { s1 with svc := { s1.svc with off := s1.svc.off.map fun o => { o with strand := { o.strand with carved := [] } } } }
def saveCores (s : State) : State :=
  s.svc.contexts.foldl (fun s x => saveRegion (x.saveArea + (engineBytes s x).length) (coreBytes s x) s) s
/-- R403 phase 3: a dirty line of an L1D is merged into its entry in the die's L2, which holds its bytes dirty. -/
def l2Absorb (d : DieId) (l : L1Line) (s : State) : State :=
  let s1 := charge l.tag 0 1 0 s
  let old := (l2Get s d l.addr).getD ⟨l.addr, memRead s.mem l.addr 64, 0, s.poison.contains l.addr⟩
  { s1 with l2 := (d, ⟨l.addr, mergeBytes l.mask.toNat old.data l.data, old.mask ||| l.mask, mergeMark l.bad l.mask old.bad⟩)
      :: s1.l2.filter fun e => !(e.1 == d && e.2.addr == l.addr) }
def emptyL1 (s : State) : State :=
  let s1 := s.clusters.foldl (fun s e => (e.2.l1.filter fun l => l.mask != 0).foldl
    (fun s l => l2Absorb (dieOfCluster e.1) l s) s) s
  { s1 with clusters := s1.clusters.map fun e => (e.1, { e.2 with l1 := [] }) }
/-- R403 phase 4: every dirty line reaches its home, with its mark (R395). -/
def flushLines (s : State) : State :=
  let l2 := (s.l2.filter fun e => e.2.mask != 0).map (·.2)
  let lines := l2.map (·.addr) ++ s.dirty.map (·.addr)
  let s1 := dropDirty { s with
    mem := l2.foldl (fun m l => memMerge m l.addr l.mask.toNat l.data) s.mem
    poison := l2.foldl (fun p l => mergeHome l.bad l.mask l.addr p) s.poison
    l2 := [] } fun _ => true
  { s1 with ckpt := { s1.ckpt with manifest := s1.ckpt.manifest ++ lines.map fun a => (a, 64) } }
/-- R404: the flush manifest's bytes, filled up with pairs of zeros to a whole number of 4,096 entries (log 70). -/
def manifestBytes (l : List (Nat × Nat)) : List Byte :=
  l.flatMap (fun e => natBytes 8 e.1 ++ natBytes 8 e.2) ++ zeros (16 * (4096 * ceilDiv l.length 4096 - l.length))
/-- R404: phase 5. -/
def sealMarker (s : State) : State :=
  let bs := manifestBytes s.ckpt.manifest
  let where_ := Config.manifestBase + ceilDiv s.ckpt.manifest.length 4096 * 2 ^ 52
  let s1 := { s with mem := memWrite s.mem Config.manifestBase bs }
  writeMarker (markerBytes 15 s.ckpt.seq s.ckpt.twarn s.pkg.time where_ (Sm3.digest bs))
    { s1 with ckpt := { s1.ckpt with phases := 5, sealedSeq := s.ckpt.seq, marker := true } }

/-- R327: whether a stall holds matrix commands, for which phase 1 has to wait, and the tick of TIME for which it waits. -/
def mxStalled (s : State) : Bool := s.clusters.any fun e => e.2.mx.pending != [] && stalled s e.1
def stallTick (s : State) : State :=
  match execTickEdge s with
  | .next s1 => (s1.pkg.power.map (·.1)).foldl (fun s c => match execStallEnd c s with
    | .next t => t
    | _ => s) s1
  | _ => s
/-- R403: the next phase of flashing, 6 being the self-refresh of HBM. -/
def nextPhase (s : State) : State :=
  match s.ckpt.phases with
  | 0 => if mxStalled s then stallTick s else markPhases 1 ((allCores s).foldl (fun s e => flashStop e.1 s) s)
  | 1 => markPhases 2 (saveEngines s)
  | 2 => markPhases 3 (emptyL1 (saveCores (saveImages s)))
  | 3 => markPhases 4 (flushLines s)
  | 4 => sealMarker s
  | _ => { s with ckpt := { s.ckpt with phases := 6 } }
/-- R403: the warning, and then a phase at a time. -/
def execFlashing (s : State) : Outcome State :=
  .next (if !s.ckpt.powered then s else if s.ckpt.flashing then nextPhase s else warn true s)

/-- R405: a saved strand resumes as a migration does; posted stores are sent again. -/
def resumeSaved (img : Word) (s : State) : State :=
  match s.svc.off.find? fun o => o.strand.spillovf == img with
  | none => s
  | some o =>
    if coreFree s o.core then
      takeBack o o (fun o s => edgeAcquire (placeOff o o.core (o.resumePc none) (edgeRelease s (clusterOf o.core)))
        ⟨o.core, o.ctx, o.strand.ortbase, 0⟩) s
    else s
def resumeAll (s : State) : State :=
  let s1 := s.ckpt.saved.foldl (fun s i => resumeSaved i s) s
  answerDeferred { s1 with
    out := s1.out.map fun x => { x with sent := s1.pkg.time }
    ckpt := { s1.ckpt with saved := [] } }
/-- Flashing runs on to the end of phase 5; a stall lasts at most 200 ticks (R327). -/
def finishPhases : Nat → State → State
  | 0, s => s
  | n + 1, s => if s.ckpt.phases < 5 then finishPhases n (nextPhase s) else s
/-- R406: the warning is withdrawn. -/
def execWarningWithdrawn (s : State) : Outcome State :=
  .next (
    if !s.ckpt.flashing then s
    else if s.svc.phase = .stopped then { s with ckpt := { s.ckpt with warned := false } }
    else
      let s1 := finishPhases 256 s
      let s2 := { s1 with ckpt := { s1.ckpt with flashing := false, warned := false } }
      if s2.svc.phase = .running then resumeAll s2 else s2)

/-! Supply. -/

/-- R404: a marker's digest and completeness. -/
def markerSealed (s : State) (a : Nat) : Bool :=
  let m := memWord s.mem (a + 24)
  let bs := memRead s.mem (slice m 0 52) (65536 * slice m 52 12)
  bytesNat (memRead s.mem a 4) == 0x4D425A43 && bytesNat (memRead s.mem (a + 4) 2) == 15
    && memRead s.mem (a + 32) 32 == Sm3.digest bs
/-- R405: the marker with the higher SEQ. -/
def latestMarker (s : State) : Nat :=
  let seq (a : Nat) : Nat := bytesNat (memRead s.mem (a + 6) 2)
  if seq Config.ridgeCap < seq Config.ridgeCapMirror then Config.ridgeCapMirror else Config.ridgeCap
/-- What the supply holds up is gone: registers, scratchpad, cluster SRAM, caches and engines. -/
def loseVolatile (s : State) : State :=
  { s with
    core := Core.vacant
    others := []
    mem := s.mem.filter fun e => decide (e.1 < 2 ^ 62)
    empty := []
    poison := s.poison.filter fun u => decide (u < 2 ^ 62)
    clusters := []
    l2 := []
    dirty := []
    sramBy := []
    cmds := []
    removals := []
    out := []
    held := []
    appends := [] }
/-- R404, R416: the held-up supply fails. -/
def execHoldUpEnd (s : State) : Outcome State :=
  .next (
    if !s.ckpt.powered ∨ !s.ckpt.flashing then s
    else
      let s1 := if 5 ≤ s.ckpt.phases then s else loseVolatile s
      { s1 with
        ckpt := { s1.ckpt with powered := false, flashing := false, warned := false }
        svc := { s1.svc with phase := .unbooted } })
/-- R405: the supply returns: boot, and then the contexts resume or fail. -/
def execSupplyReturn (s : State) : Outcome State :=
  .next (
    if s.ckpt.powered then s
    else
      let s1 := boot { s with ckpt := { s.ckpt with powered := true } }
      if s1.svc.phase ≠ .running then s1
      else if markerSealed s1 (latestMarker s1) then resumeAll s1
      else
        let s2 := (s1.svc.contexts.map (·.tag)).foldl (fun s t => failContext t s) s1
        answerDeferred { s2 with ckpt := { s2.ckpt with saved := [] } })
/-- R416: the auxiliary rail no longer holds HBM. -/
def execAuxRailExpiry (s : State) : Outcome State :=
  .next (
    if s.ckpt.powered then s
    else
      let s1 := loseVolatile s
      { s1 with mem := [], poison := [], ckpt := { s1.ckpt with sealedSeq := 0, marker := false } })

/-! The pair of service cores (R401). -/

/-- R401: an uncorrectable error in service memory: restored from the mirror, or, in both at one line, flashing
after which the device stays stopped. -/
def execMirrorRestore (line : Nat) (both : Bool) (s : State) : Outcome State :=
  .next (
    if both then
      let s1 := if s.ckpt.flashing then s else warn false s
      { s1 with svc := { s1.svc with phase := .stopped } }
    else machineCheck 0 kMirror (unitOf 0 3 0 0 0) (lineOf line) 0 s)
/-- R401: the standby pair takes over; the requests in progress are answered RETRY. -/
def execLockstepMismatch (s : State) : Outcome State :=
  let s1 := retryWaiting (fun _ => true) { s with svc := { s.svc with standby := !s.svc.standby } }
  .next (machineCheck 0 kLockstep (unitOf s.svc.standby.toNat 3 0 0 0) 0 0 s1)

end Sys2Proof.Machine
end

