-- ==== Sys2Proof/Machine/Device.lean ====
section
/-! DEFINITION. What the device does by itself between the instructions of strands: the engines, the matrix units and
the requests that wait are served in turn (R76, R230, R314, R320), the service takes up what waits (R413), and TIME
moves on (R316). -/

namespace Sys2Proof.Machine

/-- The state after a step that always has one. -/
def after (r : Outcome State) (s : State) : State :=
  match r with
  | .next t => t
  | _ => s
/-- A step of one of the device's agents. -/
def agentStep (i : Instr) (s : State) : State :=
  match i with
  | .engineWrite c u f => after (execEngineWrite c u f s) s
  | .commandComplete c => after (execCommandComplete c s) s
  | .thatchAdmission k => after (execThatchAdmission k s) s
  | .matrixIssue c => after (execMatrixIssue c s) s
  | .issueEnd c => after (execIssueEnd c s) s
  | .bulkWr q => after (execBulkWr q s) s
  | .bulkRd q => after (execBulkRd q s) s
  | .flag q => after (execFlag q s) s
  | .ord q => after (execOrd q s) s
  | .syncClass q => after (execSyncClass q s) s
  | .don q => after (execDon q s) s
  | _ => s

/-- The next step of a matrix unit that need not wait for TIME, unless a stall holds it. -/
def matrixStep (s : State) (c : ClusterId) (u : MxUnit) : Option Instr :=
  if stalled s c then none
  else match matrixEvent c u with
    | some (.groupDeadline _) => none
    | r => r
/-- The agents that can act, by number, each with its next step: the engine queue of each core, each cluster's matrix
unit, and the requests between logical devices that have been made here or are held here (R256, R259). -/
def agents (s : State) : List (Nat × Instr) :=
  let queue (c : Cmd) : Option (Nat × Instr) :=
    ((s.cmds.filter fun d => d.core == c.core).findSome? (commandEvent s)).map fun i => (c.core.toNat, i)
  let unit (e : ClusterId × Cluster) : Option (Nat × Instr) := (matrixStep s e.1 e.2.mx).map fun i => (2048 + e.1.toNat, i)
  let reqs := (s.out.map (·.req)).filter (·.own) ++ s.held
  s.cmds.filterMap queue ++ s.clusters.filterMap unit ++ ((reqEvent reqs s).map fun i => (2304, i)).toList
/-- R320: the agent whose turn comes first after the one served last. -/
def nextAgent (s : State) : Option (Nat × Instr) :=
  let far (n : Nat) : Nat := (n + 4096 - (s.served + 1) % 4096) % 4096
  (agents s).foldl (fun best e => match best with
    | none => some e
    | some b => if far e.1 < far b.1 then some e else some b) none

/-- R310, R327, R258, R316: TIME moves on by a tick: deadlines, ends of stalls and timeouts that have come take effect. -/
def passTime (s : State) : State :=
  let s1 := (s.clusters.map (·.1)).foldl (fun s c => after (execGroupDeadline c s) s) s
  let s2 := after (execTickEdge s1) s1
  let s3 := (s2.pkg.power.map (·.1)).foldl (fun s c => after (execStallEnd c s) s) s2
  (s3.out.map (·.req.id)).foldl (fun s i => abandon i s) s3
/-- The turn of the agent that comes next, if one can act. -/
def agentTurn (s : State) : Option State := (nextAgent s).map fun e => agentStep e.2 { s with served := e.1 }
/-- The service and one agent have a turn. -/
def deviceWork (s : State) : State :=
  let s1 := serviceTurn s
  (agentTurn s1).getD s1
/-- One turn of the device while the current core waits: when no agent can act and no other strand runs, TIME passes. -/
def deviceStep (s : State) : State :=
  let s1 := serviceTurn s
  (agentTurn s1).getD (if othersRun s1 then s1 else passTime s1)

end Sys2Proof.Machine
end

