-- ==== Sys2Proof/Machine/Integer.lean ====
section
/-! DEFINITION. Integer and control instructions (R52 to R67): register-register and immediate
arithmetic, bit fields, compares, selection, control transfers and counted loops. -/

namespace Sys2Proof.Machine

/-- Write an integer result and retire (R52). -/
def retireG (s : State) (d : Reg) (x : Word) : Outcome State :=
  .next (retireWith .scalar s (s.core.strand.writeG d x))

/-- R53: a register-register instruction applies its operation to G[rs1] and G[rs2]. -/
def binary (f : Word → Word → Word) (d a b : Reg) (s : State) : Outcome State :=
  retireG s d (f (s.core.strand.readG a) (s.core.strand.readG b))
/-- An instruction of one source register. -/
def unary (f : Word → Word) (d a : Reg) (s : State) : Outcome State := retireG s d (f (s.core.strand.readG a))

/-- R53: bits 127:64 of the signed and of the unsigned product. -/
def opMulh (a b : Word) : Word := BitVec.ofInt 64 ((a.toInt * b.toInt) / 2 ^ 64)
def opMulhu (a b : Word) : Word := W (a.toNat * b.toNat / 2 ^ 64)
/-- R53, R54: quotients and remainders; division never traps. -/
def opDiv (a b : Word) : Word := if b = 0 then BitVec.allOnes 64 else BitVec.ofInt 64 (a.toInt.tdiv b.toInt)
def opDivu (a b : Word) : Word := if b = 0 then BitVec.allOnes 64 else W (a.toNat / b.toNat)
def opRem (a b : Word) : Word := if b = 0 then a else BitVec.ofInt 64 (a.toInt.tmod b.toInt)
def opRemu (a b : Word) : Word := if b = 0 then a else W (a.toNat % b.toNat)
/-- R53: register shifts ignore bits 63:6 of b. -/
def opSll (a b : Word) : Word := a <<< (b.toNat % 64)
def opSrl (a b : Word) : Word := a >>> (b.toNat % 64)
def opSra (a b : Word) : Word := a.sshiftRight (b.toNat % 64)
def opMin (a b : Word) : Word := if a.toInt ≤ b.toInt then a else b
def opMax (a b : Word) : Word := if a.toInt ≤ b.toInt then b else a
def opMinu (a b : Word) : Word := if a.toNat ≤ b.toNat then a else b
def opMaxu (a b : Word) : Word := if a.toNat ≤ b.toNat then b else a

def execNop (s : State) : Outcome State := .next (retire .scalar s)
/-- R65: YIELD retires without changing architectural state. -/
def execYield (s : State) : Outcome State := .next (retire .scalar s)
def execAdd (d a b : Reg) (s : State) : Outcome State := binary (· + ·) d a b s
def execSub (d a b : Reg) (s : State) : Outcome State := binary (· - ·) d a b s
def execMul (d a b : Reg) (s : State) : Outcome State := binary (· * ·) d a b s
def execMulh (d a b : Reg) (s : State) : Outcome State := binary opMulh d a b s
def execMulhu (d a b : Reg) (s : State) : Outcome State := binary opMulhu d a b s
def execDiv (d a b : Reg) (s : State) : Outcome State := binary opDiv d a b s
def execDivu (d a b : Reg) (s : State) : Outcome State := binary opDivu d a b s
def execRem (d a b : Reg) (s : State) : Outcome State := binary opRem d a b s
def execRemu (d a b : Reg) (s : State) : Outcome State := binary opRemu d a b s
def execAnd (d a b : Reg) (s : State) : Outcome State := binary (· &&& ·) d a b s
def execOr (d a b : Reg) (s : State) : Outcome State := binary (· ||| ·) d a b s
def execXor (d a b : Reg) (s : State) : Outcome State := binary (· ^^^ ·) d a b s
def execSll (d a b : Reg) (s : State) : Outcome State := binary opSll d a b s
def execSrl (d a b : Reg) (s : State) : Outcome State := binary opSrl d a b s
def execSra (d a b : Reg) (s : State) : Outcome State := binary opSra d a b s
def execMin (d a b : Reg) (s : State) : Outcome State := binary opMin d a b s
def execMax (d a b : Reg) (s : State) : Outcome State := binary opMax d a b s
def execMinu (d a b : Reg) (s : State) : Outcome State := binary opMinu d a b s
def execMaxu (d a b : Reg) (s : State) : Outcome State := binary opMaxu d a b s
def execClz (d a : Reg) (s : State) : Outcome State := unary (fun x => W (clzNat x.toNat)) d a s
def execCtz (d a : Reg) (s : State) : Outcome State := unary (fun x => W (ctzNat 64 x.toNat)) d a s
def execPopc (d a : Reg) (s : State) : Outcome State := unary (fun x => W (popcNat 64 x.toNat)) d a s
/-- R55: ADDI sign-extends its immediate, the logical immediates are zero-extended. -/
def execAddi (d a : Reg) (i : BitVec 16) (s : State) : Outcome State := unary (· + i.signExtend 64) d a s
def execAndi (d a : Reg) (i : BitVec 16) (s : State) : Outcome State := unary (· &&& i.zeroExtend 64) d a s
def execOri (d a : Reg) (i : BitVec 16) (s : State) : Outcome State := unary (· ||| i.zeroExtend 64) d a s
def execXori (d a : Reg) (i : BitVec 16) (s : State) : Outcome State := unary (· ^^^ i.zeroExtend 64) d a s
/-- R56 -/
def execSlli (d a : Reg) (n : BitVec 6) (s : State) : Outcome State := unary (· <<< n.toNat) d a s
def execSrli (d a : Reg) (n : BitVec 6) (s : State) : Outcome State := unary (· >>> n.toNat) d a s
def execSrai (d a : Reg) (n : BitVec 6) (s : State) : Outcome State := unary (·.sshiftRight n.toNat) d a s
/-- R57: LUI replaces one halfword of G[rd]. -/
def execLui (d : Reg) (h : BitVec 2) (i : BitVec 16) (s : State) : Outcome State :=
  retireG s d (setSlice (s.core.strand.readG d) (16 * h.toNat) 16 i.toNat)
/-- R58: EXTR takes bits pos + len - 1 : pos; `l` is len - 1. -/
def opExtr (x : Word) (sign : Bool) (p l : BitVec 6) : Word :=
  let n := l.toNat + 1
  if sign then sextNat n (slice x p.toNat n) else W (slice x p.toNat n)
def execExtr (d a : Reg) (sg : Bool) (p l : BitVec 6) (s : State) : Outcome State :=
  unary (fun x => opExtr x sg p l) d a s
/-- R58: INS replaces bits pos + len - 1 : pos of G[rd]. -/
def execIns (d a : Reg) (p l : BitVec 6) (s : State) : Outcome State :=
  let t := s.core.strand
  retireG s d (setSlice (t.readG d) p.toNat (l.toNat + 1) (t.readG a).toNat)

/-- R59 -/
def execCmp (p : BitVec 3) (a b : Reg) (c : BitVec 4) (s : State) : Outcome State :=
  let t := s.core.strand
  .next (retireWith .scalar s (t.writeP p (intCond c (t.readG a) (t.readG b))))
def execCmpi (p : BitVec 3) (a : Reg) (i : BitVec 12) (c : BitVec 4) (s : State) : Outcome State :=
  let t := s.core.strand
  .next (retireWith .scalar s (t.writeP p (intCond c (t.readG a) (i.signExtend 64))))

/-- R61: the mask is all ones when the rm field is 0. -/
def selMask (t : Strand) (m : Reg) : Word := if m = 0 then BitVec.allOnes 64 else t.readG m
def execSel (g : Guard) (d a m : Reg) (s : State) : Outcome State :=
  let t := s.core.strand
  if guardHolds g t then
    let k := selMask t m
    retireG s d ((t.readG a &&& k) ||| (t.readG d &&& ~~~k))
  else .next (retire .scalar s)

/-- R62 -/
def execB (g : Guard) (d : BitVec 22) (s : State) : Outcome State :=
  let t := s.core.strand
  .next (if guardHolds g t then jumpTo (blockTarget t.pc d) .scalar s else retire .scalar s)
def execCall (g : Guard) (d : BitVec 22) (s : State) : Outcome State :=
  let t := s.core.strand
  .next (if guardHolds g t then
      jumpTo (blockTarget t.pc d) .scalar (strandSet s (t.writeG 1 (nextBlock t.pc)))
    else retire .scalar s)

/-- R34, R64: a transfer to a register value, which must start a fetch block. -/
def jumpReg (g : Guard) (r : Reg) (s : State) : Outcome State :=
  let t := s.core.strand
  if guardHolds g t then
    finish s (do
      need (slice (t.readG r) 0 6 == 0) cALIGNMENT (t.readG r)
      pure (jumpTo (t.readG r) .scalar s))
  else .next (retire .scalar s)
def execJr (g : Guard) (a : Reg) (s : State) : Outcome State := jumpReg g a s
def execRet (g : Guard) (s : State) : Outcome State := jumpReg g 1 s

/-- R66: LOOP starts a body at the next fetch block; `l` is the length less one. -/
def execLoop (k : BitVec 2) (a : Reg) (l : BitVec 8) (s : State) : Outcome State :=
  let t := s.core.strand
  let n := t.readG a
  let beg := nextBlock t.pc
  let len := l.toNat + 1
  .next (
    if h : k.toNat < 3 then
      if n = 0 then
        jumpTo (beg + W (4 * len)) .scalar
          (strandSet s { t with lcnt := t.lcnt.set k.toNat 0 h, lact := t.lact &&& ~~~(1#3 <<< k.toNat) })
      else
        jumpTo beg .scalar
          (strandSet s { t with
            lcnt := t.lcnt.set k.toNat n h
            lbeg := t.lbeg.set k.toNat beg h
            llen := t.llen.set k.toNat (BitVec.ofNat 16 len) h
            lact := t.lact ||| (1#3 <<< k.toNat) })
    else takeTrap cILLEGAL false (instrVal (.loop k a l)) s)

end Sys2Proof.Machine
end

