-- ==== Sys2Proof/Machine/Dispatch.lean ====
section
/-! DEFINITION. One arm for every instruction and step: a call of its meaning. -/

namespace Sys2Proof.Machine

/-- What an instruction or step does to the machine. -/
def exec (i : Instr) (s : State) : Host.Outcome State Fault Refusal :=
  match i with
  | .nop => Sys2Proof.Machine.execNop s
  | .yield => Sys2Proof.Machine.execYield s
  | .hbeat => Sys2Proof.Machine.execHbeat s
  | .add d a b => Sys2Proof.Machine.execAdd d a b s
  | .sub d a b => Sys2Proof.Machine.execSub d a b s
  | .mul d a b => Sys2Proof.Machine.execMul d a b s
  | .mulh d a b => Sys2Proof.Machine.execMulh d a b s
  | .mulhu d a b => Sys2Proof.Machine.execMulhu d a b s
  | .div d a b => Sys2Proof.Machine.execDiv d a b s
  | .divu d a b => Sys2Proof.Machine.execDivu d a b s
  | .rem d a b => Sys2Proof.Machine.execRem d a b s
  | .remu d a b => Sys2Proof.Machine.execRemu d a b s
  | .and d a b => Sys2Proof.Machine.execAnd d a b s
  | .or d a b => Sys2Proof.Machine.execOr d a b s
  | .xor d a b => Sys2Proof.Machine.execXor d a b s
  | .sll d a b => Sys2Proof.Machine.execSll d a b s
  | .srl d a b => Sys2Proof.Machine.execSrl d a b s
  | .sra d a b => Sys2Proof.Machine.execSra d a b s
  | .min d a b => Sys2Proof.Machine.execMin d a b s
  | .max d a b => Sys2Proof.Machine.execMax d a b s
  | .minu d a b => Sys2Proof.Machine.execMinu d a b s
  | .maxu d a b => Sys2Proof.Machine.execMaxu d a b s
  | .clz d a => Sys2Proof.Machine.execClz d a s
  | .ctz d a => Sys2Proof.Machine.execCtz d a s
  | .popc d a => Sys2Proof.Machine.execPopc d a s
  | .addi d a i0 => Sys2Proof.Machine.execAddi d a i0 s
  | .andi d a i0 => Sys2Proof.Machine.execAndi d a i0 s
  | .ori d a i0 => Sys2Proof.Machine.execOri d a i0 s
  | .xori d a i0 => Sys2Proof.Machine.execXori d a i0 s
  | .slli d a n => Sys2Proof.Machine.execSlli d a n s
  | .srli d a n => Sys2Proof.Machine.execSrli d a n s
  | .srai d a n => Sys2Proof.Machine.execSrai d a n s
  | .lui d h i0 => Sys2Proof.Machine.execLui d h i0 s
  | .extr d a s0 p l => Sys2Proof.Machine.execExtr d a s0 p l s
  | .ins d a p l => Sys2Proof.Machine.execIns d a p l s
  | .fadd d a b t r => Sys2Proof.Machine.execFadd d a b t r s
  | .fsub d a b t r => Sys2Proof.Machine.execFsub d a b t r s
  | .fmul d a b t r => Sys2Proof.Machine.execFmul d a b t r s
  | .fdiv d a b t r => Sys2Proof.Machine.execFdiv d a b t r s
  | .fsqrt d a t r => Sys2Proof.Machine.execFsqrt d a t r s
  | .fmin d a b t => Sys2Proof.Machine.execFmin d a b t s
  | .fmax d a b t => Sys2Proof.Machine.execFmax d a b t s
  | .fclass d a t => Sys2Proof.Machine.execFclass d a t s
  | .fmvgf d a => Sys2Proof.Machine.execFmvgf d a s
  | .fmvfg d a => Sys2Proof.Machine.execFmvfg d a s
  | .fcmp p a b t c => Sys2Proof.Machine.execFcmp p a b t c s
  | .fcvt d a r dst src => Sys2Proof.Machine.execFcvt d a r dst src s
  | .ffma d a b c t r n => Sys2Proof.Machine.execFfma d a b c t r n s
  | .fld d a s0 o => Sys2Proof.Machine.execFld d a s0 o s
  | .ld d a s0 o => Sys2Proof.Machine.execLd d a s0 o s
  | .st g a d w o => Sys2Proof.Machine.execSt g a d w o s
  | .fst g a d w o => Sys2Proof.Machine.execFst g a d w o s
  | .ldc d a c f s0 => Sys2Proof.Machine.execLdc d a c f s0 s
  | .stc g a c d f w => Sys2Proof.Machine.execStc g a c d f w s
  | .b g s0 => Sys2Proof.Machine.execB g s0 s
  | .call g s0 => Sys2Proof.Machine.execCall g s0 s
  | .jr g a => Sys2Proof.Machine.execJr g a s
  | .ret g => Sys2Proof.Machine.execRet g s
  | .sel g d a m => Sys2Proof.Machine.execSel g d a m s
  | .cmp p a b c => Sys2Proof.Machine.execCmp p a b c s
  | .cmpi p a i0 c => Sys2Proof.Machine.execCmpi p a i0 c s
  | .loop k a l => Sys2Proof.Machine.execLoop k a l s
  | .orderedLoad d a s0 sc acq => Sys2Proof.Machine.execOrderedLoad d a s0 sc acq s
  | .fence sc o => Sys2Proof.Machine.execFence sc o s
  | .orderedStore g a b w sc rel => Sys2Proof.Machine.execOrderedStore g a b w sc rel s
  | .amoSwap g d a s0 o sc => Sys2Proof.Machine.execAmoSwap g d a s0 o sc s
  | .amoAdd g d a s0 o sc => Sys2Proof.Machine.execAmoAdd g d a s0 o sc s
  | .amoAnd g d a s0 o sc => Sys2Proof.Machine.execAmoAnd g d a s0 o sc s
  | .amoOr g d a s0 o sc => Sys2Proof.Machine.execAmoOr g d a s0 o sc s
  | .amoXor g d a s0 o sc => Sys2Proof.Machine.execAmoXor g d a s0 o sc s
  | .amoMin g d a s0 o sc => Sys2Proof.Machine.execAmoMin g d a s0 o sc s
  | .amoMax g d a s0 o sc => Sys2Proof.Machine.execAmoMax g d a s0 o sc s
  | .amoMinu g d a s0 o sc => Sys2Proof.Machine.execAmoMinu g d a s0 o sc s
  | .amoMaxu g d a s0 o sc => Sys2Proof.Machine.execAmoMaxu g d a s0 o sc s
  | .amoFadd g d a s0 o sc => Sys2Proof.Machine.execAmoFadd g d a s0 o sc s
  | .cas g d a s0 o f sc => Sys2Proof.Machine.execCas g d a s0 o f sc s
  | .vadd d a b m => Sys2Proof.Machine.execVadd d a b m s
  | .vsub d a b m => Sys2Proof.Machine.execVsub d a b m s
  | .vmul d a b m => Sys2Proof.Machine.execVmul d a b m s
  | .vfma d a b m => Sys2Proof.Machine.execVfma d a b m s
  | .vmin d a b m => Sys2Proof.Machine.execVmin d a b m s
  | .vmax d a b m => Sys2Proof.Machine.execVmax d a b m s
  | .vabs d a m => Sys2Proof.Machine.execVabs d a m s
  | .vneg d a m => Sys2Proof.Machine.execVneg d a m s
  | .vand d a b => Sys2Proof.Machine.execVand d a b s
  | .vor d a b => Sys2Proof.Machine.execVor d a b s
  | .vxor d a b => Sys2Proof.Machine.execVxor d a b s
  | .vnot d a => Sys2Proof.Machine.execVnot d a s
  | .vsll d a b => Sys2Proof.Machine.execVsll d a b s
  | .vsrl d a b => Sys2Proof.Machine.execVsrl d a b s
  | .vsra d a b => Sys2Proof.Machine.execVsra d a b s
  | .vslli d a n => Sys2Proof.Machine.execVslli d a n s
  | .vsrli d a n => Sys2Proof.Machine.execVsrli d a n s
  | .vsrai d a n => Sys2Proof.Machine.execVsrai d a n s
  | .vcmp k a b u c => Sys2Proof.Machine.execVcmp k a b u c s
  | .vsel g d a b k => Sys2Proof.Machine.execVsel g d a b k s
  | .vcvt d a p r => Sys2Proof.Machine.execVcvt d a p r s
  | .vcvtToE4m3 d a p r => Sys2Proof.Machine.execVcvtToE4m3 d a p r s
  | .vcvtToE5m2 d a p r => Sys2Proof.Machine.execVcvtToE5m2 d a p r s
  | .vcvtFromE4m3 d a p r => Sys2Proof.Machine.execVcvtFromE4m3 d a p r s
  | .vcvtFromE5m2 d a p r => Sys2Proof.Machine.execVcvtFromE5m2 d a p r s
  | .vredSum d a m => Sys2Proof.Machine.execVredSum d a m s
  | .vredMax d a m => Sys2Proof.Machine.execVredMax d a m s
  | .vredMin d a m => Sys2Proof.Machine.execVredMin d a m s
  | .vperm d a b => Sys2Proof.Machine.execVperm d a b s
  | .vbcastG d a => Sys2Proof.Machine.execVbcastG d a s
  | .vbcastF d a => Sys2Proof.Machine.execVbcastF d a s
  | .vld d a o e => Sys2Proof.Machine.execVld d a o e s
  | .vlds d a s0 => Sys2Proof.Machine.execVlds d a s0 s
  | .vst g v a o e => Sys2Proof.Machine.execVst g v a o e s
  | .vexp2 d a => Sys2Proof.Machine.execVexp2 d a s
  | .vlog2 d a => Sys2Proof.Machine.execVlog2 d a s
  | .vrcp d a => Sys2Proof.Machine.execVrcp d a s
  | .vrsq d a => Sys2Proof.Machine.execVrsq d a s
  | .vemax d a => Sys2Proof.Machine.execVemax d a s
  | .vscl2 d a n => Sys2Proof.Machine.execVscl2 d a n s
  | .vtunpk d a i0 => Sys2Proof.Machine.execVtunpk d a i0 s
  | .vtacc d a t => Sys2Proof.Machine.execVtacc d a t s
  | .vwid d a n p => Sys2Proof.Machine.execVwid d a n p s
  | .vwidu d a n p => Sys2Proof.Machine.execVwidu d a n p s
  | .vstatr d => Sys2Proof.Machine.execVstatr d s
  | .mand d a b => Sys2Proof.Machine.execMand d a b s
  | .mor d a b => Sys2Proof.Machine.execMor d a b s
  | .mxor d a b => Sys2Proof.Machine.execMxor d a b s
  | .mnot d a => Sys2Proof.Machine.execMnot d a s
  | .qbind q a => Sys2Proof.Machine.execQbind q a s
  | .qput q a => Sys2Proof.Machine.execQput q a s
  | .qget d q => Sys2Proof.Machine.execQget d q s
  | .qcnt d q => Sys2Proof.Machine.execQcnt d q s
  | .tcfg d t => Sys2Proof.Machine.execTcfg d t s
  | .tzero d z => Sys2Proof.Machine.execTzero d z s
  | .tztest z a s0 => Sys2Proof.Machine.execTztest z a s0 s
  | .twait m => Sys2Proof.Machine.execTwait m s
  | .cbld c a => Sys2Proof.Machine.execCbld c a s
  | .tld d z a => Sys2Proof.Machine.execTld d z a s
  | .tst g d z a => Sys2Proof.Machine.execTst g d z a s
  | .tmma x => Sys2Proof.Machine.execTmma x s
  | .tmmak x => Sys2Proof.Machine.execTmmak x s
  | .fenter al s0 => Sys2Proof.Machine.execFenter al s0 s
  | .fleave => Sys2Proof.Machine.execFleave s
  | .ftile k t a => Sys2Proof.Machine.execFtile k t a s
  | .fpub => Sys2Proof.Machine.execFpub s
  | .tret => Sys2Proof.Machine.execTret s
  | .sync => Sys2Proof.Machine.execSync s
  | .jinit d => Sys2Proof.Machine.execJinit d s
  | .jdec d a => Sys2Proof.Machine.execJdec d a s
  | .donate d a b => Sys2Proof.Machine.execDonate d a b s
  | .accept d a => Sys2Proof.Machine.execAccept d a s
  | .spawn s0 => Sys2Proof.Machine.execSpawn s0 s
  | .csrr d n => Sys2Proof.Machine.execCsrr d n s
  | .csrw a n => Sys2Proof.Machine.execCsrw a n s
  | .csrwTvec a => Sys2Proof.Machine.execCsrwTvec a s
  | .csrwLstate a => Sys2Proof.Machine.execCsrwLstate a s
  | .trap a => Sys2Proof.Machine.execTrap a s
  | .eret => Sys2Proof.Machine.execEret s
  | .svc a => Sys2Proof.Machine.execSvc a s
  | .wfe a => Sys2Proof.Machine.execWfe a s
  | .oseta d a c => Sys2Proof.Machine.execOseta d a c s
  | .rwb a b => Sys2Proof.Machine.execRwb a b s
  | .rwbLog a => Sys2Proof.Machine.execRwbLog a s
  | .rwbObj a => Sys2Proof.Machine.execRwbObj a s
  | .rinv a b => Sys2Proof.Machine.execRinv a b s
  | .rinvLog a => Sys2Proof.Machine.execRinvLog a s
  | .rinvObj a => Sys2Proof.Machine.execRinvObj a s
  | .logrdRead d a c => Sys2Proof.Machine.execLogrdRead d a c s
  | .logrdStatus d a c => Sys2Proof.Machine.execLogrdStatus d a c s
  | .logrdRetire d a c => Sys2Proof.Machine.execLogrdRetire d a c s
  | .logrdReset d a c => Sys2Proof.Machine.execLogrdReset d a c s
  | .orinv a => Sys2Proof.Machine.execOrinv a s
  | .orinvCtx => Sys2Proof.Machine.execOrinvCtx s
  | .orsync a => Sys2Proof.Machine.execOrsync a s
  | .orsyncCtx => Sys2Proof.Machine.execOrsyncCtx s
  | .ttqry d a c => Sys2Proof.Machine.execTtqry d a c s
  | .clbinv a c => Sys2Proof.Machine.execClbinv a c s
  | .clbinvObj a => Sys2Proof.Machine.execClbinvObj a s
  | .cpy h d s0 l f sh => Sys2Proof.Machine.execCpy h d s0 l f sh s
  | .cpyt h d c f sh => Sys2Proof.Machine.execCpyt h d c f sh s
  | .cpyr h d s0 l f => Sys2Proof.Machine.execCpyr h d s0 l f s
  | .wbind h w d c f => Sys2Proof.Machine.execWbind h w d c f s
  | .wunbind w d => Sys2Proof.Machine.execWunbind w d s
  | .rwait d r n sc => Sys2Proof.Machine.execRwait d r n sc s
  | .rrel r n sc => Sys2Proof.Machine.execRrel r n sc s
  | .publish a => Sys2Proof.Machine.execPublish a s
  | .cwait f v sc => Sys2Proof.Machine.execCwait f v sc s
  | .gather h d i0 b f cnt sz => Sys2Proof.Machine.execGather h d i0 b f cnt sz s
  | .scatter h d i0 b f cnt sz => Sys2Proof.Machine.execScatter h d i0 b f cnt sz s
  | .bara d b n sc => Sys2Proof.Machine.execBara d b n sc s
  | .barw b p sc => Sys2Proof.Machine.execBarw b p sc s
  | .engineWrite cmd unit fresh => Sys2Proof.Machine.execEngineWrite cmd unit fresh s
  | .commandComplete cmd => Sys2Proof.Machine.execCommandComplete cmd s
  | .thatchAdmission k => Sys2Proof.Machine.execThatchAdmission k s
  | .groupDeadline c => Sys2Proof.Machine.execGroupDeadline c s
  | .matrixIssue c => Sys2Proof.Machine.execMatrixIssue c s
  | .issueEnd c => Sys2Proof.Machine.execIssueEnd c s
  | .stealRound k => Sys2Proof.Machine.execStealRound k s
  | .continuationResume k => Sys2Proof.Machine.execContinuationResume k s
  | .preemption k => Sys2Proof.Machine.execPreemption k s
  | .migration i0 k => Sys2Proof.Machine.execMigration i0 k s
  | .resumption i0 at_ edits => Sys2Proof.Machine.execResumption i0 at_ edits s
  | .pendingSlot i0 k => Sys2Proof.Machine.execPendingSlot i0 k s
  | .registerLineFill img line u e => Sys2Proof.Machine.execRegisterLineFill img line u e s
  | .watchdogStop k => Sys2Proof.Machine.execWatchdogStop k s
  | .watchdogRecord i0 => Sys2Proof.Machine.execWatchdogRecord i0 s
  | .tokenInjection => Sys2Proof.Machine.execTokenInjection s
  | .stallEnd c => Sys2Proof.Machine.execStallEnd c s
  | .bulkWr q => Sys2Proof.Machine.execBulkWr q s
  | .bulkRd q => Sys2Proof.Machine.execBulkRd q s
  | .flag q => Sys2Proof.Machine.execFlag q s
  | .ord q => Sys2Proof.Machine.execOrd q s
  | .syncClass q => Sys2Proof.Machine.execSyncClass q s
  | .don q => Sys2Proof.Machine.execDon q s
  | .peerAnswer id e => Sys2Proof.Machine.execPeerAnswer id e s
  | .discardedPacket w => Sys2Proof.Machine.execDiscardedPacket w s
  | .remoteTimeout id => Sys2Proof.Machine.execRemoteTimeout id s
  | .lineEviction c line => Sys2Proof.Machine.execLineEviction c line s
  | .snoop c line => Sys2Proof.Machine.execSnoop c line s
  | .flitReplay l => Sys2Proof.Machine.execFlitReplay l s
  | .replayExhausted l k line die rerouted => Sys2Proof.Machine.execReplayExhausted l k line die rerouted s
  | .laneGroupMapout l => Sys2Proof.Machine.execLaneGroupMapout l s
  | .recoveryTimeout line die => Sys2Proof.Machine.execRecoveryTimeout line die s
  | .patrolScrub x e => Sys2Proof.Machine.execPatrolScrub x e s
  | .mapOut u => Sys2Proof.Machine.execMapOut u s
  | .mirrorRestore line both => Sys2Proof.Machine.execMirrorRestore line both s
  | .lockstepMismatch => Sys2Proof.Machine.execLockstepMismatch s
  | .flashing => Sys2Proof.Machine.execFlashing s
  | .warningWithdrawn => Sys2Proof.Machine.execWarningWithdrawn s
  | .supplyReturn => Sys2Proof.Machine.execSupplyReturn s
  | .auxRailExpiry => Sys2Proof.Machine.execAuxRailExpiry s
  | .boot => Sys2Proof.Machine.execBoot s
  | .create h q => Sys2Proof.Machine.execCreate h q s
  | .define h obj d init => Sys2Proof.Machine.execDefine h obj d init s
  | .load h d bytes => Sys2Proof.Machine.execLoad h d bytes s
  | .launch h q => Sys2Proof.Machine.execLaunch h q s
  | .importPeer h q => Sys2Proof.Machine.execImportPeer h q s
  | .donsetup h q => Sys2Proof.Machine.execDonsetup h q s
  | .query h q => Sys2Proof.Machine.execQuery h q s
  | .attest h nonce => Sys2Proof.Machine.execAttest h nonce s
  | .resume h img limit => Sys2Proof.Machine.execResume h img limit s
  | .endCtx h => Sys2Proof.Machine.execEndCtx h s
  | .partition h p => Sys2Proof.Machine.execPartition h p s
  | .timeout h ld us => Sys2Proof.Machine.execTimeout h ld us s
  | .budget h d b high low => Sys2Proof.Machine.execBudget h d b high low s
  | .clock h u ratio freq => Sys2Proof.Machine.execClock h u ratio freq s
  | .diestate h d m => Sys2Proof.Machine.execDiestate h d m s
  | .port h p split => Sys2Proof.Machine.execPort h p split s
  | .svcEnd img => Sys2Proof.Machine.execSvcEnd img s
  | .report img => Sys2Proof.Machine.execReport img s
  | .refill img tiles => Sys2Proof.Machine.execRefill img tiles s
  | .powerCap x => Sys2Proof.Machine.execPowerCap x s
  | .illegalInstruction long w => Sys2Proof.Machine.execIllegalInstruction long w s
  | .fetchFault cause tval => Sys2Proof.Machine.execFetchFault cause tval s
  | .tickEdge => Sys2Proof.Machine.execTickEdge s
  | .holdUpEnd => Sys2Proof.Machine.execHoldUpEnd s
  | .objectRelocation tag obj st => Sys2Proof.Machine.execObjectRelocation tag obj st s
  | .tileFree tag obj key st => Sys2Proof.Machine.execTileFree tag obj key st s
  | .residencyChange tag obj i0 entry => Sys2Proof.Machine.execResidencyChange tag obj i0 entry s

end Sys2Proof.Machine
end

