-- ==== Sys2Proof/Machine/Fetch.lean ====
section
/-! DEFINITION. Fetching an instruction and the checks of R49 before it executes (R33, R35, R48, R68, R345, R382),
and the placing of a word where the machine fetches next. -/

namespace Sys2Proof.Machine

/-- What the current strand does at its pc. -/
inductive Front where
  /-- the instruction executes -/
  | run (i : Instr)
  /-- a check before execution fails -/
  | trap (code : BitVec 8) (tval : Word)
  /-- the fetch waits (R227) -/
  | wait
  deriving DecidableEq, Repr

/-- R32: the slot of an address in its fetch block. -/
def slotOf (a : Word) : Nat := slice a 2 4

/-- R345: the word at an address, or the fetch fault. -/
def fetchWord (s : State) (va : Word) : M Nat :=
  if spaceOf va ≠ 0 then trapM cPERMISSION s.core.strand.pc
  else match translate s (self s) va 4 .exec with
    | .error e => .error e
    | .ok ps => match poisonAt s 0 ps with
      | some o => trapM cPOISON (va + W o)
      | none => .ok (bytesNat (ps.flatMap (pieceRead s (clusterOf s.cur))))

/-- The first word at the pc and, at the first word of a long instruction, the second. -/
def fetchWords (s : State) : M (Nat × Nat) :=
  match fetchWord s s.core.strand.pc with
  | .error e => .error e
  | .ok w =>
    if majorLong (majorOf w) then
      match fetchWord s (s.core.strand.pc + 4) with
      | .error e => .error e
      | .ok v => .ok (w, v)
    else .ok (w, 0)

/-- R33, R35: whether a word may not stand in a slot. -/
def badSlot (w slot : Nat) : Bool :=
  (majorLong (majorOf w) && slot == 15) || (majorOf w == 0x32 && slot != 15)

/-- R68: whether a long instruction's first word ends an active body that contains it. -/
def splitsBody (t : Strand) : Bool :=
  ([0, 1, 2] : List (Fin 3)).any fun k => t.lact.getLsbD k.val && loopHits t k t.pc (t.pc + 4)

/-- R228: the row of LOGRD that bits 63:62 of G[gc] select. -/
def resolve (i : Instr) (t : Strand) : Instr :=
  match i with
  | .logrdRead d a c =>
    match slice (t.readG c) 62 2 with
    | 0 => .logrdRead d a c
    | 1 => .logrdStatus d a c
    | 2 => .logrdRetire d a c
    | _ => .logrdReset d a c
  | _ => i

/-- R49 row 6: the checks of an instruction on values held in registers, in order, each with the register lines that it
reads and whether it passes. -/
def rowSix (k : CoreId) (t : Strand) (i : Instr) : List (List Nat × Bool) :=
  let al (r : Reg) (n : Nat) : List Nat × Bool := (lineG r, (t.readG r).toNat % n == 0)
  let flag (r : Reg) : List Nat × Bool := if r = 0 then ([], true) else al r 8
  match i with
  | .tmma x | .tmmak x => [(lineP, accSuits t x)]
  | .csrwTvec a => [(lineG a, slice (t.readG a) 0 6 == 0)]
  | .csrwLstate a => [(lineG a, !lstateBad (t.readG a) && t.readG a &&& csrReserved 0x0C8 == 0)]
  | .csrw a n => [(lineG a, t.readG a &&& csrReserved n == 0)]
  | .qbind _ a => [(lineG a, bindOk k (t.readG a))]
  | .qput q _ => [([0x2380], (t.readQ q).kind == 1)]
  | .qget _ q => [([0x2380], 2 ≤ (t.readQ q).kind)]
  | .logrdRead _ _ c => [(lineG c, slice (t.readG c) 32 30 == 0)]
  | .cpy _ d s l f _ | .cpyr _ d s l f =>
    [al d 16, al s 16, (lineG l, (t.readG l).toNat % 16 == 0 && decide ((t.readG l).toNat ≤ 0x1000000)), flag f]
  | .cpyt _ d c f _ | .wbind _ _ d c f => [al d 16, al c 16, flag f]
  | .gather _ d i _ f _ _ | .scatter _ d i _ f _ _ => [al d 16, al i 16, flag f]
  | _ => [(lineP, suits t i)]
/-- R49, R382: whether a check of row 6 fails before any that would read a lost line. -/
def failsSix (t : Strand) : List (List Nat × Bool) → Bool
  | [] => false
  | (ls, ok) :: rest => !(ls.any t.lost.contains) && (!ok || failsSix t rest)

/-- R284, R285, R316: the line of HBEAT and WDMODE, for a TRET or SYNC that leaves its strand idle. -/
def idleLines (s : State) (i : Instr) : List Nat :=
  let idles (j : Word) (stays : Nat → Bool) : Bool := s.core.deque == [] &&
    match joinRecord s j with
    | .ok k => stays k
    | .error _ => false
  let j := s.core.strand.readG 1
  match i with
  | .tret =>
    if s.core.strand.decDone && s.core.deque == [] || j == 0 && s.core.deque == []
      || idles j (fun k => !(joinCount s k == 1 && joinParked s k)) then lineCtl 16 else []
  | .sync => match currentFrame s .read with
    | .ok o => if idles (header s o 2) (fun k => joinCount s k != 0) then lineCtl 16 else []
    | .error _ => []
  | _ => []

/-- R49 rows 2 to 4, R68 and R382, for the words at the pc. That R68's trap stands before row 5 is the model's choice
(log 71), and so is that REGLOST stands before the other faults of row 7 (log 87). -/
def examine (s : State) (w v : Nat) : Front :=
  let t := s.core.strand
  let bad : Front := .run (.illegalInstruction (majorLong (majorOf w)) (W (w + v * 2 ^ 32)))
  if majorBad (majorOf w) then bad
  else if badSlot w (slotOf t.pc) then .trap cALIGNMENT t.pc
  else match decodeWords w v with
    | .error _ => bad
    | .ok i =>
      if i.isLong && splitsBody t then bad
      else match lostLine t i (idleLines s i) with
        | some l => if failsSix t (rowSix s.cur t i) then .run (resolve i t) else .trap cREGLOST (W l)
        | none => .run (resolve i t)

/-- R382: the line that was lost as it was being evicted stops the strand at its next stop point. -/
def lostAtStop (t : Strand) : Option Nat := if t.begun || t.midCall then none else t.evicted
/-- R49: what the current strand does at its pc. -/
def front (s : State) : Front :=
  match lostAtStop s.core.strand with
  | some l => .trap cREGLOST (W l)
  | none => match fetchWords s with
    | .error (.trap c v) => .run (.fetchFault c v)
    | .error _ => .wait
    | .ok (w, v) => examine s w v

/-- R354: the fetch block at the pc, whose line the core's instruction cache has filled; a line that it did not hold is
charged to the context. -/
def noteFetch (s : State) : State :=
  match translate s (self s) s.core.strand.pc 4 .exec with
  | .ok (p :: _) =>
    let a := some (lineOf p.key)
    if s.core.iline = a then s
    else chargeFills (tagOf s.core.strand) 2 { s with core := { s.core with iline := a } }
  | _ => s

/-! Placing a word. -/

/-- The current strand as one that executes next: the device is booted and supplied, no turn and no stop is
pending, and its cluster runs. -/
def readied (s : State) : State :=
  let c := clusterOf s.cur
  let d := dieOf s.cur
  { s with
    turns := []
    acted := false
    core := { s.core with
      mode := .running, wdReq := false, preReq := false
      strand := { s.core.strand with lost := [], lact := 0, begun := false, evicted := none } }
    ckpt := { s.ckpt with powered := true, flashing := false }
    svc := { s.svc with phase := .running }
    pkg := { s.pkg with
      power := powersSet c { powerGet s c with asleep := false, stall := none, issued := 0 } s.pkg.power
      mode := s.pkg.mode.set d.toNat .active d.isLt
      fencedDie := s.pkg.fencedDie.set d.toNat false d.isLt
      mapOutDie := s.pkg.mapOutDie.set d.toNat false d.isLt
      fencedCluster := s.pkg.fencedCluster.filter (· != c) } }

/-- The place of the table and of the code that `placedCode` lays out. -/
def codeTable : Nat := 0x100000
def codePlace : Nat := 0x200000
/-- R333, R334: a dense object of 4 KiB of bytes with read and execute permission, as object 1 of a table. -/
def codeRecord (p : BitVec 3) : List Word :=
  [W (2 ^ 63 + 6 * 2 ^ 56 + 2 ^ 47 + 2 ^ 43 + p.toNat * 2 ^ 37), W (4096 + 2 ^ 32), W (1 + 2 ^ 32), W codePlace, 0, 0, 0, 0]
/-- The current strand at a slot of a code object laid out for it. -/
def placedCode (slot : Nat) (s : State) : State :=
  let c := clusterOf s.cur
  let cl := clusterGet s c
  let t := s.core.strand
  let rec_ := ((codeRecord (partOfCore s s.cur)).flatMap fun x => natBytes 8 x.toNat)
  { clusterSet s c { cl with recs := [], l1 := [] } with
    mem := memWrite s.mem (codeTable + 64) rec_
    poison := []
    l2 := []
    core := { s.core with
      clb := []
      strand := { t with ortbase := W (codeTable + 6 * 2 ^ 52), pc := objAddr 1 (4 * slot) } } }

/-- The storage addresses of the eight bytes at the pc, if both words can be fetched. -/
def fetchPieces (s : State) : Option (List Piece) :=
  if spaceOf s.core.strand.pc ≠ 0 then none
  else match fetchWord s s.core.strand.pc, fetchWord s (s.core.strand.pc + 4), translate s (self s) s.core.strand.pc 8 .exec with
    | .ok _, .ok _, .ok ps => some (ps.map fun p => { p with kind := .home })
    | _, _, _ => none
/-- Bytes put at pieces of storage in every copy. -/
def putPieces : List Piece → List Byte → State → State
  | [], _, s => s
  | p :: ps, bs, s => putPieces ps (bs.drop p.len) { purgeLine s (lineOf p.key) with
      mem := memWrite s.mem p.key (bs.take p.len) }
/-- The current core's instruction cache holds the line of a storage address, so that a fetch from it is no miss (R354). -/
def fetchedLine (a : Nat) (s : State) : State := { s with core := { s.core with iline := some (lineOf a) } }
/-- The bytes of an instruction placed where the current strand fetches next. -/
def placeWord (s : State) (bs : List Byte) : State :=
  let s1 := readied s
  let w := bytesNat (bs.take 4)
  let ready := if badSlot w (slotOf s1.core.strand.pc) then none else fetchPieces s1
  match ready with
  | some ps => fetchedLine ((ps.head?.map (·.key)).getD 0) (putPieces ps bs s1)
  | none =>
    let slot := if majorOf w = 0x32 then 15 else 0
    let s2 := placedCode slot s1
    fetchedLine (codePlace + 4 * slot) { s2 with mem := memWrite s2.mem (codePlace + 4 * slot) bs }

end Sys2Proof.Machine
end

