-- ==== Sys2Proof/Machine/Step.lean ====
section
/-! DEFINITION. One step of the machine: a pending turn, a phase of flashing, the boot, or else the core that
acts next. -/

namespace Sys2Proof.Machine

/-- A strand that runs a task: the watchdog's stop, a pre-emption that has been asked for, or the instruction at its pc.
At its stop point a strand that is to be pre-empted waits for its posted stores (R384). -/
def runStrand (s : State) : Host.Outcome State Fault Refusal :=
  if s.core.wdReq && (stopPoint s).isSome then exec (.watchdogStop s.cur) s
  else if s.core.preReq && (stopPoint s).isSome then
    if (stopCore .preempted s.cur s).isSome then exec (.preemption s.cur) s else .next (waitTurn s)
  else match front s with
    | .run i => exec i (noteFetch s)
    | .wait => .next (waitTurn s)
    | .trap c v => finish s (trapM c v)

/-- The device goes on by itself. -/
def idleStep (s : State) : Host.Outcome State Fault Refusal :=
  .next { (if othersRun s then s else deviceStep s) with acted := true }

/-- How many turns of the device stand for one tick of TIME while strands run (log 3). -/
def beatsPerTick : Nat := 40
/-- After a strand has acted, the device has a turn, TIME moves on after `beatsPerTick` of them, and the next core is
the one that acts. -/
def deviceTurn (s : State) : Host.Outcome State Fault Refusal :=
  let late : Bool := decide (beatsPerTick ≤ s.beats + 1)
  let s1 := { s with acted := false, beats := if late then 0 else s.beats + 1 }
  let t := if late then passTime s1 else deviceWork s1
  .next (focus t (nextCore t))

/-- The current core acts. R323: one that has issued in this cycle finds its cluster's store empty, and the cluster
sleeps. -/
def coreStep (s : State) : Host.Outcome State Fault Refusal :=
  let c := clusterOf s.cur
  if !clusterRuns s c then idleStep s
  else if (powerGet s c).spent (coreNo s.cur) then
    .next (powerSet s c { powerGet s c with asleep := true })
  else match s.core.mode with
    | .vacant => idleStep s
    | .arriving _ => exec (.continuationResume s.cur) s
    | .running => runStrand s
    | .idle =>
      match exec (if s.core.preReq then .preemption s.cur else .stealRound s.cur) s with
      | .next t => .next { t with acted := true }
      | r => r

/-- Whether an event can happen while the supply is off (R405, R416). -/
def whileOff (i : Instr) : Bool :=
  match i with
  | .supplyReturn | .auxRailExpiry => true
  | _ => false

/-- A pending turn. -/
def turnStep (u : Turn) (s : State) : Host.Outcome State Fault Refusal :=
  match u with
  | .focus k => .next (focus s k)
  | .device => .next (deviceStep s)
  | .run k =>
    if s.ckpt.powered && s.svc.phase != .unbooted then coreStep (focus s k) else .next s
  | .event i => if i.isEvent && (s.ckpt.powered || whileOff i) then exec i s else .next s

/-- One step. -/
def step (s : State) : Host.Outcome State Fault Refusal :=
  match s.turns with
  | u :: l => turnStep u { s with turns := l }
  | [] =>
    if !s.ckpt.powered then .fault .unpowered
    else if s.ckpt.flashing then exec .flashing s
    else if s.svc.phase = .unbooted then exec .boot s
    else if s.acted then deviceTurn s
    else coreStep s

/-- The state with an instruction's word where the next step fetches it. -/
def State.withFetchWord (s : State) (nbits w : Nat) : State := placeWord s (tableBytes nbits w)

end Sys2Proof.Machine
end

