-- ==== Sys2Proof/Safety.lean ====
section
/-! DEFINITION. What a safe run is: a run that meets no refusal and no fault, over states whose memory keeps its
canonical form. And the words in which the claims say what an instruction leaves alone. -/

namespace Sys2Proof.Machine

/-- A step that answers a next state. -/
def Goes (s : State) : Prop := ∃ t, step s = .next t

/-- The invariant of the memory: its cells rise strictly and none equals what an unlisted address reads as. -/
def MemoryOk (s : State) : Prop := Memory.wf s.mem = true

/-- The invariant of the caches: the lines that a cluster holds rise strictly and start lines (R217). -/
def LinesOk (s : State) : Prop :=
  ∀ c, (clusterGet s c).l1.Pairwise (fun x y => x.addr < y.addr) ∧ ∀ l ∈ (clusterGet s c).l1, l.addr % 64 = 0

/-- The invariant of the marks of dirty hardware-coherent lines: one for each line, by rising address (R218). -/
def DirtyOk (s : State) : Prop := s.dirty.Pairwise (fun x y => x.addr < y.addr) ∧ ∀ e ∈ s.dirty, e.addr % 64 = 0

/-- A machine with power, booted, with no turn pending and no flashing under way, whose current strand runs a task on
a cluster that runs and has tokens or the core a cycle to issue in, and has no stop requested. -/
def Ready (s : State) : Prop :=
  s.turns = [] ∧ s.acted = false ∧ s.ckpt.powered = true ∧ s.ckpt.flashing = false ∧
    clusterRuns s (clusterOf s.cur) = true ∧ (powerGet s (clusterOf s.cur)).spent (coreNo s.cur) = false ∧
    s.core.mode = .running ∧ s.core.wdReq = false ∧ s.core.preReq = false

/-- `t` is `s` but for the current strand, the debit that its instruction pays (R322: the fraction of the core, the
stores of clusters and the tokens charged to a context) and the note that a strand has acted. -/
def PaysFor (s t : State) : Prop :=
  ∃ u b p a, t = { s with
    core := { s.core with strand := u, debit := b }
    pkg := { s.pkg with power := p }
    svc := { s.svc with accounts := a }
    acted := true }

/-- The current strand of `s`, become `u`, retires an instruction of `n` bytes in sequence (R67), and nothing else
changes but its debit. -/
def Retires (s : State) (u : Strand) (n : Nat) (t : State) : Prop := PaysFor s t ∧ t.core.strand = u.advance n

/-- The current strand of `s`, become `u`, continues at an address, and nothing else changes but its debit. -/
def JumpsTo (s : State) (u : Strand) (pc : Word) (t : State) : Prop :=
  PaysFor s t ∧ t.core.strand = { u with pc := pc }

/-- What a read may change: caches, look-aside buffers and record caches, bound windows and the commands that they
start (R242), and what those are charged. Every byte that a cluster or the home holds reads as before. -/
structure Reads (s t : State) : Prop where
  cur : t.cur = s.cur
  mem : t.mem = s.mem
  empty : t.empty = s.empty
  poison : t.poison = s.poison
  dirty : t.dirty = s.dirty
  removals : t.removals = s.removals
  out : t.out = s.out
  ckpt : t.ckpt = s.ckpt
  turns : t.turns = s.turns
  pkg : t.pkg = { s.pkg with power := t.pkg.power }
  svc : t.svc = { s.svc with accounts := t.svc.accounts }
  core : t.core = { s.core with win := t.core.win, debit := t.core.debit, clb := t.core.clb }
  strands : ∀ k, (coreGet t k).strand = (coreGet s k).strand
  bytes : ∀ c a, engineByte t c a = engineByte s c a

/-- The bytes of the pieces of an access as the current core's cluster reads them, in order. -/
def bytesAt (s : State) (ps : List Piece) : List Byte := (ps.map (pieceRead s (clusterOf s.cur))).flatten

/-- An address is a byte of one of the pieces. -/
def inPieces (ps : List Piece) (a : Nat) : Prop := ∃ p ∈ ps, p.key ≤ a ∧ a < p.key + p.len

/-- An address that a logged store of `w` bytes to software-coherent pieces may write beside its own (R219, R220): a
byte of the log's ring when the cluster holds the ring's record, and any byte when it does not. -/
def inLog (s : State) (va : Word) (w : Nat) (ps : List Piece) (a : Nat) : Prop :=
  (∃ p ∈ ps, p.kind = .sc) ∧ ∃ x, logAtOf s (self s) va = some x ∧ x.record.logv = true ∧
    ∀ l, cachedRecord (noteTranslation (self s) va w s) (clusterOf s.cur) (tagOf s.core.strand) x.record.log = some l →
      l.place ≤ a ∧ a < l.place + 64 + 16 * l.ringN

/-- What a store over pieces may change: their bytes, at home or, for a software-coherent piece, in the storing
cluster's line, the poison that it overwrites, the object's log, and what a read may change beside the bytes. -/
structure Stores (s : State) (va : Word) (w : Nat) (ps : List Piece) (t : State) : Prop where
  cur : t.cur = s.cur
  empty : t.empty = s.empty
  removals : t.removals = s.removals
  out : t.out = s.out
  ckpt : t.ckpt = s.ckpt
  turns : t.turns = s.turns
  pkg : t.pkg = { s.pkg with power := t.pkg.power }
  svc : t.svc = { s.svc with accounts := t.svc.accounts }
  core : t.core = { s.core with win := t.core.win, debit := t.core.debit, clb := t.core.clb }
  strands : ∀ k, (coreGet t k).strand = (coreGet s k).strand
  poison : ∀ u, u ∈ t.poison → u ∈ s.poison
  mem : ∀ a, ¬ inPieces ps a → ¬ inLog s va w ps a → memGet t.mem a = memGet s.mem a
  lines : ∀ c a, ¬ (c = clusterOf s.cur ∧ ∃ p ∈ ps, p.kind = .sc ∧ a = lineOf p.key) →
    (clusterGet t c).line a = (clusterGet s c).line a

/-- The bytes of a software-coherent line as a cluster has them: its own copy, its die's, or the home's (R217). -/
def lineBytes (s : State) (c : ClusterId) (a : Nat) : List Byte :=
  match (clusterGet s c).line a with
  | some l => l.data
  | none => match l2Get s (dieOfCluster c) a with
    | some l => l.data
    | none => memRead s.mem a 64
/-- The dirty mask of a line in a cluster (R218). -/
def dirtyMask (s : State) (c : ClusterId) (a : Nat) : BitVec 64 := (((clusterGet s c).line a).map (·.mask)).getD 0

/-- The bytes stand at a piece after a store: at its place in memory, or in the storing cluster's line with their
mask bits set (R217, R218). -/
def StoredAt (s : State) (p : Piece) (bs : List Byte) (t : State) : Prop :=
  if p.kind = .sc then
    ∃ l, (clusterGet t (clusterOf s.cur)).line (lineOf p.key) = some l ∧ l.tag = tagOf s.core.strand ∧
      l.data = (lineBytes s (clusterOf s.cur) (lineOf p.key)).take (p.key % 64) ++ bs ++
        (lineBytes s (clusterOf s.cur) (lineOf p.key)).drop (p.key % 64 + bs.length) ∧
      l.mask = dirtyMask s (clusterOf s.cur) (lineOf p.key) ||| (BitVec.ofNat 64 (2 ^ bs.length - 1) <<< (p.key % 64))
  else memRead t.mem p.key bs.length = bs

/-- A byte as the home has it once a cluster's dirty bytes of its line have been merged there (R218). -/
def homeByte (s : State) (c : ClusterId) (a : Nat) : Byte :=
  match (clusterGet s c).line (lineOf a) with
  | some l => match l.data[a % 64]? with
    | some b => if l.mask.getLsbD (a % 64) then b else memGet s.mem a
    | none => memGet s.mem a
  | none => memGet s.mem a

/-- A line has left a cluster and its die's L2, its dirty bytes merged at the home with its mark (R205, R218, R395), and nothing
else has changed but the count of write-backs. -/
structure LineGone (s : State) (c : ClusterId) (a : Nat) (t : State) : Prop where
  rest : t = { s with
    mem := t.mem
    poison := t.poison
    clusters := t.clusters
    l2 := t.l2
    svc := { s.svc with accounts := t.svc.accounts } }
  marks : t.poison = match (clusterGet s c).line a with
    | some l => if l.mask = 0 then s.poison else mergeHome l.bad l.mask a s.poison
    | none => s.poison
  gone : (clusterGet t c).line a = none
  gone2 : l2Get t (dieOfCluster c) a = none
  home : ∀ x, memGet t.mem x = if lineOf x = a then homeByte s c x else memGet s.mem x
  lines : ∀ d b, ¬ (d = c ∧ b = a) → (clusterGet t d).line b = (clusterGet s d).line b

/-- What a wait may change: the turns that stand before the instruction is tried again (R76). -/
def Waits (s t : State) : Prop := ∃ l, t = { s with turns := l, acted := true }

end Sys2Proof.Machine
end

