-- ==== Sys2Proof/Certificates/Slice0/Obligations.lean ====
section
/-! DEFINITION. The statements for the provers: what each instruction and each other step of the machine does, where
it completes, what it leaves alone, and what every step keeps. -/

open Sys2Proof Sys2Proof.Machine

namespace Sys2Proof.Claims

/-- The word at an address, read through the pieces that an execute access there translates to (R345). -/
def FetchedAt (s : State) (va : Word) (w : Nat) : Prop :=
  spaceOf va = 0 ∧ ∃ ps, translate s (self s) va 4 .exec = .ok ps ∧ poisonAt s 0 ps = none ∧ w = bytesNat (bytesAt s ps)

/-- The words at the pc: the second one is read at the first word of a long instruction (R31). -/
def FetchedWords (s : State) (w v : Nat) : Prop :=
  FetchedAt s s.core.strand.pc w ∧
    if majorLong (majorOf w) = true then FetchedAt s (s.core.strand.pc + 4) v else v = 0

/-- Nothing delays a trap: no matrix command of the strand is outstanding (R152), and no posted store is unanswered or
has failed (R264, R267). -/
def StopFree (s : State) : Prop :=
  mxBusy s s.cur s.core.strand.spillovf = false ∧ s.core.strand.peer.posted = [] ∧ s.core.strand.peer.lost = none

/-- R373: whether a trap with this cause code goes to the handler. -/
def Handled (c : BitVec 8) (t : Strand) : Prop := c.toNat < 0x10 ∧ t.tvec ≠ 0 ∧ bitOf t.status 0 = false

/-- R373: the state after a trap goes to the handler at TVEC. -/
def ToHandler (c : BitVec 8) (fetch : Bool) (v : Word) (s t : State) : Prop :=
  t = strandSet s { s.core.strand with
    epc := s.core.strand.pc
    tval := v
    cause := W (c.toNat + fetch.toNat * 2 ^ 8)
    status := s.core.strand.status ||| 1
    pc := s.core.strand.tvec
    begun := false
    peer := { s.core.strand.peer with answer := none } }

/-- R373, R371: the state after a trap goes to the service: the strand leaves its core with its deque, CAUSE has bit
63 set, STATUS is as it was, and the core is vacant; a watchdog stop is recorded, its request spent (R402, R318). -/
def ToService (c : BitVec 8) (fetch : Bool) (v : Word) (s t : State) : Prop :=
  ∃ o : Off, t = { s with
      core := { s.core with mode := .vacant, strand := Strand.zero, deque := [], wdReq := false, preReq := false }
      svc := { s.svc with
        off := s.svc.off ++ [o]
        checks := s.svc.checks ++ if c = 0x18 then
          [⟨tagOf s.core.strand, unitOfCore s.cur, 0x09, 0, W s.pkg.time, W c.toNat⟩] else [] } } ∧
    o.core = s.cur ∧ o.ctx = tagOf s.core.strand ∧ o.why = .trapped ∧ o.area = contBytes s.core.deque ∧
    o.fabase = s.core.fabase ∧ o.ftop = s.core.ftop ∧ o.wdReq = (s.core.wdReq && c != 0x18) ∧
    o.strand = { s.core.strand with
      epc := s.core.strand.pc
      tval := v
      cause := W (c.toNat + fetch.toNat * 2 ^ 8 + 2 ^ 63)
      peer := { s.core.strand.peer with answer := none }
      begun := false
      evicted := if c = 0x1B then none else s.core.strand.evicted
      mxseq := o.strand.mxseq }

/-- A trap is taken as R373 says. -/
def Traps (c : BitVec 8) (fetch : Bool) (v : Word) (s t : State) : Prop :=
  (Handled c s.core.strand → ToHandler c fetch v s t) ∧ (¬ Handled c s.core.strand → ToService c fetch v s t)

/-- The instructions and events whose own effect is a trap, with its cause, fetch bit and TVAL (R389, R48, R50, R345). -/
inductive TrapForm (s : State) : Instr → BitVec 8 → Bool → Word → Prop where
  | trap (a : Reg) : TrapForm s (.trap a) 0x04 false (s.core.strand.readG a)
  | svc (a : Reg) : TrapForm s (.svc a) 0x1A false (s.core.strand.readG a)
  | short (w : Word) : TrapForm s (.illegalInstruction false w) 0x01 false (W (w.toNat % 2 ^ 32))
  | long (w : Word) : TrapForm s (.illegalInstruction true w) 0x01 false w
  | fetch (c : BitVec 8) (v : Word) : TrapForm s (.fetchFault c v) c true v

/-- R53: the register-register instructions and the value each gives from G[rs1] and G[rs2], said over exact integers. -/
inductive BinaryForm : Instr → Reg → Reg → Reg → (Word → Word → Word) → Prop where
  | add (d a b) : BinaryForm (.add d a b) d a b fun x y => BitVec.ofInt 64 (x.toInt + y.toInt)
  | sub (d a b) : BinaryForm (.sub d a b) d a b fun x y => BitVec.ofInt 64 (x.toInt - y.toInt)
  | mul (d a b) : BinaryForm (.mul d a b) d a b fun x y => BitVec.ofInt 64 (x.toInt * y.toInt)
  | mulh (d a b) : BinaryForm (.mulh d a b) d a b fun x y =>
      BitVec.extractLsb' 64 64 (BitVec.ofInt 128 (x.toInt * y.toInt))
  | mulhu (d a b) : BinaryForm (.mulhu d a b) d a b fun x y =>
      BitVec.extractLsb' 64 64 (BitVec.ofNat 128 (x.toNat * y.toNat))
  | div (d a b) : BinaryForm (.div d a b) d a b fun x y =>
      if y = 0 then W (2 ^ 64 - 1) else if x = W (2 ^ 63) ∧ y = W (2 ^ 64 - 1) then W (2 ^ 63)
      else BitVec.ofInt 64 (x.toInt.tdiv y.toInt)
  | divu (d a b) : BinaryForm (.divu d a b) d a b fun x y => if y = 0 then W (2 ^ 64 - 1) else W (x.toNat / y.toNat)
  | rem (d a b) : BinaryForm (.rem d a b) d a b fun x y =>
      if y = 0 then x else if x = W (2 ^ 63) ∧ y = W (2 ^ 64 - 1) then 0 else BitVec.ofInt 64 (x.toInt.tmod y.toInt)
  | remu (d a b) : BinaryForm (.remu d a b) d a b fun x y => if y = 0 then x else W (x.toNat % y.toNat)
  | and (d a b) : BinaryForm (.and d a b) d a b (· &&& ·)
  | or (d a b) : BinaryForm (.or d a b) d a b (· ||| ·)
  | xor (d a b) : BinaryForm (.xor d a b) d a b (· ^^^ ·)
  | sll (d a b) : BinaryForm (.sll d a b) d a b fun x y => W (x.toNat * 2 ^ (y.toNat % 64))
  | srl (d a b) : BinaryForm (.srl d a b) d a b fun x y => W (x.toNat / 2 ^ (y.toNat % 64))
  | sra (d a b) : BinaryForm (.sra d a b) d a b fun x y => BitVec.ofInt 64 (x.toInt / 2 ^ (y.toNat % 64))
  | min (d a b) : BinaryForm (.min d a b) d a b fun x y => BitVec.ofInt 64 (Min.min x.toInt y.toInt)
  | max (d a b) : BinaryForm (.max d a b) d a b fun x y => BitVec.ofInt 64 (Max.max x.toInt y.toInt)
  | minu (d a b) : BinaryForm (.minu d a b) d a b fun x y => W (Min.min x.toNat y.toNat)
  | maxu (d a b) : BinaryForm (.maxu d a b) d a b fun x y => W (Max.max x.toNat y.toNat)

/-- R53, R55 to R58: the instructions of one source register, with the value of rd from the old rd and from rs1. -/
inductive UnaryForm : Instr → Reg → Reg → (Word → Word → Word) → Prop where
  | clz (d a) : UnaryForm (.clz d a) d a fun _ x => W (if x = 0 then 64 else 63 - Nat.log2 x.toNat)
  | ctz (d a) : UnaryForm (.ctz d a) d a fun _ x =>
      W (((List.range 64).find? fun i => x.getLsbD i).getD 64)
  | popc (d a) : UnaryForm (.popc d a) d a fun _ x => W ((List.range 64).filter fun i => x.getLsbD i).length
  | addi (d a i) : UnaryForm (.addi d a i) d a fun _ x => BitVec.ofInt 64 (x.toInt + i.toInt)
  | andi (d a i) : UnaryForm (.andi d a i) d a fun _ x => x &&& W i.toNat
  | ori (d a i) : UnaryForm (.ori d a i) d a fun _ x => x ||| W i.toNat
  | xori (d a i) : UnaryForm (.xori d a i) d a fun _ x => x ^^^ W i.toNat
  | slli (d a n) : UnaryForm (.slli d a n) d a fun _ x => W (x.toNat * 2 ^ n.toNat)
  | srli (d a n) : UnaryForm (.srli d a n) d a fun _ x => W (x.toNat / 2 ^ n.toNat)
  | srai (d a n) : UnaryForm (.srai d a n) d a fun _ x => BitVec.ofInt 64 (x.toInt / 2 ^ n.toNat)
  | lui (d h i) : UnaryForm (.lui d h i) d 0 fun old _ =>
      old &&& ~~~(W (0xFFFF * 2 ^ (16 * h.toNat))) ||| W (i.toNat * 2 ^ (16 * h.toNat))
  | extru (d a p l) : UnaryForm (.extr d a false p l) d a fun _ x => W (x.toNat / 2 ^ p.toNat % 2 ^ (l.toNat + 1))
  | extrs (d a p l) : UnaryForm (.extr d a true p l) d a fun _ x =>
      BitVec.signExtend 64 (BitVec.ofNat (l.toNat + 1) (x.toNat / 2 ^ p.toNat))
  | ins (d a p l) : p.toNat + l.toNat ≤ 63 → UnaryForm (.ins d a p l) d a fun old x =>
      old &&& ~~~(W ((2 ^ (l.toNat + 1) - 1) * 2 ^ p.toNat)) ||| W (x.toNat % 2 ^ (l.toNat + 1) * 2 ^ p.toNat)

/-- R59: the condition codes, said over exact integers. -/
def Condition (c : Nat) (x y : Word) : Prop :=
  match c with
  | 0 => x = y
  | 1 => x ≠ y
  | 2 => x.toInt < y.toInt
  | 3 => y.toInt ≤ x.toInt
  | 4 => x.toNat < y.toNat
  | 5 => y.toNat ≤ x.toNat
  | 6 => x &&& y ≠ 0
  | _ => x &&& y = 0

/-- R37: a guard holds when its predicate, p0 being 1, differs from its negation bit. -/
def GuardOn (g : Guard) (s : State) : Prop := s.core.strand.readP g.pred ≠ g.neg

end Sys2Proof.Claims

open Sys2Proof.Claims

/-! Encoding. -/

/-- Decoding the words of a well-formed instruction gives it back, every operand at every value. The four rows of
LOGRD share their words, which decode to the first of them. -/
def Obligations.DecodeOfEncode : Prop :=
  ∀ i : Instr, i.isEvent = false → i.wf = true → decodeWords (encode i).1 (encode i).2 = .ok i.canon

/-- Words that decode are the words of the instruction they decode to: no bit of an encoding is ignored (R40, R48). -/
def Obligations.EncodeOfDecode : Prop :=
  ∀ (w v : Nat) (i : Instr), w < 2 ^ 32 → v < 2 ^ 32 → (majorLong (majorOf w) = false → v = 0) →
    decodeWords w v = .ok i →
    encode i = (w, v) ∧ i.wf = true ∧ i.isEvent = false ∧ i.isLong = majorLong (majorOf w) ∧ i.canon = i

/-- Words written out from the encoding maps R42 to R47, of every map and every format of R36, decode to their
instructions. -/
def Obligations.DecodeWords : Prop :=
  decodeWords (0x02 * 2 ^ 26 + 1 * 2 ^ 21 + 2 * 2 ^ 16 + 3 * 2 ^ 11 + 0x001) 0 = .ok (.sub 1 2 3) ∧
  decodeWords (0x10 * 2 ^ 26 + 4 * 2 ^ 21 + 5 * 2 ^ 16 + 6 * 2 ^ 11 + 1 * 2 ^ 9 + 2 * 2 ^ 6 + 2) 0
    = .ok (.fmul 4 5 6 1 2) ∧
  decodeWords (0x15 * 2 ^ 26 + 2 ^ 25 + 3 * 2 ^ 22 + 7 * 2 ^ 17 + 9 * 2 ^ 12 + 2 * 2 ^ 9 + 0x1F8) 0
    = .ok (.st ⟨true, 3⟩ 7 9 2 0x1F8) ∧
  decodeWords (0x18 * 2 ^ 26 + 0x3FFFFF) 0 = .ok (.b ⟨false, 0⟩ 0x3FFFFF) ∧
  decodeWords (0x34 * 2 ^ 26 + 3 * 2 ^ 21 + 0x030) 0 = .ok (.csrr 3 0x030) ∧
  decodeWords (0x1B * 2 ^ 26 + 1 * 2 ^ 24 + 2 * 2 ^ 21 + 4 * 2 ^ 16 + 0xFFF * 2 ^ 4 + 4) 0 = .ok (.cmpi 2 4 0xFFF 4) ∧
  decodeWords (0x20 * 2 ^ 26 + 5 * 2 ^ 20 + 6 * 2 ^ 14 + 7 * 2 ^ 8 + 2 * 2 ^ 5 + 0x03) 0 = .ok (.vfma 5 6 7 2) ∧
  decodeWords (0x27 * 2 ^ 26 + 9 * 2 ^ 20 + 10 * 2 ^ 14 + 0x3F * 2 ^ 8 + 1 * 2 ^ 6) 0 = .ok (.vld 9 10 0x3F 1) ∧
  decodeWords (0x2D * 2 ^ 26 + 2 * 2 ^ 22 + 3 * 2 ^ 19 + 8 * 2 ^ 14 + 1 * 2 ^ 12) 0 = .ok (.tztest 3 8 1) ∧
  decodeWords (0x2E * 2 ^ 26 + 2 ^ 25 + 2 * 2 ^ 23 + 1 * 2 ^ 20 + 2 ^ 19 + 3 * 2 ^ 16 + 9 * 2 ^ 11) 0
    = .ok (.tst ⟨true, 3⟩ 2 1 9) ∧
  decodeWords (0x38 * 2 ^ 26 + 1 * 2 ^ 20 + 2 * 2 ^ 17 + 10 * 2 ^ 12 + 11 * 2 ^ 7 + 12 * 2 ^ 2) (2 ^ 31 + 2 ^ 29)
    = .ok (.tmma ⟨0, 1, 2, 10, 11, 12, 0, true, false, true, false, false, false, 0⟩) ∧
  decodeWords (0x3C * 2 ^ 26 + 1 * 2 ^ 16 + 2 * 2 ^ 11 + 3 * 2 ^ 6 + 4 * 2) (2 ^ 31 + 1 * 2 ^ 29 + 2 ^ 28)
    = .ok (.cpy ⟨true, 1⟩ 1 2 3 4 true) ∧
  decodeWords 0 0 = .error .unassignedMajor

/-! Reset and the step. -/

/-- Right after reset the device is supplied and not booted, nothing is pending, memory lists nothing and is in
canonical form, no core holds a strand, and the first step is the boot ROM's (R408). -/
def Obligations.ResetState : Prop :=
  State.reset.svc.phase = .unbooted ∧ State.reset.ckpt.powered = true ∧ State.reset.mem = [] ∧
    MemoryOk State.reset ∧ State.reset.core.mode = .vacant ∧ State.reset.others = [] ∧
    step State.reset = exec .boot State.reset

/-- The step at a ready state runs the instruction that the bytes at the pc decode to: around `exec`, `step` adds only the
note of the line that was fetched, which changes the core's instruction line and the context's count of fills (R354). The
row of LOGRD is the one that its register selects (R228). -/
def Obligations.StepRunsDecoded : Prop :=
  ∀ (s : State) (w v : Nat) (i : Instr), Ready s → s.core.strand.evicted = none → FetchedWords s w v →
    decodeWords w v = .ok i → badSlot w (slotOf s.core.strand.pc) = false →
    (i.isLong = true → splitsBody s.core.strand = false) → lostLine s.core.strand i (idleLines s i) = none →
    step s = exec (resolve i s.core.strand) (noteFetch s) ∧
    ∃ l a, noteFetch s = { s with core := { s.core with iline := l }, svc := { s.svc with accounts := a } }

/-- A register line lost as it left the register file stops the strand first, at its next stop point (R382). Then come
the checks before execution, in the order of R49: a fetch that fails, a bad word, a word in a slot it may not stand in
(R33, R35), a long instruction split by a loop's end (R68, whose place among them is the model's choice, log 71), and a
lost line that the instruction reads or writes (R382), unless a check of row 6 fails on registers that are not lost: then
the instruction runs, and it takes that check's trap. A fetch waits while the attribute of the object is being changed
(R227) or a stalled cluster holds the line (R327). -/
def Obligations.StepChecks : Prop :=
  (∀ (s : State) (l : Nat), Ready s → s.core.strand.evicted = some l → s.core.strand.begun = false →
    s.core.strand.midCall = false → step s = .next (takeTrap 0x1B false (W l) s)) ∧
  ∀ s : State, Ready s → s.core.strand.evicted = none →
    (∀ c v, fetchWord s s.core.strand.pc = .error (.trap c v) → step s = exec (.fetchFault c v) (noteFetch s)) ∧
    (∀ w c v, FetchedAt s s.core.strand.pc w → majorLong (majorOf w) = true →
      fetchWord s (s.core.strand.pc + 4) = .error (.trap c v) → step s = exec (.fetchFault c v) (noteFetch s)) ∧
    (fetchWord s s.core.strand.pc = .error .wait → ∃ t, step s = .next t ∧ Waits s t) ∧
    (∀ w v, FetchedWords s w v → majorBad (majorOf w) = true →
      step s = exec (.illegalInstruction (majorLong (majorOf w)) (W (w + v * 2 ^ 32))) (noteFetch s)) ∧
    (∀ w v, FetchedWords s w v → majorBad (majorOf w) = false → badSlot w (slotOf s.core.strand.pc) = true →
      step s = .next (takeTrap 0x02 false s.core.strand.pc s)) ∧
    (∀ w v e, FetchedWords s w v → badSlot w (slotOf s.core.strand.pc) = false → decodeWords w v = .error e →
      step s = exec (.illegalInstruction (majorLong (majorOf w)) (W (w + v * 2 ^ 32))) (noteFetch s)) ∧
    (∀ w v i, FetchedWords s w v → badSlot w (slotOf s.core.strand.pc) = false → decodeWords w v = .ok i →
      i.isLong = true → splitsBody s.core.strand = true →
      step s = exec (.illegalInstruction (majorLong (majorOf w)) (W (w + v * 2 ^ 32))) (noteFetch s)) ∧
    (∀ w v i l, FetchedWords s w v → badSlot w (slotOf s.core.strand.pc) = false → decodeWords w v = .ok i →
      (i.isLong = true → splitsBody s.core.strand = false) → lostLine s.core.strand i (idleLines s i) = some l →
      failsSix s.core.strand (rowSix s.cur s.core.strand i) = false → step s = .next (takeTrap 0x1B false (W l) s)) ∧
    ∀ w v i l, FetchedWords s w v → badSlot w (slotOf s.core.strand.pc) = false → decodeWords w v = .ok i →
      (i.isLong = true → splitsBody s.core.strand = false) → lostLine s.core.strand i (idleLines s i) = some l →
      failsSix s.core.strand (rowSix s.cur s.core.strand i) = true →
      step s = exec (resolve i s.core.strand) (noteFetch s)

/-! Traps. -/

/-- R373, R389, R48, R50, R345, R390: taking a trap writes EPC, TVAL and CAUSE, and goes to the handler for a cause
below 0x10 unless TVEC is 0 or TH is 1, and else to the service; TRAP, SVC, a bad word and a failed fetch each take their
trap; ERET clears TH and continues at EPC, or traps ALIGNMENT when EPC is not a multiple of 4. -/
def Obligations.TrapsAndReturn : Prop :=
  (∀ (s : State) (c : BitVec 8) (f : Bool) (v : Word), StopFree s → Traps c f v s (takeTrap c f v s)) ∧
  (∀ (s : State) (i : Instr) (c : BitVec 8) (f : Bool) (v : Word), TrapForm s i c f v → StopFree s →
    ∃ t, exec i s = .next t ∧ Traps c f v s t) ∧
  (∀ s : State, s.core.strand.epc.toNat % 4 = 0 → ∃ t, exec .eret s = .next t ∧
    JumpsTo s { s.core.strand with status := s.core.strand.status &&& ~~~(1 : Word) } s.core.strand.epc t) ∧
  ∀ s : State, s.core.strand.epc.toNat % 4 ≠ 0 → StopFree s → ∃ t, exec .eret s = .next t ∧
    Traps 0x02 false s.core.strand.epc s t

/-! Integer and control instructions. -/

/-- R52 to R58: every register-register instruction, and every one of one source register or an immediate, completes in
every state; rd holds the value of its rule, g0 still reads zero, every other register and all else stays. -/
def Obligations.IntegerOperations : Prop :=
  ∀ (s : State) (i : Instr) (d a b : Reg) (f : Word → Word → Word),
    (BinaryForm i d a b f → ∃ t, exec i s = .next t ∧
      Retires s (s.core.strand.writeG d (f (s.core.strand.readG a) (s.core.strand.readG b))) 4 t ∧
      ∀ r, t.core.strand.readG r = if r = 0 then 0
        else if r = d then f (s.core.strand.readG a) (s.core.strand.readG b) else s.core.strand.readG r) ∧
    (UnaryForm i d a f → ∃ t, exec i s = .next t ∧
      Retires s (s.core.strand.writeG d (f (s.core.strand.readG d) (s.core.strand.readG a))) 4 t ∧
      ∀ r, t.core.strand.readG r = if r = 0 then 0
        else if r = d then f (s.core.strand.readG d) (s.core.strand.readG a) else s.core.strand.readG r)

/-- R59, R61: CMP and CMPI write their predicate with the truth of the condition, p0 reading 1; SEL takes the bits of
rs1 where the mask has a 1, a mask register of g0 being all ones, and does nothing when its guard is off. -/
def Obligations.CompareSelect : Prop :=
  ∀ (s : State) (p : BitVec 3) (d a b m : Reg) (i : BitVec 12) (c : BitVec 4) (g : Guard),
    (∃ t v, exec (.cmp p a b c) s = .next t ∧ Retires s (s.core.strand.writeP p v) 4 t ∧
      (v = true ↔ Condition c.toNat (s.core.strand.readG a) (s.core.strand.readG b)) ∧
      ∀ q, t.core.strand.readP q = if q = 0 then true else if q = p then v else s.core.strand.readP q) ∧
    (∃ t v, exec (.cmpi p a i c) s = .next t ∧ Retires s (s.core.strand.writeP p v) 4 t ∧
      (v = true ↔ Condition c.toNat (s.core.strand.readG a) (BitVec.ofInt 64 i.toInt)) ∧
      ∀ q, t.core.strand.readP q = if q = 0 then true else if q = p then v else s.core.strand.readP q) ∧
    (GuardOn g s → ∃ t x, exec (.sel g d a m) s = .next t ∧ Retires s (s.core.strand.writeG d x) 4 t ∧
      ∀ j < 64, x.getLsbD j = if m = 0 ∨ (s.core.strand.readG m).getLsbD j = true
        then (s.core.strand.readG a).getLsbD j else (s.core.strand.readG d).getLsbD j) ∧
    (¬ GuardOn g s → ∃ t, exec (.sel g d a m) s = .next t ∧ Retires s s.core.strand 4 t)

/-- R62 to R64, R34: the transfers of control. The target of B and CALL is a displacement in fetch blocks from the
instruction's own block; CALL puts the next block in g1; JR and RET trap on a target that starts no block. -/
def Obligations.ControlTransfer : Prop :=
  ∀ (s : State) (g : Guard) (x : BitVec 22) (a : Reg),
    let t0 := s.core.strand
    let block := W (t0.pc.toNat / 64 * 64)
    (GuardOn g s →
      (∃ t, exec (.b g x) s = .next t ∧ JumpsTo s t0 (BitVec.ofInt 64 (block.toInt + 64 * x.toInt)) t) ∧
      (∃ t, exec (.call g x) s = .next t ∧
        JumpsTo s (t0.writeG 1 (block + 64)) (BitVec.ofInt 64 (block.toInt + 64 * x.toInt)) t) ∧
      (∀ i r, (i = .jr g a ∧ r = a) ∨ (i = .ret g ∧ r = 1) →
        ((t0.readG r).toNat % 64 = 0 → ∃ t, exec i s = .next t ∧ JumpsTo s t0 (t0.readG r) t) ∧
        ((t0.readG r).toNat % 64 ≠ 0 → StopFree s → ∃ t, exec i s = .next t ∧ Traps 0x02 false (t0.readG r) s t))) ∧
    (¬ GuardOn g s → ∀ i, i = .b g x ∨ i = .call g x ∨ i = .jr g a ∨ i = .ret g →
      ∃ t, exec i s = .next t ∧ Retires s t0 4 t)

/-- R66, R67: LOOP with a count starts its body at the next block, and with a count of 0 it skips the body. In sequence,
an instruction of n bytes retires at the next address when no active body ends there; when the one active body ends
there, its counter goes down, and the strand goes back to the body's start or, at zero, on. When two active bodies end
there, the one that starts later (or, of two that start together, the one of the greater number) is examined first, and
the other only when the first has ended. -/
def Obligations.Loops : Prop :=
  (∀ (s : State) (k : Fin 3) (a : Reg) (l : BitVec 8),
    let t0 := s.core.strand
    let start := W (t0.pc.toNat / 64 * 64) + 64
    let n := t0.readG a
    ∃ t, exec (.loop (BitVec.ofNat 2 k.val) a l) s = .next t ∧
      (n ≠ 0 → JumpsTo s { t0 with
          lcnt := t0.lcnt.set k.val n k.isLt
          lbeg := t0.lbeg.set k.val start k.isLt
          llen := t0.llen.set k.val (BitVec.ofNat 16 (l.toNat + 1)) k.isLt
          lact := t0.lact ||| (1#3 <<< k.val) } start t) ∧
      (n = 0 → JumpsTo s { t0 with
          lcnt := t0.lcnt.set k.val 0 k.isLt
          lact := t0.lact &&& ~~~(1#3 <<< k.val) } (start + W (4 * (l.toNat + 1))) t)) ∧
  ∀ (t : Strand) (n : Nat),
    (t.lact = 0 → t.advance n = { t with pc := t.pc + W n }) ∧
    (∀ k : Fin 3, t.lact = 1#3 <<< k.val →
      (loopHits t k t.pc (t.pc + W n) = false → t.advance n = { t with pc := t.pc + W n }) ∧
      (t.lbeg[k].toNat ≤ t.pc.toNat → t.pc.toNat < (t.lbeg[k] + W (4 * t.llen[k].toNat)).toNat →
        t.pc + W n = t.lbeg[k] + W (4 * t.llen[k].toNat) →
        t.advance n = if t.lcnt[k] = 1
          then { t with pc := t.pc + W n, lcnt := t.lcnt.set k.val 0 k.isLt, lact := 0 }
          else { t with pc := t.lbeg[k], lcnt := t.lcnt.set k.val (t.lcnt[k] - 1) k.isLt })) ∧
    ∀ k j : Fin 3, k ≠ j → t.lact = (1#3 <<< k.val) ||| (1#3 <<< j.val) →
      t.lbeg[j].toNat < t.lbeg[k].toNat ∨ (t.lbeg[j] = t.lbeg[k] ∧ j < k) →
      loopHits t k t.pc (t.pc + W n) = true → loopHits t j t.pc (t.pc + W n) = true →
      t.advance n =
        if t.lcnt[k] ≠ 1 then { t with pc := t.lbeg[k], lcnt := t.lcnt.set k.val (t.lcnt[k] - 1) k.isLt }
        else if t.lcnt[j] ≠ 1 then { t with
          pc := t.lbeg[j], lact := 1#3 <<< j.val
          lcnt := (t.lcnt.set k.val 0 k.isLt).set j.val (t.lcnt[j] - 1) j.isLt }
        else { t with
          pc := t.pc + W n, lact := 0
          lcnt := (t.lcnt.set k.val 0 k.isLt).set j.val 0 j.isLt }

/-- R65, R282, R319, R391: NOP, YIELD and FPUB change nothing; HBEAT counts a beat and clears RUN as its mode says;
WFE takes the event or meets its deadline, and otherwise waits. -/
def Obligations.HintsAndEvents : Prop :=
  ∀ (s : State) (a : Reg),
    let t0 := s.core.strand
    (∀ i, i = .nop ∨ i = .yield ∨ i = .fpub → ∃ t, exec i s = .next t ∧ Retires s t0 4 t) ∧
    (∃ t h, exec .hbeat s = .next t ∧ Retires s { t0 with hbeat := h } 4 t ∧
      (slice t0.wdmode 62 2 = 0 → h = t0.hbeat) ∧
      (slice t0.wdmode 62 2 ≠ 0 → slice h 48 16 = (slice t0.hbeat 48 16 + 1) % 2 ^ 16) ∧
      (slice t0.wdmode 62 2 = 2 → slice h 0 48 = 0) ∧
      (slice t0.wdmode 62 2 ≠ 2 → slice h 0 48 = slice t0.hbeat 0 48)) ∧
    (bitOf t0.status 2 = true ∨ (t0.readG a ≠ 0 ∧ (t0.readG a).toNat ≤ s.pkg.time) →
      ∃ t, exec (.wfe a) s = .next t ∧ Retires s { t0 with status := t0.status &&& ~~~(4 : Word) } 4 t) ∧
    (bitOf t0.status 2 = false → t0.readG a = 0 ∨ s.pkg.time < (t0.readG a).toNat →
      ∃ t, exec (.wfe a) s = .next t ∧ Waits s t)

/-! Scalar floating point. -/

namespace Sys2Proof.Claims

/-- R106 to R111: the instructions that write F[rd], with their result and conditions. -/
inductive FloatForm (t : Strand) : Instr → Reg → FRes → Prop where
  | fadd (d a b c r) : FloatForm t (.fadd d a b c r) d (fpAdd (fmtOf c) (rndOf r t.fcsr) (t.fp (fmtOf c) a) (t.fp (fmtOf c) b))
  | fsub (d a b c r) : FloatForm t (.fsub d a b c r) d (fpSub (fmtOf c) (rndOf r t.fcsr) (t.fp (fmtOf c) a) (t.fp (fmtOf c) b))
  | fmul (d a b c r) : FloatForm t (.fmul d a b c r) d (fpMul (fmtOf c) (rndOf r t.fcsr) (t.fp (fmtOf c) a) (t.fp (fmtOf c) b))
  | fdiv (d a b c r) : FloatForm t (.fdiv d a b c r) d (fpDiv (fmtOf c) (rndOf r t.fcsr) (t.fp (fmtOf c) a) (t.fp (fmtOf c) b))
  | fsqrt (d a c r) : FloatForm t (.fsqrt d a c r) d (fpSqrt (fmtOf c) (rndOf r t.fcsr) (t.fp (fmtOf c) a))
  | ffma (d a b e c r n) : FloatForm t (.ffma d a b e c r n) d
      (fpFma (fmtOf c) (rndOf r t.fcsr) n (t.fp (fmtOf c) a) (t.fp (fmtOf c) b) (t.fp (fmtOf c) e))
  | fmin (d a b c) : FloatForm t (.fmin d a b c) d
      (fpMinMax (fmtOf c) false ((t.readF a).toNat % 2 ^ (fmtOf c).width) ((t.readF b).toNat % 2 ^ (fmtOf c).width))
  | fmax (d a b c) : FloatForm t (.fmax d a b c) d
      (fpMinMax (fmtOf c) true ((t.readF a).toNat % 2 ^ (fmtOf c).width) ((t.readF b).toNat % 2 ^ (fmtOf c).width))
  | narrow (d a r e c) : 4 ≤ c.toNat → FloatForm t (.fcvt d a r e c) d
      (intToFp (cvtFmt e) (rndOf r t.fcsr)
        (if c.toNat % 2 = 0 then toSigned (cvtWidth c) (t.readG a).toNat else ((t.readG a).toNat % 2 ^ cvtWidth c : Nat)))
  | convert (d a r e c) : e.toNat ≤ 3 → c.toNat ≤ 3 → FloatForm t (.fcvt d a r e c) d
      (fpConvert (cvtFmt e) (rndOf r t.fcsr) (t.fp (cvtFmt c) a))

/-- R106, R110, R111: the instructions that write another register file, with the conditions they raise and the
strand they leave but for FCSR. -/
inductive FloatOut (t : Strand) : Instr → Conds → (Strand → Strand) → Prop where
  | fclass (d a c) : FloatOut t (.fclass d a c) 0 fun u => u.writeG d (W (fpClass (fmtOf c) (t.readF a).toNat))
  | fmvgf (d a) : FloatOut t (.fmvgf d a) 0 fun u => u.writeF d (t.readG a)
  | fmvfg (d a) : FloatOut t (.fmvfg d a) 0 fun u => u.writeG d (t.readF a)
  | fcmp (p a b c k) : FloatOut t (.fcmp p a b c k)
      (if (fpCompare k.toNat (t.fp (fmtOf c) a) (t.fp (fmtOf c) b)).2 then cNV else 0)
      fun u => u.writeP p (fpCompare k.toNat (t.fp (fmtOf c) a) (t.fp (fmtOf c) b)).1
  | toInt (d a r e c) (lo hi : Int) : 4 ≤ e.toNat → c.toNat ≤ 3 →
      lo = (if e.toNat % 2 = 0 then -2 ^ (cvtWidth e - 1) else 0) →
      hi = (if e.toNat % 2 = 0 then 2 ^ (cvtWidth e - 1) - 1 else 2 ^ cvtWidth e - 1) →
      FloatOut t (.fcvt d a r e c) (fpToInt lo hi (rndOf r t.fcsr) (t.fp (cvtFmt c) a)).2
        fun u => u.writeG d (BitVec.ofInt 64 (fpToInt lo hi (rndOf r t.fcsr) (t.fp (cvtFmt c) a)).1)

/-- R99: no condition of a set is enabled. -/
def Quiet (vec : Bool) (c : Conds) (t : Strand) : Prop := c &&& t.enables vec = 0

end Sys2Proof.Claims

/-- R106, R107, R110, R111, R99, R101: when no raised condition is enabled, F[rd] holds the rounded result, zero above its
width, or the other register file its value, FCSR has the flags of the conditions set, and every other register and all
else stays; an enabled condition traps ARITHMETIC with the raised conditions in TVAL, their flags set and the destination
not written. -/
def Obligations.FloatOperations : Prop :=
  (∀ (s : State) (i : Instr) (d : Reg) (r : FRes), FloatForm s.core.strand i d r → Quiet false r.2 s.core.strand →
    ∃ t, exec i s = .next t ∧
      Retires s ({ s.core.strand with fcsr := s.core.strand.fcsr ||| W r.2.toNat }.writeF d (W r.1)) 4 t ∧
      (∀ x, t.core.strand.readF x = if x = d then W r.1 else s.core.strand.readF x) ∧
      ∀ x, t.core.strand.readG x = s.core.strand.readG x) ∧
  (∀ (s : State) (i : Instr) (c : Conds) (f : Strand → Strand), FloatOut s.core.strand i c f →
    Quiet false c s.core.strand →
    ∃ t, exec i s = .next t ∧ Retires s (f { s.core.strand with fcsr := s.core.strand.fcsr ||| W c.toNat }) 4 t) ∧
  (∀ (s : State) (i : Instr), StopFree s →
    (∀ d r, FloatForm s.core.strand i d r → ¬ Quiet false r.2 s.core.strand → ∃ t, exec i s = .next t ∧
      Traps 0x03 false (W r.2.toNat)
        (strandSet s { s.core.strand with fcsr := s.core.strand.fcsr ||| W r.2.toNat }) t) ∧
    (∀ c f, FloatOut s.core.strand i c f → ¬ Quiet false c s.core.strand → ∃ t, exec i s = .next t ∧
      Traps 0x03 false (W c.toNat)
        (strandSet s { s.core.strand with fcsr := s.core.strand.fcsr ||| W c.toNat }) t))

namespace Sys2Proof.Claims

/-- R80: the exact value of a finite number. -/
def IsVal (a : Fp) (x : ℝ) : Prop :=
  match a with
  | .fin n m e => x = (if n then -1 else 1) * m * (2 : ℝ) ^ e
  | _ => False

/-- R88: the multiple n of 2^q beside a number of magnitude x that a mode chooses. -/
def Near (rnd : Rnd) (neg : Bool) (x : ℝ) (n : Nat) (q : Int) : Prop :=
  |n * (2 : ℝ) ^ q - x| < (2 : ℝ) ^ q ∧
    match rnd with
    | .rtz => n * (2 : ℝ) ^ q ≤ x
    | .rdn => if neg then x ≤ n * (2 : ℝ) ^ q else n * (2 : ℝ) ^ q ≤ x
    | .rup => if neg then n * (2 : ℝ) ^ q ≤ x else x ≤ n * (2 : ℝ) ^ q
    | .rne => 2 * |n * (2 : ℝ) ^ q - x| ≤ (2 : ℝ) ^ q ∧ (2 * |n * (2 : ℝ) ^ q - x| = (2 : ℝ) ^ q → n % 2 = 0)

/-- R80: a code of a finite number of a sign and a magnitude. -/
def HasMag (f : Fmt) (c : Nat) (neg : Bool) (x : ℝ) : Prop :=
  c < 2 ^ f.width ∧ ∃ m e, decode f c = .fin neg m e ∧ m * (2 : ℝ) ^ e = x

/-- R80: a number is the largest finite magnitude of a format. -/
def IsMax (f : Fmt) (x : ℝ) : Prop :=
  if f.e4m3 then x = 448 else x = (2 ^ (f.mbits + 1) - 1) * (2 : ℝ) ^ ((f.bias : Int) - f.mbits)

/-- R88, R90, R91: the result of rounding a nonzero number of a sign and a magnitude to a format, with its conditions:
the spacing 2^q is that of the magnitude's binade or of the subnormal numbers. -/
def RoundedMag (f : Fmt) (rnd : Rnd) (neg : Bool) (x : ℝ) (r : FRes) : Prop :=
  ∃ (n : Nat) (q : Int) (big : ℝ), IsMax f big ∧ 1 - (f.bias : Int) - f.mbits ≤ q ∧ x < (2 : ℝ) ^ (q + f.mbits + 1) ∧
    (q = 1 - (f.bias : Int) - f.mbits ∨ (2 : ℝ) ^ (q + f.mbits) ≤ x) ∧ Near rnd neg x n q ∧
    (big < n * (2 : ℝ) ^ q → r.2 = cOF ||| cNX ∧
      if f.e4m3 = false ∧ (rnd = .rne ∨ (rnd = .rup ∧ neg = false) ∨ (rnd = .rdn ∧ neg = true))
      then r.1 < 2 ^ f.width ∧ decode f r.1 = .inf neg else HasMag f r.1 neg big) ∧
    (n * (2 : ℝ) ^ q ≤ big → HasMag f r.1 neg (n * (2 : ℝ) ^ q) ∧
      (n * (2 : ℝ) ^ q = x → r.2 = 0) ∧
      (n * (2 : ℝ) ^ q ≠ x → ∀ (k : Nat) (p : Int), (2 : ℝ) ^ (p + f.mbits) ≤ x → x < (2 : ℝ) ^ (p + f.mbits + 1) →
        Near rnd neg x k p →
        (k * (2 : ℝ) ^ p < (2 : ℝ) ^ (1 - (f.bias : Int)) → r.2 = cNX ||| cUF) ∧
        ((2 : ℝ) ^ (1 - (f.bias : Int)) ≤ k * (2 : ℝ) ^ p → r.2 = cNX)))

/-- R88, R92: the result of an operation whose exact value is x, a zero having sign `zero`. -/
def Rounded (f : Fmt) (rnd : Rnd) (x : ℝ) (zero : Bool) (r : FRes) : Prop :=
  (0 < x → RoundedMag f rnd false x r) ∧ (x < 0 → RoundedMag f rnd true (-x) r) ∧
    (x = 0 → r = (zero.toNat * 2 ^ (f.ebits + f.mbits), 0))

/-- R82, R93: a result that is the canonical NaN, with NV or without. -/
def IsNan (f : Fmt) (nv : Prop) (r : FRes) : Prop :=
  r.1 = (if f.e4m3 then 0x7F else (2 ^ (f.ebits + 1) - 1) * 2 ^ (f.mbits - 1)) ∧ (nv → r.2 = cNV) ∧ (¬ nv → r.2 = 0)
/-- R80: a result that is an infinity, with conditions. -/
def IsInf (f : Fmt) (neg : Bool) (c : Conds) (r : FRes) : Prop :=
  r = (neg.toNat * 2 ^ (f.ebits + f.mbits) + (2 ^ f.ebits - 1) * 2 ^ f.mbits, c)

/-- R108: a below b, −0 being below +0. -/
def Below : Fp → Fp → Prop
  | .inf n, .inf k => n = true ∧ k = false
  | .inf n, .fin .. => n = true
  | .fin .., .inf k => k = false
  | .fin n m e, .fin k d g => ∀ x y, IsVal (.fin n m e) x → IsVal (.fin k d g) y →
      x < y ∨ (x = 0 ∧ y = 0 ∧ n = true ∧ k = false)
  | _, _ => False

/-- The number of R110's class of a code, from its fields. -/
def ClassOf (f : Fmt) (x : Nat) : Nat :=
  let frac := x % 2 ^ f.mbits
  let e := x / 2 ^ f.mbits % 2 ^ f.ebits
  let neg := x / 2 ^ (f.mbits + f.ebits) % 2
  if e = 2 ^ f.ebits - 1 then
    if frac = 0 then 6 + neg else if 2 ^ (f.mbits - 1) ≤ frac then 8 else 9
  else if e = 0 then (if frac = 0 then neg else 2 + neg) else 4 + neg

end Sys2Proof.Claims

/-- R80, R81, R88: a magnitude divided by 2^k is rounded to a neighbour: toward zero, toward minus infinity, toward plus
infinity, or to the nearest with ties to an even number, and is inexact when a remainder is left; a value that a code
of a format names rounds to that code in every mode, raising nothing.
R88 to R93, R107, R109: a sum, a difference, a product, a quotient, a root and a multiply-add of finite numbers are their
exact value rounded once, with overflow, underflow and the signs of zeros; those of infinities and NaNs are as R93 says.
R94: so are a conversion, that of an integer, and that to an integer, which clamps. R108, R110: the minimum, the maximum,
the compares and the class. -/
def Obligations.Rounding : Prop :=
  (∀ (neg : Bool) (m k : Nat) (rnd : Rnd),
    let q := (roundShift rnd neg m k).1
    ((roundShift rnd neg m k).2 = true ↔ m % 2 ^ k ≠ 0) ∧ m < (q + 1) * 2 ^ k ∧ q * 2 ^ k < m + 2 ^ k ∧
      (rnd = .rtz ∨ (rnd = .rdn ∧ neg = false) ∨ (rnd = .rup ∧ neg = true) → q * 2 ^ k ≤ m) ∧
      ((rnd = .rdn ∧ neg = true) ∨ (rnd = .rup ∧ neg = false) → m ≤ q * 2 ^ k) ∧
      (rnd = .rne → 2 * m ≤ (2 * q + 1) * 2 ^ k ∧ 2 * q * 2 ^ k ≤ 2 * m + 2 ^ k ∧
        (2 * m = (2 * q + 1) * 2 ^ k ∨ 2 * q * 2 ^ k = 2 * m + 2 ^ k → q % 2 = 0))) ∧
  (∀ (f : Fmt) (rnd : Rnd) (x : Nat), f ∈ [fp64, fp32, fp16, bf16, fe4m3, fe5m2] → x < 2 ^ f.width →
    (decode f x).isNan = false → roundFp f rnd (decode f x) = (x, 0)) ∧
  (∀ (f : Fmt) (rnd : Rnd) (a b c : Fp) (x y z : ℝ), f ∈ [fp64, fp32, fp16, bf16] → IsVal a x → IsVal b y → IsVal c z →
    let p := a.signBit
    let q := b.signBit
    Rounded f rnd (x + y) (if p = q then p else rnd == .rdn) (fpAdd f rnd a b) ∧
    Rounded f rnd (x - y) (if p = q then rnd == .rdn else p) (fpSub f rnd a b) ∧
    Rounded f rnd (x * y) (p != q) (fpMul f rnd a b) ∧
    (y ≠ 0 → Rounded f rnd (x / y) (p != q) (fpDiv f rnd a b)) ∧
    (y = 0 → x ≠ 0 → IsInf f (p != q) cDZ (fpDiv f rnd a b)) ∧
    (y = 0 → x = 0 → IsNan f True (fpDiv f rnd a b)) ∧
    (∀ w, 0 ≤ w → w * w = x → Rounded f rnd w p (fpSqrt f rnd a)) ∧
    (x < 0 → IsNan f True (fpSqrt f rnd a)) ∧
    (∀ neg : Bool, Rounded f rnd ((if neg then -(x * y) else x * y) + z)
      (if ((p != q) != neg) = c.signBit then c.signBit else rnd == .rdn) (fpFma f rnd neg a b c))) ∧
  (∀ (f : Fmt) (rnd : Rnd) (a b c : Fp) (n k neg : Bool) (m : Nat) (e : Int), f ∈ [fp64, fp32, fp16, bf16] →
    let fin := Fp.fin k m e
    (a.isNan = true ∨ b.isNan = true →
      IsNan f (a.isSig = true ∨ b.isSig = true) (fpAdd f rnd a b) ∧
      IsNan f (a.isSig = true ∨ b.isSig = true) (fpSub f rnd a b) ∧
      IsNan f (a.isSig = true ∨ b.isSig = true) (fpMul f rnd a b) ∧
      IsNan f (a.isSig = true ∨ b.isSig = true) (fpDiv f rnd a b)) ∧
    (a.isNan = true → IsNan f (a.isSig = true) (fpSqrt f rnd a)) ∧
    (a.isNan = true ∨ b.isNan = true ∨ c.isNan = true ∨ (mulFp a b).2 = true →
      IsNan f (a.isSig = true ∨ b.isSig = true ∨ c.isSig = true ∨ (mulFp a b).2 = true) (fpFma f rnd neg a b c)) ∧
    (∀ u v, (mulFp u v).2 = true ↔ (∃ i, u = .inf i ∧ ∃ j g, v = .fin j 0 g) ∨ (∃ i, v = .inf i ∧ ∃ j g, u = .fin j 0 g)) ∧
    IsInf f n 0 (fpAdd f rnd (.inf n) (.inf n)) ∧ IsNan f True (fpAdd f rnd (.inf n) (.inf !n)) ∧
    IsInf f n 0 (fpAdd f rnd (.inf n) fin) ∧ IsInf f n 0 (fpAdd f rnd fin (.inf n)) ∧
    IsInf f (n != k) 0 (fpMul f rnd (.inf n) (.inf k)) ∧
    (m ≠ 0 → IsInf f (n != k) 0 (fpMul f rnd (.inf n) fin) ∧ IsInf f (n != k) 0 (fpMul f rnd fin (.inf n))) ∧
    (m = 0 → IsNan f True (fpMul f rnd (.inf n) fin) ∧ IsNan f True (fpMul f rnd fin (.inf n))) ∧
    IsNan f True (fpDiv f rnd (.inf n) (.inf k)) ∧ IsInf f (n != k) 0 (fpDiv f rnd (.inf n) fin) ∧
    fpDiv f rnd fin (.inf n) = ((n != k).toNat * 2 ^ (f.ebits + f.mbits), 0) ∧
    IsInf f false 0 (fpSqrt f rnd (.inf false)) ∧ IsNan f True (fpSqrt f rnd (.inf true)) ∧
    (m ≠ 0 → IsInf f ((n != k) != neg) 0 (fpFma f rnd neg (.inf n) fin (.inf ((n != k) != neg))) ∧
      IsNan f True (fpFma f rnd neg (.inf n) fin (.inf ((n != k) == neg))))) ∧
  (∀ (f : Fmt) (rnd : Rnd) (a : Fp) (v : Int), f ∈ [fp64, fp32, fp16, bf16, fe4m3, fe5m2] →
    (∀ x, IsVal a x → Rounded f rnd x a.signBit (fpConvert f rnd a)) ∧
    (a.isNan = true → IsNan f (a.isSig = true) (fpConvert f rnd a)) ∧
    (∀ n, a = .inf n → if f.e4m3 then IsNan f True (fpConvert f rnd a) else IsInf f n 0 (fpConvert f rnd a)) ∧
    Rounded f rnd (v : ℝ) false (intToFp f rnd v)) ∧
  (∀ (rnd : Rnd) (a : Fp) (lo hi : Int), -2 ^ 63 ≤ lo → lo ≤ 0 → 0 ≤ hi → hi < 2 ^ 64 →
    (a.isNan = true → fpToInt lo hi rnd a = (0, cNV)) ∧
    (∀ n, a = .inf n → fpToInt lo hi rnd a = (if n then lo else hi, cNV)) ∧
    (∀ x, IsVal a x → ∃ (n : Nat) (v : Int), Near rnd a.signBit |x| n 0 ∧ v = (if a.signBit then -(n : Int) else n) ∧
      (v < lo → fpToInt lo hi rnd a = (lo, cNV)) ∧ (hi < v → fpToInt lo hi rnd a = (hi, cNV)) ∧
      (lo ≤ v → v ≤ hi → (fpToInt lo hi rnd a).1 = v ∧ ((v : ℝ) = x → (fpToInt lo hi rnd a).2 = 0) ∧
        ((v : ℝ) ≠ x → (fpToInt lo hi rnd a).2 = cNX)))) ∧
  (∀ (f : Fmt) (mx : Bool) (xa xb : Nat), f ∈ [fp64, fp32, fp16, bf16] → xa < 2 ^ f.width → xb < 2 ^ f.width →
    let a := decode f xa
    let b := decode f xb
    let r := fpMinMax f mx xa xb
    (r.2 = if a.isSig || b.isSig then cNV else 0) ∧
    (a.isNan = true → b.isNan = true → r.1 = (2 ^ (f.ebits + 1) - 1) * 2 ^ (f.mbits - 1)) ∧
    (a.isNan = true → b.isNan = false → r.1 = xb) ∧ (a.isNan = false → b.isNan = true → r.1 = xa) ∧
    (a.isNan = false → b.isNan = false →
      (Below a b → r.1 = if mx then xb else xa) ∧ (Below b a → r.1 = if mx then xa else xb) ∧
      (¬ Below a b → ¬ Below b a → r.1 = xa)) ∧
    fpClass f xa = 2 ^ ClassOf f xa) ∧
  ∀ (a b : Fp),
    let nan : Prop := a.isNan = true ∨ b.isNan = true
    let sig : Prop := a.isSig = true ∨ b.isSig = true
    let zeros : Prop := IsVal a 0 ∧ IsVal b 0
    ((fpCompare 0 a b).1 = true ↔ ¬ nan ∧ ((¬ Below a b ∧ ¬ Below b a) ∨ zeros)) ∧
    ((fpCompare 1 a b).1 = true ↔ ¬ nan ∧ Below a b ∧ ¬ zeros) ∧
    ((fpCompare 2 a b).1 = true ↔ ¬ nan ∧ (¬ Below b a ∨ zeros)) ∧
    ((fpCompare 3 a b).1 = true ↔ nan) ∧ (fpCompare 4 a b).1 = !(fpCompare 0 a b).1 ∧
    (∀ c, c = 0 ∨ c = 3 ∨ c = 4 → ((fpCompare c a b).2 = true ↔ sig)) ∧
    ∀ c, c = 1 ∨ c = 2 → ((fpCompare c a b).2 = true ↔ nan)

/-! Plain loads and stores. -/

namespace Sys2Proof.Claims

/-- R70, R112: LD and FLD read a width at an address and put the extended value in a register. -/
inductive LoadForm (t : Strand) : Instr → Word → Nat → (Nat → Strand) → Prop where
  | unsigned (d a z o) : 4 ≤ z.toNat → LoadForm t (.ld d a z o) (t.readG a + BitVec.signExtend 64 o)
      (2 ^ (z.toNat % 4)) fun v => t.writeG d (W v)
  | signed (d a z o) : z.toNat ≤ 3 → LoadForm t (.ld d a z o) (t.readG a + BitVec.signExtend 64 o)
      (2 ^ z.toNat) fun v => t.writeG d (BitVec.signExtend 64 (BitVec.ofNat (8 * 2 ^ z.toNat) v))
  | fld (d a z o) : z.toNat ≤ 2 → LoadForm t (.fld d a z o) (t.readG a + BitVec.signExtend 64 o)
      (2 ^ (3 - z.toNat)) fun v => t.writeF d (W v)

/-- R70, R112: ST and FST write the low bytes of a register, the least significant first, at an address. -/
inductive StoreForm (t : Strand) : Instr → Guard → Word → List Byte → Prop where
  | st (g a d w o) : StoreForm t (.st g a d w o) g (t.readG a + BitVec.signExtend 64 o)
      (natBytes (2 ^ w.toNat) (t.readG d).toNat)
  | fst (g a d w o) : w.toNat ≤ 2 → StoreForm t (.fst g a d w o) g (t.readG a + BitVec.signExtend 64 o)
      (natBytes (2 ^ (3 - w.toNat)) (t.readF d).toNat)

end Sys2Proof.Claims

/-- R70 to R72, R112: a load of aligned, readable, sound bytes completes with their little-endian value, and changes
no byte, no other register and nothing but what a read may change. -/
def Obligations.LoadResults : Prop :=
  ∀ (s : State) (i : Instr) (va : Word) (w : Nat) (f : Nat → Strand) (ps : List Piece), LoadForm s.core.strand i va w f →
    va.toNat % w = 0 → translate s (self s) va w .read = .ok ps → poisonAt s 0 ps = none →
    ∃ m t, exec i s = .next t ∧ Reads s m ∧ Retires m (f (bytesNat (bytesAt s ps))) 4 t

/-- R70 to R72, R112: a store of aligned, writable bytes completes; its bytes stand at the one piece that it writes,
every byte outside it and its object's log stays, and no register changes. A guard that is off stores nothing. -/
def Obligations.StoreResults : Prop :=
  ∀ (s : State) (i : Instr) (g : Guard) (va : Word) (bs : List Byte), StoreForm s.core.strand i g va bs →
    (¬ GuardOn g s → ∃ t, exec i s = .next t ∧ Retires s s.core.strand 4 t) ∧
    (∀ ps, GuardOn g s → va.toNat % bs.length = 0 → translate s (self s) va bs.length .write = .ok ps → MemoryOk s →
      ∃ p m t, ps = [p] ∧ p.len = bs.length ∧ exec i s = .next t ∧ Stores s va bs.length ps m ∧ StoredAt s p bs m ∧
        Retires m s.core.strand 4 t)

/-- R71: a load or a store that is not aligned to its width traps ALIGNMENT with the address, and one whose
translation fails takes that fault; a load of poisoned bytes traps POISON at the first of them (R395). A translation that
has to wait (R227, R327) makes the access wait. -/
def Obligations.AccessTraps : Prop :=
  ∀ (s : State) (i : Instr), StopFree s →
    (∀ va w f, LoadForm s.core.strand i va w f →
      (va.toNat % w ≠ 0 → ∃ t, exec i s = .next t ∧ Traps 0x02 false va s t) ∧
      (∀ c v, va.toNat % w = 0 → translate s (self s) va w .read = .error (.trap c v) →
        ∃ t, exec i s = .next t ∧ Traps c false v s t) ∧
      (va.toNat % w = 0 → translate s (self s) va w .read = .error .wait → ∃ t, exec i s = .next t ∧ Waits s t) ∧
      (∀ ps o, va.toNat % w = 0 → translate s (self s) va w .read = .ok ps → poisonAt s 0 ps = some o →
        ∃ t, exec i s = .next t ∧ Traps 0x17 false (va + W o) s t)) ∧
    (∀ g va bs, StoreForm s.core.strand i g va bs → GuardOn g s →
      (va.toNat % bs.length ≠ 0 → ∃ t, exec i s = .next t ∧ Traps 0x02 false va s t) ∧
      (va.toNat % bs.length = 0 → translate s (self s) va bs.length .write = .error .wait →
        ∃ t, exec i s = .next t ∧ Waits s t) ∧
      (∀ c v, va.toNat % bs.length = 0 → translate s (self s) va bs.length .write = .error (.trap c v) →
        ∃ t, exec i s = .next t ∧ Traps c false v s t))

/-! Coordinate and ordered accesses. -/

namespace Sys2Proof.Claims

/-- R346: the checks of a coordinate access to an object that is not sparse, with its record and its pieces. -/
def ElementAt (s : State) (ga gc : Word) (w : Nat) (k : AKind) (r : ORec) (ps : List Piece) : Prop :=
  coordRecord s ga k = .ok r ∧ r.kind ≠ kSPARSE ∧ 2 * w = r.nib ∧ coordShape r gc = .ok () ∧
    objectSpan s (self s) (ga + W (r.byteAt gc)) r w k = .ok ps

/-- R346: the checks of a coordinate access to a volume, whose leaf the tree holds or lacks. -/
def LeafAt (s : State) (ga gc : Word) (w : Nat) (k : AKind) (r : ORec) (leaf : Option Nat) : Prop :=
  coordRecord s ga k = .ok r ∧ r.kind = kSPARSE ∧ 2 * w = r.nib ∧ coordShape r gc = .ok () ∧
    ∃ n m, leafOf s (self s) (objOf ga) r ga gc (r.keyAt gc) false false = .ok (leaf, n, m)

/-- R346: the checks of a coordinate access in their order, and the trap of the first that fails. -/
inductive CoordFault (s : State) (ga gc : Word) (w : Nat) (k : AKind) : BitVec 8 → Word → Prop where
  | space : spaceOf ga ≠ 0 ∨ offOf ga ≠ 0 → CoordFault s ga gc w k 0x02 ga
  | peer : spaceOf ga = 0 → offOf ga = 0 → inPeerWindow ga = true → CoordFault s ga gc w k 0x11 ga
  | object (c v) : spaceOf ga = 0 → offOf ga = 0 → inPeerWindow ga = false →
      lookup s (self s) (objOf ga) ga = .error (.trap c v) → CoordFault s ga gc w k c v
  | record (r c v) : spaceOf ga = 0 → offOf ga = 0 → inPeerWindow ga = false →
      lookup s (self s) (objOf ga) ga = .ok r → recordChecks s (self s) r k ga = .error (.trap c v) → CoordFault s ga gc w k c v
  | kind (r) : spaceOf ga = 0 → offOf ga = 0 → inPeerWindow ga = false → lookup s (self s) (objOf ga) ga = .ok r →
      recordChecks s (self s) r k ga = .ok () → r.kind = kRING ∨ r.kind = kBARRIER → CoordFault s ga gc w k 0x11 ga
  | width (r) : coordRecord s ga k = .ok r → 2 * w ≠ r.nib → CoordFault s ga gc w k 0x02 ga
  | shape (r) : coordRecord s ga k = .ok r → 2 * w = r.nib →
      (∃ d < 4, r.ext d ≤ coord gc d ∨ (r.rank ≤ d ∧ coord gc d ≠ 0)) → CoordFault s ga gc w k 0x12 gc
  | place (r c v) : coordRecord s ga k = .ok r → 2 * w = r.nib → coordShape r gc = .ok () → r.kind ≠ kSPARSE →
      objectSpan s (self s) (ga + W (r.byteAt gc)) r w k = .error (.trap c v) → CoordFault s ga gc w k c v

/-- R358: the address of the leaf's entry for a key, below a node with a number of interior levels between. -/
def leafEntry (s : State) (key : Nat) : Nat → Nat → Nat
  | 0, node => node + 8 * (key % 64)
  | i + 1, node => leafEntry s key i (slice (memWord s.mem (node + 8 * (key / 64 ^ (i + 1) % 64))) 0 52)

/-- R359: the tile that a pool's ring gives next to a volume. -/
def NextTile (s : State) (r q : ORec) (tile : Nat) : Prop :=
  let slot := q.place + slotOff q (ringW s q.place 1)
  poolOf s (self s) r = some q ∧ ringW s q.place 1 ≠ ringW s q.place 0 ∧ memWord s.mem slot = W tile ∧ tile < 2 ^ 52 ∧
    tile % (4096 * r.elem) = 0 ∧ memWord s.mem (slot + 8) = 0

/-- Two ranges of storage share no byte. -/
def Apart (a n b m : Nat) : Prop := a + n ≤ b ∨ b + m ≤ a

/-- The strand of a coordinate load with the value in its register (R346). -/
def coordOut (t : Strand) (d : Reg) (f : Bool) (z : BitVec 3) (v : Nat) : Strand :=
  if f then t.writeF d (W v) else t.writeG d (loadExt z v)

end Sys2Proof.Claims

/-- R346, R336, R358: a coordinate load completes with the element's bytes, or, where the volume has no leaf, with the
background value; a coordinate store writes the element, and where the volume has no leaf it first takes a tile from the
pool, fills it with the background and publishes it (R360). The checks come in their order, and the first that fails
traps. -/
def Obligations.CoordinateAccess : Prop :=
  ∀ (s : State) (d a c : Reg) (f : Bool) (z : BitVec 3) (w : BitVec 2) (g : Guard) (r : ORec),
    let ga := s.core.strand.readG a
    let gc := s.core.strand.readG c
    let bs := natBytes (2 ^ w.toNat) (if f then s.core.strand.readF d else s.core.strand.readG d).toNat
    (∀ ps, ElementAt s ga gc (szBytes z) .read r ps → poisonAt s 0 ps = none → ∃ m t, exec (.ldc d a c f z) s = .next t ∧
      Reads s m ∧ Retires m (coordOut s.core.strand d f z (bytesNat (bytesAt s ps))) 4 t) ∧
    (LeafAt s ga gc (szBytes z) .read r none → ∃ m t, exec (.ldc d a c f z) s = .next t ∧
      Reads s m ∧ Retires m (coordOut s.core.strand d f z (r.background.toNat % 256 ^ szBytes z)) 4 t) ∧
    (∀ b p, LeafAt s ga gc (szBytes z) .read r (some b) →
      p = ⟨b + szBytes z * r.elemAt gc, szBytes z, r.placeKind s⟩ → poisonAt s 0 [p] = none →
      snoopReady s (clusterOf s.cur) [p] = .ok () →
      ∃ m t, exec (.ldc d a c f z) s = .next t ∧ Reads s m ∧
        Retires m (coordOut s.core.strand d f z (bytesNat (bytesAt s [p]))) 4 t) ∧
    (¬ GuardOn g s → ∃ t, exec (.stc g a c d f w) s = .next t ∧ Retires s s.core.strand 4 t) ∧
    (∀ p, GuardOn g s → MemoryOk s → p.len = 2 ^ w.toNat → snoopReady s (clusterOf s.cur) [p] = .ok () →
      ElementAt s ga gc (2 ^ w.toNat) .write r [p] ∨ (∃ b, LeafAt s ga gc (2 ^ w.toNat) .write r (some b) ∧
        p = ⟨b + 2 ^ w.toNat * r.elemAt gc, 2 ^ w.toNat, r.placeKind s⟩) →
      ∃ m t, exec (.stc g a c d f w) s = .next t ∧ Retires m s.core.strand 4 t ∧ StoredAt s p bs m ∧
        (∀ x, p.kind ≠ .sc ∧ (x < p.key ∨ p.key + p.len ≤ x) ∨ r.coh = cohSC ∧ r.logv = false →
          memGet m.mem x = memGet s.mem x) ∧
        ∀ k x, ¬ (k = clusterOf s.cur ∧ p.kind = .sc ∧ x = lineOf p.key) →
          (clusterGet m k).line x = (clusterGet s k).line x) ∧
    (GuardOn g s → StopFree s → LeafAt s ga gc (2 ^ w.toNat) .write r none → poolOf s (self s) r = none →
      ∃ t, exec (.stc g a c d f w) s = .next t ∧ Traps 0x15 false gc s t) ∧
    (∀ q tile x m, GuardOn g s → MemoryOk s → coordRecord s ga .write = .ok r → r.kind = kSPARSE →
      2 * 2 ^ w.toNat = r.nib → coordShape r gc = .ok () → NextTile s r q tile → poolBad s (self s) r = false →
      leafOf s (self s) (objOf ga) r ga gc (r.keyAt gc) false false = .ok (none, r.levels, m) →
      x = leafEntry s (r.keyAt gc) (r.levels - 1) r.place →
      Apart x 8 tile r.leafBytes → Apart x 8 (q.place + 8) 8 → Apart (q.place + 8) 8 tile r.leafBytes →
      ∃ n u t, exec (.stc g a c d f w) s = .next t ∧ Retires u s.core.strand 4 t ∧
        memWord n.mem x = W (2 ^ 63 + tile) ∧ ringW n q.place 1 = (ringW s q.place 1 + 1) % 2 ^ 64 ∧
        (∀ y, tile ≤ y → y < tile + r.leafBytes →
          memGet n.mem y = (natBytes r.elem r.background.toNat).getD ((y - tile) % r.elem) 0) ∧
        (∀ y, ¬ (x ≤ y ∧ y < x + 8) → ¬ (q.place + 8 ≤ y ∧ y < q.place + 16) →
          ¬ (tile ≤ y ∧ y < tile + r.leafBytes) → memGet n.mem y = memGet s.mem y) ∧
        (∀ k y, (tile ≤ y ∧ y < tile + r.leafBytes → (clusterGet n k).line y = none) ∧
          (¬ (tile ≤ y ∧ y < tile + r.leafBytes) → (clusterGet n k).line y = (clusterGet s k).line y)) ∧
        StoredAt n ⟨tile + 2 ^ w.toNat * r.elemAt gc, 2 ^ w.toNat, r.placeKind s⟩ bs u) ∧
    ∀ e v, StopFree s →
      (CoordFault s ga gc (szBytes z) .read e v → ∃ t, exec (.ldc d a c f z) s = .next t ∧ Traps e false v s t) ∧
      (GuardOn g s → CoordFault s ga gc (2 ^ w.toNat) .write e v →
        ∃ t, exec (.stc g a c d f w) s = .next t ∧ Traps e false v s t)

namespace Sys2Proof.Claims

/-- R205: the access is performed at the home of a software-coherent line. -/
def AtHome (sc : Scope) (ps : List Piece) : Prop := 2 ≤ sc.agent.toNat ∧ ∃ p ∈ ps, p.kind = .sc

/-- An ordered read of one piece, performed where its line stands, with its bytes (R202, R205). -/
def ReadAt (s : State) (sc : Scope) (p : Piece) (bs : List Byte) (t : State) : Prop :=
  (¬ AtHome sc [p] → bs = bytesAt s [p] ∧ Reads s t) ∧
  (AtHome sc [p] →
    ∃ m n, Reads s m ∧ (∀ d b, (clusterGet m d).line b = (clusterGet s d).line b) ∧
      LineGone m (clusterOf s.cur) (lineOf p.key) n ∧ bs = memRead n.mem p.key p.len ∧ Reads n t)

/-- An ordered write of one piece, performed where its line stands (R203, R205). -/
def WriteAt (s : State) (sc : Scope) (va : Word) (p : Piece) (bs : List Byte) (t : State) : Prop :=
  (¬ AtHome sc [p] → Stores s va bs.length [p] t ∧ StoredAt s p bs t) ∧
  (AtHome sc [p] →
    ∃ m n, Reads s m ∧ (∀ d b, (clusterGet m d).line b = (clusterGet s d).line b) ∧
      LineGone m (clusterOf s.cur) (lineOf p.key) n ∧
      Reads { n with mem := memWrite n.mem p.key bs, poison := clearPoison n.poison p.key bs.length } t)

/-- R207: the operations of AMO on the old value and the operand. -/
inductive AmoForm : Instr → Guard → Reg → Reg → Bool → BitVec 2 → Scope → (∀ n, BitVec n → BitVec n → BitVec n) → Prop where
  | swap (g d a z o c) : AmoForm (.amoSwap g d a z o c) g d a z o c fun _ _ y => y
  | add (g d a z o c) : AmoForm (.amoAdd g d a z o c) g d a z o c fun _ x y => x + y
  | and (g d a z o c) : AmoForm (.amoAnd g d a z o c) g d a z o c fun _ x y => x &&& y
  | or (g d a z o c) : AmoForm (.amoOr g d a z o c) g d a z o c fun _ x y => x ||| y
  | xor (g d a z o c) : AmoForm (.amoXor g d a z o c) g d a z o c fun _ x y => x ^^^ y
  | min (g d a z o c) : AmoForm (.amoMin g d a z o c) g d a z o c fun _ x y => if x.toInt ≤ y.toInt then x else y
  | max (g d a z o c) : AmoForm (.amoMax g d a z o c) g d a z o c fun _ x y => if x.toInt ≤ y.toInt then y else x
  | minu (g d a z o c) : AmoForm (.amoMinu g d a z o c) g d a z o c fun _ x y => if x.toNat ≤ y.toNat then x else y
  | maxu (g d a z o c) : AmoForm (.amoMaxu g d a z o c) g d a z o c fun _ x y => if x.toNat ≤ y.toNat then y else x
  | fadd (g d a z o c) : AmoForm (.amoFadd g d a z o c) g d a z o c fun n x y =>
      BitVec.ofNat n (fpAdd (if n = 64 then fp64 else fp32) .rne (decode (if n = 64 then fp64 else fp32) x.toNat)
        (decode (if n = 64 then fp64 else fp32) y.toNat)).1

/-- R264: no posted store of the strand is unacknowledged or has failed. -/
def Settled (s : State) : Prop := s.core.strand.peer.posted = [] ∧ s.core.strand.peer.lost = none

end Sys2Proof.Claims

/-- R202 to R205, R213: an ordered load, an ordered store and a fence complete on local storage; at SYSTEM scope a
release needs the posted stores acknowledged (R264). -/
def Obligations.OrderedAccess : Prop :=
  ∀ (s : State) (g : Guard) (d a b : Reg) (z : BitVec 3) (w o : BitVec 2) (c : Scope) (q : Bool),
    let t0 := s.core.strand
    let va := t0.readG a
    (∀ ps, va.toNat % szBytes z = 0 → translate s (self s) va (szBytes z) .read = .ok ps → poisonAt s 0 ps = none →
      MemoryOk s → ∃ p bs m t, ps = [p] ∧ exec (.orderedLoad d a z c q) s = .next t ∧ ReadAt s c p bs m ∧
        Retires m (t0.writeG d (loadExt z (bytesNat bs))) 4 t) ∧
    (¬ GuardOn g s → ∃ t, exec (.orderedStore g a b w c q) s = .next t ∧ Retires s t0 4 t) ∧
    (∀ ps, GuardOn g s → va.toNat % 2 ^ w.toNat = 0 → (c.agent = 4 → q = true → Settled s) →
      translate s (self s) va (2 ^ w.toNat) .write = .ok ps → MemoryOk s →
      ∃ p m t, ps = [p] ∧ exec (.orderedStore g a b w c q) s = .next t ∧
        WriteAt s c va p (natBytes (2 ^ w.toNat) (t0.readG b).toNat) m ∧ Retires m t0 4 t) ∧
    ((c.agent = 4 → 2 ≤ o.toNat → Settled s) → ∃ t, exec (.fence c o) s = .next t ∧ Retires s t0 4 t) ∧
    (c.agent = 4 → 2 ≤ o.toNat → t0.peer.posted ≠ [] → ∃ t, exec (.fence c o) s = .next t ∧ Waits s t)

/-- R207 to R211: an AMO gives its register the old value, sign-extended, and stores the operation's result; CAS stores
the new value when the old one is as expected. Nothing comes between the read and the write. -/
def Obligations.Atomics : Prop :=
  ∀ (s : State) (i : Instr) (g : Guard) (d a : Reg) (e : BitVec 4) (z q : Bool) (o : BitVec 2) (c : Scope)
    (f : ∀ n, BitVec n → BitVec n → BitVec n) (ps : List Piece),
    let t0 := s.core.strand
    let va := t0.readG a
    let w := if z then 8 else 4
    let rn : Reg := BitVec.ofNat 5 (2 * e.toNat)
    AmoForm i g d a z o c f →
    (¬ GuardOn g s → ∀ j, j = i ∨ j = .cas g e a z o q c → ∃ t, exec j s = .next t ∧ Retires s t0 4 t) ∧
    (GuardOn g s → va.toNat % w = 0 → translate s (self s) va w .atomic = .ok ps → poisonAt s 0 ps = none →
      (c.agent = 4 → 2 ≤ o.toNat → Settled s) → MemoryOk s → ∃ p bs u, ps = [p] ∧ ReadAt s c p bs u ∧
        (∃ m t, exec i s = .next t ∧
          WriteAt s c va p (natBytes w (f (8 * w) (BitVec.ofNat (8 * w) (bytesNat bs))
            (BitVec.ofNat (8 * w) (t0.readG d).toNat)).toNat) m ∧
          Retires m (t0.writeG d (BitVec.signExtend 64 (BitVec.ofNat (8 * w) (bytesNat bs)))) 4 t) ∧
        (∃ m t, exec (.cas g e a z o q c) s = .next t ∧
          (bytesNat bs = (t0.readG rn).toNat % 2 ^ (8 * w) →
            WriteAt s c va p (natBytes w ((t0.readG (rn + 1)).toNat % 2 ^ (8 * w))) m) ∧
          (bytesNat bs ≠ (t0.readG rn).toNat % 2 ^ (8 * w) → ReadAt s c p bs m) ∧
          Retires m (t0.writeG rn (BitVec.signExtend 64 (BitVec.ofNat (8 * w) (bytesNat bs)))) 4 t))

/-! The peer window. -/

namespace Sys2Proof.Claims

/-- R44: the operation codes of AMO, by which a request names the operation. -/
inductive AmoCode : Instr → BitVec 4 → Prop where
  | swap (g d a z o c) : AmoCode (.amoSwap g d a z o c) 0
  | add (g d a z o c) : AmoCode (.amoAdd g d a z o c) 1
  | and (g d a z o c) : AmoCode (.amoAnd g d a z o c) 2
  | or (g d a z o c) : AmoCode (.amoOr g d a z o c) 3
  | xor (g d a z o c) : AmoCode (.amoXor g d a z o c) 4
  | min (g d a z o c) : AmoCode (.amoMin g d a z o c) 5
  | max (g d a z o c) : AmoCode (.amoMax g d a z o c) 6
  | minu (g d a z o c) : AmoCode (.amoMinu g d a z o c) 7
  | maxu (g d a z o c) : AmoCode (.amoMaxu g d a z o c) 8
  | fadd (g d a z o c) : AmoCode (.amoFadd g d a z o c) 9

/-- R261 to R264: the instructions that send a request through a handle and await its answer: the address, the bytes
it names, the permissions it needs, the request, whether it releases, and the strand with the answered value. -/
inductive PeerForm (s : State) : Instr → Word → Nat → List AKind → PeerOp → Bool → Nat → (Strand → Word → Strand) → Prop where
  | load (d a z c q) : PeerForm s (.orderedLoad d a z c q) (s.core.strand.readG a) (szBytes z) [.read]
      (.load (szBytes z)) false 4 fun t v => t.writeG d (loadExt z v.toNat)
  | amo (i g d a z o c f k) : AmoForm i g d a z o c f → AmoCode i k → GuardOn g s →
      PeerForm s i (s.core.strand.readG a) (if z then 8 else 4) [.atomic] (.amo k (if z then 8 else 4) (W ((s.core.strand.readG d).toNat % 2 ^ (if z then 64 else 32))))
      (decide (2 ≤ o.toNat)) 4 fun t v => t.writeG d (BitVec.signExtend 64 (BitVec.ofNat (if z then 64 else 32) v.toNat))
  | cas (g e a z o q c) : GuardOn g s → PeerForm s (.cas g e a z o q c) (s.core.strand.readG a) (if z then 8 else 4)
      [.atomic] (.cas (if z then 8 else 4)
        (W ((s.core.strand.readG (BitVec.ofNat 5 (2 * e.toNat))).toNat % 2 ^ (if z then 64 else 32)))
        (W ((s.core.strand.readG (BitVec.ofNat 5 (2 * e.toNat) + 1)).toNat % 2 ^ (if z then 64 else 32))))
      (decide (2 ≤ o.toNat)) 4
      fun t v => t.writeG (BitVec.ofNat 5 (2 * e.toNat)) (BitVec.signExtend 64 (BitVec.ofNat (if z then 64 else 32) v.toNat))
  | rwait (d r n c) : PeerForm s (.rwait d r n c) (s.core.strand.readG r) 1 [.read]
      (.rwait (s.core.strand.readG n)) false 8
      fun t v => t.writeG d (W ((objOf (s.core.strand.readG r)).toNat * 2 ^ 44) + v)
  | rrel (r n c) : PeerForm s (.rrel r n c) (s.core.strand.readG r) 1 [.read, .write]
      (.rrel (s.core.strand.readG n)) true 8 fun t _ => t
  | cwait (f v c) : PeerForm s (.cwait f v c) (s.core.strand.readG f) 8 [.read]
      (.cwait (s.core.strand.readG v)) false 8 fun t _ => t
  | bara (d b n c) : PeerForm s (.bara d b n c) (s.core.strand.readG b) 32 [.atomic]
      (.bara (s.core.strand.readG n)) true 8 fun t v => t.writeG d v
  | barw (b p c) : PeerForm s (.barw b p c) (s.core.strand.readG b) 32 [.atomic]
      (.barw (W (slice (s.core.strand.readG p) 0 1))) false 8 fun t _ => t

end Sys2Proof.Claims

/-- R261 to R264, R267: an operation through a handle sends its request on its first turn and waits; it completes with
the value of the answer, and a poisoned or failed answer traps POISON or REMOTE. The handle's state, its permissions and
its grant are checked in that order (R262). A posted store completes at once. -/
def Obligations.PeerOperations : Prop :=
  ∀ (s : State) (i : Instr) (va : Word) (w : Nat) (ks : List AKind) (op : PeerOp) (rel : Bool) (n : Nat)
    (f : Strand → Word → Strand), PeerForm s i va w ks op rel n f → inPeerWindow va = true → va.toNat % w = 0 →
    let t0 := s.core.strand
    (∀ v bs, t0.peer.answer = some (.done v bs) →
      ∃ t, exec i s = .next t ∧ Retires s (f { t0 with peer := { t0.peer with answer := none } } v) n t) ∧
    (t0.peer.answer = some .poisoned → StopFree s → ∃ t, exec i s = .next t ∧ Traps 0x17 false va s t) ∧
    (t0.peer.answer = some .failed ∨ t0.peer.answer = some .revoked → StopFree s →
      ∃ t, exec i s = .next t ∧ Traps 0x19 false va s t) ∧
    (∀ r, t0.peer.answer = none → t0.peer.wait = none → lookup s (self s) (objOf va) va = .ok r →
      peerChecks r va w ks = .ok () → (rel = true → Settled s) → handleReachable s r = true →
      ∃ t, exec i s = .next t ∧ Waits { s with
        out := s.out ++ [⟨mkReq s r (offOf va) op, .wait t0.spillovf, s.cur, tagOf t0,
          BitVec.ofNat 12 (va.toNat / 2 ^ 44), va, s.pkg.time⟩]
        nextId := s.nextId + 1
        core := { s.core with strand := { t0 with peer := { t0.peer with wait := some s.nextId } } } } t) ∧
    (∀ id, t0.peer.answer = none → t0.peer.wait = some id → ∃ t, exec i s = .next t ∧ Waits s t) ∧
    (∀ r, t0.peer.answer = none → t0.peer.wait = none → lookup s (self s) (objOf va) va = .ok r → StopFree s →
      (r.handleState ≠ 0 → ∃ t, exec i s = .next t ∧ Traps 0x19 false va s t) ∧
      (r.handleState = 0 → (∃ k ∈ ks, r.permits k = false) → ∃ t, exec i s = .next t ∧ Traps 0x11 false va s t) ∧
      (r.handleState = 0 → (∀ k ∈ ks, r.permits k = true) → r.grant < offOf va + w →
        ∃ t, exec i s = .next t ∧ Traps 0x12 false va s t)) ∧
    (∀ g a b z c q r, GuardOn g s → t0.readG a = va → va.toNat % 2 ^ z.toNat = 0 →
      lookup s (self s) (objOf va) va = .ok r → peerChecks r va (2 ^ z.toNat) [.write] = .ok () →
      (q = true → Settled s) → handleReachable s r = true →
      ∃ t, exec (.orderedStore g a b z c q) s = .next t ∧ Retires { s with
        out := s.out ++ [⟨mkReq s r (offOf va) (.store (2 ^ z.toNat) (W ((t0.readG b).toNat % 2 ^ (8 * 2 ^ z.toNat)))),
          .posted t0.spillovf, s.cur, tagOf t0,
          BitVec.ofNat 12 (va.toNat / 2 ^ 44), va, s.pkg.time⟩]
        nextId := s.nextId + 1 } { t0 with peer := { t0.peer with posted := t0.peer.posted ++ [s.nextId] } } 4 t)

/-! Queues. -/

namespace Sys2Proof.Claims

/-- R75: the entries that the queue a SEND queue delivers to can still accept from this core. -/
def Room (s : State) (q : Queue) (n : Nat) : Prop :=
  let c := coreGet s (sendTarget s.cur q)
  let r := c.strand.readQ q.pq
  let open_ : Prop := c.mode ≠ .vacant ∧ c.strand.ctxid = s.core.strand.ctxid ∧ r.kind = 2 ∧
    (r.any = true ∨ r.pcore = coreNo s.cur)
  (open_ → n = 16 - r.count.toNat) ∧ (¬ open_ → n = 0)

end Sys2Proof.Claims

/-- R73 to R78: QBIND leaves an empty queue; QPUT appends an entry at the receiver, which has an event, and waits
without room; QGET takes the oldest entry and waits on an empty queue; each is illegal on a queue of another kind; QCNT
counts. What the slots hold after QBIND is the model's choice (log 74). -/
def Obligations.Queues : Prop :=
  ∀ (s : State) (q : BitVec 3) (a d : Reg),
    let t0 := s.core.strand
    let r := t0.readQ q
    let k := sendTarget s.cur r
    (bindOk s.cur (t0.readG a) = true → ∃ t, exec (.qbind q a) s = .next t ∧
      Retires s (t0.writeQ q ⟨BitVec.ofNat 11 (t0.readG a).toNat, 0, 0, Vector.replicate 16 0⟩) 4 t) ∧
    (bindOk s.cur (t0.readG a) = false → StopFree s → ∃ t, exec (.qbind q a) s = .next t ∧
      Traps 0x01 false (t0.readG a) s t) ∧
    (StopFree s → (r.kind ≠ 1 → ∃ t, exec (.qput q a) s = .next t ∧ Traps 0x01 false (W (encode (.qput q a)).1) s t) ∧
      (r.kind < 2 → ∃ t, exec (.qget d q) s = .next t ∧ Traps 0x01 false (W (encode (.qget d q)).1) s t)) ∧
    (∀ n, r.kind = 1 → k ≠ s.cur → Room s r n → 0 < n → ∃ m t, exec (.qput q a) s = .next t ∧ Retires m t0 4 t ∧
      m = { s with others := m.others } ∧ (∀ j, j ≠ k → coreGet m j = coreGet s j) ∧
      coreGet m k = { coreGet s k with strand := ((coreGet s k).strand.writeQ r.pq
        (((coreGet s k).strand.readQ r.pq).push (t0.readG a))).setEv }) ∧
    (r.kind = 1 → Room s r 0 → ∃ t, exec (.qput q a) s = .next t ∧ Waits s t) ∧
    (2 ≤ r.kind → 0 < r.count.toNat → ∃ t, exec (.qget d q) s = .next t ∧
      Retires s ((t0.writeQ q { r with head := r.head + 1, count := r.count - 1 }).writeG d r.slots[r.head.toNat]) 4 t) ∧
    (2 ≤ r.kind → r.count = 0 → ∃ t, exec (.qget d q) s = .next t ∧ Waits s t) ∧
    (∃ t n, exec (.qcnt d q) s = .next t ∧ Retires s (t0.writeG d (W n)) 4 t ∧ (r.kind = 0 → n = 0) ∧
      (r.kind = 1 → Room s r n) ∧ (2 ≤ r.kind → n = r.count.toNat)) ∧
    ∀ x, (r.push x).count = r.count + 1 ∧ (r.count.toNat < 16 → ∀ j < 16,
      (r.push x).slots[j]? = if j = (r.head.toNat + r.count.toNat) % 16 then some x else r.slots[j]?)

/-! Vector instructions. -/

namespace Sys2Proof.Claims

/-- R26: lane `k` of a row, with lanes of `w` bits. -/
def laneAt (w : Nat) (r : Row) (k : Nat) : Nat := r.toNat / 2 ^ (w * k) % 2 ^ w

/-- R114, R151: no matrix command of the strand that names an accumulator of these rows is outstanding, and the rows
read are sound. -/
def RowsFree (s : State) (reads writes : List VReg) : Prop :=
  (∀ c ∈ (clusterGet s (clusterOf s.cur)).mx.pending, c.strand = s.core.strand.spillovf →
    ∀ v ∈ reads ++ writes, c.acc ≠ BitVec.ofNat 2 (v.toNat / 16)) ∧
  ∀ v ∈ reads, s.core.strand.rowPoison.getLsbD v.toNat = false

/-- A vector instruction leaves its row, with the flags of its conditions in VSTAT, and completes (R96, R101). -/
def LeavesRow (s : State) (i : Instr) (d : VReg) (c : Conds) (P : Row → Prop) : Prop :=
  ∃ t v, exec i s = .next t ∧
    Retires s ({ s.core.strand with vstat := s.core.strand.vstat ||| W c.toNat }.writeV d v) 4 t ∧ P v

/-- R96: the conditions of lanes 0 to n - 1. -/
def unionOf (n : Nat) (f : Nat → Conds) : Conds := (List.range n).foldl (fun c k => c ||| f k) 0

/-- R115: the instructions of major 0x20. -/
inductive ArithForm : Instr → VOp → VReg → VReg → VReg → BitVec 3 → Prop where
  | add (d a b m) : ArithForm (.vadd d a b m) .add d a b m
  | sub (d a b m) : ArithForm (.vsub d a b m) .sub d a b m
  | mul (d a b m) : ArithForm (.vmul d a b m) .mul d a b m
  | fma (d a b m) : ArithForm (.vfma d a b m) .fma d a b m
  | min (d a b m) : ArithForm (.vmin d a b m) .min d a b m
  | max (d a b m) : ArithForm (.vmax d a b m) .max d a b m
  | abs (d a m) : ArithForm (.vabs d a m) .abs d a a m
  | neg (d a m) : ArithForm (.vneg d a m) .neg d a a m

/-- R95, R115, R116: one lane: an exact integer result wrapped to the lane, or under mode 1 held at the lane's limits
with SAT set when that changes it; or one rounded floating-point result. -/
def arithLane (o : VOp) (l : Lane) (rnd : Rnd) (m : BitVec 3) (x y z : Nat) : FRes :=
  match l with
  | .fp f => o.fp f rnd x y z
  | .int w =>
    let e := o.int (BitVec.ofNat w x).toInt (BitVec.ofNat w y).toInt (BitVec.ofNat w z).toInt
    let v := Max.max (-2 ^ (w - 1)) (Min.min (2 ^ (w - 1) - 1) e)
    if m = 1 then ((BitVec.ofInt w v).toNat, if v = e then 0 else cSAT) else ((BitVec.ofInt w e).toNat, 0)

end Sys2Proof.Claims

/-- R113 to R116, R95, R96: vector arithmetic gives each lane its own result and collects the lanes' conditions; with
none of them enabled it completes; sources of another lane type, or a mode the lane type does not allow, are illegal. -/
def Obligations.VectorArithmetic : Prop :=
  ∀ (s : State) (i : Instr) (o : VOp) (d a b : VReg) (m : BitVec 3), ArithForm i o d a b m →
    let t0 := s.core.strand
    let l := t0.lane d
    let f := fun k => arithLane o l (rndOf m t0.fcsr) m (laneAt l.width (t0.readV a) k) (laneAt l.width (t0.readV b) k)
      (laneAt l.width (t0.readV d) k)
    let typed := (∀ v ∈ o.sources d a b, t0.lane v = l) ∧ o.modeOk l m = true
    (typed → RowsFree s (o.sources d a b) [d] → Quiet true (unionOf l.count fun k => (f k).2) t0 →
      LeavesRow s i d (unionOf l.count fun k => (f k).2) fun v =>
        ∀ k < l.count, laneAt l.width v k = (f k).1 % 2 ^ l.width) ∧
    (¬ typed → StopFree s → ∃ t, exec i s = .next t ∧ Traps 0x01 false (W ((encode i).1 + (encode i).2 * 2 ^ 32)) s t)

namespace Sys2Proof.Claims

/-- R117: logic on whole rows. -/
inductive LogicForm : Instr → VReg → VReg → VReg → (Row → Row → Row) → Prop where
  | and (d a b) : LogicForm (.vand d a b) d a b (· &&& ·)
  | or (d a b) : LogicForm (.vor d a b) d a b (· ||| ·)
  | xor (d a b) : LogicForm (.vxor d a b) d a b (· ^^^ ·)
  | not (d a) : LogicForm (.vnot d a) d a a fun x _ => ~~~x

/-- R117: shifts of integer lanes, by the lanes of a register or by one count; with the count of lane `k`. -/
inductive ShiftForm (t : Strand) (w : Nat) : Instr → VReg → List VReg → (Nat → Nat) → (BitVec w → Nat → BitVec w) → Prop where
  | sll (d a b) : ShiftForm t w (.vsll d a b) d [a, b] (laneAt w (t.readV b)) fun x n => x <<< n
  | srl (d a b) : ShiftForm t w (.vsrl d a b) d [a, b] (laneAt w (t.readV b)) fun x n => x >>> n
  | sra (d a b) : ShiftForm t w (.vsra d a b) d [a, b] (laneAt w (t.readV b)) fun x n => x.sshiftRight n
  | slli (d a n) : ShiftForm t w (.vslli d a n) d [a] (fun _ => n.toNat) fun x n => x <<< n
  | srli (d a n) : ShiftForm t w (.vsrli d a n) d [a] (fun _ => n.toNat) fun x n => x >>> n
  | srai (d a n) : ShiftForm t w (.vsrai d a n) d [a] (fun _ => n.toNat) fun x n => x.sshiftRight n

/-- R119: mask logic. -/
inductive MaskForm : Instr → BitVec 3 → BitVec 3 → BitVec 3 → (BitVec 128 → BitVec 128 → BitVec 128) → Prop where
  | and (d a b) : MaskForm (.mand d a b) d a b (· &&& ·)
  | or (d a b) : MaskForm (.mor d a b) d a b (· ||| ·)
  | xor (d a b) : MaskForm (.mxor d a b) d a b (· ^^^ ·)
  | not (d a) : MaskForm (.mnot d a) d a a fun x _ => ~~~x

end Sys2Proof.Claims

/-- R117, R119: bitwise logic on rows, shifts of lanes and logic on masks complete without conditions. -/
def Obligations.VectorLogic : Prop :=
  ∀ (s : State) (i : Instr),
    let t0 := s.core.strand
    (∀ d a b f, LogicForm i d a b f → RowsFree s [a, b] [d] →
      ∃ t, exec i s = .next t ∧ Retires s (t0.writeV d (f (t0.readV a) (t0.readV b))) 4 t) ∧
    (∀ w d r n f, ShiftForm t0 w i d r n f → t0.lane d = .int w → (∀ v ∈ r, t0.lane v = .int w) → RowsFree s r [d] →
      ∃ a, r.head? = some a ∧ LeavesRow s i d 0 fun v => ∀ k < 1024 / w,
        laneAt w v k = (f (BitVec.ofNat w (laneAt w (t0.readV a) k)) (n k)).toNat) ∧
    (∀ d a b f, MaskForm i d a b f →
      ∃ t, exec i s = .next t ∧ Retires s (t0.writeM d (f (t0.readM a) (t0.readM b))) 4 t)

namespace Sys2Proof.Claims

/-- R118: the truth of a compare of one lane, and whether it sets NV. -/
def compareLane (l : Lane) (u : Bool) (c x y : Nat) : Bool × Bool :=
  match l with
  | .fp f =>
    let a := decode f x
    let b := decode f y
    match c with
    | 0 => fpCompare 0 a b
    | 1 => fpCompare 4 a b
    | 2 => fpCompare 1 a b
    | 3 => fpCompare 2 a b
    | 4 => fpCompare 1 b a
    | 5 => fpCompare 2 b a
    | _ => fpCompare 3 a b
  | .int w =>
    let a : Int := if u then x else (BitVec.ofNat w x).toInt
    let b : Int := if u then y else (BitVec.ofNat w y).toInt
    (match c with
      | 0 => decide (a = b)
      | 1 => decide (a ≠ b)
      | 2 => decide (a < b)
      | 3 => decide (a ≤ b)
      | 4 => decide (a > b)
      | _ => decide (a ≥ b), false)

end Sys2Proof.Claims

/-- R118, R120: VCMP writes a mask whose low bits say which lanes compare true and whose other bits are 0; VSEL takes
each lane from one of two rows by a mask, and does nothing when its guard is off. -/
def Obligations.VectorMasks : Prop :=
  ∀ (s : State) (g : Guard) (k c : BitVec 3) (d a b : VReg) (u : Bool),
    let t0 := s.core.strand
    let l := t0.lane a
    let f := fun j => compareLane l u c.toNat (laneAt l.width (t0.readV a) j) (laneAt l.width (t0.readV b) j)
    let nv := unionOf l.count fun j => if (f j).2 then cNV else 0
    (t0.lane b = l → (if l.isInt then c ≠ 6 else u = false) → RowsFree s [a, b] [] → Quiet true nv t0 →
      ∃ t x, exec (.vcmp k a b u c) s = .next t ∧
        Retires s ({ t0 with vstat := t0.vstat ||| W nv.toNat }.writeM k x) 4 t ∧
        ∀ j < 128, x.getLsbD j = if j < l.count then (f j).1 else false) ∧
    (GuardOn g s → t0.lane d = l → t0.lane b = l → RowsFree s [a, b] [d] → LeavesRow s (.vsel g d a b k) d 0 fun v =>
      ∀ j < l.count, laneAt l.width v j =
        if (t0.readM k).getLsbD j then laneAt l.width (t0.readV a) j else laneAt l.width (t0.readV b) j) ∧
    (¬ GuardOn g s → ∃ t, exec (.vsel g d a b k) s = .next t ∧ Retires s t0 4 t)

namespace Sys2Proof.Claims

/-- R121: the conversions, with the lane types they convert between. -/
inductive ConvertForm (t : Strand) : Instr → Lane → Lane → VReg → VReg → BitVec 2 → BitVec 3 → Prop where
  | plain (d a p r) : ConvertForm t (.vcvt d a p r) (t.lane a) (t.lane d) d a p r
  | toE4m3 (d a p r) : ConvertForm t (.vcvtToE4m3 d a p r) (t.lane a) (.fp fe4m3) d a p r
  | toE5m2 (d a p r) : ConvertForm t (.vcvtToE5m2 d a p r) (t.lane a) (.fp fe5m2) d a p r
  | fromE4m3 (d a p r) : ConvertForm t (.vcvtFromE4m3 d a p r) (.fp fe4m3) (t.lane d) d a p r
  | fromE5m2 (d a p r) : ConvertForm t (.vcvtFromE5m2 d a p r) (.fp fe5m2) (t.lane d) d a p r

end Sys2Proof.Claims

/-- R121, R122, R94: a conversion takes the part of the source that `p` names when lanes widen, and leaves the other
parts of the destination when lanes narrow. -/
def Obligations.VectorConversions : Prop :=
  ∀ (s : State) (i : Instr) (src dst : Lane) (d a : VReg) (p : BitVec 2) (m : BitVec 3),
    ConvertForm s.core.strand i src dst d a p m →
    let t0 := s.core.strand
    let n := Min.min src.count dst.count
    let from_ := if dst.count < src.count then p.toNat * n else 0
    let base := if src.count < dst.count then p.toNat * n else 0
    let f := fun k => convLane src dst (rndOf m t0.fcsr) (laneAt src.width (t0.readV a) (from_ + k))
    p.toNat < Max.max src.count dst.count / n → (src.isInt = true → dst.isInt = true → m = 0) → RowsFree s [a] [d] →
    Quiet true (unionOf n fun k => (f k).2) t0 →
    LeavesRow s i d (unionOf n fun k => (f k).2) fun v => ∀ k < dst.count, laneAt dst.width v k =
      if base ≤ k ∧ k < base + n then (f (k - base)).1 % 2 ^ dst.width else laneAt dst.width (t0.readV d) k

namespace Sys2Proof.Claims

/-- R123: the reductions. -/
inductive ReduceForm : Instr → VOp → VReg → VReg → BitVec 3 → Prop where
  | sum (d a m) : ReduceForm (.vredSum d a m) .add d a m
  | max (d a m) : ReduceForm (.vredMax d a m) .max d a m
  | min (d a m) : ReduceForm (.vredMin d a m) .min d a m

/-- R123: what a reduction of integer lanes gives before it wraps or is held: the exact sum, or the extreme lane. -/
def IntReduced (o : VOp) (l : List Int) (e : Int) : Prop :=
  match o with
  | .add => e = l.sum
  | .max => e ∈ l ∧ ∀ x ∈ l, x ≤ e
  | _ => e ∈ l ∧ ∀ x ∈ l, e ≤ x

end Sys2Proof.Claims

/-- R123, R124: a reduction leaves its result in lane 0 and zero in the others: on integer lanes the exact sum or the
extreme, wrapped or held once, on floating-point lanes the tree of neighbours. VPERM picks lanes, VBCAST repeats one. -/
def Obligations.VectorReductions : Prop :=
  ∀ (s : State) (i : Instr) (o : VOp) (d a b : VReg) (r : Reg) (m : BitVec 3),
    let t0 := s.core.strand
    let l := t0.lane d
    let w := l.width
    let xs := (List.range l.count).map (laneAt w (t0.readV a))
    (ReduceForm i o d a m → t0.lane a = l → o.modeOk l m = true → RowsFree s [a] [d] →
      (∀ f, l = .fp f → Quiet true (reduceTree (fun x y => o.fp f (rndOf m t0.fcsr) x y 0) (Nat.log2 l.count) xs).2 t0 →
        LeavesRow s i d (reduceTree (fun x y => o.fp f (rndOf m t0.fcsr) x y 0) (Nat.log2 l.count) xs).2 fun v =>
          ∀ k < l.count, laneAt w v k = if k = 0 then
            (reduceTree (fun x y => o.fp f (rndOf m t0.fcsr) x y 0) (Nat.log2 l.count) xs).1 % 2 ^ w else 0) ∧
      (l.isInt = true → ∃ e, IntReduced o (xs.map fun x => (BitVec.ofNat w x).toInt) e ∧
        (Quiet true (intResult w m e).2 t0 → LeavesRow s i d (intResult w m e).2 fun v =>
          ∀ k < l.count, laneAt w v k = if k = 0 then (intResult w m e).1 else 0))) ∧
    (t0.lane a = l → t0.lane b = .int w → RowsFree s [a, b] [d] → LeavesRow s (.vperm d a b) d 0 fun v =>
      ∀ k < l.count, laneAt w v k =
        if laneAt w (t0.readV b) k < l.count then laneAt w (t0.readV a) (laneAt w (t0.readV b) k) else 0) ∧
    (RowsFree s [] [d] → LeavesRow s (.vbcastG d r) d 0 fun v => ∀ k < l.count, laneAt w v k = (t0.readG r).toNat % 2 ^ w) ∧
    (RowsFree s [] [d] → LeavesRow s (.vbcastF d r) d 0 fun v => ∀ k < l.count, laneAt w v k = (t0.readF r).toNat % 2 ^ w)

namespace Sys2Proof.Claims

/-- R130, R132: the special functions of floating-point lanes. -/
inductive SpecialForm (t : Strand) : Instr → VReg → VReg → (Fmt → Fp → FRes) → Prop where
  | exp2 (d a) : SpecialForm t (.vexp2 d a) d a fpExp2
  | log2 (d a) : SpecialForm t (.vlog2 d a) d a fpLog2
  | rcp (d a) : SpecialForm t (.vrcp d a) d a fun f x => fpDiv f .rne (.fin false 1 0) x
  | rsq (d a) : SpecialForm t (.vrsq d a) d a fpRsq
  | scl2 (d a n) : SpecialForm t (.vscl2 d a n) d a fun f x => fpScale f x (t.readG n).toInt

end Sys2Proof.Claims

/-- R130 to R133: VEXP2, VLOG2, VRCP, VRSQ and VSCL2 complete with their function of each floating-point lane; VEMAX
completes and gives a general register the ceiling of the largest lane; VSTATR completes in every state, reads VSTAT and
clears its flags. The functions: the special operands of R130, the exact powers and logarithms, the reciprocal root and
the scaling rounded once, and the rows of R131. -/
def Obligations.VectorSpecial : Prop :=
  (∀ (s : State) (i : Instr) (d a : VReg) (g : Fmt → Fp → FRes) (f : Fmt) (r : Reg),
    let t0 := s.core.strand
    let h := fun k => g f (decode f (laneAt f.width (t0.readV a) k))
    let n := (Lane.fp f).count
    let e := emax ((List.range n).map fun k => decode f (laneAt f.width (t0.readV a) k))
    (SpecialForm t0 i d a g → t0.lane d = .fp f → t0.lane a = .fp f → RowsFree s [a] [d] →
      Quiet true (unionOf n fun k => (h k).2) t0 → LeavesRow s i d (unionOf n fun k => (h k).2) fun v =>
        ∀ k < n, laneAt f.width v k = (h k).1 % 2 ^ f.width) ∧
    (t0.lane a = .fp f → RowsFree s [a] [] → Quiet true e.2 t0 → ∃ t, exec (.vemax r a) s = .next t ∧
      Retires s ({ t0 with vstat := t0.vstat ||| W e.2.toNat }.writeG r e.1) 4 t) ∧
    (∃ t, exec (.vstatr r) s = .next t ∧ Retires s ({ t0 with vstat := t0.vstat &&& ~~~(0x7F : Word) }.writeG r t0.vstat) 4 t)) ∧
  (∀ (f : Fmt) (a : Fp) (n : Bool) (m : Nat) (e k : Int) (x : ℝ), f ∈ [fp32, bf16, fp16] →
    let v := Fp.fin n m e
    (a.isNan = true → IsNan f (a.isSig = true) (fpExp2 f a) ∧ IsNan f (a.isSig = true) (fpLog2 f a) ∧
      IsNan f (a.isSig = true) (fpRsq f a) ∧ IsNan f (a.isSig = true) (fpScale f a k)) ∧
    IsInf f false 0 (fpExp2 f (.inf false)) ∧ fpExp2 f (.inf true) = (0, 0) ∧
    IsInf f false 0 (fpLog2 f (.inf false)) ∧ IsNan f True (fpLog2 f (.inf true)) ∧
    fpRsq f (.inf false) = (0, 0) ∧ IsNan f True (fpRsq f (.inf true)) ∧ IsInf f n 0 (fpScale f (.inf n) k) ∧
    (m = 0 → IsInf f true cDZ (fpLog2 f v) ∧ IsInf f n cDZ (fpRsq f v)) ∧
    (m ≠ 0 → n = true → IsNan f True (fpLog2 f v) ∧ IsNan f True (fpRsq f v)) ∧
    (IsVal v (k : ℝ) → Rounded f .rne ((2 : ℝ) ^ k) false (fpExp2 f v)) ∧
    (IsVal v ((2 : ℝ) ^ k) → Rounded f .rne (k : ℝ) false (fpLog2 f v)) ∧
    (IsVal v x → ∀ y, 0 < y → y * y * x = 1 → Rounded f .rne y false (fpRsq f v)) ∧
    ∀ c < 2 ^ f.width, IsVal (decode f c) x →
      Rounded f .rne (x * (2 : ℝ) ^ k) (decode f c).signBit (fpScale f (decode f c) k)) ∧
  ∀ l : List Fp,
    let sig := l.any (·.isSig)
    ((∀ x ∈ l, x.isNan = true ∨ x = .inf true) → emax l = (W (2 ^ 63), if sig then cNV else 0)) ∧
    (Fp.inf false ∈ l → emax l = (W (2 ^ 63 - 1), cNV)) ∧
    (Fp.inf false ∉ l → ∀ x v, x ∈ l → IsVal x v → (∀ y ∈ l, ∀ u, IsVal y u → u ≤ v) →
      let c := Max.max (-2 ^ 63) (Min.min (2 ^ 63 - 1) ⌈v⌉)
      emax l = (BitVec.ofInt 64 c, if sig || c != ⌈v⌉ then cNV else 0))

/-- R161 to R164: VTUNPK takes digit i of a byte in base 3, a two standing for minus one, and zero with TERN set from a
byte of 243 or more; VTACC adds four signed bytes, each by the sign of its trit, to each 32-bit lane; VWID and VWIDU
widen the part of the source that `p` names. -/
def Obligations.VectorNarrow : Prop :=
  ∀ (s : State) (d a b : VReg) (i : BitVec 3) (n4 : Bool) (p : BitVec 4),
    let t0 := s.core.strand
    let w := if n4 then 4 else 8
    let l := t0.lane d
    let tern := unionOf 128 fun k => if 243 ≤ laneAt 8 (t0.readV a) k then cTERN else 0
    let byte := fun (r : VReg) k => (BitVec.ofNat 8 (laneAt 8 (t0.readV r) k)).toInt
    let part := fun k => BitVec.ofNat w (laneAt w (t0.readV a) (p.toNat * l.count + k))
    (i.toNat ≤ 4 → t0.lane d = .int 8 → RowsFree s [a] [d] → Quiet true tern t0 → LeavesRow s (.vtunpk d a i) d tern fun v =>
      ∀ k < 128, laneAt 8 v k = if 243 ≤ laneAt 8 (t0.readV a) k then 0
        else if laneAt 8 (t0.readV a) k / 3 ^ i.toNat % 3 = 2 then 255 else laneAt 8 (t0.readV a) k / 3 ^ i.toNat % 3) ∧
    (t0.lane d = .int 32 → t0.lane a = .int 8 → t0.lane b = .int 8 → RowsFree s [a, b, d] [d] →
      LeavesRow s (.vtacc d a b) d 0 fun v => ∀ k < 32, laneAt 32 v k =
        (BitVec.ofInt 32 ((BitVec.ofNat 32 (laneAt 32 (t0.readV d) k)).toInt +
          ((List.range 4).map fun j => (byte b (4 * k + j)).sign * byte a (4 * k + j)).sum)).toNat) ∧
    (l.isInt = true → w < l.width → p.toNat < l.width / w → RowsFree s [a] [d] →
      (LeavesRow s (.vwid d a n4 p) d 0 fun v => ∀ k < l.count, laneAt l.width v k = ((part k).signExtend l.width).toNat) ∧
      LeavesRow s (.vwidu d a n4 p) d 0 fun v => ∀ k < l.count, laneAt l.width v k = ((part k).zeroExtend l.width).toNat)

namespace Sys2Proof.Claims

/-- R127, R391: granules of a stored range are FULL, no other granule changes, and a strand may have an event. -/
def Filled (m : State) (a n : Nat) (t : State) : Prop :=
  t = { m with empty := t.empty, core := t.core, others := t.others } ∧
    (∀ g, g ∈ t.empty ↔ g ∈ m.empty ∧ (g + 16 ≤ a ∨ a + n ≤ g)) ∧
    ∀ k, coreGet t k = coreGet m k ∨ coreGet t k = { coreGet m k with strand := (coreGet m k).strand.setEv }

/-- R125: the address of a row access. -/
def rowAt (t : Strand) (a : Reg) (o : BitVec 6) : Word := BitVec.ofInt 64 ((t.readG a).toInt + 128 * o.toInt)

end Sys2Proof.Claims

/-- R125 to R127, R378: VLD completes with a row, its full-empty forms waiting for FULL granules; `.fe.clr` leaves them
EMPTY and needs an address that may be written, and a form whose address fails its check traps. VST completes and stores
a row, its full-empty form leaving the granules FULL, and one whose guard is off stores nothing; VLDS completes with each
lane read at its own address. -/
def Obligations.VectorMemory : Prop :=
  ∀ (s : State) (g : Guard) (d : VReg) (a b : Reg) (o : BitVec 6) (e : BitVec 2) (ps : List Piece) (key : Nat),
    let t0 := s.core.strand
    let ea := rowAt t0 a o
    let at_ := ea.toNat % 16 = 0 ∧ (e ≠ 0 → spaceOf ea = 1 ∨ spaceOf ea = 2) ∧ (ps.head?.map (·.key)) = some key
    let full := ∀ x ∈ s.empty, x ∈ s.poison ∨ x + 16 ≤ key ∨ key + 128 ≤ x
    let w := (t0.lane d).width / 8
    let lane := fun k => t0.readG a + W k * t0.readG b
    (at_ → RowsFree s [] [d] → translate s (self s) ea 128 .read = .ok ps → poisonAt s 0 ps = none →
      (e = 2 → translate s (self s) ea 128 .write = .ok ps) → (e ≠ 0 → full) → ∃ m t, exec (.vld d a o e) s = .next t ∧ Reads s m ∧
        Retires { m with empty := if e = 2 then setEmpty s.empty key 8 else s.empty }
          (t0.writeV d (BitVec.ofNat 1024 (bytesNat (bytesAt s ps)))) 4 t) ∧
    (at_ → RowsFree s [] [d] → translate s (self s) ea 128 (if e = 2 then .write else .read) = .ok ps → e ≠ 0 → ¬ full →
      ∃ m t, exec (.vld d a o e) s = .next t ∧ Reads s m ∧ Waits m t) ∧
    (∀ c v, ea.toNat % 16 = 0 → (e ≠ 0 → spaceOf ea = 1 ∨ spaceOf ea = 2) → RowsFree s [] [d] → StopFree s →
      translate s (self s) ea 128 (if e = 2 then .write else .read) = .error (.trap c v) →
      ∃ t, exec (.vld d a o e) s = .next t ∧ Traps c false v s t) ∧
    (GuardOn g s → at_ → RowsFree s [d] [] → translate s (self s) ea 128 .write = .ok ps → MemoryOk s →
      ∃ m n t, exec (.vst g d a o e) s = .next t ∧ Stores s ea 128 ps m ∧
        ((∀ p ∈ ps, p.kind ≠ .sc) → ps.Pairwise (fun p q => p.key + p.len ≤ q.key ∨ q.key + q.len ≤ p.key) →
          (ps.map fun p => memRead m.mem p.key p.len).flatten = natBytes 128 (t0.readV d).toNat) ∧
        (e = 0 → n = m) ∧ (e ≠ 0 → Filled m key 128 n) ∧ Retires n n.core.strand 4 t) ∧
    (¬ GuardOn g s → ∃ t, exec (.vst g d a o e) s = .next t ∧ Retires s t0 4 t) ∧
    (∀ q : Nat → List Piece, RowsFree s [] [d] → (∀ k < (t0.lane d).count, (lane k).toNat % w = 0 ∧
        translate s (self s) (lane k) w .read = .ok (q k) ∧ poisonAt s 0 (q k) = none) →
      ∃ m t, exec (.vlds d a b) s = .next t ∧ Reads s m ∧ Retires m (t0.writeV d (BitVec.ofNat 1024
        (bytesNat ((List.range (t0.lane d).count).flatMap fun k => bytesAt s (q k))))) 4 t)

/-! Tiles and matrices. -/

namespace Sys2Proof.Claims

/-- R114, R146, R148: no matrix command of the strand that names one of the accumulators is outstanding. -/
def AccsFree (s : State) (P : BitVec 2 → Prop) : Prop :=
  ∀ c ∈ (clusterGet s (clusterOf s.cur)).mx.pending, c.strand = s.core.strand.spillovf → ¬ P c.acc

/-- An accumulator's rows hold new values and are sound, and nothing else of the strand has changed (R156, R157, R151). -/
def TileWritten (t : Strand) (d : BitVec 2) (row : Nat → Row) (u : Strand) : Prop :=
  u = { t with v := u.v, rowPoison := u.rowPoison } ∧
    ∀ r : VReg, (r.toNat / 16 = d.toNat → u.readV r = row (r.toNat % 16) ∧ u.rowPoison.getLsbD r.toNat = false) ∧
      (r.toNat / 16 ≠ d.toNat → u.readV r = t.readV r ∧ u.rowPoison.getLsbD r.toNat = t.rowPoison.getLsbD r.toNat)

end Sys2Proof.Claims

/-- R154 to R156, R148, R158: TCFG sets an accumulator's lane type, TZERO clears its rows, TZTEST tells whether any byte
of a tile is not zero, TWAIT waits for the accumulators it names and forces their groups, CBLD loads a codebook. -/
def Obligations.TileRegisters : Prop :=
  ∀ (s : State) (d : BitVec 2) (z y : BitVec 3) (a : Reg) (n c : BitVec 2) (m : BitVec 4) (ps : List Piece),
    let t0 := s.core.strand
    let ea := t0.readG a
    let size := 2048 * 2 ^ n.toNat
    (AccsFree s (· = d) → ∃ t, exec (.tcfg d y) s = .next t ∧ Retires s { t0 with ty := t0.ty.set d.toNat y d.isLt } 4 t) ∧
    (t0.readZ z = true → AccsFree s (· = d) → ∃ t u, exec (.tzero d z) s = .next t ∧ Retires s u 4 t ∧
      TileWritten t0 d (fun _ => 0) u) ∧
    (t0.readZ z = false → ∃ t, exec (.tzero d z) s = .next t ∧ Retires s t0 4 t) ∧
    (ea.toNat % size = 0 → translate s (self s) ea size .read = .ok ps → poisonAt s 0 ps = none →
      ∃ x t v, exec (.tztest z a n) s = .next t ∧ Reads s x ∧ Retires x (t0.writeZ z v) 4 t ∧
        (v = true ↔ ∃ b ∈ bytesAt s ps, b ≠ 0)) ∧
    (AccsFree s (fun i => m.getLsbD i.toNat = true) → ∃ t, exec (.twait m) s = .next t ∧ Retires s t0 4 t) ∧
    (¬ AccsFree s (fun i => m.getLsbD i.toNat = true) → ∃ x t, exec (.twait m) s = .next t ∧ Waits x t ∧
      x = { s with clusters := x.clusters } ∧
      ∀ k, (clusterGet x k).mx.groups = if k = clusterOf s.cur then (clusterGet s k).mx.groups.map fun g =>
          if ∃ e ∈ g.members, e.strand = t0.spillovf ∧ m.getLsbD e.acc.toNat = true then { g with ready := true } else g
        else (clusterGet s k).mx.groups) ∧
    (ea.toNat % 32 = 0 → translate s (self s) ea 32 .read = .ok ps → poisonAt s 0 ps = none →
      ∃ x t, exec (.cbld c a) s = .next t ∧ Reads s x ∧
        Retires x { t0 with cb := t0.cb.set c.toNat (BitVec.ofNat 256 (bytesNat (bytesAt s ps))) c.isLt } 4 t)

/-- R157: TLD fills the sixteen rows of an accumulator from 2,048 bytes, TST stores them; a false tile predicate or
guard makes each do nothing. -/
def Obligations.TileMemory : Prop :=
  ∀ (s : State) (d : BitVec 2) (z : BitVec 3) (a : Reg) (g : Guard) (ps : List Piece),
    let t0 := s.core.strand
    let ea := t0.readG a
    (t0.readZ z = true → AccsFree s (· = d) → ea.toNat % 128 = 0 → translate s (self s) ea 2048 .read = .ok ps →
      poisonAt s 0 ps = none → ∃ m t u, exec (.tld d z a) s = .next t ∧ Reads s m ∧ Retires m u 4 t ∧
        TileWritten t0 d (fun i => BitVec.ofNat 1024 (bytesNat (((bytesAt s ps).drop (128 * i)).take 128))) u) ∧
    (t0.readZ z = false → ∃ t, exec (.tld d z a) s = .next t ∧ Retires s t0 4 t) ∧
    (GuardOn g s → t0.readZ z = true → AccsFree s (· = d) → ea.toNat % 128 = 0 →
      translate s (self s) ea 2048 .write = .ok ps → MemoryOk s →
      (∀ r : VReg, r.toNat / 16 = d.toNat → t0.rowPoison.getLsbD r.toNat = false) →
      ∃ m t, exec (.tst g d z a) s = .next t ∧ Stores s ea 2048 ps m ∧ Retires m t0 4 t ∧
        ((∀ p ∈ ps, p.kind ≠ .sc) → ps.Pairwise (fun p q => p.key + p.len ≤ q.key ∨ q.key + q.len ≤ p.key) →
          ∀ i < 16, ∀ j < 128, ((ps.map fun p => memRead m.mem p.key p.len).flatten).getD (128 * i + j) 0 =
            BitVec.ofNat 8 (laneAt 8 (t0.readV (BitVec.ofNat 6 (16 * d.toNat + i))) j))) ∧
    (¬ GuardOn g s ∨ t0.readZ z = false → ∃ t, exec (.tst g d z a) s = .next t ∧ Retires s t0 4 t)

namespace Sys2Proof.Claims

/-- R139, R143: step `k` of a matrix instruction is enqueued behind its core's commands, with what it captures. -/
def Enqueued (s : State) (x : MatOp) (k : Nat) (m : State) : Prop :=
  m = { s with clusters := m.clusters, nextId := s.nextId + 1 } ∧
    (∀ j, j ≠ clusterOf s.cur → clusterGet m j = clusterGet s j) ∧
    ∃ c : MxCmd, clusterGet m (clusterOf s.cur) = { clusterGet s (clusterOf s.cur) with
        mx := { (clusterGet s (clusterOf s.cur)).mx with queue := (clusterGet s (clusterOf s.cur)).mx.queue ++ [c] } } ∧
      c.id = s.nextId ∧ c.core = s.cur ∧ c.strand = s.core.strand.spillovf ∧ c.addr = s.core.strand.pc ∧
      c.pair = x.pair ∧ c.acc = x.acc ∧ c.na = x.na ∧ c.nb = x.nb ∧ c.zc = (x.zc && k == 0) ∧ c.sa = x.sa ∧ c.sb = x.sb ∧
      c.sat = x.sat ∧ c.a = operandKey s (s.core.strand.readG x.a) + 2048 * k ∧
      c.b = operandKey s (s.core.strand.readG x.b) + 4096 * k ∧
      (pairIsInt x.pair = false → c.scA.toNat = (s.core.strand.readF x.s).toNat % 256 ∧
        c.scB.toNat = (s.core.strand.readF x.s).toNat / 256 % 256) ∧
      c.cb = s.core.strand.cb[x.cb.toNat] ∧ c.token = (k == x.steps.toNat) ∧ c.alone = false

/-- R143 stage 5, R149: the core's queue has a place and the token of the command will find room. -/
def QueueRoom (s : State) : Prop :=
  let u := (clusterGet s (clusterOf s.cur)).mx
  (u.queue.filter fun c => c.core == s.cur).length < 8 ∧
    tokenRoom s.core.strand 3 (u.pending.filter fun c => c.strand == s.core.strand.spillovf && c.token).length = true

end Sys2Proof.Claims

/-- R143, R144, R149: TMMA enqueues its one step; TMMAK enqueues the step that MSTEP counts, stays at its address until
the last one and then clears MSTEP; with MSTEP beyond its steps it enqueues nothing, clears MSTEP and retires (its checks
come first, the model's reading, log 38). Without room they wait; with a false predicate they retire at once. -/
def Obligations.MatrixEnqueue : Prop :=
  ∀ (s : State) (x : MatOp),
    let t0 := s.core.strand
    let k := slice t0.mstep 0 12
    (t0.readZ x.z = false → ∀ i, i = .tmma x ∨ i = .tmmak x → ∃ t, exec i s = .next t ∧ Retires s t0 8 t) ∧
    (t0.readZ x.z = true → x.steps = 0 → matrixChecks s (.tmma x) x = .ok () → QueueRoom s →
      ∃ m t, exec (.tmma x) s = .next t ∧ Enqueued s x 0 m ∧ Retires m t0 8 t) ∧
    (t0.readZ x.z = true → matrixChecks s (.tmmak x) x = .ok () → QueueRoom s → k ≤ x.steps.toNat →
      ∃ m t, exec (.tmmak x) s = .next t ∧ Enqueued s x k m ∧
        (k = x.steps.toNat → Retires m { t0 with mstep := 0 } 8 t) ∧
        (k < x.steps.toNat → PaysFor m t ∧ t.core.strand = { t0 with mstep := W (k + 1) })) ∧
    (t0.readZ x.z = true → matrixChecks s (.tmmak x) x = .ok () → x.steps.toNat < k →
      ∃ t, exec (.tmmak x) s = .next t ∧ Retires s { t0 with mstep := 0 } 8 t) ∧
    (t0.readZ x.z = true → ¬ QueueRoom s →
      (matrixChecks s (.tmma x) x = .ok () → ∃ t, exec (.tmma x) s = .next t ∧ Waits s t) ∧
      (matrixChecks s (.tmmak x) x = .ok () → k ≤ x.steps.toNat → ∃ t, exec (.tmmak x) s = .next t ∧ Waits s t))

namespace Sys2Proof.Claims

/-- R136: element `i` of a tile's bytes, `w` bits each. -/
def elementAt (w : Nat) (bs : List Byte) (i : Nat) : Nat := bytesNat bs / 2 ^ (w * i) % 2 ^ w

/-- R141: the value of an operand element of an integer pair: unsigned or signed, and negated. -/
def operandInt (w : Nat) (uns neg : Bool) (x : Nat) : Int :=
  (if neg then -1 else 1) * if uns then (x : Int) else (BitVec.ofNat w x).toInt

/-- R47: the formats of A and of B of a floating-point pair; the entries of a codebook are BF16. -/
def formatA (p : Nat) : Fmt := if p = 0 ∨ p = 8 then bf16 else if p = 1 then fp16 else if p = 4 ∨ p = 5 then fe5m2 else fe4m3
def formatB (p : Nat) : Fmt :=
  if p = 0 ∨ p = 8 ∨ p = 9 then bf16 else if p = 1 then fp16 else if p = 3 ∨ p = 5 then fe5m2 else fe4m3

/-- R138, R140: a number is the element of a code, scaled by an E8M0 scale below 0xFF and negated or not. -/
def IsElement (f : Fmt) (code : Nat) (sc : BitVec 8) (neg : Bool) (p : Fp) : Prop :=
  match decode f code with
  | .fin n m e => p = .fin (n != neg) m (e + sc.toNat - 127)
  | .inf n => p = .inf (n != neg)
  | .nan _ => p.isNan = true

/-- R140, R93: a product that is a NaN, one that is an infinity of a sign, and the value of another. -/
def NanProduct (p : Fp × Fp) : Prop :=
  p.1.isNan = true ∨ p.2.isNan = true ∨ (∃ n, p.1 = .inf n ∧ IsVal p.2 0) ∨ ∃ n, p.2 = .inf n ∧ IsVal p.1 0
def InfProduct (neg : Bool) (p : Fp × Fp) : Prop :=
  ¬ NanProduct p ∧ (∃ n, p.1 = .inf n ∨ p.2 = .inf n) ∧ neg = (p.1.signBit != p.2.signBit)
def IsProduct (p : Fp × Fp) (x : ℝ) : Prop := ∃ a b, IsVal p.1 a ∧ IsVal p.2 b ∧ x = a * b

/-- R140: one group of products is added to an FP32 code and rounded once. -/
inductive AddsGroup (l : List (Fp × Fp)) (x : Nat) : Nat → Prop where
  | nan : (∃ p ∈ l, NanProduct p) ∨ (decode fp32 x).isNan = true ∨
      (∃ n, (∃ p ∈ l, InfProduct n p) ∧ ((∃ p ∈ l, InfProduct (!n) p) ∨ decode fp32 x = .inf (!n))) →
      AddsGroup l x 0x7FC00000
  | inf (n : Bool) : (∀ p ∈ l, ¬ NanProduct p) → (∀ p ∈ l, ¬ InfProduct (!n) p) → (decode fp32 x).isNan = false →
      decode fp32 x ≠ .inf (!n) → (∃ p ∈ l, InfProduct n p) ∨ decode fp32 x = .inf n →
      AddsGroup l x (n.toNat * 2 ^ 31 + 0x7F800000)
  | sum (v : ℝ) (vs : List ℝ) (r : FRes) : IsVal (decode fp32 x) v → List.Forall₂ IsProduct l vs →
      Rounded fp32 .rne (v + vs.sum) ((decode fp32 x).signBit && l.all fun p => p.1.signBit != p.2.signBit) r →
      AddsGroup l x r.1

/-- R140: groups are added one after another. -/
def AddsGroups : List (List (Fp × Fp)) → Nat → Nat → Prop
  | [], x, y => x = y
  | g :: gs, x, y => ∃ z, AddsGroup g x z ∧ AddsGroups gs z y

end Sys2Proof.Claims

/-- R135, R136, R141: a member of an integer pair gives, in row i and column n of its sixteen rows, the element of C, or
zero, plus the sum over the depth of the products of A's row and B's column, modulo 2^32, or, with saturation, clamped to
the range of INT32 after each group of sixteen products. R138, R140: a member of a floating-point pair gives the canonical
NaN in every element when a scale is 0xFF; else the element of C, or +0, to which the groups of sixteen exact products
are added in turn, each sum rounded once. -/
def Obligations.MatrixInteger : Prop :=
  ∀ (c : MxCmd) (a b : List Byte) (old : List Row), a.length = 2048 →
    b.length = pairBBytes c.pair → old.length = 16 →
    let (wa, wb, depth) := pairBits c.pair
    let start := fun i n => if c.zc then 0 else laneAt 32 (old.getD i 0) n
    (pairIsInt c.pair = true →
      let product := fun i n k => operandInt wa c.sa c.na (elementAt wa a (depth * i + k)) *
        operandInt wb c.sb c.nb (elementAt wb b (32 * k + n))
      (matrixRows c a b old).length = 16 ∧ ∀ i < 16, ∀ n < 32,
        (c.sat = false → laneAt 32 ((matrixRows c a b old).getD i 0) n =
          (((start i n : Int) + ((List.range depth).map (product i n)).sum) % 2 ^ 32).toNat) ∧
        (c.sat = true → (BitVec.ofNat 32 (laneAt 32 ((matrixRows c a b old).getD i 0) n)).toInt =
          (List.range (depth / 16)).foldl (fun x q =>
            Max.max (-2 ^ 31) (Min.min (2 ^ 31 - 1) (x + ((List.range 16).map fun k => product i n (16 * q + k)).sum)))
            (BitVec.ofNat 32 (start i n)).toInt)) ∧
    (c.pair.toNat ≤ 9 → pairIsInt c.pair = false →
      (matrixRows c a b old).length = 16 ∧ ∀ i < 16, ∀ n < 32,
        (c.scA = 0xFF ∨ c.scB = 0xFF → laneAt 32 ((matrixRows c a b old).getD i 0) n = 0x7FC00000) ∧
        (c.scA ≠ 0xFF → c.scB ≠ 0xFF → ∃ p : Nat → Fp × Fp,
          (∀ k < depth, IsElement (formatA c.pair.toNat) (elementAt wa a (depth * i + k)) c.scA c.na (p k).1 ∧
            IsElement (formatB c.pair.toNat) (if pairIsCb c.pair
              then c.cb.toNat / 2 ^ (16 * elementAt wb b (32 * k + n)) % 2 ^ 16 else elementAt wb b (32 * k + n))
              c.scB c.nb (p k).2) ∧
          AddsGroups ((List.range (depth / 16)).map fun q => (List.range 16).map fun k => p (16 * q + k))
            (start i n) (laneAt 32 ((matrixRows c a b old).getD i 0) n)))

namespace Sys2Proof.Claims

/-- A step of a cluster's matrix unit changes the unit alone. -/
def UnitStep (s : State) (c : ClusterId) (u : MxUnit) (t : State) : Prop :=
  t = { s with clusters := t.clusters } ∧ (∀ j, j ≠ c → clusterGet t j = clusterGet s j) ∧
    clusterGet t c = { clusterGet s c with mx := u }

/-- R310: the deadline of a command admitted now: its hold from now, or now for class 3. -/
def dueAt (u : MxUnit) (c : MxCmd) : Nat := u.cycle + if c.cls = 3 then 0 else c.hold.toNat
/-- R310: a command as it stands in the thatch, and the group that it opens. -/
def admitted (u : MxUnit) (c : MxCmd) : MxCmd := { c with due := dueAt u c }
def opened (u : MxUnit) (c : MxCmd) : MxGroup := ⟨[admitted u c], dueAt u c, decide (dueAt u c ≤ u.cycle)⟩
/-- R310: the groups once the present cycle is a given one. -/
def reachedBy (gs : List MxGroup) (now : Nat) : List MxGroup :=
  gs.map fun g => { g with ready := g.ready || decide (g.deadline ≤ now) }

/-- R134, R149, R151, R391: a strand after the members of an issue that are its own have ended: their rows and marks
stand in their accumulators in place of what was lost there (log 39), and their tokens in every queue bound MATRIX. -/
def MembersDone (t : Strand) (rs : List MxResult) (u : Strand) : Prop :=
  let mine := rs.filter fun r => r.cmd.strand == t.spillovf
  let tokens := (mine.filter fun r => r.cmd.token).map fun r =>
    W (r.cmd.addr.toNat / 4 * 4 + r.cmd.acc.toNat)
  u = { t with
      v := u.v, rowPoison := u.rowPoison, q := u.q, status := u.status
      lost := t.lost.filter fun l => mine.all fun r => l / 2048 != r.cmd.acc.toNat } ∧
    (∀ v : VReg, (∀ r ∈ mine, v.toNat / 16 = r.cmd.acc.toNat → u.readV v = r.rows.getD (v.toNat % 16) 0 ∧
        u.rowPoison.getLsbD v.toNat = r.poison.getD (v.toNat % 16) false) ∧
      ((∀ r ∈ mine, v.toNat / 16 ≠ r.cmd.acc.toNat) → u.readV v = t.readV v ∧
        u.rowPoison.getLsbD v.toNat = t.rowPoison.getLsbD v.toNat)) ∧
    (∀ i : Fin 8, u.q[i] = if (t.q[i]).kind = 3 then tokens.foldl Queue.push t.q[i] else t.q[i]) ∧
    u.status = if tokens ≠ [] ∧ (∃ i : Fin 8, (t.q[i]).kind = 3) then t.status ||| 4 else t.status

end Sys2Proof.Claims

/-- R306, R310, R311: the oldest command of a core goes to the thatch when no older command of its strand and accumulator
is there: into the first group that it can join, or, with fewer than four groups held, into one of its own; else the
held group with the earliest deadline becomes ready too; one that a stop has withdrawn forms a ready group of its own. A
deadline that is reached makes its groups ready. A converter's stall holds the work of the unit (R327). -/
def Obligations.Thatch : Prop :=
  ∀ (s : State) (k : CoreId) (c : MxCmd),
    let cl := clusterOf k
    let u := (clusterGet s cl).mx
    let held := u.groups.filter fun g => !g.ready
    let rest := u.queue.filter fun d => d.id != c.id
    let due := dueAt u c
    (u.queue.find? (fun d => d.core == k) = some c →
      (∀ g ∈ u.groups, ∀ d ∈ g.members, ¬ (d.strand = c.strand ∧ d.acc = c.acc)) → stalled s cl = false →
      (c.alone = true → ∃ t, exec (.thatchAdmission k) s = .next t ∧
        UnitStep s cl { u with queue := rest, groups := u.groups ++ [⟨[admitted u c], u.cycle, true⟩] } t) ∧
      (∀ l g r, c.alone = false → u.groups = l ++ g :: r → joins c g = true → (∀ h ∈ l, joins c h = false) →
        ∃ t gs, exec (.thatchAdmission k) s = .next t ∧ UnitStep s cl { u with queue := rest, groups := gs } t ∧
          ∃ h, gs = l ++ h :: r ∧ h.members = g.members ++ [admitted u c] ∧ h.deadline = Min.min g.deadline due ∧
            (h.ready = true ↔ g.ready = true ∨ g.members.length = 7 ∨ h.deadline ≤ u.cycle)) ∧
      (c.alone = false → (∀ g ∈ u.groups, joins c g = false) → held.length < 4 →
        ∃ t, exec (.thatchAdmission k) s = .next t ∧
          UnitStep s cl { u with queue := rest, groups := u.groups ++ [opened u c] } t) ∧
      (c.alone = false → (∀ g ∈ u.groups, joins c g = false) → ∀ l g r, u.groups = l ++ g :: r → 4 ≤ held.length →
        g.ready = false → (∀ h ∈ held, g.deadline ≤ h.deadline) → (∀ h ∈ l, h.ready = false → g.deadline < h.deadline) →
        ∃ t, exec (.thatchAdmission k) s = .next t ∧
          UnitStep s cl { u with queue := rest, groups := l ++ { g with ready := true } :: r ++ [opened u c] } t)) ∧
    (∀ g ∈ held, (∀ h ∈ held, g.deadline ≤ h.deadline) → stalled s cl = false → ∃ t, exec (.groupDeadline cl) s = .next t ∧
      UnitStep s cl { u with
        cycle := Max.max u.cycle g.deadline
        groups := reachedBy u.groups (Max.max u.cycle g.deadline) } t) ∧
    (stalled s cl = true → ∀ i, i = .thatchAdmission k ∨ i = .groupDeadline cl ∨ i = .matrixIssue cl ∨ i = .issueEnd cl →
      exec i s = .next s)

/-- R305, R307, R311, R312: with groups ready and no issue under way the arbiter issues one of them, of class 3 when there
is one unless the last three issues were of class 3 and another waits; its members read their operands. At the end of
an issue the rows of every member, of whatever core, stand in its own accumulator, their tokens are posted, and the groups
whose deadlines have been reached are ready. -/
def Obligations.MatrixIssue : Prop :=
  ∀ (s : State) (c : ClusterId),
    let u := (clusterGet s c).mx
    let now := u.cycle + 8 * u.issued.length
    (u.issued = [] → (∀ g ∈ u.groups, g.members ≠ []) → (∃ g ∈ u.groups, g.ready = true) → stalled s c = false →
      ∃ t g v, exec (.matrixIssue c) s = .next t ∧ UnitStep s c v t ∧ g ∈ u.groups ∧ g.ready = true ∧
        v.groups = u.groups.filter (· != g) ∧ v.issued = g.members.map (matrixResult s) ∧ v.queue = u.queue ∧
        ((∃ h ∈ u.groups, h.ready = true ∧ h.cls = 3) → u.recent ≠ [true, true, true] → g.cls = 3 ∧ v.credits = u.credits) ∧
        ((∃ h ∈ u.groups, h.ready = true ∧ h.cls ≠ 3) → u.recent = [true, true, true] → g.cls ≠ 3)) ∧
    (stalled s c = false → ∃ t, exec (.issueEnd c) s = .next t ∧
      (clusterGet t c).mx = { u with issued := [], cycle := now, groups := reachedBy u.groups now } ∧
      (∀ j, j ≠ c → clusterGet t j = clusterGet s j) ∧ t.mem = s.mem ∧ t.cmds = s.cmds ∧ t.pkg = s.pkg ∧
      t.svc = { s.svc with off := t.svc.off } ∧
      (∀ k, coreGet t k = { coreGet s k with strand := (coreGet t k).strand } ∧
        ((∀ r ∈ u.issued, r.cmd.strand ≠ (coreGet s k).strand.spillovf) → coreGet t k = coreGet s k)) ∧
      ((∀ r ∈ u.issued, r.rows.length = 16 ∧ r.poison.length = 16) →
        u.issued.Pairwise (fun r q => ¬ (r.cmd.strand = q.cmd.strand ∧ r.cmd.acc = q.cmd.acc)) →
        ∀ img x, findStrand img s = some x → ∃ y, findStrand img t = some y ∧ MembersDone x u.issued y))


/-! Frames, tasks and join records. -/

namespace Sys2Proof.Claims

/-- R270, R273: where a frame of a size and an alignment goes in the current core's arena. -/
def FrameFits (s : State) (al : BitVec 2) (sz : BitVec 14) (base : Nat) : Prop :=
  sz ≠ 0 ∧ base % ([64, 2048, 4096, 16384].getD al.toNat 0) = 0 ∧ s.core.top ≤ base ∧
    base < s.core.top + [64, 2048, 4096, 16384].getD al.toNat 0 ∧ base + 64 * sz.toNat ≤ s.core.limit

/-- R271, R274: the current frame starts in the arena at an offset. -/
def FrameStarts (s : State) (o : Nat) : Prop :=
  let g2 := (s.core.strand.readG 2).toNat
  (globalAt s s.cur s.core.base).toNat ≤ g2 ∧ g2 < (globalAt s s.cur s.core.top).toNat ∧
    o = g2 - (globalAt s s.cur 0).toNat
/-- R271, R274, R377, R378: so it does, and its header is sound and may be accessed. -/
def FrameAt (s : State) (k : AKind) (o : Nat) : Prop :=
  FrameStarts s o ∧ (∃ ps, spSpan s (self s) (s.core.strand.readG 2) 64 k = .ok ps) ∧
    firstPoison s.poison (spBase s.cur + o) 64 = none

/-- A doubleword of the current frame's header (R271). -/
def headAt (s : State) (o i : Nat) : Word := memWord s.mem (spBase s.cur + o + 8 * i)

/-- R426, R278: a join record's address names a record. -/
def JoinAt (s : State) (j : Word) (key : Nat) : Prop := joinRecord s j = .ok key
/-- R395: so it does, and the record is sound. -/
def SoundJoin (s : State) (j : Word) (key : Nat) : Prop := JoinAt s j key ∧ firstPoison s.poison key 16 = none

/-- R278: the COUNT and PARKED fields of a record. -/
def countAt (s : State) (key : Nat) : Nat := (memWord s.mem key).toNat % 2 ^ 32
def parkedAt (s : State) (key : Nat) : Bool := (memWord s.mem key).getLsbD 63

/-- R286: the free join records of a context in a cluster. -/
def poolAt (x : Context) (c : ClusterId) : List Nat := ((x.pools.find? fun e => e.1 == c).map (·.2)).getD []
/-- R286: one pool of the running context has changed, and no other. -/
def PoolBecomes (s : State) (c : ClusterId) (f : List Nat → List Nat) (m : State) : Prop :=
  m.svc = { s.svc with contexts := m.svc.contexts } ∧
    (∀ u, u ≠ tagOf s.core.strand → contextGet m u = contextGet s u) ∧
    ∀ x, contextGet s (tagOf s.core.strand) = some x → ∃ y, contextGet m (tagOf s.core.strand) = some y ∧
      y = { x with pools := y.pools } ∧ poolAt y c = f (poolAt x c) ∧ ∀ d, d ≠ c → poolAt y d = poolAt x d

/-- Every byte outside a range reads as before. -/
def Outside (s : State) (a n : Nat) (t : State) : Prop := ∀ x, x < a ∨ a + n ≤ x → memGet t.mem x = memGet s.mem x

end Sys2Proof.Claims

/-- R273 to R275: FENTER completes: it lays a frame above FTOP, its header holding the old g2 and g1 and the frame's
size, and makes it the current frame; FLEAVE completes: it takes the two registers back, lowers FTOP and returns the
frame's record to its pool; FTILE completes: it names a tile in the header. A current frame outside the arena is illegal, one whose
header may not be accessed takes that fault (R377), and one whose header is poisoned traps POISON (R395); so does a record. -/
def Obligations.Frames : Prop :=
  ∀ (s : State) (al : BitVec 2) (sz : BitVec 14) (base o : Nat) (k n : BitVec 2) (a : Reg), MemoryOk s →
    let t0 := s.core.strand
    let x := (t0.readG a).toNat
    let size := 2048 * 2 ^ k.toNat
    let imm := (headAt s o 3).toNat % 2 ^ 16
    (FrameFits s al sz base → ∃ u m t, exec (.fenter al sz) s = .next t ∧
      u = { s with mem := u.mem, poison := u.poison, core := { s.core with ftop := W (base + 64 * sz.toNat) } } ∧
      Reads u m ∧ Retires m (t0.writeG 2 (globalAt s s.cur base)) 4 t ∧ Outside s (spBase s.cur + base) 64 u ∧
      headAt u base 0 = t0.readG 2 ∧ headAt u base 1 = t0.readG 1 ∧ headAt u base 2 = 0 ∧
      headAt u base 3 = W (al.toNat * 2 ^ 14 + sz.toNat) ∧ (∀ i, 4 ≤ i → i < 8 → headAt u base i = 0)) ∧
    (sz ≠ 0 → (∀ b, ¬ FrameFits s al sz b) → StopFree s → ∃ t b, exec (.fenter al sz) s = .next t ∧
      s.core.limit < b ∧ Traps 0x15 false (W b) s t) ∧
    (FrameAt s .read o → headAt s o 2 = 0 → ∃ m t, exec .fleave s = .next t ∧
      m = { s with core := { s.core with ftop := W o } } ∧
      Retires m ((t0.writeG 1 (headAt s o 1)).writeG 2 (headAt s o 0)) 4 t) ∧
    (∀ key, FrameAt s .read o → headAt s o 2 ≠ 0 → SoundJoin s (headAt s o 2) key →
      (countAt s key = 0 ∧ parkedAt s key = false → ∃ m t, exec .fleave s = .next t ∧
        m = { s with svc := m.svc, core := { s.core with ftop := W o } } ∧
        PoolBecomes s (BitVec.ofNat 8 (key / 2 ^ 23)) (· ++ [key % 2 ^ 18]) m ∧
        Retires m ((t0.writeG 1 (headAt s o 1)).writeG 2 (headAt s o 0)) 4 t) ∧
      (countAt s key ≠ 0 ∨ parkedAt s key = true → StopFree s → ∃ t, exec .fleave s = .next t ∧
        Traps 0x01 false (headAt s o 2) s t)) ∧
    (FrameAt s .write o → x = 0 ∨ (x % size = 0 ∧ size ≤ frameAlign imm ∧ 64 ≤ x ∧ x + size ≤ frameSize imm) →
      ∃ m t, exec (.ftile k n a) s = .next t ∧ m = { s with mem := m.mem } ∧ Retires m t0 4 t ∧
        Outside s (spBase s.cur + o + 32) 8 m ∧ ∀ i < 4, slice (headAt m o 4) (16 * i) 16 =
          if i = n.toNat then (if x = 0 then 0 else x / 64 * 4 + k.toNat) % 2 ^ 16 else slice (headAt s o 4) (16 * i) 16) ∧
    ((t0.readG 2).toNat < (globalAt s s.cur s.core.base).toNat ∨ (globalAt s s.cur s.core.top).toNat ≤ (t0.readG 2).toNat →
      StopFree s → ∀ i d, i ∈ [.fleave, .ftile k n a, .spawn d, .sync, .jinit a] →
      ∃ t, exec i s = .next t ∧ Traps 0x01 false (t0.readG 2) s t) ∧
    (∀ i d kind, (kind = .read ∧ i ∈ [.fleave, .spawn d, .sync]) ∨ (kind = .write ∧ i ∈ [.ftile k n a, .jinit a]) →
      FrameStarts s o → StopFree s →
      (∀ c v, spSpan s (self s) (t0.readG 2) 64 kind = .error (.trap c v) →
        ∃ t, exec i s = .next t ∧ Traps c false v s t) ∧
      (∀ ps y, spSpan s (self s) (t0.readG 2) 64 kind = .ok ps → firstPoison s.poison (spBase s.cur + o) 64 = some y →
        ∃ t, exec i s = .next t ∧ Traps 0x17 false (globalAt s s.cur (y - spBase s.cur)) s t)) ∧
    ∀ i key j kind y, (kind = .read ∧ i ∈ [.fleave, .sync]) ∨ (kind = .write ∧ i = .jinit a) → FrameAt s kind o →
      j = headAt s o 2 → j ≠ 0 → JoinAt s j key → firstPoison s.poison key 16 = some y → StopFree s →
      ∃ t, exec i s = .next t ∧ Traps 0x17 false j s t

namespace Sys2Proof.Claims

/-- R281: the current core resumes a continuation whose frame is its own. -/
def ResumesStrand (s : State) (c : Cont) (t : State) : Prop :=
  t.core.strand = { s.core.strand.writeG 2 c.frame with pc := c.pc, prio := W c.cls.toNat }
/-- R281: it does so at the end of an instruction, which is debited. -/
def Resumes (s : State) (c : Cont) (t : State) : Prop :=
  PaysFor { s with core := { s.core with mode := .running } } t ∧ ResumesStrand s c t

/-- R272, R316: the current core's strand has no task. -/
def GoesIdle (s t : State) : Prop :=
  PaysFor { s with core := { s.core with mode := .idle, ftop := W (idleTop s s.cur s.core) } } t ∧
    t.core.strand = { s.core.strand with decDone := false, hbeat := t.core.strand.hbeat } ∧
    slice t.core.strand.hbeat 48 16 = slice s.core.strand.hbeat 48 16 ∧
    slice t.core.strand.hbeat 0 48 = if slice s.core.strand.wdmode 62 2 = 2 then 0 else slice s.core.strand.hbeat 0 48

/-- R284, R285, R281: an instruction at `s` that has come to `u` pops the tail of the deque and resumes it, its frame
being transferred, or goes idle; a frame that finds no room, or may not be used, stops it. -/
def PopsOrIdles (i : Instr) (s u : State) : Prop :=
  (u.core.deque = [] → ∃ t, exec i s = .next t ∧ GoesIdle u t) ∧
  ∀ rest c, u.core.deque = rest ++ [c] →
    (∀ c' m, transferFrame s.cur c (dequeSet u s.cur rest) = .ok (c', m) → ∃ t, exec i s = .next t ∧ Resumes m c' t) ∧
    (∀ e n, transferFrame s.cur c (dequeSet u s.cur rest) = .error (.trap e n) → StopFree s →
      ∃ t, exec i s = .next t ∧ Traps e false n s t) ∧
    (transferFrame s.cur c (dequeSet u s.cur rest) = .error .wait → ∃ t, exec i s = .next t ∧ Waits s t)

/-- R192, R221: whether the acquiring side's copy of a line goes at an edge: it lies in a range that the log of its
object holds, or it lies in no object that the cluster knows to be the context's. -/
def EdgeHits (s : State) (g : Agent) (a : Nat) : Prop :=
  let known := fun e : RecEntry => e ∈ (clusterGet s (clusterOf g.core)).recs ∧ e.ctx = g.tag ∧
    ORec.coh e.words = cohSC ∧ inExtents (extents s e.words) 0 (2 ^ 52) a = true
  (∀ e, ¬ known e) ∨ ∃ e, known e ∧ ∃ y ∈ logRanges s g e.obj e.words none, inExtents (extents s e.words) y.1 y.2 a = true

/-- No line that the current cluster holds lies over a record. -/
def NoLineAt (s : State) (key : Nat) : Prop := LinesOk s ∧ ∀ l ∈ (clusterGet s (clusterOf s.cur)).l1, l.addr ≠ lineOf key

/-- R278, R411: the launches that a launch record stands for are answered OK and await nothing more. -/
def Reports (s : State) (key : Nat) (v : Service) : Prop :=
  match contextGet s (tagOf s.core.strand) with
  | none => v = s.svc
  | some x => v = { s.svc with
      messages := s.svc.messages ++ (x.launches.filter fun e => e.2 == key).map fun e =>
        .answer 4 0 e.1 (tagOf s.core.strand) []
      contexts := s.svc.contexts.map fun d => if d.tag = x.tag
        then { x with launches := x.launches.filter fun e => e.2 != key } else d }

/-- R218, R395: the mark of a line's home once a cluster's dirty bytes of it have been merged there. -/
def homeMark (s : State) (c : ClusterId) (b : Nat) : Bool :=
  match (clusterGet s c).line b with
  | some l => if l.mask = 0 then s.poison.contains b else mergeMark l.bad l.mask (s.poison.contains b)
  | none => s.poison.contains b

/-- R284, R286, R190, R192: Dec at a record whose COUNT is not 0, after the release of the edge; the context has written
those bytes of SRAM (R180). -/
def Decremented (s : State) (key : Nat) (u : State) : Prop :=
  let m := edgeRelease s (clusterOf s.cur)
  u = { m with mem := u.mem, svc := u.svc, sramBy := (claimSram (tagOf s.core.strand) key 8 m).sramBy } ∧ Outside m key 8 u ∧
    memWord u.mem key = (memWord s.mem key - 1) &&& (if countAt s key = 1 then W (2 ^ 63 - 1) else W (2 ^ 64 - 1)) ∧
    if countAt s key = 1 ∧ (memWord s.mem (key + 8)).getLsbD 3 = true then Reports m key u.svc else u.svc = m.svc

/-- R278: the continuation parked in a record. -/
def parkedIn (s : State) (j : Word) (key : Nat) : Cont :=
  let d1 := (memWord s.mem (key + 8)).toNat
  let f := W (2 ^ 62 + slice (memWord s.mem key) 32 31)
  { pc := W (d1 / 64 * 64), cls := BitVec.ofNat 2 (d1 / 16), frame := f, jrec := j
    tiles := match frameAt s s.cur f with
      | some x => memWord s.mem (spBase x.1 + x.2 + 32)
      | none => 0 }

end Sys2Proof.Claims

/-- R283 to R285, R269, R281: SPAWN completes: it appends the continuation of the next block and goes to its target. TRET
completes: it pops the tail when its record is the one returned to, or decrements the record, and then resumes the
continuation that was parked there, or the tail, or goes idle; a parked continuation that finds no room goes to the
pending slot (R388), and one whose frame the context may not use leaves the record as it was (R377, log 47). SYNC completes: it goes on when the count is zero and else parks the frame in the record, and then
resumes the tail or goes idle. -/
def Obligations.Tasks : Prop :=
  ∀ (s : State) (d : BitVec 22) (o key : Nat), MemoryOk s →
    let t0 := s.core.strand
    let j := headAt s o 2
    let back := t0.readG 1
    let block := W (t0.pc.toNat / 64 * 64)
    (FrameAt s .read o → j ≠ 0 → JoinAt s j key → s.core.deque.length < slice s.core.dqcap 0 16 →
      ∃ t, exec (.spawn d) s = .next t ∧
        JumpsTo (dequeSet s s.cur
          (s.core.deque ++ [⟨block + 64, BitVec.ofNat 2 t0.prio.toNat, t0.readG 2, j, headAt s o 4⟩])) (t0.writeG 1 j)
          (BitVec.ofInt 64 (block.toInt + 64 * d.toInt)) t) ∧
    (FrameAt s .read o → j ≠ 0 → JoinAt s j key → slice s.core.dqcap 0 16 ≤ s.core.deque.length → StopFree s →
      ∃ t, exec (.spawn d) s = .next t ∧ Traps 0x15 false (W (slice s.core.dqcap 0 16)) s t) ∧
    (FrameAt s .read o → j = 0 → StopFree s → ∃ t, exec (.spawn d) s = .next t ∧ Traps 0x01 false (t0.readG 2) s t) ∧
    (StopFree s → bitOf t0.status 1 = true → ∃ t, exec .tret s = .next t ∧ Traps 0x15 false t0.tval s t) ∧
    (Settled s → bitOf t0.status 1 = false → t0.decDone = true →
      PopsOrIdles .tret s (strandSet s { t0 with decDone := false })) ∧
    (Settled s → bitOf t0.status 1 = false → t0.decDone = false →
      (back = 0 ∨ (JoinAt s back key ∧ ∃ rest c, s.core.deque = rest ++ [c] ∧ c.jrec = back)) → PopsOrIdles .tret s s) ∧
    (Settled s → bitOf t0.status 1 = false → t0.decDone = false → back ≠ 0 → JoinAt s back key →
      (∀ rest c, s.core.deque = rest ++ [c] → c.jrec ≠ back) →
      (∀ y, firstPoison s.poison key 16 = some y → StopFree s → ∃ t, exec .tret s = .next t ∧ Traps 0x17 false back s t) ∧
      (firstPoison s.poison key 16 = none → countAt s key = 1 → parkedAt s key = true → StopFree s → ∀ e v,
        frameCheck s s.cur (parkedFrame s key) = .error (.trap e v) → ∃ t, exec .tret s = .next t ∧ Traps e false v s t) ∧
      (firstPoison s.poison key 16 = none → countAt s key = 0 → StopFree s → ∃ t, exec .tret s = .next t ∧ Traps 0x01 false back s t) ∧
      (firstPoison s.poison key 16 = none → countAt s key ≠ 0 → parkedOk s key = .ok () → NoLineAt s key →
        ∃ u, Decremented s key u ∧
        (¬ (countAt s key = 1 ∧ parkedAt s key = true) → PopsOrIdles .tret s u) ∧
        (countAt s key = 1 → parkedAt s key = true →
          (∀ c m, transferFrame s.cur (parkedIn u back key) u = .ok (c, m) →
            ∃ t, exec .tret s = .next t ∧ Resumes (edgeAcquire m (self s)) c t) ∧
          (∀ e n, transferFrame s.cur (parkedIn u back key) u = .error (.trap e n) → StopFree s →
            ∃ t, exec .tret s = .next t ∧ Traps e false n (strandSet u { t0 with
              slot := some (parkedIn u back key).bytes, decDone := true, status := t0.status ||| 2 }) t)))) ∧
    (FrameAt s .read o → j = 0 → ∃ t, exec .sync s = .next t ∧ JumpsTo s t0 (block + 64) t) ∧
    (FrameAt s .read o → j ≠ 0 → SoundJoin s j key → parkedAt s key = false → countAt s key = 0 →
      ∃ t, exec .sync s = .next t ∧ JumpsTo (edgeAcquire s (self s)) t0 (block + 64) t) ∧
    (FrameAt s .read o → j ≠ 0 → SoundJoin s j key → parkedAt s key = false → countAt s key ≠ 0 → ∃ u,
      u = { s with
          mem := u.mem, sramBy := (claimSram (tagOf t0) key 16 s).sramBy
          core := { s.core with parkedTop := s.core.parkedTop ++ [o] } } ∧
        parkedAt u key = true ∧ countAt u key = countAt s key ∧
        slice (memWord u.mem key) 32 31 = slice (t0.readG 2) 0 31 ∧
        slice (memWord u.mem (key + 8)) 6 58 = slice (block + 64) 6 58 ∧
        slice (memWord u.mem (key + 8)) 4 2 = t0.prio.toNat % 4 ∧
        slice (memWord u.mem (key + 8)) 0 4 = slice (memWord s.mem (key + 8)) 0 4 ∧ Outside s key 16 u ∧
        PopsOrIdles .sync s u) ∧
    (FrameAt s .read o → j ≠ 0 → SoundJoin s j key → parkedAt s key = true → StopFree s →
      ∃ t, exec .sync s = .next t ∧ Traps 0x01 false j s t)

/-- R286: JINIT completes: it gives the frame's own record again, or takes one from the context's pool of its cluster,
cleared, and names it in the header; with no record left it traps ALLOCATION. JDEC completes: it gives the count before
its decrement, and zero where nothing is left to decrement; a decrement that brings the count to zero places the parked
continuation at the head of the deque, or faults on a full deque (R279), and reports a launch. R190, R192, R221: an edge
writes back the releasing cluster's lines (those of other contexts too, the model's choice, log 62) and removes the
acquiring cluster's copies; marks of poison travel with the bytes (R395). -/
def Obligations.JoinRecords : Prop :=
  ∀ (s : State) (d a : Reg) (o key : Nat) (r : Nat) (rs : List Nat) (x : Context) (g : Agent), MemoryOk s →
    let t0 := s.core.strand
    let j := headAt s o 2
    let cl := clusterOf s.cur
    let rec_ := sramBase cl + r
    let cap := slice s.core.dqcap 0 16
    (FrameAt s .write o → j ≠ 0 → SoundJoin s j key → countAt s key = 0 → parkedAt s key = false →
      ∃ t, exec (.jinit d) s = .next t ∧ Retires s (t0.writeG d j) 4 t) ∧
    (FrameAt s .write o → j ≠ 0 → SoundJoin s j key → countAt s key ≠ 0 ∨ parkedAt s key = true → StopFree s →
      ∃ t, exec (.jinit d) s = .next t ∧ Traps 0x01 false j s t) ∧
    (FrameAt s .write o → j = 0 → contextGet s (tagOf t0) = some x → poolAt x cl = r :: rs →
      ∃ m t, exec (.jinit d) s = .next t ∧ Retires m (t0.writeG d (joinName s rec_)) 4 t ∧
        m = { s with mem := m.mem, poison := m.poison, svc := m.svc } ∧ PoolBecomes s cl (fun _ => rs) m ∧
        headAt m o 2 = joinName s rec_ ∧ memRead m.mem rec_ 16 = List.replicate 16 0 ∧
        ∀ b, (b < spBase s.cur + o + 16 ∨ spBase s.cur + o + 24 ≤ b) → (b < rec_ ∨ rec_ + 16 ≤ b) →
          memGet m.mem b = memGet s.mem b) ∧
    (FrameAt s .write o → j = 0 → contextGet s (tagOf t0) = some x → poolAt x cl = [] → StopFree s →
      ∃ t, exec (.jinit d) s = .next t ∧ Traps 0x15 false (t0.readG 2) s t) ∧
    (SoundJoin s (t0.readG a) key → countAt s key = 0 →
      ∃ t, exec (.jdec d a) s = .next t ∧ Retires s (t0.writeG d 0) 4 t) ∧
    (SoundJoin s (t0.readG a) key → countAt s key ≠ 0 → parkedOk s key = .ok () → NoLineAt s key → ∃ u, Decremented s key u ∧
      (¬ (countAt s key = 1 ∧ parkedAt s key = true) →
        ∃ t, exec (.jdec d a) s = .next t ∧ Retires u (t0.writeG d (W (countAt s key))) 4 t) ∧
      (countAt s key = 1 → parkedAt s key = true → s.core.deque.length < cap →
        let w := edgeAcquire u (self u)
        ∃ t, exec (.jdec d a) s = .next t ∧
          Retires (dequeSet w s.cur (parkedIn u (t0.readG a) key :: s.core.deque)) (t0.writeG d 1) 4 t)) ∧
    (SoundJoin s (t0.readG a) key → countAt s key = 1 → parkedAt s key = true → cap ≤ s.core.deque.length → StopFree s →
      ∃ t, exec (.jdec d a) s = .next t ∧ Traps 0x15 false (W cap) s t) ∧
    (SoundJoin s (t0.readG a) key → countAt s key = 1 → parkedAt s key = true → s.core.deque.length < cap → StopFree s →
      ∀ e v, frameCheck s s.cur (parkedFrame s key) = .error (.trap e v) →
        ∃ t, exec (.jdec d a) s = .next t ∧ Traps e false v s t) ∧
    (∀ y, JoinAt s (t0.readG a) key → firstPoison s.poison key 16 = some y → StopFree s →
      ∃ t, exec (.jdec d a) s = .next t ∧ Traps 0x17 false (t0.readG a) s t) ∧
    (LinesOk s →
      (let m := edgeRelease s cl
       m = { s with
         mem := m.mem, poison := m.poison, clusters := m.clusters, l2 := m.l2
         svc := { s.svc with accounts := m.svc.accounts } } ∧
         (∀ b, (clusterGet m cl).line b = ((clusterGet s cl).line b).map fun l => { l with mask := 0 }) ∧
         (∀ c b, c ≠ cl → (clusterGet m c).line b = (clusterGet s c).line b) ∧
         (∀ b, memGet m.mem b = homeByte s cl b) ∧ ∀ b, m.poison.contains b = homeMark s cl b) ∧
      let m := edgeAcquire s g
      let c := clusterOf g.core
      m = { s with
         mem := m.mem, poison := m.poison, clusters := m.clusters, l2 := m.l2
         svc := { s.svc with accounts := m.svc.accounts } } ∧
        (∀ b, (EdgeHits s g b → (clusterGet m c).line b = none ∧ l2Get m (dieOfCluster c) b = none) ∧
          (¬ EdgeHits s g b → (clusterGet m c).line b = (clusterGet s c).line b)) ∧
        (∀ e b, e ≠ c → (clusterGet m e).line b = (clusterGet s e).line b) ∧
        (∀ b, (EdgeHits s g (lineOf b) → memGet m.mem b = homeByte s c b) ∧
          (¬ EdgeHits s g (lineOf b) → memGet m.mem b = memGet s.mem b)) ∧
        ∀ b, (EdgeHits s g b → m.poison.contains b = homeMark s c b) ∧
          (¬ EdgeHits s g b → m.poison.contains b = s.poison.contains b))

/-! Stealing and donation. -/

namespace Sys2Proof.Claims

/-- R295: the core's donation ring, with a read pointer that its write pointer has passed or not. -/
def RingAt (s : State) (r : ORec) : Prop :=
  s.core.dring ≠ 0 ∧ kindRecord s (self s) s.core.dring kRING [] = .ok r
/-- R244: a doubleword of a ring's control line: 0 the write pointer, 1 the read pointer, 2 the claims, 3 the overflow. -/
def ringAt (s : State) (r : ORec) (i : Nat) : Nat := (memWord s.mem (r.place + 8 * i)).toNat
/-- R244: the address of the oldest descriptor of a ring. -/
def oldestAt (s : State) (r : ORec) : Nat := r.place + 64 + r.ringS * (ringAt s r 1 % r.ringN)

/-- R281, R290: the size of the frame at an address, and where a core's arena would place a frame of that header. -/
def sizeAt (s : State) (src : Nat) : Nat := 64 * ((memWord s.mem (src + 24)).toNat % 2 ^ 14)
def alignAt (s : State) (src : Nat) : Nat := [64, 2048, 4096, 16384].getD ((memWord s.mem (src + 24)).toNat / 2 ^ 14 % 4) 0
/-- R290, R272: the frame at offset `o` of another core `k` has been transferred to `base` of the current core's arena. -/
structure Transferred (s : State) (tiles : Word) (k : CoreId) (o base : Nat) (m : State) : Prop where
  rest : m = { s with mem := m.mem, empty := m.empty, poison := m.poison, core := m.core, others := m.others }
  copied : ∀ i < sizeAt s (spBase k + o), memGet m.mem (spBase s.cur + base + i) = memGet s.mem (spBase k + o + i)
  mem : ∀ a, a < spBase s.cur + base ∨ spBase s.cur + base + sizeAt s (spBase k + o) ≤ a → memGet m.mem a = memGet s.mem a
  empty : ∀ i < 2 ^ 16, (spBase s.cur + 16 * i ∈ m.empty ↔
    if base ≤ 16 * i ∧ 16 * i < base + sizeAt s (spBase k + o)
    then inNamedTile tiles (16 * i - base) = true ∧ spBase k + o + (16 * i - base) ∈ s.empty else spBase s.cur + 16 * i ∈ s.empty)
  poison : ∀ i < 2 ^ 16, (spBase s.cur + 16 * i ∈ m.poison ↔
    if base ≤ 16 * i ∧ 16 * i < base + sizeAt s (spBase k + o)
    then spBase k + o + (16 * i - base) ∈ s.poison else spBase s.cur + 16 * i ∈ s.poison)
  core : m.core = { s.core with
    ftop := W (base + sizeAt s (spBase k + o))
    strand := { s.core.strand with status := m.core.strand.status } }
  event : m.core.strand.status = s.core.strand.status ∨ m.core.strand.status = s.core.strand.status ||| 4
  source : coreGet m k = { coreGet s k with
    parkedTop := (coreGet s k).parkedTop.filter (· != o), ftop := (coreGet m k).ftop }
  sourceTop : (coreGet s k).mode ≠ .idle → (coreGet m k).ftop = (coreGet s k).ftop
  cores : ∀ j, j ≠ s.cur → j ≠ k → coreGet m j = coreGet s j

/-- R289, R292: the entry that a probe of a core would take for the running context: the head of the core's deque, or of
a parked deque served from there; and the state without it. -/
inductive Head (s : State) (v : CoreId) : Cont → State → Prop where
  | own (c : Cont) (rest : List Cont) : (coreGet s v).mode ≠ .vacant → tagOf (coreGet s v).strand = tagOf s.core.strand →
      (coreGet s v).deque = c :: rest → Head s v c (dequeSet s v rest)
  | parked (c : Cont) (rest : List Cont) (l r : List Off) (o : Off) :
      ¬ ((coreGet s v).mode ≠ .vacant ∧ tagOf (coreGet s v).strand = tagOf s.core.strand ∧ (coreGet s v).deque ≠ []) →
      s.svc.off = l ++ o :: r → (∀ x ∈ l, ¬ (x.core = v ∧ x.ctx = tagOf s.core.strand ∧ x.deque ≠ [])) →
      o.core = v → o.ctx = tagOf s.core.strand → o.deque = c :: rest →
      Head s v c { s with svc := { s.svc with off := s.svc.off.map fun x => if x = o then { x with area := x.area.drop 32 } else x } }

/-- R281: a continuation is about to resume on the current core. -/
def arrive (c : Cont) (s : State) : State := { s with core := { s.core with mode := .arriving c } }
/-- R287: a step of the terrier's register. -/
def terrierStep (x : BitVec 16) : BitVec 16 := if x.getLsbD 0 then (x >>> 1) ^^^ 0xB400 else x >>> 1
def withTerrier (s : State) (x : BitVec 16) : State := { s with core := { s.core with lfsr := x } }
/-- R287: the cores that a level of a round examines, in their order. -/
def roundOrder (s : State) (level : Nat) (x : BitVec 16) : List CoreId :=
  let d := dieOf s.cur
  let inCluster := fun c => ((List.range 8).rotate (x.toNat / 256)).map (coreAt c)
  match level with
  | 0 => (((List.range 8).map (coreAt (clusterOf s.cur))).filter (· != s.cur)).rotate x.toNat
  | 1 => ((((List.range (clusterCount s d)).map (mkCluster d)).filter (· != clusterOf s.cur)).rotate x.toNat).flatMap inCluster
  | _ => (((diesOf s (partOfDie s d)).filter (· != d)).rotate x.toNat).flatMap fun e =>
      ((List.range (clusterCount s e)).rotate (x.toNat / 8)).flatMap fun n => inCluster (mkCluster e n)
/-- R287: the first probe of a level that takes an entry; or none does. -/
def FirstTaken (l : List CoreId) (s m : State) : Prop :=
  ∃ a v b, l = a ++ v :: b ∧ (∀ w ∈ a, probe s w = none) ∧ probe s v = some m
def NoneTaken (l : List CoreId) (s : State) : Prop := ∀ w ∈ l, probe s w = none

end Sys2Proof.Claims

/-- R281, R287, R289, R290, R292, R296: a transfer moves a continuation's frame into the core's arena, unless it is there,
finds no room or is a frame that the context may not use (R377). A probe takes the head entry of a core of the context, counts it in its record and transfers its frame,
or changes nothing. A steal round completes: an idle strand takes the tail of its own deque, or probes cluster, die and
device in the order that its register gives, and then makes an idle accept. A continuation resume completes: the
continuation that arrived runs. A strand that is not idle, and a core to which nothing is arriving, do nothing. -/
def Obligations.StealingAndDonation : Prop :=
  (∀ (s : State) (c : Cont) (k : CoreId) (o base : Nat), MemoryOk s →
    let src := spBase k + o
    (∀ n, frameCheck s s.cur c.frame = .ok (k, o, n) → spaceOf c.frame = 1 ∧ o = c.frame.toNat % 2 ^ 20 ∧
      n = sizeAt s src ∧ shareHeld s (tagOf s.core.strand) k o (Max.max 64 n) = true) ∧
    (∀ e, frameCheck s s.cur c.frame = .error e → transferFrame s.cur c s = .error e) ∧
    (∀ n, frameCheck s s.cur c.frame = .ok (s.cur, o, n) → transferFrame s.cur c s = .ok (c, { s with core := { s.core with
      parkedTop := s.core.parkedTop.filter (· != o)
      ftop := if s.core.mode = .idle then W (Max.max s.core.top (o + sizeAt s (spBase s.cur + o))) else s.core.ftop } })) ∧
    (∀ n, frameCheck s s.cur c.frame = .ok (k, o, n) → k ≠ s.cur → base % alignAt s src = 0 → s.core.top ≤ base →
      base < s.core.top + alignAt s src →
      (base + sizeAt s src ≤ s.core.limit → s.core.limit ≤ 2 ^ 20 → ∃ m,
        transferFrame s.cur c s = .ok ({ c with frame := globalAt s s.cur base }, m) ∧ Transferred s c.tiles k o base m) ∧
      (s.core.limit < base + sizeAt s src → transferFrame s.cur c s = .error (.trap 0x15 (W (base + sizeAt s src)))))) ∧
  (∀ (s : State) (v : CoreId) (c : Cont) (u : State) (key : Nat),
    (fenced s (clusterOf v) = true ∨ stalled s (clusterOf v) = true ∨ (∀ c u, ¬ Head s v c u) → probe s v = none) ∧
    (fenced s (clusterOf v) = false → stalled s (clusterOf v) = false → Head s v c u →
      (∀ e, joinRecord u c.jrec = .error e → probe s v = none) ∧
      (∀ y, JoinAt u c.jrec key → firstPoison u.poison key 16 = some y → probe s v = none) ∧
      (SoundJoin u c.jrec key → countAt u key < 2 ^ 32 - 1 →
      let w := edgeRelease (claimSram (tagOf s.core.strand) key 8
        { u with mem := memSetWord u.mem key (memWord u.mem key + 1) }) (clusterOf v)
      (∀ c' m, transferFrame s.cur c w = .ok (c', m) → probe s v = some (arrive c' (edgeAcquire m (self m)))) ∧
      (∀ e, transferFrame s.cur c w = .error e → probe s v = none)))) ∧
  (∀ (s : State) (c : Cont) (rest : List Cont) (r : ORec),
    let x := terrierStep s.core.lfsr
    let y := terrierStep x
    let z := terrierStep y
    let none1 := NoneTaken (roundOrder s 0 x) (withTerrier s x)
    let none2 := none1 ∧ NoneTaken (roundOrder s 1 y) (withTerrier s y)
    let none3 := none2 ∧ NoneTaken (roundOrder s 2 z) (withTerrier s z)
    let word := fun i => W (bytesNat (memRead s.mem (oldestAt s r + 8 * i) 8))
    (s.core.mode = .idle → s.core.deque = rest ++ [c] →
      (∀ c' m, transferFrame s.cur c (dequeSet s s.cur rest) = .ok (c', m) →
        exec (.stealRound s.cur) s = .next (arrive c' m)) ∧
      (∀ e, transferFrame s.cur c (dequeSet s s.cur rest) = .error e →
        exec (.stealRound s.cur) s = .next s)) ∧
    (s.core.mode = .idle → s.core.deque = [] → ∀ m,
      (FirstTaken (roundOrder s 0 x) (withTerrier s x) m → exec (.stealRound s.cur) s = .next m) ∧
      (none1 → FirstTaken (roundOrder s 1 y) (withTerrier s y) m → exec (.stealRound s.cur) s = .next m) ∧
      (none2 → FirstTaken (roundOrder s 2 z) (withTerrier s z) m → exec (.stealRound s.cur) s = .next m) ∧
      (none3 → s.core.dring = 0 ∨ (RingAt s r ∧ ringAt s r 0 = ringAt s r 1) →
        exec (.stealRound s.cur) s = .next (withTerrier s z)) ∧
      (none3 → RingAt s r → ringAt s r 0 ≠ ringAt s r 1 →
        (∃ x, firstPoison s.poison r.place 32 = some x ∨ firstPoison s.poison (oldestAt s r) 64 = some x) →
        exec (.stealRound s.cur) s = .next (withTerrier s z)) ∧
      (none3 → RingAt s r → ringAt s r 0 ≠ ringAt s r 1 → firstPoison s.poison r.place 32 = none →
        firstPoison s.poison (oldestAt s r) 64 = none →
        ∃ t, exec (.stealRound s.cur) s = .next t ∧ t = { s with
          mem := memSetWord s.mem (r.place + 8) (W (ringAt s r 1 + 1))
          core := { s.core with lfsr := z, mode := .running, strand := t.core.strand } } ∧
        t.core.strand = { s.core.strand with g := t.core.strand.g, pc := word 0, prio := 0 } ∧
        ∀ q, t.core.strand.readG q = if q = 1 then 0 else if q = 2 then globalAt s s.cur s.core.top
          else if 4 ≤ q.toNat ∧ q.toNat ≤ 10 then word (q.toNat - 3) else s.core.strand.readG q)) ∧
    (s.core.mode ≠ .idle → exec (.stealRound s.cur) s = .next s) ∧
    (s.core.mode = .arriving c → ∃ t, exec (.continuationResume s.cur) s = .next t ∧ ResumesStrand s c t ∧
      t = { s with core := { s.core with mode := .running, strand := t.core.strand } }) ∧
    ((∀ e, s.core.mode ≠ .arriving e) → exec (.continuationResume s.cur) s = .next s)) ∧
  ∀ (s : State) (d a b : Reg) (ps : List Piece) (r q : ORec), MemoryOk s →
    let t0 := s.core.strand
    let va := t0.readG a
    let ring := t0.readG b
    (∀ v bs, t0.peer.answer = some (.done v bs) → ∃ t, exec (.donate d a b) s = .next t ∧
      Retires s ({ t0 with peer := { t0.peer with answer := none } }.writeG d v) 4 t) ∧
    (∀ m, t0.peer.answer = none → t0.peer.wait = none → va.toNat % 64 = 0 → translate s (self s) va 64 .read = .ok ps →
      poisonAt s 0 ps = none → bytesNat ((bytesAt s ps).take 8) % 64 = 0 → inPeerWindow ring = true → offOf ring = 0 →
      loadBytes s va 64 = .ok (bytesAt s ps, m) → lookup m (self m) (objOf ring) ring = .ok q →
      peerChecks q ring 64 [.ewrite, .atomic] = .ok () → handleReachable m q = true → Reads s m ∧
      (t0.peer.posted ≠ [] → ∃ t, exec (.donate d a b) s = .next t ∧ Waits s t) ∧
      (Settled s → ∃ t, exec (.donate d a b) s = .next t ∧ Waits { m with
        out := s.out ++ [⟨mkReq m q 0 (.donate ((List.range 8).map fun i =>
          W (bytesNat (((bytesAt s ps).drop (8 * i)).take 8)))), .wait t0.spillovf, s.cur, tagOf t0,
          BitVec.ofNat 12 (ring.toNat / 2 ^ 44), ring, s.pkg.time⟩]
        nextId := m.nextId + 1
        core := { m.core with strand := { t0 with peer := { t0.peer with wait := some m.nextId } } } } t)) ∧
    (∀ id, t0.peer.answer = none → t0.peer.wait = some id → ∃ t, exec (.donate d a b) s = .next t ∧ Waits s t) ∧
    (s.core.dring = 0 ∨ (RingAt s r ∧ ringAt s r 0 = ringAt s r 1) →
      ∃ t, exec (.accept d a) s = .next t ∧ Retires s (t0.writeG d 0) 4 t) ∧
    (∀ p', RingAt s r → ringAt s r 0 ≠ ringAt s r 1 → va.toNat % 64 = 0 → translate s (self s) va 64 .write = .ok p' →
      (∀ x, firstPoison s.poison r.place 32 = some x ∨
          (firstPoison s.poison r.place 32 = none ∧ firstPoison s.poison (oldestAt s r) 64 = some x) → StopFree s → ∃ t, exec (.accept d a) s = .next t ∧
        Traps 0x17 false (s.core.dring + W (x - r.place)) s t) ∧
      let u := { s with mem := memSetWord s.mem (r.place + 8) (W (ringAt s r 1 + 1)) }
      ∀ p, firstPoison s.poison r.place 32 = none → firstPoison s.poison (oldestAt s r) 64 = none →
      translate u (self u) va 64 .write = .ok p → ∃ m t, exec (.accept d a) s = .next t ∧ Stores u va 64 p m ∧
        Retires m (t0.writeG d 1) 4 t ∧
        ((∀ x ∈ p, x.kind ≠ .sc) → p.Pairwise (fun x y => x.key + x.len ≤ y.key ∨ y.key + y.len ≤ x.key) →
          (p.map fun x => memRead m.mem x.key x.len).flatten = memRead s.mem (oldestAt s r) 64))

/-! Control registers. -/

namespace Sys2Proof.Claims

/-- R375, R376, R4: the registers that CSRR reads and CSRW leaves as they were, being RO: the mask of their reserved bits,
and what they hold. -/
inductive ReadOnly (s : State) : Nat → Nat → Word → Prop where
  | ctxid : ReadOnly s 0x005 (2 ^ 64 - 2 ^ 12) s.core.strand.ctxid
  | ortbase : ReadOnly s 0x006 (2 ^ 64 - 2 ^ 57 + (2 ^ 12 - 1)) s.core.strand.ortbase
  | spillbase : ReadOnly s 0x007 (2 ^ 64 - 2 ^ 20 + 63) s.core.strand.spillbase
  | spilltop : ReadOnly s 0x008 (2 ^ 64 - 2 ^ 20 + 63) s.core.strand.spilltop
  | spillovf : ReadOnly s 0x009 (2 ^ 64 - 2 ^ 52 + 63) s.core.strand.spillovf
  | mweight : ReadOnly s 0x021 (2 ^ 64 - 2 ^ 9 + (2 ^ 8 - 2 ^ 4)) s.core.strand.mweight
  | hbeat : ReadOnly s 0x028 0 s.core.strand.hbeat
  | wdmode : ReadOnly s 0x029 (2 ^ 62 - 2 ^ 48) s.core.strand.wdmode
  | time : ReadOnly s 0x030 0 (W s.pkg.time)
  | clkstat : ReadOnly s 0x031 (2 ^ 64 - 2 ^ 32 + (2 ^ 8 - 2 ^ 2)) (W ((powerGet s (clusterOf s.cur)).store.toNat * 2 ^ 16 +
      (powerGet s (clusterOf s.cur)).freq.toNat * 2 ^ 8 + (powerGet s (clusterOf s.cur)).ratio.toNat))
  | caps : ReadOnly s 0x032 (2 ^ 64 - 2 ^ 32) (W ((partOfCore s s.cur).toNat * 2 ^ 24 + 8 * 2 ^ 16 +
      (s.pkg.mesh[(dieOf s.cur).toNat]).length * 2 ^ 8 + (diesOf s (partOfCore s s.cur)).length))
  | diecap : ReadOnly s 0x034 0
      (W (packNat 8 ((diesOf s (partOfCore s s.cur)).map fun d => (s.pkg.mesh[d.toNat]).length)))
  | spcap : ReadOnly s 0x033 (2 ^ 64 - 2 ^ 21) (W (if s.pkg.sdie[(dieOf s.cur).toNat] then 0x100000 else 0x80000))
  | fabase : ReadOnly s 0x0D0 (2 ^ 64 - 2 ^ 20 + 63) s.core.fabase
  | falimit : ReadOnly s 0x0D1 (2 ^ 64 - 2 ^ 21 + 63) s.core.falimit
  | ftop : ReadOnly s 0x0D2 (2 ^ 64 - 2 ^ 21) s.core.ftop
  | dqcap : ReadOnly s 0x0D3 (2 ^ 64 - 2 ^ 16) s.core.dqcap
  | dring : ReadOnly s 0x0D4 0 s.core.dring
  | spshare : ReadOnly s 0x0D5 (2 ^ 64 - 2 ^ 53 + (2 ^ 32 - 2 ^ 21)) s.core.spshare
  | spshr (i : Fin 4) : ReadOnly s (0x0D6 + i.val) (2 ^ 56 - 2 ^ 53 + (2 ^ 32 - 2 ^ 21)) s.core.spshr[i]
  | spgrp : ReadOnly s 0x0DA (2 ^ 64 - 2 ^ 32) s.core.spgrp

/-- R375, R376: the registers that CSRW writes: the mask of their reserved bits, what they hold, and the strand
after a value has been written. -/
inductive Writable (t : Strand) (v : Word) : Nat → Nat → Word → Strand → Prop where
  | status : Writable t v 0x000 (2 ^ 64 - 2 ^ 3) t.status { t with status := (t.status &&& ~~~(1 : Word)) ||| (v &&& 1) }
  | cause : Writable t v 0x001 (2 ^ 63 - 2 ^ 9) t.cause { t with cause := (t.cause &&& ~~~(511 : Word)) ||| (v &&& 511) }
  | epc : Writable t v 0x002 0 t.epc { t with epc := v }
  | tval : Writable t v 0x003 0 t.tval { t with tval := v }
  | fcsr : Writable t v 0x010 (2 ^ 64 - 2 ^ 18 + (2 ^ 16 - 2 ^ 13) + (2 ^ 8 - 2 ^ 5)) t.fcsr { t with fcsr := v }
  | vstat : Writable t v 0x011 (2 ^ 64 - 2 ^ 15 + 2 ^ 7) t.vstat { t with vstat := v }
  | mhold : Writable t v 0x020 (2 ^ 64 - 2 ^ 10) t.mhold { t with mhold := v }
  | prio : Writable t v 0x022 (2 ^ 64 - 2 ^ 2) t.prio { t with prio := v }
  | mstep : Writable t v 0x024 (2 ^ 64 - 2 ^ 12) t.mstep { t with mstep := v }
  | lcnt0 : Writable t v 0x0C0 0 t.lcnt[0] { t with lcnt := t.lcnt.set 0 v }
  | lcnt1 : Writable t v 0x0C1 0 t.lcnt[1] { t with lcnt := t.lcnt.set 1 v }
  | lcnt2 : Writable t v 0x0C2 0 t.lcnt[2] { t with lcnt := t.lcnt.set 2 v }
  | lbeg0 : Writable t v 0x0C4 63 t.lbeg[0] { t with lbeg := t.lbeg.set 0 v }
  | lbeg1 : Writable t v 0x0C5 63 t.lbeg[1] { t with lbeg := t.lbeg.set 1 v }
  | lbeg2 : Writable t v 0x0C6 63 t.lbeg[2] { t with lbeg := t.lbeg.set 2 v }

/-- R375: the numbers that the table assigns. -/
def assigned : List Nat :=
  List.range' 0x000 10 ++ [0x010, 0x011, 0x020, 0x021, 0x022, 0x024, 0x028, 0x029] ++ List.range' 0x030 5 ++
    [0x0C0, 0x0C1, 0x0C2, 0x0C4, 0x0C5, 0x0C6, 0x0C8] ++ List.range' 0x0D0 11

end Sys2Proof.Claims

/-- R375, R376, R392, R4, R34, R69: CSRR completes with a register's value, its reserved bits reading zero; CSRW
completes: it writes a register's RW bits and leaves a read-only one, and is illegal with a nonzero reserved bit; a number
that the table does not assign is illegal to both. The two registers with rules of their own take TVEC at a fetch block
and LSTATE with legal lengths and no reserved bit. -/
def Obligations.ControlRegisters : Prop :=
  ∀ (s : State) (d a : Reg) (n : BitVec 12) (m : Nat) (x : Word),
    let t0 := s.core.strand
    let v := t0.readG a
    let word := fun i => W ((encode i).1 + (encode i).2 * 2 ^ 32)
    let lstate := { t0 with
      llen := #v[BitVec.ofNat 16 (slice v 0 16), BitVec.ofNat 16 (slice v 16 16), BitVec.ofNat 16 (slice v 32 16)]
      lact := BitVec.ofNat 3 (slice v 48 3) }
    let bad := fun k => bitOf v (48 + k) = true ∧ (slice v (16 * k) 16 = 0 ∨ 256 < slice v (16 * k) 16)
    (ReadOnly s n.toNat m x →
      (∃ t, exec (.csrr d n) s = .next t ∧ Retires s (t0.writeG d (x &&& ~~~(W m))) 4 t) ∧
      (v &&& W m = 0 → ∃ t, exec (.csrw a n) s = .next t ∧ Retires s t0 4 t) ∧
      (v &&& W m ≠ 0 → StopFree s → ∃ t, exec (.csrw a n) s = .next t ∧ Traps 0x01 false (word (.csrw a n)) s t)) ∧
    (∀ u, Writable t0 v n.toNat m x u →
      (∃ t, exec (.csrr d n) s = .next t ∧ Retires s (t0.writeG d (x &&& ~~~(W m))) 4 t) ∧
      (v &&& W m = 0 → ∃ t, exec (.csrw a n) s = .next t ∧ Retires s u 4 t) ∧
      (v &&& W m ≠ 0 → StopFree s → ∃ t, exec (.csrw a n) s = .next t ∧ Traps 0x01 false (word (.csrw a n)) s t)) ∧
    (n.toNat ∉ assigned → StopFree s →
      (∃ t, exec (.csrr d n) s = .next t ∧ Traps 0x01 false (word (.csrr d n)) s t) ∧
      ∃ t, exec (.csrw a n) s = .next t ∧ Traps 0x01 false (word (.csrw a n)) s t) ∧
    (∃ t, exec (.csrr d 0x004) s = .next t ∧ Retires s (t0.writeG d t0.tvec) 4 t) ∧
    (∃ t, exec (.csrr d 0x0C8) s = .next t ∧ Retires s (t0.writeG d (W (t0.llen[0].toNat + t0.llen[1].toNat * 2 ^ 16 +
      t0.llen[2].toNat * 2 ^ 32 + t0.lact.toNat * 2 ^ 48))) 4 t) ∧
    (v.toNat % 64 = 0 → ∃ t, exec (.csrwTvec a) s = .next t ∧ Retires s { t0 with tvec := v } 4 t) ∧
    (v.toNat % 64 ≠ 0 → StopFree s → ∃ t, exec (.csrwTvec a) s = .next t ∧ Traps 0x02 false v s t) ∧
    ((∀ k < 3, ¬ bad k) → v.toNat < 2 ^ 51 → ∃ t, exec (.csrwLstate a) s = .next t ∧ Retires s lstate 4 t) ∧
    ((∃ k < 3, bad k) ∨ 2 ^ 51 ≤ v.toNat → StopFree s → ∃ t, exec (.csrwLstate a) s = .next t ∧
      Traps 0x01 false (word (.csrwLstate a)) s t)

/-! Coherence. -/

namespace Sys2Proof.Claims

/-- R219, R395: the control line of a log and `cnt` unretired records from the `lo`-th on are sound. -/
def LogSound (s : State) (l : ORec) (lo cnt : Nat) : Prop :=
  firstPoison s.poison l.place 32 = none ∧
    ∀ i < cnt, firstPoison s.poison (l.place + 64 + l.ringS * ((ringAt s l 1 + lo + i) % l.ringN)) 16 = none
/-- R395, R372: they are not, and a use of them traps with an address of the object that holds the log. -/
def LogPoisoned (s : State) (n : BitVec 18) (l : ORec) (lo cnt : Nat) (v : Word) : Prop :=
  ((firstPoison s.poison l.place 32).isSome = true ∧ v = W (n.toNat * 2 ^ 44)) ∨
    ∃ i < cnt, LogSound s l lo i ∧
      (firstPoison s.poison (l.place + 64 + l.ringS * ((ringAt s l 1 + lo + i) % l.ringN)) 16).isSome = true ∧
      v = W (n.toNat * 2 ^ 44 + 64 + l.ringS * ((ringAt s l 1 + lo + i) % l.ringN))
/-- R220, R244: how many records of a log are not retired. -/
def unretired (s : State) (l : ORec) : Nat := ringAt s l 0 - ringAt s l 1
/-- R221: those that a log-driven reconciliation reads. -/
def logUsed (s : State) (l : ORec) : Nat := if ringAt s l 3 % 2 = 1 then 0 else unretired s l

/-- R222, R223: the instructions that reconcile software-coherent lines: whether they invalidate, their address, and the
lines of the object they act on. -/
inductive ReconcileForm (s : State) (r : ORec) : Instr → Bool → Word → (Nat × Nat → Prop) → Prop where
  | rwb (a b) : (s.core.strand.readG b) ≠ 0 → r.kind ≠ kSPARSE →
      offOf (s.core.strand.readG a) + (s.core.strand.readG b).toNat ≤ r.bytes → ReconcileForm s r (.rwb a b) false
        (s.core.strand.readG a)
        fun x => x = (offOf (s.core.strand.readG a), offOf (s.core.strand.readG a) + (s.core.strand.readG b).toNat)
  | rinv (a b) : (s.core.strand.readG b) ≠ 0 → r.kind ≠ kSPARSE →
      offOf (s.core.strand.readG a) + (s.core.strand.readG b).toNat ≤ r.bytes → ReconcileForm s r (.rinv a b) true
        (s.core.strand.readG a)
        fun x => x = (offOf (s.core.strand.readG a), offOf (s.core.strand.readG a) + (s.core.strand.readG b).toNat)
  | rwbLog (a) : (∀ l, r.coh = cohSC → logRing s (self s) r = some l → LogSound s l 0 (logUsed s l)) → ReconcileForm s r (.rwbLog a) false (s.core.strand.readG a)
      fun x => x ∈ logRanges s (self s) (objOf (s.core.strand.readG a)) r (some (clusterOf s.cur))
  | rinvLog (a) : (∀ l, r.coh = cohSC → logRing s (self s) r = some l → LogSound s l 0 (logUsed s l)) → ReconcileForm s r (.rinvLog a) true (s.core.strand.readG a)
      fun x => x ∈ logRanges s (self s) (objOf (s.core.strand.readG a)) r none
  | rwbObj (a) : ReconcileForm s r (.rwbObj a) false (s.core.strand.readG a) fun x => x = (0, 2 ^ 52)
  | rinvObj (a) : ReconcileForm s r (.rinvObj a) true (s.core.strand.readG a) fun x => x = (0, 2 ^ 52)

/-- R222: the lines that a reconciliation acts on: those of the cluster with a byte in a range of the object. -/
def ActsOn (s : State) (r : ORec) (rs : Nat × Nat → Prop) (a : Nat) : Prop :=
  ∃ x, rs x ∧ inExtents (extents s r) x.1 x.2 a = true

end Sys2Proof.Claims

/-- R222 to R224, R218: RWB leaves the cluster's lines of the range clean, RINV leaves the cluster and the L2 of its die
none of them; either way their dirty bytes are at the home with their marks (R395), no other byte of memory changes and
every other line stays. A log-driven form that would read a poisoned record traps POISON.
R223: an empty range, and storage that has one copy, retire with no effect; the peer window, a range in a sparse volume
and a range beyond the object fault. -/
def Obligations.Reconcile : Prop :=
  (∀ (s : State) (a b : Reg) (r : ORec),
    let t0 := s.core.strand
    let ea := t0.readG a
    let len := t0.readG b
    (∀ i, ((i = .rwb a b ∨ i = .rinv a b) ∧ (len = 0 ∨ spaceOf ea ≠ 0)) ∨
        (i ∈ [.rwbLog a, .rinvLog a, .rwbObj a, .rinvObj a] ∧ spaceOf ea ≠ 0) →
      ∃ t, exec i s = .next t ∧ Retires s t0 4 t) ∧
    (∀ i, (i ∈ [.rwb a b, .rinv a b] ∧ len ≠ 0) ∨ i ∈ [.rwbLog a, .rinvLog a, .rwbObj a, .rinvObj a] →
      inPeerWindow ea = true → StopFree s → ∃ t, exec i s = .next t ∧ Traps 0x11 false ea s t) ∧
    (∀ i ∈ [.rwb a b, .rinv a b], len ≠ 0 → spaceOf ea = 0 → inPeerWindow ea = false →
      lookup s (self s) (objOf ea) ea = .ok r → recordChecks s (self s) r .read ea = .ok () → StopFree s →
      (r.kind = kSPARSE → ∃ t, exec i s = .next t ∧ Traps 0x11 false ea s t) ∧
      (r.kind ≠ kSPARSE → r.bytes < offOf ea + len.toNat → ∃ t, exec i s = .next t ∧ Traps 0x12 false ea s t)) ∧
    (∀ i ∈ [.rwbLog a, .rinvLog a], ∀ l v, spaceOf ea = 0 → inPeerWindow ea = false →
      lookup s (self s) (objOf ea) ea = .ok r → recordChecks s (self s) r .read ea = .ok () → r.coh = cohSC →
      logRing s (self s) r = some l → LogPoisoned s r.log l 0 (logUsed s l) v → StopFree s →
      ∃ t, exec i s = .next t ∧ Traps 0x17 false v s t)) ∧
  ∀ (s : State) (i : Instr) (r : ORec) (inv : Bool) (ea : Word) (rs : Nat × Nat → Prop), MemoryOk s →
    ReconcileForm s r i inv ea rs → spaceOf ea = 0 → inPeerWindow ea = false →
    lookup s (self s) (objOf ea) ea = .ok r → recordChecks s (self s) r .read ea = .ok () →
    LinesOk s →
    let k := clusterOf s.cur
    ∃ m t, exec i s = .next t ∧ Retires m s.core.strand 4 t ∧ m.core = s.core ∧
      (∀ c a, ¬ (c = k ∧ r.coh = cohSC ∧ ActsOn s r rs a) → (clusterGet m c).line a = (clusterGet s c).line a) ∧
      (∀ a, r.coh = cohSC → ActsOn s r rs a → (clusterGet m k).line a =
        if inv then none else ((clusterGet s k).line a).map fun l => { l with mask := 0 }) ∧
      (∀ a, inv = true → r.coh = cohSC → ActsOn s r rs a → l2Get m (dieOfCluster k) a = none) ∧
      (∀ d a, ¬ (d = dieOfCluster k ∧ r.coh = cohSC ∧ ActsOn s r rs a) → l2Get m d a = l2Get s d a) ∧
      (∀ x, (r.coh = cohSC → ActsOn s r rs (lineOf x) → memGet m.mem x = homeByte s k x) ∧
        (¬ (r.coh = cohSC ∧ ActsOn s r rs (lineOf x)) → memGet m.mem x = memGet s.mem x)) ∧
      ∀ b, (r.coh = cohSC → ActsOn s r rs b → m.poison.contains b = homeMark s k b) ∧
        (¬ (r.coh = cohSC ∧ ActsOn s r rs b) → m.poison.contains b = s.poison.contains b)

/-! Attributes, logs and removed versions. -/

namespace Sys2Proof.Claims

/-- R349: every cached version of a context's records in a logical device is gone, of one object or of all, with the
look-aside entries made from them; the removal is remembered for ORSYNC and nothing else changes. -/
structure VersionsGone (s : State) (p : BitVec 3) (u : Tag) (n : Option (BitVec 18)) (t : State) : Prop where
  rest : t = { s with
    core := { s.core with clb := t.core.clb }
    others := t.others
    clusters := t.clusters
    removals := s.removals ++ [⟨u, n, none, s.nextId + 1⟩]
    nextId := s.nextId + 1 }
  cores : ∀ k, coreGet t k = { coreGet s k with clb := (coreGet t k).clb }
  clb : ∀ k e, e ∈ (coreGet t k).clb ↔
    e ∈ (coreGet s k).clb ∧ ¬ (partOfCore s k = p ∧ e.ctx = u ∧ (n = none ∨ n = some e.obj))
  caches : ∀ c, clusterGet t c = { clusterGet s c with recs := (clusterGet t c).recs }
  gone : ∀ c o, partOfDie s (dieOfCluster c) = p → n = none ∨ n = some o → cachedRecord t c u o = none
  kept : ∀ c v o, ¬ (partOfDie s (dieOfCluster c) = p ∧ v = u ∧ (n = none ∨ n = some o)) →
    cachedRecord t c v o = cachedRecord s c v o

/-- R226: every cached version of a context's record in a logical device is gone, and nothing else changes. -/
structure RecordsGone (s : State) (p : BitVec 3) (u : Tag) (n : BitVec 18) (t : State) : Prop where
  rest : t = { s with clusters := t.clusters }
  caches : ∀ c, clusterGet t c = { clusterGet s c with recs := (clusterGet t c).recs }
  gone : ∀ c, partOfDie s (dieOfCluster c) = p → cachedRecord t c u n = none
  kept : ∀ c v o, ¬ (partOfDie s (dieOfCluster c) = p ∧ v = u ∧ o = n) → cachedRecord t c v o = cachedRecord s c v o

/-- The state with one doubleword of memory changed. -/
def setWord (s : State) (a : Nat) (x : Word) : State := { s with mem := memSetWord s.mem a x }

/-- A byte is dirty in a cluster (R218). -/
def DirtyIn (s : State) (c : ClusterId) (x : Nat) : Prop := (dirtyMask s c (lineOf x)).getLsbD (x % 64) = true

/-- R226, R228, R395: no cache holds a line that meets `hit`; the dirty bytes that clusters had in them are at the home with
their marks; and no other byte of memory or of a cache has changed. -/
structure Purged (s : State) (hit : Nat → Prop) (t : State) : Prop where
  rest : t = { s with mem := t.mem, poison := t.poison, clusters := t.clusters, l2 := t.l2, dirty := t.dirty,
                      svc := { s.svc with accounts := t.svc.accounts } }
  lines : ∀ c a, (hit a → (clusterGet t c).line a = none) ∧
    (¬ hit a → (clusterGet t c).line a = (clusterGet s c).line a)
  l2 : ∀ d a, (hit a → l2Get t d a = none) ∧ (¬ hit a → l2Get t d a = l2Get s d a)
  dirty : ∀ e, e ∈ t.dirty ↔ e ∈ s.dirty ∧ ¬ hit e.addr
  caches : ∀ c, clusterGet t c = { clusterGet s c with l1 := (clusterGet t c).l1 }
  mem : ∀ x, (¬ hit (lineOf x) → memGet t.mem x = memGet s.mem x) ∧
    (hit (lineOf x) → (∀ c, ¬ DirtyIn s c x) → memGet t.mem x = memGet s.mem x) ∧
    (hit (lineOf x) → (∃ c, DirtyIn s c x) → ∃ c, DirtyIn s c x ∧ memGet t.mem x = homeByte s c x)
  poison : ∀ b, (¬ hit b → t.poison.contains b = s.poison.contains b) ∧
    (hit b → ∀ c, (∀ d, d ≠ c → dirtyMask s d b = 0) → t.poison.contains b = homeMark s c b)

/-- The lines of an object with bytes at offsets from `lo` up to `hi`. -/
def LinesOf (s : State) (r : ORec) (lo hi : Nat) (a : Nat) : Prop := inExtents (extents s r) lo hi a = true

/-- R227 rows 2 to 4: the record that an attribute or log instruction names. -/
def AttrAt (s : State) (ea : Word) (k : AKind) (r : ORec) : Prop :=
  spaceOf ea = 0 ∧ inPeerWindow ea = false ∧ lookup s (self s) (objOf ea) ea = .ok r ∧
    r.part = partOfCore s s.cur ∧ r.permits k = true ∧ (r.coh = cohCP → r.owner s = some s.cur)

/-- R242: a command is under way: it is queued, or it is the copy of a touched window that waits for room. -/
def CmdUnderWay (s : State) (c : Cmd) : Prop :=
  c ∈ s.cmds ∨ ∃ k ∈ allCores s, ∃ w ∈ k.2.win.toList, w.st = .copying ∧ w.cmd = some c

/-- R226: another core has a byte of the object dirty, or a command under way that names it. -/
def Taken (s : State) (n : BitVec 18) (r : ORec) : Prop :=
  (∃ c l, l ∈ (clusterGet s c).l1 ∧ LinesOf s r 0 (2 ^ 52) l.addr ∧ l.mask ≠ 0 ∧
    ¬ (c = clusterOf s.cur ∧ l.writer = coreNo s.cur)) ∨
  (∃ e ∈ s.dirty, LinesOf s r 0 (2 ^ 52) e.addr ∧ e.core ≠ s.cur) ∨
  ∃ c, CmdUnderWay s c ∧ c.core ≠ s.cur ∧ c.ctx = tagOf s.core.strand ∧ n ∈ c.objs

/-- R226, R334: the record at an address has another attribute, and an owner if that is CP. -/
def Reattributed (s : State) (a : Nat) (attr : BitVec 2) (t : State) : Prop :=
  t = setWord s a ((memWord s.mem a &&& ~~~(W (3 * 2 ^ 52 + 2047 * 2 ^ 26))) |||
    W (attr.toNat * 2 ^ 52 +
      (if attr = 2 then logicalDie s (dieOf s.cur) * 256 + s.cur.toNat % 256 else 0) * 2 ^ 26))

/-- R226, R218: an object becomes software-coherent without a move: the lines that cores hold dirty are dirty lines of
their clusters, with the same masks. -/
structure MasksKept (s : State) (r : ORec) (u : State) : Prop where
  rest : u = { s with clusters := u.clusters, dirty := u.dirty }
  dirty : ∀ e, e ∈ u.dirty ↔ e ∈ s.dirty ∧ ¬ LinesOf s r 0 (2 ^ 52) e.addr
  caches : ∀ c, clusterGet u c = { clusterGet s c with l1 := (clusterGet u c).l1 }
  kept : ∀ e ∈ s.dirty, LinesOf s r 0 (2 ^ 52) e.addr → (clusterGet u (clusterOf e.core)).line e.addr =
    some ⟨e.addr, memRead s.mem e.addr 64, e.mask, e.tag, coreNo e.core, s.poison.contains e.addr⟩
  lines : ∀ c a, (∀ e ∈ s.dirty, LinesOf s r 0 (2 ^ 52) e.addr → ¬ (c = clusterOf e.core ∧ a = e.addr)) →
    (clusterGet u c).line a = (clusterGet s c).line a

/-- R226: an object becomes core-private: no copy remains but the lines that the issuing core holds dirty, whose bytes
are at the home, where the owner reads them. -/
structure OwnKept (s : State) (r : ORec) (u : State) : Prop where
  rest : u = { s with mem := u.mem, poison := u.poison, clusters := u.clusters, l2 := u.l2, dirty := u.dirty }
  poison : ∀ b, (LinesOf s r 0 (2 ^ 52) b → u.poison.contains b = homeMark s (clusterOf s.cur) b) ∧
    (¬ LinesOf s r 0 (2 ^ 52) b → u.poison.contains b = s.poison.contains b)
  lines : ∀ c a, (LinesOf s r 0 (2 ^ 52) a → (clusterGet u c).line a = none) ∧
    (¬ LinesOf s r 0 (2 ^ 52) a → (clusterGet u c).line a = (clusterGet s c).line a)
  caches : ∀ c, clusterGet u c = { clusterGet s c with l1 := (clusterGet u c).l1 }
  l2 : ∀ d a, (LinesOf s r 0 (2 ^ 52) a → l2Get u d a = none) ∧ (¬ LinesOf s r 0 (2 ^ 52) a → l2Get u d a = l2Get s d a)
  mem : ∀ x, (LinesOf s r 0 (2 ^ 52) (lineOf x) → memGet u.mem x = homeByte s (clusterOf s.cur) x) ∧
    (¬ LinesOf s r 0 (2 ^ 52) (lineOf x) → memGet u.mem x = memGet s.mem x)
  dirty : ∀ a, (∃ e ∈ u.dirty, e.addr = a ∧ (LinesOf s r 0 (2 ^ 52) a → e.core = s.cur)) ↔
    (∃ e ∈ s.dirty, e.addr = a) ∨ (LinesOf s r 0 (2 ^ 52) a ∧ dirtyMask s (clusterOf s.cur) a ≠ 0)

end Sys2Proof.Claims

/-- R226, R227: OSETA completes. To an object's own attribute it moves nothing and answers 0; a change to CP that another
core stands in the way of answers 1; any other change waits for the engine commands that name the object, then keeps the
masks of dirty lines (HC to SC), keeps the issuing core's dirty lines alone (to CP; that its bytes go home then is the
model's reading, log 42), or purges the object's lines, rewrites
the record and removes its cached versions, and answers 0. It traps, in this order, on an address outside object space,
the peer window, no valid record, another logical device or no write permission, a ring or barrier, and a CP object of
another core. While it waits, every translation of the object by another core of the context waits (R227). -/
def Obligations.ChangeAttribute : Prop :=
  ∀ (s : State) (d a : Reg) (attr : BitVec 2),
    let t0 := s.core.strand
    let ea := t0.readG a
    let n := objOf ea
    let t1 := { t0 with begun := false }
    let named := ∃ c, CmdUnderWay s c ∧ c.ctx = tagOf t0 ∧ n ∈ c.objs
    let traps := fun c => ∃ t, exec (.oseta d a attr) s = .next t ∧ Traps c false ea s t
    (∀ (r : ORec) (p : Nat), MemoryOk s → LinesOk s → DirtyOk s → attr.toNat < 3 → AttrAt s ea .write r → r.kind ≠ kRING →
      r.kind ≠ kBARRIER → recordAddr t0.ortbase n = some p →
      (r.coh = attr.toNat → ∃ m t, exec (.oseta d a attr) s = .next t ∧ Reads s m ∧ Retires m (t1.writeG d 0) 4 t) ∧
      (r.coh ≠ attr.toNat → attr = 2 → Taken s n r →
        ∃ t, exec (.oseta d a attr) s = .next t ∧ Retires s (t1.writeG d 1) 4 t) ∧
      (r.coh ≠ attr.toNat → ¬ (attr = 2 ∧ Taken s n r) → named →
        ∃ t, exec (.oseta d a attr) s = .next t ∧ Waits (strandSet s { t0 with begun := true, changing := some n }) t) ∧
      (r.coh ≠ attr.toNat → ¬ (attr = 2 ∧ Taken s n r) → ¬ named →
        ∃ u v m t, exec (.oseta d a attr) s = .next t ∧
          (r.coh = cohHC ∧ attr = 1 → MasksKept s r u) ∧
          (attr = 2 → OwnKept s r u) ∧
          (¬ (r.coh = cohHC ∧ attr = 1) → attr ≠ 2 → Purged s (LinesOf s r 0 (2 ^ 52)) u) ∧
          Reattributed u p attr v ∧ RecordsGone v (partOfCore s s.cur) (tagOf t0) n m ∧
          Retires m (t1.writeG d 0) 4 t)) ∧
    (StopFree s → (spaceOf ea ≠ 0 → traps 0x02) ∧ (spaceOf ea = 0 → inPeerWindow ea = true → traps 0x11) ∧
      (spaceOf ea = 0 → inPeerWindow ea = false →
        (∀ c, lookup s (self s) n ea = .error (.trap c ea) → traps c) ∧
        ∀ r, lookup s (self s) n ea = .ok r →
          (r.part ≠ partOfCore s s.cur → traps 0x16) ∧
          (r.part = partOfCore s s.cur → r.permW = false ∨ r.kind = kRING ∨ r.kind = kBARRIER → traps 0x11) ∧
          (r.part = partOfCore s s.cur → r.permW = true → r.kind ≠ kRING → r.kind ≠ kBARRIER → r.coh = cohCP →
            r.owner s ≠ some s.cur → traps 0x16))) ∧
    ∀ g : Agent, (∃ e ∈ allCores s, e.1 ≠ g.core ∧ e.2.strand.begun = true ∧ e.2.strand.changing = some n ∧
      tagOf e.2.strand = g.tag) → lookup s g n ea = .error .wait

namespace Sys2Proof.Claims

/-- R221, R228: the ring that holds the write-range log of an object. -/
def LogAtRing (s : State) (r : ORec) (l : Option ORec) : Prop :=
  (r.coh = cohSC → l = logRing s (self s) r) ∧ (r.coh ≠ cohSC → l = none)

/-- R219: the `n`-th oldest record, as its two doublewords. -/
def logEntry (s : State) (l : ORec) (n : Nat) : Word × Word :=
  let a := l.place + 64 + l.ringS * ((ringAt s l 1 + n) % l.ringN)
  (memWord s.mem a, memWord s.mem (a + 8))
/-- R228: the status pair. -/
def statusPair (s : State) (l : ORec) : Word × Word :=
  (W (ringAt s l 3 % 2 * 2 ^ 63 + unretired s l % 2 ^ 32), W l.ringN)

/-- R219, R228: the lines of the ranges of log records are purged, one record after the other. -/
inductive PurgedBy (g : Agent) : State → List (Word × Word) → State → Prop where
  | nil (s) : PurgedBy g s [] s
  | skip (s x l t) : (∀ r, findRecord s g (BitVec.ofNat 18 (x.1.toNat / 2 ^ 44 % 2 ^ 18)) 0 ≠ .ok r) →
      PurgedBy g s l t → PurgedBy g s (x :: l) t
  | cons (s x l u t r) : findRecord s g (BitVec.ofNat 18 (x.1.toNat / 2 ^ 44 % 2 ^ 18)) 0 = .ok r →
      Purged s (LinesOf s r (x.1.toNat % 2 ^ 44 + x.2.toNat / 2 ^ 43 % 2 ^ 7 * 2 ^ 44)
        (x.1.toNat % 2 ^ 44 + x.2.toNat / 2 ^ 43 % 2 ^ 7 * 2 ^ 44 + x.2.toNat % 2 ^ 21)) u →
      PurgedBy g u l t → PurgedBy g s (x :: l) t

end Sys2Proof.Claims

/-- R228, R229: LOGRD completes in each of its forms: it reads a record, reads the status, retires the oldest records with their ranges purged, or retires
all with the object purged and the overflow bit cleared; with no log every operation gives zeros. A gd of 0 and a
nonzero bit in 61:32 of G[gc] are illegal, and one that would read a poisoned unit of the log traps POISON (R395). -/
def Obligations.ReadLog : Prop :=
  ∀ (s : State) (e : BitVec 4) (a c : Reg),
    let t0 := s.core.strand
    let ea := t0.readG a
    let gc := t0.readG c
    let n := gc.toNat % 2 ^ 32
    let rd : Reg := BitVec.ofNat 5 (2 * e.toNat)
    let pair := fun (x : Word × Word) => (t0.writeG rd x.1).writeG (rd + 1) x.2
    let forms := [Instr.logrdRead e a c, .logrdStatus e a c, .logrdRetire e a c, .logrdReset e a c]
    let zeros := gc.toNat / 2 ^ 32 % 2 ^ 30 = 0
    MemoryOk s → LinesOk s →
    (e = 0 → StopFree s → ∀ i ∈ forms, ∃ t, exec i s = .next t ∧ Traps 0x01 false (W (encode i).1) s t) ∧
    (e ≠ 0 → ¬ zeros → StopFree s → ∀ i ∈ forms, ∃ t, exec i s = .next t ∧ Traps 0x01 false gc s t) ∧
    (∀ r l, e ≠ 0 → zeros → AttrAt s ea .read r → LogAtRing s r l →
      ((∀ x, l = some x → LogSound s x n (if n < unretired s x then 1 else 0)) → ∃ m t, exec (.logrdRead e a c) s = .next t ∧ Reads s m ∧ Retires m
        (pair (match l with | some l => if n < unretired s l then logEntry s l n else (0, 0) | none => (0, 0))) 4 t) ∧
      ((∀ x, l = some x → LogSound s x 0 0) → ∃ m t, exec (.logrdStatus e a c) s = .next t ∧ Reads s m ∧ Retires m
        (pair (match l with | some l => statusPair s l | none => (0, 0))) 4 t)) ∧
    (∀ r, e ≠ 0 → zeros → AttrAt s ea .write r → LogAtRing s r none →
      ∀ i, i = .logrdRetire e a c ∨ i = .logrdReset e a c →
        ∃ m t, exec i s = .next t ∧ Reads s m ∧ Retires m (pair (0, 0)) 4 t) ∧
    (∀ r l, e ≠ 0 → zeros → AttrAt s ea .write r → LogAtRing s r (some l) → ∃ s1, Reads s s1 ∧
      (LogSound s l 0 (min n (unretired s l)) → ∃ u m t, exec (.logrdRetire e a c) s = .next t ∧
        PurgedBy (self s) s1 ((List.range (min n (unretired s l))).map (logEntry s l)) u ∧
        m = setWord u (l.place + 8) (W (ringAt s l 1 + min n (unretired s l))) ∧
        Retires m (pair (statusPair m l)) 4 t) ∧
      (LogSound s l 0 0 → ∃ u m t, exec (.logrdReset e a c) s = .next t ∧ Purged s1 (LinesOf s r 0 (2 ^ 52)) u ∧
        m = setWord (setWord u (l.place + 8) (W (ringAt s l 0))) (l.place + 24) (W (ringAt s l 3 / 2 * 2)) ∧
        Retires m (pair (statusPair m l)) 4 t)) ∧
    ∀ r l v, e ≠ 0 → zeros → LogAtRing s r (some l) → StopFree s →
      (AttrAt s ea .read r →
        (LogPoisoned s r.log l n (if n < unretired s l then 1 else 0) v →
          ∃ t, exec (.logrdRead e a c) s = .next t ∧ Traps 0x17 false v s t) ∧
        (LogPoisoned s r.log l 0 0 v → ∃ t, exec (.logrdStatus e a c) s = .next t ∧ Traps 0x17 false v s t)) ∧
      (AttrAt s ea .write r →
        (LogPoisoned s r.log l 0 (min n (unretired s l)) v →
          ∃ t, exec (.logrdRetire e a c) s = .next t ∧ Traps 0x17 false v s t) ∧
        (LogPoisoned s r.log l 0 0 v → ∃ t, exec (.logrdReset e a c) s = .next t ∧ Traps 0x17 false v s t))

/-- R249: PUBLISH completes: it purges the lines of the object and of its shadow, exchanges the two places in the record and removes the
record's cached versions; while a command of the strand writes the shadow it waits, and then completes
before any stop. -/
def Obligations.Publish : Prop :=
  ∀ (s : State) (a : Reg) (r : ORec) (p : Nat),
    let t0 := s.core.strand
    let ea := t0.readG a
    let n := objOf ea
    let busy := ∃ c ∈ s.cmds, c.strand = t0.spillovf ∧ c.shadowOf = some n
    let fits := (r.kind = kDENSE ∨ r.kind = kMAPPED) ∧ r.sh = true
    MemoryOk s → LinesOk s → AttrAt s ea .write r → recordAddr t0.ortbase n = some p →
    (fits → busy → ∃ t, exec (.publish a) s = .next t ∧ Waits (strandSet s { t0 with begun := true, changing := none }) t) ∧
    (fits → ¬ busy → ∃ u v m t, exec (.publish a) s = .next t ∧ Purged (strandSet s { t0 with begun := false }) (LinesOf s r 0 (2 ^ 52)) u ∧
      Purged u (LinesOf u (r.set 3 (W r.shadow)) 0 (2 ^ 52)) v ∧
      VersionsGone (setWord (setWord v (p + 24) (memWord v.mem (p + 32))) (p + 32) (memWord v.mem (p + 24))) (partOfCore s s.cur) (tagOf t0) (some n) m ∧
      Retires m { t0 with begun := false } 8 t) ∧
    (¬ fits → StopFree s → ∃ t, exec (.publish a) s = .next t ∧ Traps 0x11 false ea s t)

namespace Sys2Proof.Claims

/-- R370: the look-aside entries that meet `bad` are gone from the cores of a logical device, and when there were any,
ORSYNC is to count the translations made through them as removed. -/
structure EntriesGone (s : State) (p : BitVec 3) (u : Tag) (n : BitVec 18) (bad : ClbEntry → Prop) (t : State) : Prop where
  rest : t = { s with
    core := { s.core with clb := t.core.clb }
    others := t.others
    removals := t.removals
    nextId := t.nextId }
  cores : ∀ k, coreGet t k = { coreGet s k with clb := (coreGet t k).clb }
  clb : ∀ k e, e ∈ (coreGet t k).clb ↔ e ∈ (coreGet s k).clb ∧ ¬ (partOfCore s k = p ∧ bad e)
  none : (∀ k ∈ allCores s, partOfCore s k.1 = p → ∀ e ∈ k.2.clb, ¬ bad e) → t.removals = s.removals ∧ t.nextId = s.nextId
  some : (∃ k ∈ allCores s, partOfCore s k.1 = p ∧ ∃ e ∈ k.2.clb, bad e) → ∃ keys : List Nat,
    t.removals = s.removals ++ [⟨u, some n, some keys, s.nextId + 1⟩] ∧ t.nextId = s.nextId + 1 ∧
    ∀ x, x ∈ keys ↔ ∃ k ∈ allCores s, partOfCore s k.1 = p ∧ ∃ e ∈ k.2.clb, bad e ∧ e.key = x

/-- R350, R370: translations of some objects and leaves, numbered `i`, were made before a removal that the ORSYNC of a
context is to await. -/
def RemovedAfter (s : State) (u : Tag) (n : Option (BitVec 18)) (i : Nat) (objs : List (BitVec 18))
    (keys : List (BitVec 18 × Nat)) : Prop :=
  ∃ x ∈ s.removals, x.ctx = u ∧ (n = none ∨ x.obj = none ∨ x.obj = n) ∧ i < x.before ∧
    (∃ o ∈ objs, (n = none ∨ n = some o) ∧ (x.obj = none ∨ x.obj = some o)) ∧
    ∀ l, x.keys = some l → ∃ k ∈ keys, x.obj = some k.1 ∧ k.2 ∈ l
/-- R350, R231: a command under way, a bound window or a request to a peer was translated under a removed version. -/
def UnderRemoved (s : State) (u : Tag) (n : Option (BitVec 18)) : Prop :=
  (∃ c ∈ s.cmds, c.ctx = u ∧ RemovedAfter s u n c.checked c.objs c.keys) ∨
  (∃ e ∈ allCores s, ∃ w ∈ e.2.win.toList, ∃ c, w.cmd = some c ∧ c.ctx = u ∧ RemovedAfter s u n c.checked c.objs c.keys) ∨
  ∃ x ∈ s.out, x.ctx = u ∧ RemovedAfter s u n x.req.id [BitVec.ofNat 18 (0x3F000 + x.handle.toNat)] []

end Sys2Proof.Claims

/-- R349, R350, R369, R370: ORINV completes: it removes cached versions; ORSYNC waits for the commands, windows and
requests translated under a removed version and then completes; CLBINV completes: it removes look-aside entries, of a leaf
or of an object; TTQRY completes: it says how deep a volume's tree goes and whether a leaf is there. Outside object space the first three trap ALIGNMENT. -/
def Obligations.RemovedVersions : Prop :=
  ∀ (s : State) (d a c : Reg),
    let t0 := s.core.strand
    let va := t0.readG a
    let n := objOf va
    let u := tagOf t0
    let dev := partOfCore s s.cur
    (spaceOf va ≠ 0 → StopFree s → ∀ i, i = .orinv a ∨ i = .orsync a ∨ i = .clbinv a c ∨ i = .clbinvObj a →
      ∃ t, exec i s = .next t ∧ Traps 0x02 false va s t) ∧
    (spaceOf va = 0 → ∃ m t, exec (.orinv a) s = .next t ∧ VersionsGone s dev u (some n) m ∧ Retires m t0 4 t) ∧
    (∃ m t, exec .orinvCtx s = .next t ∧ VersionsGone s dev u none m ∧ Retires m t0 4 t) ∧
    (spaceOf va = 0 → (UnderRemoved s u (some n) → ∃ t, exec (.orsync a) s = .next t ∧ Waits s t) ∧
      (¬ UnderRemoved s u (some n) → ∃ t, exec (.orsync a) s = .next t ∧
        Retires { s with removals := s.removals.filter fun x => decide (¬ (x.ctx = u ∧ x.obj = some n)) } t0 4 t)) ∧
    (UnderRemoved s u none → ∃ t, exec .orsyncCtx s = .next t ∧ Waits s t) ∧
    (¬ UnderRemoved s u none → ∃ t, exec .orsyncCtx s = .next t ∧
      Retires { s with removals := s.removals.filter fun x => decide (x.ctx ≠ u) } t0 4 t) ∧
    (spaceOf va = 0 → ∃ m t, exec (.clbinvObj a) s = .next t ∧
      EntriesGone s dev u n (fun e => e.ctx = u ∧ e.obj = n) m ∧ Retires m t0 4 t) ∧
    (∀ r, spaceOf va = 0 → lookup s (self s) n va = .ok r → ∃ m t, exec (.clbinv a c) s = .next t ∧
      EntriesGone s dev u n (fun e => e.ctx = u ∧ e.obj = n ∧ r.kind = kSPARSE ∧ e.key = r.keyAt (t0.readG c) ∧
        ∀ k < 4, coord (t0.readG c) k < r.ext k) m ∧ Retires m t0 4 t) ∧
    (∀ x, spaceOf va = 0 → lookup s (self s) n va = .error x → ∃ m t, exec (.clbinv a c) s = .next t ∧
      EntriesGone s dev u n (fun _ => False) m ∧ Retires m t0 4 t) ∧
    (∀ r b k x, coordRecord s va .read = .ok r → coordShape r (t0.readG c) = .ok () → r.kind = kSPARSE →
      leafOf s (self s) n r va (t0.readG c) (r.keyAt (t0.readG c)) false false = .ok (b, k, x) →
      ∃ m t, exec (.ttqry d a c) s = .next t ∧ Reads s m ∧
        Retires m (t0.writeG d (W (2 * k + (if b = none then 0 else 1)))) 4 t) ∧
    (∀ r, StopFree s → coordRecord s va .read = .ok r → coordShape r (t0.readG c) = .ok () → r.kind ≠ kSPARSE →
      ∃ t, exec (.ttqry d a c) s = .next t ∧ Traps 0x11 false va s t)

/-! Rings and barriers. -/

namespace Sys2Proof.Claims

/-- R253: the phase, the arrivals still expected, the bytes still expected and the count of a barrier. -/
def phaseAt (s : State) (b : Nat) : Nat := (memWord s.mem b).toNat / 2 ^ 63
def arrivalsAt (s : State) (b : Nat) : Nat := (memWord s.mem b).toNat % 2 ^ 32
def expectedAt (s : State) (b : Nat) : Word := memWord s.mem (b + 8)
def roundAt (s : State) (b : Nat) : Nat := (memWord s.mem (b + 16)).toNat % 2 ^ 32

/-- R253: a barrier after an update that leaves `n` arrivals and `x` bytes expected: when both are zero the phase turns
over and the next round's count is loaded. -/
def BarrierAfter (s : State) (b n : Nat) (x : Word) (t : State) : Prop :=
  t = { s with mem := t.mem } ∧ Outside s b 16 t ∧ expectedAt t b = x ∧
    slice (memWord t.mem b) 32 31 = slice (memWord s.mem b) 32 31 ∧
    phaseAt t b = (if n = 0 ∧ x = 0 then 1 - phaseAt s b else phaseAt s b) ∧
    arrivalsAt t b = if n = 0 ∧ x = 0 then roundAt s b else n

end Sys2Proof.Claims

/-- R246, R247, R250, R254, R255: on local rings, flags and barriers, RWAIT, RREL, CWAIT, BARA and BARW complete: RWAIT gives the address of a slot once it is
written; RREL moves the read pointer past a slot, never back nor past the write pointer; CWAIT goes on at a value no less
than its own; BARA counts an arrival and adds the bytes it expects, and gives the phase and whether no arrival was left;
BARW goes on when the phase is another. Each waits otherwise, a release at SYSTEM scope for its posted stores.
A poisoned control line traps POISON (R395). -/
def Obligations.RingsAndBarriers : Prop :=
  ∀ (s : State) (d a b : Reg) (c : Scope) (r : ORec), MemoryOk s →
    let t0 := s.core.strand
    let va := t0.readG a
    let n := (t0.readG b).toNat
    let free := c.agent = 4 → Settled s
    let rptr := max (ringAt s r 1) (min (n + 1) (ringAt s r 0))
    let clean := firstPoison s.poison r.place 32 = none
    inPeerWindow va = false →
    (kindRecord s (self s) va kRING [.read] = .ok r → clean →
      (n < ringAt s r 0 → ∃ t, exec (.rwait d a b c) s = .next t ∧
        Retires s (t0.writeG d (W ((objOf va).toNat * 2 ^ 44 + 64 + r.ringS * (n % r.ringN)))) 8 t) ∧
      (ringAt s r 0 ≤ n → ∃ t, exec (.rwait d a b c) s = .next t ∧ Waits s t)) ∧
    (kindRecord s (self s) va kRING [.read, .write] = .ok r → clean →
      (free → ∃ t, exec (.rrel a b c) s = .next t ∧ Retires (setWord s (r.place + 8) (W rptr)) t0 8 t) ∧
      (c.agent = 4 → t0.peer.posted ≠ [] → ∃ t, exec (.rrel a b c) s = .next t ∧ Waits s t)) ∧
    (∀ p, va.toNat % 8 = 0 → translate s (self s) va 8 .read = .ok [p] → poisonAt s 0 [p] = none →
      (∀ q, spaceOf va = 0 → lookup s (self s) (objOf va) va = .ok q → q.kind ≠ kBARRIER) →
      ∃ bs m, ReadAt s c p bs m ∧
        (n ≤ bytesNat bs → ∃ t, exec (.cwait a b c) s = .next t ∧ Retires m t0 8 t) ∧
        (bytesNat bs < n → ∃ t, exec (.cwait a b c) s = .next t ∧ Waits s t)) ∧
    (va.toNat % 32 = 0 → kindRecord s (self s) va kBARRIER [.atomic] = .ok r → offOf va = 0 → clean →
      (free → ∃ m t, exec (.bara d a b c) s = .next t ∧
        BarrierAfter s r.place (arrivalsAt s r.place - 1) (expectedAt s r.place + t0.readG b) m ∧
        Retires m (t0.writeG d (W (phaseAt s r.place + if arrivalsAt s r.place = 0 then 2 else 0))) 8 t) ∧
      (c.agent = 4 → t0.peer.posted ≠ [] → ∃ t, exec (.bara d a b c) s = .next t ∧ Waits s t) ∧
      (phaseAt s r.place ≠ n % 2 → ∃ t, exec (.barw a b c) s = .next t ∧ Retires s t0 8 t) ∧
      (phaseAt s r.place = n % 2 → ∃ t, exec (.barw a b c) s = .next t ∧ Waits s t)) ∧
    ∀ i, (i = .rwait d a b c ∧ kindRecord s (self s) va kRING [.read] = .ok r) ∨
        (i = .rrel a b c ∧ kindRecord s (self s) va kRING [.read, .write] = .ok r) ∨
        ((i = .bara d a b c ∨ i = .barw a b c) ∧ va.toNat % 32 = 0 ∧
          kindRecord s (self s) va kBARRIER [.atomic] = .ok r ∧ offOf va = 0) →
      ¬ clean → StopFree s → ∃ t, exec i s = .next t ∧ Traps 0x17 false (W ((objOf va).toNat * 2 ^ 44)) s t

/-! Engine commands. -/

namespace Sys2Proof.Claims

/-- The places that a command writes, each with the byte that goes there, in order. -/
def unitBytes (u : EUnit) : List (EDst × Byte) :=
  (List.range u.bytes.length).map fun i => (u.dst.after i, ((u.bytes[i]?).map (·.val)).getD 0)
def cmdBytes (c : Cmd) : List (EDst × Byte) := c.units.flatMap unitBytes

/-- R232, R233: the bytes of pieces as the current core's engine reads them. -/
def engineBytes (s : State) (ps : List Piece) : List Byte :=
  ps.flatMap fun p => (List.range p.len).map fun i => engineByte s (clusterOf s.cur) (p.key + i)

/-- R230, R234: a command just issued by the current strand, with nothing written yet. -/
structure Fresh (s : State) (tok gather : Bool) (size : Nat) (fl : EFlag) (c : Cmd) : Prop where
  id : c.id = s.nextId
  core : c.core = s.cur
  ctx : c.ctx = tagOf s.core.strand
  strand : c.strand = s.core.strand.spillovf
  addr : c.addr = s.core.strand.pc
  tok : c.tok = tok
  gather : c.gather = gather
  size : c.size = size
  flag : c.flag = fl
  new : c.written = 0 ∧ c.poisoned = false ∧ c.failed = false ∧ c.flagSent = false

/-- R231 stage 5: room in the core's queue, in the die-to-die queue and for the token. -/
def Room1 (s : State) (tok gather : Bool) : Prop :=
  engineRoom s { newCmd s tok gather 0 [] .none [] [] with d2d := true } = true
/-- No room even for a command that needs no die-to-die entry. -/
def Full1 (s : State) (tok gather : Bool) : Prop := engineRoom s (newCmd s tok gather 0 [] .none [] []) = false

/-- R340, R366: translations are noted in the record cache and the look-aside buffer, and nothing else changes. -/
def Notes (s m : State) : Prop :=
  m = { s with core := { s.core with clb := m.core.clb }, clusters := m.clusters } ∧
    ∀ k, clusterGet m k = { clusterGet s k with recs := (clusterGet m k).recs }

/-- R231 stage 6: the command is enqueued, the translations it has used being noted, and the instruction retires. -/
def Issues (s : State) (c : Cmd) (t : State) : Prop :=
  ∃ m, Notes s m ∧ Retires { m with cmds := s.cmds ++ [c], nextId := s.nextId + 1 } s.core.strand 8 t

/-- R231 stages 5 and 6: what becomes of a command that is `desc`, in the state that the earlier stages leave. -/
def IssuesOrWaits (i : Instr) (s m : State) (tok gather : Bool) (desc : Cmd → Prop) : Prop :=
  (Room1 m tok gather → ∃ c t, exec i s = .next t ∧ desc c ∧ c.ring = none ∧ c.out = [] ∧ Issues m c t) ∧
  (Full1 m tok gather → ∃ t, exec i s = .next t ∧ Waits m t)

/-- R238 stage 2 of a copy between local places. -/
def CopyOk (s : State) (d a l f : Reg) : Prop :=
  let t := s.core.strand
  (t.readG d).toNat % 16 = 0 ∧ (t.readG a).toNat % 16 = 0 ∧ (t.readG l).toNat % 16 = 0 ∧
    (t.readG l).toNat ≤ 2 ^ 24 ∧ (f = 0 ∨ (t.readG f).toNat % 8 = 0)

/-- Sixteen places at a time follow one another from a multiple of sixteen. -/
def InSixteens (l : List EDst) : Prop :=
  ∀ i j, j < 16 → ∀ x, l[16 * i]? = some x → x.place % 16 = 0 ∧ l[16 * i + j]? = some (x.after j)

/-- R251: the byte that a place holds in the end, the last of those written there. -/
def lastAt (l : List (EDst × Byte)) (x : EDst) : Option Byte := (l.reverse.find? fun y => y.1 == x).map (·.2)

/-- The state before an identity is given to a command has used none above `nextId`. -/
def IdsOk (s : State) : Prop := (∀ c ∈ s.cmds, c.id < s.nextId) ∧ ∀ x ∈ s.out, x.req.id < s.nextId

end Sys2Proof.Claims

/-- R230, R231, R238, R245, R263: CPY and CPYR complete: they enqueue a command that carries the bytes of the source, as the engine reads
them at issue, to the places of the destination, through a handle where it names one; an append claims the next slot of its
ring, and traps POISON at one whose control line is poisoned (R395); without room they wait. -/
def Obligations.Copies : Prop :=
  ∀ (s : State) (h : EngMode) (d a l f : Reg) (sh : Bool) (fl : EFlag), CopyOk s d a l f →
    let t0 := s.core.strand
    let vd := t0.readG d
    let va := t0.readG a
    let n := (t0.readG l).toNat
    let fa := if f = 0 then none else some (t0.readG f)
    (∀ i ps qs, (i = .cpy h d a l f sh ∨ (i = .cpyr h d a l f ∧ sh = false)) →
      inPeerWindow vd = false → inPeerWindow va = false → (∀ x, fa = some x → inPeerWindow x = false) →
      (n = 0 ∨ sh = true ∨ ringDest s vd n = .ok none) → span s va n .read = .ok ps →
      (if n = 0 then .ok [] else if sh then shadowSpan s vd n else span s vd n .ewrite) = .ok qs →
      planFlag s fa false = .ok fl →
      IssuesOrWaits i s s h.tok false fun c => Fresh s h.tok false n fl c ∧
        cmdBytes c = (placesOf qs).zip (engineBytes s ps) ∧ c.shadowOf = if sh then some (objOf vd) else none) ∧
    (∀ i ps r, (i = .cpy h d a l f false ∨ i = .cpyr h d a l f) →
      inPeerWindow vd = false → inPeerWindow va = false → (∀ x, fa = some x → inPeerWindow x = false) →
      n ≠ 0 → ringDest s vd n = .ok (some r) → span s va n .read = .ok ps → planFlag s fa false = .ok fl →
      (∀ x, firstPoison s.poison r.place 32 = some x → StopFree s → ∃ t, exec i s = .next t ∧ Traps 0x17 false vd s t) ∧
      (firstPoison s.poison r.place 32 = none →
      (ringAt s r 2 - ringAt s r 1 < r.ringN → Room1 s h.tok false → ∃ c t, exec i s = .next t ∧
        Fresh s h.tok false n fl c ∧ c.ring = some (r.place, r.ringS, r.ringN, ringAt s r 2) ∧
        cmdBytes c = ((List.range n).map fun j =>
          EDst.mem (r.place + 64 + r.ringS * (ringAt s r 2 % r.ringN) + j) .hc).zip (engineBytes s ps) ∧
        Issues (setWord s (r.place + 16) (W (ringAt s r 2 + 1))) c t) ∧
      (r.ringN ≤ ringAt s r 2 - ringAt s r 1 → ∃ t, exec i s = .next t ∧ Waits s t))) ∧
    (∀ ps r, inPeerWindow vd = true → inPeerWindow va = false → n ≠ 0 →
      (∀ x, fa = some x → inPeerWindow x = true ∧ samePeer s x vd = true) →
      span s va n .read = .ok ps → lookup s (self s) (objOf vd) vd = .ok r → peerChecks r vd n [.ewrite] = .ok () →
      planFlag s fa true = .ok fl →
      IssuesOrWaits (.cpyr h d a l f) s s h.tok false fun c => Fresh s h.tok false n fl c ∧ c.d2d = true ∧
        cmdBytes c = ((List.range n).map fun i => EDst.peer (BitVec.ofNat 12 (vd.toNat / 2 ^ 44))
          (mkReq s r (offOf vd + i) (.bulk [] false 0 (BitVec.ofNat 44 (offOf vd)) n))).zip (engineBytes s ps)) ∧
    (n = 0 → inPeerWindow vd ≠ inPeerWindow va → (∀ x, fa = some x → inPeerWindow x = inPeerWindow vd) →
      planFlag s fa true = .ok fl →
      IssuesOrWaits (.cpyr h d a l f) s s h.tok false fun c => Fresh s h.tok false 0 fl c ∧ c.units = []) ∧
    (∀ qs r, IdsOk s → inPeerWindow vd = false → inPeerWindow va = true → n ≠ 0 →
      (∀ x, fa = some x → inPeerWindow x = false) → ringDest s vd n = .ok none → span s vd n .ewrite = .ok qs →
      lookup s (self s) (objOf va) va = .ok r → peerChecks r va n [.read] = .ok () → handleReachable s r = true →
      planFlag s fa true = .ok fl → Room1 s h.tok false →
      ∃ m c rs t, exec (.cpyr h d a l f) s = .next t ∧ Notes s m ∧ Fresh s h.tok false n fl c ∧ c.units = [] ∧
        c.out = rs.map (·.req.id) ∧ rs.map (·.req.id) = (List.range rs.length).map (s.nextId + 1 + ·) ∧
        (rs.flatMap fun x => match x.use with
          | .cmdRead _ us => (us.flatMap unitBytes).map (·.1)
          | _ => []) = placesOf qs ∧
        (∀ x ∈ rs, ∃ us k, x.use = .cmdRead s.nextId us ∧ x.req.op = .read k ∧ k ≤ 4096 ∧
          k = (us.map (·.bytes.length)).sum) ∧
        Retires { m with cmds := s.cmds ++ [c], out := s.out ++ rs, nextId := s.nextId + 1 + rs.length } t0 8 t)

namespace Sys2Proof.Claims

/-- R240: the bytes that a tile's elements get from packed ones: a pair of 4-bit elements that lies across two bytes of its
object goes to both. -/
def tileVals (e : TileDesc) (r : ORec) (bs : List Byte) : List Byte :=
  if r.nib = 1 then ((e.coords r).zip bs).flatMap fun x => if r.across x.1 then [x.2, x.2] else [x.2] else bs
/-- R240: which half of its place each of them goes to: the high half of the first, then the low half of the second. -/
def tileHalves (e : TileDesc) (r : ORec) : List (Option Bool) :=
  (e.coords r).flatMap fun x => if r.across x then [some false, some true] else [none]
def cmdHalves (c : Cmd) : List (Option Bool) := c.units.flatMap fun u => u.bytes.map (·.half)

end Sys2Proof.Claims

/-- R239, R240, R251, R241, R242: CPYT, GATHER and SCATTER complete: they enqueue a command that carries a tile or rows to
or from a packed region, of a volume also; WBIND completes: it leaves the slot bound to such a command with its granules
EMPTY, and a descriptor of the other direction is illegal (R231); WUNBIND completes: it frees the slot and answers for its
state. A pair of 4-bit elements that lies across two bytes of its object is read from the high half of the one and the low
half of the other, and written there (R240). -/
def Obligations.TilesRowsWindows : Prop :=
  ∀ (s : State) (h : EngMode) (d a b f : Reg) (fl : EFlag) (cnt : BitVec 12) (sz : BitVec 8) (w : BitVec 2) (sh : Bool),
    let t0 := s.core.strand
    let vd := t0.readG d
    let va := t0.readG a
    let vb := t0.readG b
    let fa := if f = 0 then none else some (t0.readG f)
    let n := cnt.toNat + 1
    let size := 16 * (sz.toNat + 1)
    let x := s.core.win[w.toNat]'(w.isLt)
    let foreign := x.st ≠ .free ∧ x.ctx ≠ tagOf t0
    let new := fun (y : State) tok gather len => Fresh { s with nextId := y.nextId } tok gather len fl
    (∀ e r m, readDesc s vd va fa false = .ok (e, r, m) → planFlag m fa false = .ok fl → Reads s m ∧
      let cs := (e.coords r).map dropLast3
      let region := windowGranules m vd e r
      (∀ src ps y, e.dir = 0 → tileRead e r va m = .ok (src, y) → packedSpan m vd e r .ewrite = .ok ps → Reads m y ∧
        IssuesOrWaits (.cpyt h d a f sh) s y h.tok false fun c => new y h.tok false (e.size r) c ∧
          cmdBytes c = (placesOf ps).zip (src.map (·.1.val))) ∧
      (∀ src ps y, ¬ foreign → e.dir = 0 → tileRead e r va m = .ok (src, y) → packedSpan m vd e r .ewrite = .ok ps →
        (∀ j < e.rows, ownSp m (vd + W (e.stride r * j)) (e.rowLen r) = true) → windowTaken m w region = false →
        ((y.core.win[w.toNat]'(w.isLt)).st ≠ .copying → ∃ c z t, exec (.wbind h w d a f) s = .next t ∧
          Fresh { s with nextId := 0 } h.tok false (e.size r) fl c ∧
          cmdBytes c = (placesOf ps).zip (src.map (·.1.val)) ∧ c.window = some w ∧
          (∀ g, g ∈ z.empty ↔ g ∈ s.empty ∨ g ∈ region) ∧ ∃ q, Notes y q ∧
          z = { q with empty := z.empty, core := { q.core with
            win := q.core.win.set w.toNat ⟨.bound, tagOf t0, t0.spillovf, some c, region⟩ w.isLt } } ∧ Retires z t0 8 t) ∧
        ((y.core.win[w.toNat]'(w.isLt)).st = .copying → ∃ t, exec (.wbind h w d a f) s = .next t ∧ Waits y t)) ∧
      (e.dir = 1 → ¬ foreign → StopFree s → ∃ t, exec (.wbind h w d a f) s = .next t ∧ Traps 0x01 false (W 1) s t) ∧
      (∀ ps dst, e.dir = 1 → packedSpan m vd e r .read = .ok ps → tileWrite e r va sh m = .ok (dst, m) → r.kind ≠ kSPARSE →
        IssuesOrWaits (.cpyt h d a f sh) s m h.tok false fun c => new m h.tok false (e.size r) c ∧
          cmdBytes c = dst.zip (tileVals e r (engineBytes m ps)) ∧ (r.nib = 1 → cmdHalves c = tileHalves e r) ∧
          (r.nib ≠ 1 → ∀ x ∈ cmdHalves c, x = none) ∧ c.shadowOf = if sh then some (objOf e.obj) else none) ∧
      (∀ ps y u l v, e.dir = 1 → packedSpan m vd e r .read = .ok ps → tileWrite e r va sh m = .ok ([], y) →
        r.kind = kSPARSE → allocTiles e.obj r cs y = .ok u → mapState (sparsePlaces e.obj r) cs u = .ok (l, v) →
        Reads m y ∧ Reads u v ∧
        IssuesOrWaits (.cpyt h d a f sh) s v h.tok false fun c => new v h.tok false (e.size r) c ∧
          cmdBytes c = l.flatten.zip (tileVals e r (engineBytes m ps)))) ∧
    (∀ x y : Byte, (splice x y).toNat = x.toNat / 16 + y.toNat % 16 * 16) ∧
    (∀ xs m, vd.toNat % 16 = 0 → va.toNat % 16 = 0 → (f = 0 ∨ (t0.readG f).toNat % 8 = 0) → readIndices va n s = .ok (xs, m) →
      planFlag m fa false = .ok fl → Reads s m ∧ xs.length = n ∧
      (∀ ps qs, sparseBase s vb = none → vb.toNat % 16 = 0 → remoteRows m vb xs size .read = .ok ps →
        packedRows m vd n size .ewrite = .ok qs →
        IssuesOrWaits (.gather h d a b f cnt sz) s m h.tok true fun c => new m h.tok true (n * size) c ∧
          cmdBytes c = (placesOf qs).zip (engineBytes m ps)) ∧
      (∀ r l qs y, sparseBase s vb = some r → r.rank = 2 → size / r.elem ≤ r.ext 0 →
        volumeRows vb r xs size .read (sparseBytes vb r) m = .ok (l, y) → packedRows m vd n size .ewrite = .ok qs → Reads m y ∧
        IssuesOrWaits (.gather h d a b f cnt sz) s y h.tok true fun c => new y h.tok true (n * size) c ∧
          cmdBytes c = (placesOf qs).zip (l.flatten.map (·.1.val))) ∧
      (∀ ps qs, sparseBase s vb = none → vb.toNat % 16 = 0 → packedRows m vd n size .read = .ok ps →
        remoteRows m vb xs size .ewrite = .ok qs → InSixteens (placesOf qs) →
        IssuesOrWaits (.scatter h d a b f cnt sz) s m h.tok true fun c => new m h.tok true (n * size) c ∧
          ∀ y, lastAt (cmdBytes c) y = lastAt ((placesOf qs).zip (engineBytes m ps)) y) ∧
      (∀ r ps k y u l v, sparseBase s vb = some r → r.rank = 2 → size / r.elem ≤ r.ext 0 →
        packedRows m vd n size .read = .ok ps → volumeRows vb r xs size .ewrite (leafWalk vb r false) m = .ok (k, y) →
        allocTiles vb r (xs.flatMap (rowCoords r size)) y = .ok u →
        mapState (sparsePlaces vb r) (xs.flatMap (rowCoords r size)) u = .ok (l, v) → InSixteens l.flatten →
        IssuesOrWaits (.scatter h d a b f cnt sz) s v h.tok true fun c => new v h.tok true (n * size) c ∧
          ∀ y, lastAt (cmdBytes c) y = lastAt (l.flatten.zip (engineBytes m ps)) y)) ∧
    (∀ v, (foreign → v = 3) → (x.st = .free → v = 2) → (¬ foreign → x.st = .bound → v = 0) →
      (¬ foreign → x.st = .done → v = 1) → foreign ∨ x.st ≠ .copying → ∃ y t, exec (.wunbind w d) s = .next t ∧
        Retires y (t0.writeG d v) 8 t ∧ (foreign ∨ x.st = .free → y = s) ∧
        (¬ foreign → x.st ≠ .free → y = { s with core := { s.core with
          win := s.core.win.set w.toNat ⟨.free, tagOf t0, t0.spillovf, none, []⟩ w.isLt } })) ∧
    (¬ foreign → x.st = .copying → ∃ t, exec (.wunbind w d) s = .next t ∧ Waits s t) ∧
    (foreign → StopFree s → ∃ t, exec (.wbind h w d a f) s = .next t ∧ Traps 0x16 false (W w.toNat) s t)

/-! The engines' own steps. -/

namespace Sys2Proof.Claims

/-- A command under way, by its number. -/
def CmdAt (s : State) (n : Nat) (c : Cmd) : Prop := s.cmds.find? (fun d => d.id == n) = some c

/-- R232, R236: the unit as it is written: as captured at issue, or with its source in memory read again. -/
def Sourced (s : State) (c : Cmd) (fresh : Bool) (u v : EUnit) : Prop :=
  v.dst = u.dst ∧ v.bytes.length = u.bytes.length ∧
    (fresh = false → v = u) ∧
    (fresh = true → ∀ (i : Nat) (b : EByte), u.bytes[i]? = some b → v.bytes[i]? = some (match b.src with
      | some k => { b with val := match b.src2 with
        | some j => splice (engineByte s (clusterOf c.core) k) (engineByte s (clusterOf c.core) j)
        | none => engineByte s (clusterOf c.core) k }
      | none => b)) ∧
    (fresh = true → (v.poisoned = true ↔ ∃ b ∈ u.bytes, match b.src with
      | some k => unitBad s (clusterOf c.core) k = true ∨ ∃ j, b.src2 = some j ∧ unitBad s (clusterOf c.core) j = true
      | none => u.poisoned = true))

/-- R240: the byte that a byte of a unit leaves at a place that holds `old`: itself, or a half of it beside the other half
of what stands there. -/
def Puts (b : EByte) (old x : Byte) : Prop :=
  (b.half = none → x = b.val) ∧ (b.half = some false → x.toNat = old.toNat % 16 + b.val.toNat % 16 * 16) ∧
    (b.half = some true → x.toNat = b.val.toNat / 16 + old.toNat / 16 * 16)

/-- R233: the bytes of a unit are at their place and no other byte changes, but for the dirty bytes of a
software-coherent line that are merged at the home first; granules become FULL; the lines that may not stay are gone. -/
structure Written (s : State) (k : ClusterId) (key : Nat) (kind : PlaceKind) (bs : List Byte) (t : State) : Prop where
  bytes : memRead t.mem key bs.length = bs
  other : ∀ x, x < key ∨ key + bs.length ≤ x → memGet t.mem x =
    if kind = .sc ∧ lineOf x = lineOf key then homeByte s k x else memGet s.mem x
  full : ∀ g, g ∈ t.empty ↔ g ∈ s.empty ∧ (kind = .sp → g + 16 ≤ key ∨ key + bs.length ≤ g)
  lines : ∀ c a, (clusterGet t c).line a =
    if a = lineOf key ∧ (kind = .shadow ∨ (kind = .sc ∧ c = k)) then none else (clusterGet s c).line a
  cores : kind ≠ .sp → t.core = s.core ∧ t.others = s.others
  strands : ∀ c, (coreGet t c).strand = (coreGet s c).strand ∨ (coreGet t c).strand = (coreGet s c).strand.setEv
  rest : t.cur = s.cur ∧ t.ckpt = s.ckpt ∧ t.turns = s.turns ∧ t.removals = s.removals ∧ t.pkg = s.pkg

/-- R395: the bytes of a line of HBM that a command has written sound, once it has written a unit that starts at `key`. -/
def SoundAfter (c : Cmd) (key : Nat) (v : EUnit) (j : Nat) : Prop :=
  if key % 64 ≤ j ∧ j < key % 64 + v.bytes.length then v.poisoned = false ∧ ∀ b ∈ v.bytes, b.half = none
  else ∃ e, c.sound.find? (fun e => e.1 == lineOf key) = some e ∧ e.2.getLsbD j = true

/-- R218, R395: whether a unit of storage is marked as a unit is written: a software-coherent line takes the mark of the
cluster's dirty bytes first. -/
def MarkedAt (s : State) (k : ClusterId) (key : Nat) (kind : PlaceKind) (x : Nat) : Prop :=
  if kind = .sc ∧ x = lineOf key then homeMark s k x = true else x ∈ s.poison

/-- R232, R395: the poison after a unit has been written: a poisoned one marks its unit of storage, and a sound one clears
a granule it covers, and a line of HBM once the command has written all of it sound. -/
def PoisonAfter (s : State) (k : ClusterId) (c : Cmd) (key : Nat) (kind : PlaceKind) (v : EUnit) (t : State) : Prop :=
  (v.poisoned = true → ∀ x, x ∈ t.poison ↔ MarkedAt s k key kind x ∨ x = poisonUnit key) ∧
    (v.poisoned = false → isSp key = true ∨ isSram key = true →
      ∀ x, x ∈ t.poison ↔ MarkedAt s k key kind x ∧ ¬ (key ≤ x ∧ x + poisonSize x ≤ key + v.bytes.length)) ∧
    (v.poisoned = false → isSp key = false → isSram key = false →
      ∀ x, x ∈ t.poison ↔ MarkedAt s k key kind x ∧ ¬ (x = lineOf key ∧ ∀ j < 64, SoundAfter c key v j))

/-- R245: the write pointers of rings pass the slots of appends that are filled and next in sequence, until none is. -/
inductive RingsSettled : State → State → Prop where
  | rest (s : State) : (∀ a ∈ s.appends, a.left = 0 → (memWord s.mem a.base).toNat ≠ a.seq) → RingsSettled s s
  | pass (s t : State) (a : Append) : a ∈ s.appends → a.left = 0 → (memWord s.mem a.base).toNat = a.seq →
      RingsSettled (setWord { s with appends := s.appends.filter fun x => decide (x ≠ a) } a.base (W (a.seq + 1))) t → RingsSettled s t

/-- R244, R245: a ring's write pointer after the slot of number `n` has been filled, and the slots behind it. -/
def RingMoved (s : State) (r : Option (Nat × Nat × Nat × Nat)) (t : State) : Prop :=
  (r = none → t = s) ∧ ∀ base z m n, r = some (base, z, m, n) → RingsSettled (setWord s base (W (n + 1))) t

/-- R234 step 2, R254: the completion flag. -/
def Flagged (s : State) (k : ClusterId) (c : Cmd) (t : State) : Prop :=
  match c.flag with
  | .none => t = s
  | .peer _ _ => t = s
  | .barrier b => BarrierAfter s b (arrivalsAt s b) (expectedAt s b - W c.written) t
  | .add a kind => (kind ≠ .sc → kind ≠ .sram → t = setWord s a (memWord s.mem a + 1)) ∧
    (kind = .sram → t = claimSram c.ctx a 8 (setWord s a (memWord s.mem a + 1))) ∧
    (kind = .sc → ∃ u, LineGone s k (lineOf a) u ∧ t = setWord u a (memWord u.mem a + 1))

/-- R234 step 3, R235, R391: a strand with the token of a command in each of its queues of the kind, and then an event. -/
def Tokened (kind : Nat) (token : Word) (t u : Strand) : Prop :=
  (∀ q, u.readQ q = if (t.readQ q).kind = kind then (t.readQ q).push token else t.readQ q) ∧
    u = { t with q := u.q, status := if ∃ q, (t.readQ q).kind = kind then t.status ||| 4 else t.status }

/-- The token of a command: the address of its instruction and its STATUS (R235). -/
def tokenOf (c : Cmd) : Word :=
  W (c.addr.toNat / 4 * 4 + (if c.failed then 2 else 0) + if c.poisoned then 1 else 0)

/-- R234 step 3: the command's strand has its token, on its core or in its image. -/
def TokenPosted (s : State) (c : Cmd) (t : State) : Prop :=
  let kind := if c.gather then 5 else 4
  (c.tok = false → t = s) ∧ (c.tok = true →
    (∀ k, (coreGet s k).mode ≠ .vacant → (coreGet s k).strand.spillovf = c.strand →
      (∀ j, (coreGet s j).mode ≠ .vacant → (coreGet s j).strand.spillovf = c.strand → j = k) →
      Tokened kind (tokenOf c) (coreGet s k).strand (coreGet t k).strand) ∧
    (∀ k, (coreGet s k).mode = .vacant ∨ (coreGet s k).strand.spillovf ≠ c.strand → coreGet t k = coreGet s k) ∧
    (∀ k, coreGet t k = { coreGet s k with strand := (coreGet t k).strand }) ∧
    t = { s with core := t.core, others := t.others, svc := { s.svc with off := t.svc.off } })

end Sys2Proof.Claims

/-- R232, R233, R236, R263: an engine write completes: the engine writes a unit that no earlier command of the strand has
still to write: its bytes go to their place with their poison, or to the peer in a request, and the command has it behind it;
a command whose peer cannot be reached fails (R267). R234, R235, R242, R245, R254: the completion of a command completes:
one with nothing left, and with room for its token (R77), moves its ring's pointer, updates its flag unless it has failed, posts
its token, ends its window and is gone; a flag on a peer is sent first. Before that, and while a converter stall holds the
cluster's engines (R327), neither event does anything. -/
def Obligations.EngineSteps : Prop :=
  ∀ (s : State) (n i : Nat) (fresh : Bool) (c : Cmd), MemoryOk s → LinesOk s → CmdAt s n c →
    let k := clusterOf c.core
    (∀ u v key kind, c.units[i]? = some u → mayWrite s c u = true → stalled s k = false → Sourced s c fresh u v →
      v.dst = .mem key kind →
      (kind = .sc → ∀ j < v.bytes.length, lineOf (key + j) = lineOf key) →
      (kind = .shadow → ∀ j < v.bytes.length, lineOf (key + j) = lineOf key) →
      ∃ t bs, exec (.engineWrite n i fresh) s = .next t ∧ Written s k key kind bs t ∧ bs.length = v.bytes.length ∧
        (∀ j (y : EByte), v.bytes[j]? = some y → ∃ z, bs[j]? = some z ∧ Puts y (mergedByte s k (key + j)) z) ∧
        PoisonAfter s k c key kind v t ∧
        t.cmds = s.cmds.map fun d => if d.id = n then { d with
          units := d.units.eraseIdx i
          written := d.written + (v.bytes.filter fun y => decide (y.half ≠ some true)).length
          poisoned := d.poisoned || v.poisoned
          sound := if isSp key || isSram key then d.sound else assocSet (lineOf key) (d.soundIn key v) d.sound } else d) ∧
    (∀ u v h q bs0 b0 n0 start total, c.units[i]? = some u → mayWrite s c u = true → stalled s k = false →
      Sourced s c fresh u v → v.dst = .peer h q → q.op = .bulk bs0 b0 n0 start total →
      (reachableReq s q = true →
        ∃ t x, exec (.engineWrite n i fresh) s = .next t ∧ t.out = s.out ++ [x] ∧
          x.use = .cmdData n v.bytes.length v.poisoned ∧ x.handle = h ∧ x.core = c.core ∧ x.ctx = c.ctx ∧
          x.req = { q with id := s.nextId, op := .bulk (v.bytes.map (·.val)) v.poisoned n start total } ∧ t.mem = s.mem ∧
          t.core = s.core ∧ t.others = s.others ∧ t.nextId = s.nextId + 1 ∧
          t.cmds = s.cmds.map fun d => if d.id = n then { d with
            units := d.units.eraseIdx i
            out := d.out ++ [s.nextId] } else d) ∧
      (reachableReq s q = false →
        ∃ t, exec (.engineWrite n i fresh) s = .next t ∧ t.out = s.out ∧
          t.cmds = s.cmds.map fun d => if d.id = n then { d with units := [], failed := true } else d)) ∧
    ((c.units[i]? = none ∨ (∃ u, c.units[i]? = some u ∧ mayWrite s c u = false) ∨ stalled s k = true) →
      exec (.engineWrite n i fresh) s = .next s) ∧
    (mayComplete s c = true → stalled s k = false → (c.failed = true ∨ c.flagSent = true ∨ ∀ h q, c.flag ≠ .peer h q) →
      ∃ a b d w, exec (.commandComplete n) s = .next (startWindows w) ∧ RingMoved s c.ring a ∧
        (c.failed = true → b = a) ∧ (c.failed = false → Flagged a k c b) ∧
        TokenPosted b c d ∧ w.cmds = s.cmds.filter (fun x => decide (x.id ≠ n)) ∧ w.mem = b.mem ∧
        (∀ j, (coreGet w j).strand = (coreGet d j).strand) ∧
        (∀ x, c.window = some x → windowGet w c.core x = { windowGet s c.core x with st := .done })) ∧
    (∀ h q, mayComplete s c = true → stalled s k = false → c.failed = false → c.flag = .peer h q → c.flagSent = false →
      (reachableReq s q = true →
        ∃ t x, exec (.commandComplete n) s = .next t ∧ t.out = s.out ++ [x] ∧ x.use = .cmdFlag n ∧ x.handle = h ∧
          x.core = c.core ∧ x.ctx = c.ctx ∧
          x.req = { q with id := s.nextId, op := .flag c.written } ∧ t.mem = s.mem ∧ t.core = s.core ∧
          t.cmds = s.cmds.map fun d => if d.id = n then { d with flagSent := true, out := d.out ++ [s.nextId] } else d) ∧
      (reachableReq s q = false →
        ∃ t, exec (.commandComplete n) s = .next t ∧ t.out = s.out ∧
          t.cmds = s.cmds.map fun d => if d.id = n then { d with units := [], failed := true } else d)) ∧
    (mayComplete s c = false ∨ stalled s k = true → exec (.commandComplete n) s = .next s)

/-! Time, tokens and power. -/

namespace Sys2Proof.Claims

/-- R325, R415: a die's budget in tokens per microsecond, under the package's cap when there is one. -/
def budgetOf (s : State) (d : DieId) : Nat :=
  if s.pkg.capWatts = 0 then s.pkg.budget[d.toNat].tokens
  else Config.capBudget s.pkg.capWatts d s.pkg.budget[d.toNat].tokens
/-- R325: the tokens of cluster `i` of a die after the injection, its snapshot. -/
def snapAt (s : State) (d : DieId) (i : Nat) : Nat :=
  min 65535 ((powerGet s (mkCluster d i)).store.toNat +
    max 64 (budgetOf s d / (s.pkg.mesh[d.toNat]).length))
/-- R10, R325: the mesh neighbours of cluster `i` whose snapshot is below the low-water mark. -/
def needyOf (s : State) (d : DieId) (i : Nat) : List Nat :=
  let mesh := s.pkg.mesh[d.toNat]
  (List.range mesh.length).filter fun j => meshNear (mesh.getD i 0) (mesh.getD j 0) &&
    decide (snapAt s d j < s.pkg.budget[d.toNat].low)
/-- R325 step 3: what cluster `i` gives to each of them. -/
def giftOf (s : State) (d : DieId) (i : Nat) : Nat :=
  if needyOf s d i = [] then 0 else (snapAt s d i - s.pkg.budget[d.toNat].high) / (needyOf s d i).length
/-- R325 step 4: the tokens of cluster `i` after the exchange. -/
def tokensAfter (s : State) (d : DieId) (i : Nat) : Nat :=
  let mesh := s.pkg.mesh[d.toNat]
  min 65535 (snapAt s d i - giftOf s d i * (needyOf s d i).length +
    if snapAt s d i < s.pkg.budget[d.toNat].low then
      (((List.range mesh.length).filter fun j => meshNear (mesh.getD i 0) (mesh.getD j 0)).map (giftOf s d)).sum
    else 0)

/-- R316, R317: a strand that runs a task on a cluster that runs. -/
def Accountable (s : State) (k : CoreId) : Prop :=
  ((coreGet s k).mode = .running ∨ ∃ c, (coreGet s k).mode = .arriving c) ∧ clusterRuns s (clusterOf k) = true ∧
    s.ckpt.flashing = false

end Sys2Proof.Claims

/-- R325, R323, R327, R316, R318, R331, R415: an injection completes: it adds each die's tokens to its clusters, under the
package's cap if there is one, moves surpluses to needy neighbours and wakes a cluster with 256; the end of a converter stall
completes when its time is up; an edge of TIME completes: after the injection that is due it counts RUN up for strands that
run, and requests the watchdog's stop at LIMIT; an access of the board controller completes: register 0x30 holds the cap, which
changes nothing else, and no other register can be written. -/
def Obligations.TimeAndPower : Prop :=
  ∀ (s : State) (k : ClusterId) (target : Bool) (r : BitVec 8) (w : BitVec 16),
    (s.pkg.time % 100 = 0 → s.pkg.injected = false → (∀ d : DieId, (s.pkg.mesh[d.toNat]).length ≤ 32) →
      ∃ t, exec .tokenInjection s = .next t ∧ t = { s with pkg := { s.pkg with power := t.pkg.power, injected := true } } ∧
        ∀ (d : DieId) (i : Nat), i < 32 →
          let p := powerGet s (mkCluster d i)
          let sleeps := p.asleep || p.store == 0
          powerGet t (mkCluster d i) =
            if i < (s.pkg.mesh[d.toNat]).length then { p with
              store := BitVec.ofNat 16 (tokensAfter s d i)
              asleep := sleeps && decide (tokensAfter s d i < 256)
              issued := if sleeps = true ∧ 256 ≤ tokensAfter s d i then 0 else p.issued }
            else p) ∧
    (s.pkg.time % 100 ≠ 0 ∨ s.pkg.injected = true → exec .tokenInjection s = .next s) ∧
    (∀ e, (powerGet s k).stall = some e →
      (e ≤ s.pkg.time → ∃ t, exec (.stallEnd k) s = .next t ∧ t = { s with pkg := { s.pkg with power := t.pkg.power } } ∧
        ∀ c, powerGet t c = if c = k then { powerGet s k with stall := none } else powerGet s c) ∧
      (s.pkg.time < e → exec (.stallEnd k) s = .next s)) ∧
    ((powerGet s k).stall = none → exec (.stallEnd k) s = .next s) ∧
    (∃ v u, exec .tokenInjection s = .next v ∧ exec .tickEdge s = .next (startWindows u) ∧ u = { v with
        core := u.core
        others := u.others
        pkg := { v.pkg with time := s.pkg.time + 1, injected := false } } ∧
      ∀ j, let c := coreGet s j
        let run := c.strand.hbeat.toNat % 2 ^ 48
        let limit := c.strand.wdmode.toNat % 2 ^ 48
        let counts := Accountable v j ∧ (slice c.strand.wdmode 62 2 = 1 ∨ slice c.strand.wdmode 62 2 = 2) ∧ run < limit
        (counts → coreGet u j = { c with
          strand := { c.strand with hbeat := c.strand.hbeat + 1 }
          wdReq := c.wdReq || decide (run + 1 = limit) }) ∧
        (¬ counts → coreGet u j = c)) ∧
    (s.ckpt.powered = true → (target = true → s.svc.standby = true) →
      exec (.powerCap ⟨target, .write 0x30 w⟩) s = .next { s with pkg := { s.pkg with capWatts := w } } ∧
      (r ≠ 0x30 → exec (.powerCap ⟨target, .write r w⟩) s = .next s) ∧
      ∃ x, exec (.powerCap ⟨target, .read r⟩) s =
          .next { s with svc := { s.svc with messages := s.svc.messages ++ [.register r x] } } ∧
        (r = 0x30 → x = s.pkg.capWatts) ∧
        (r = 0x31 → x.toNat = (if s.ckpt.warned = true then 1 else 0) + (if s.ckpt.flashing = true then 2 else 0) +
          (if s.ckpt.marker = true then 4 else 0)) ∧
        (r = 0x32 → x = s.ckpt.seq)) ∧
    (s.ckpt.powered = false ∨ (target = true ∧ s.svc.standby = false) →
      ∀ a, exec (.powerCap ⟨target, a⟩) s = .next s)

/-! Stops, returns and moves of strands. -/

namespace Sys2Proof.Claims

/-- R384: nothing delays the pre-emption of the strand of a core: no matrix command, request to a peer or posted store, and
no instruction that has begun and completes before any stop. -/
def Stoppable (s : State) (k : CoreId) : Prop :=
  let t := (coreGet s k).strand
  mxBusy s k t.spillovf = false ∧ t.peer = PeerLink.none ∧ t.begun = false

/-- R384: the strand of a core is off it, with its registers and its parked deque; every other core is as it was, and so
is memory. -/
def Preempted (s : State) (k : CoreId) (t : State) : Prop :=
  let c := coreGet s k
  ∃ o : Off, t.svc.off = s.svc.off ++ [o] ∧ o.ctx = tagOf c.strand ∧ o.core = k ∧ o.area = contBytes c.deque ∧
    o.fabase = c.fabase ∧ o.ftop = c.ftop ∧ (o.idle = true ↔ c.mode = .idle) ∧
    o.why = .preempted ∧ o.wdReq = c.wdReq ∧ o.edited = none ∧
    o.strand = { c.strand with mxseq := if c.strand.mstep = 0 then 0 else 1 } ∧
    coreGet t k = { c with mode := .vacant, strand := Strand.zero, deque := [], wdReq := false, preReq := false } ∧
    (∀ j, j ≠ k → coreGet t j = coreGet s j) ∧ t.cur = s.cur ∧ t.mem = s.mem ∧ t.empty = s.empty ∧ t.pkg = s.pkg ∧
    ∀ j, (clusterGet t j).l1 = (clusterGet s j).l1

/-- R374, R391, R318: a strand stands on a core again, at an address, with its event set. -/
def Placed (o : Off) (u : Strand) (k : CoreId) (pc : Word) (t : State) : Prop :=
  (coreGet t k).mode = (if o.idle = true ∧ pc = u.pc then .idle else .running) ∧
  (coreGet t k).strand = { u with
    pc := pc
    decDone := u.decDone && pc == u.pc
    status := u.status ||| 4 } ∧
  (coreGet t k).deque = o.deque ∧ (¬ (o.idle = true ∧ pc = u.pc) → (coreGet t k).ftop = o.ftop) ∧
  (coreGet t k).wdReq = o.wdReq ∧ (coreGet t k).preReq = false ∧
  ∀ x ∈ t.svc.off, x.strand.spillovf ≠ u.spillovf

/-- R374, R400: the core is vacant and not fenced. -/
def Vacant (s : State) (k : CoreId) : Prop := (coreGet s k).mode = .vacant ∧ fenced s (clusterOf k) = false

/-- R374, R28: the image of a strand that is off its core with bytes that the service writes. -/
def imageWith (o : Off) (edits : List (Nat × Byte)) : List Byte := editImage (o.edited.getD o.strand.image) edits
/-- R374, R382: the strand of that image: register lines that were lost and that the service has written are whole. -/
def strandWith (o : Off) (edits : List (Nat × Byte)) : Strand :=
  if edits = [] ∧ o.edited = none then o.strand
  else { o.strand.loadImage (imageWith o edits) with
    lost := o.strand.lost.filter fun l => !(edits.any fun e => e.1 / 64 * 64 == l)
    evicted := o.strand.evicted.filter fun l => !(edits.any fun e => e.1 / 64 * 64 == l) }
/-- R374, R347, R315, R316, R414: the service may resume the strand: it does not hold it, for a watchdog's policy or for a
relocation, and the strand has not ended its context; and the service sets WDMODE to nothing but a launched mode with a LIMIT
of 100 or more, and RUN not to 0 in BOUNDED mode. -/
def Resumable (s : State) (o : Off) (edits : List (Nat × Byte)) : Prop :=
  let w := imgCtl (imageWith o edits) 17
  o.why ≠ .held ∧ o.why ≠ .ending ∧ Instr.svcEnd o.strand.spillovf ∉ s.svc.waiting ∧ relocHeld s o = false ∧
    (w = o.strand.wdmode ∨ slice w 62 2 ≠ 0 ∧ 100 ≤ slice w 0 48) ∧
    (slice w 62 2 = 1 → slice (imgCtl (imageWith o edits) 16) 0 48 = 0 → slice o.strand.hbeat 0 48 = 0)

/-- R374: that strand where the service has not written its image: lines stay lost. Where it has, those it wrote are whole. -/
def written (o : Off) (edits : List (Nat × Byte)) : Off :=
  { o with
    edited := some (imageWith o edits)
    strand := { o.strand with
      lost := o.strand.lost.filter fun l => !(edits.any fun e => e.1 / 64 * 64 == l)
      evicted := o.strand.evicted.filter fun l => !(edits.any fun e => e.1 / 64 * 64 == l) } }

/-- R386: nothing has to be awaited before a strand moves to a core of its logical device whose scratchpad has room for its
share at the same offsets, and whose deque has room for its continuations. -/
def Movable (s : State) (o : Off) (k : CoreId) : Prop :=
  Vacant s k ∧ layoutFree s k o.strand.share = true ∧ k ≠ o.core ∧ partOfCore s k = partOfCore s o.core ∧
    (∀ c ∈ s.cmds, c.strand = o.strand.spillovf → touchesRange s c (spBase o.core + o.strand.share.shareBase)
      (o.strand.share.shareLimit - o.strand.share.shareBase) = false) ∧
    (∀ i : BitVec 2, ¬ ((windowGet s o.core i).strand = o.strand.spillovf ∧ (windowGet s o.core i).st = .copying)) ∧
    o.deque.length ≤ 64 + (((contextGet s o.ctx).map (·.area k)).getD (0, 0)).2

/-- R386 step 6: an address that names a byte of a strand's arena on a core, and the frames that PREV links reach from one
(R273: PREV is the first doubleword of a frame's header). -/
def InArena (s : State) (lay : Layout) (x : CoreId) (va : Word) : Prop :=
  (globalAt s x lay.arenaBase).toNat ≤ va.toNat ∧ va.toNat < (globalAt s x lay.arenaLimit).toNat
def offsetOn (s : State) (x : CoreId) (va : Word) : Nat := va.toNat - (globalAt s x 0).toNat
inductive Linked (s : State) (lay : Layout) (x : CoreId) : Word → Word → Prop where
  | here (f : Word) : Linked s lay x f f
  | prev (f g : Word) : Linked s lay x f g → InArena s lay x (memWord s.mem (spBase x + offsetOn s x g)) →
      Linked s lay x f (memWord s.mem (spBase x + offsetOn s x g))

/-- R377: the software-coherent lines of the clusters hold storage below the scratchpads. -/
def HomeLines (s : State) : Prop := ∀ c, ∀ l ∈ (clusterGet s c).l1, l.addr + 64 ≤ 2 ^ 62

/-- R386: a strand has moved to a core: with its share's bytes at the same offsets, and its running task's frame and the links
from it renamed. -/
def Moved (s : State) (o : Off) (u : Strand) (k : CoreId) (pc : Word) (t : State) : Prop :=
  let lay := u.share
  let f := u.readG 2
  let same (b : Nat) : Prop := memGet t.mem (spBase k + b) = memGet s.mem (spBase o.core + b)
  (¬ InArena s lay o.core f → Placed o { u with carved := [] } k pc t ∧ ∀ b, lay.shareBase ≤ b → b < lay.shareLimit → same b) ∧
    (InArena s lay o.core f → (∀ g, Linked s lay o.core f g → offsetOn s o.core g % 64 = 0) →
      Placed o { u.writeG 2 (globalAt s k (offsetOn s o.core f)) with carved := [] } k pc t ∧
      (∀ b, lay.shareBase ≤ b → b < lay.shareLimit → 8 ≤ b % 64 → same b) ∧
      let p := memWord s.mem (spBase o.core + offsetOn s o.core f)
      (InArena s lay o.core p →
        memWord t.mem (spBase k + offsetOn s o.core f) = globalAt s k (offsetOn s o.core p)) ∧
      (¬ InArena s lay o.core p → memWord t.mem (spBase k + offsetOn s o.core f) = p))

/-- A strand's image names it and it stands on one core and in no parked state, or stands parked only. -/
def OnCore (s : State) (img : Word) (k : CoreId) : Prop :=
  (coreGet s k).mode ≠ .vacant ∧ (coreGet s k).strand.spillovf = img ∧
    (∀ j, (coreGet s j).mode ≠ .vacant → (coreGet s j).strand.spillovf = img → j = k) ∧
    ∀ o ∈ s.svc.off, o.strand.spillovf ≠ img
def OffCore (s : State) (img : Word) : Prop :=
  ∀ j, (coreGet s j).mode ≠ .vacant → (coreGet s j).strand.spillovf ≠ img

/-- R382: a strand has lost a register line; one that was being evicted stops it at its next stop point. -/
def LineLost (line : Nat) (evict : Bool) (t u : Strand) : Prop :=
  (∀ x, x ∈ u.lost ↔ x = line ∨ x ∈ t.lost) ∧
    u = { t with lost := u.lost, evicted := if evict = true then some line else t.evicted }

/-- R286, R291, R377: a core may use the frame of a continuation, and its arena has room for it if it is not there already. -/
def RoomFor (s : State) (k : CoreId) (p : Cont) : Prop :=
  ∃ j f n, frameCheck s k p.frame = .ok (j, f, n) ∧ (j ≠ k →
    let a := alignAt s (spBase j + f)
    (slice (coreGet s k).ftop 0 21 + a - 1) / a * a + n ≤ slice (coreGet s k).falimit 0 21)

end Sys2Proof.Claims

/-- R371, R374, R382, R384, R386, R388, R318, R402, R407: a pre-emption completes: it parks a strand, after the continuation that
it has just taken, or stands as a request until a stop may be taken; a resumption completes: it puts a strand back, its image
written if the service has edited it, or reports a refused image with cause ISOLATION; a migration completes: it puts a strand
on another core with its share; a pending continuation completes: it goes to the head of a deque and its TRET is resumed; a fill
or eviction of a register line completes: a lost line is marked, a sound one that leaves is in the carve-out while that has
room and else in the image (R379), and one that is loaded takes the poison of its copy (R383; log 80); a watchdog stop
completes: it traps to the service; a watchdog's record completes: the service reports the stop and holds the strand or fails
the context. That the resume line's bit is 1 while MSTEP is not 0 (the `mxseq` of `Preempted`) is the model's reading (log
38), and so is that an event for no strand changes nothing (log 59). -/
def Obligations.ContextMoves : Prop :=
  ∀ (s : State) (k : CoreId) (i : Nat) (at_ : Option Word) (edits : List (Nat × Byte)) (line : Nat) (dirty evict : Bool)
    (ecc : EccKind) (img : Word) (o : Off),
    ((coreGet s k).mode = .running ∨ (coreGet s k).mode = .idle → Stoppable s k →
      ∃ t, exec (.preemption k) s = .next t ∧ Preempted s k t) ∧
    (∀ c, (coreGet s k).mode = .arriving c → Stoppable s k →
      ∃ v t, exec (.continuationResume k) s = .next v ∧ exec (.preemption k) s = .next t ∧ Preempted v k t) ∧
    ((coreGet s k).mode = .running ∨ (coreGet s k).mode = .idle → (coreGet s k).strand.peer.wait = none →
      (coreGet s k).strand.begun = true ∨ (coreGet s k).strand.peer.posted ≠ [] ∨
        (mxBusy s k (coreGet s k).strand.spillovf = true ∧ stalled s (clusterOf k) = true) →
      ∃ t, exec (.preemption k) s = .next t ∧ t = { s with core := t.core, others := t.others } ∧
        coreGet t k = { coreGet s k with preReq := true } ∧ ∀ j, j ≠ k → coreGet t j = coreGet s j) ∧
    ((coreGet s k).mode = .vacant → exec (.preemption k) s = .next s) ∧
    (s.svc.off[i]? = some o →
      let image := imageWith o edits
      let u := strandWith o edits
      let pc := at_.getD (if o.why = .preempted then u.pc else u.epc)
      (Resumable s o edits → Vacant s o.core → imageOk image = true → u.spillovf = o.strand.spillovf →
        ∃ t, exec (.resumption i at_ edits) s = .next t ∧ Placed o u o.core pc t ∧
          (∀ j, j ≠ o.core → coreGet t j = coreGet s j) ∧ t.cur = s.cur ∧ (o.deque.length ≤ 64 → t.mem = s.mem) ∧
          (MemoryOk s → Outside s (coreGet t o.core).ovf (32 * (o.deque.length - 64)) t) ∧
          (∀ x, contextGet s o.ctx = some x → t.pkg.mode[(dieOf o.core).toNat] = .active)) ∧
      (edits ≠ [] ∨ o.edited ≠ none → Resumable s o edits → Vacant s o.core ∨ Movable s o k → imageOk image = false →
        let t := { s with svc := { s.svc with
          messages := s.svc.messages ++ [.imageRefused o.ctx o.strand.spillovf 0x16]
          off := s.svc.off.map fun x => if x = o then written o edits else x } }
        (Vacant s o.core → exec (.resumption i at_ edits) s = .next t) ∧
        (Movable s o k → exec (.migration ⟨i, at_, edits⟩ k) s = .next t)) ∧
      (¬ Resumable s o edits ∨ ¬ Vacant s o.core → exec (.resumption i at_ edits) s = .next s) ∧
      (Resumable s o edits → Movable s o k → imageOk image = true → u.spillovf = o.strand.spillovf → MemoryOk s → LinesOk s →
        HomeLines s → u.spillovf.toNat + 0x3000 ≤ 2 ^ 62 → layoutOk u.share = true →
        ∃ t, exec (.migration ⟨i, at_, edits⟩ k) s = .next t ∧ Moved s o u k pc t ∧
          (∀ x, contextGet s o.ctx = some x → t.pkg.mode[(dieOf k).toNat] = .active)) ∧
      (¬ Resumable s o edits ∨ ¬ Movable s o k → exec (.migration ⟨i, at_, edits⟩ k) s = .next s) ∧
      (∀ b, o.strand.slot = some b → o.why = .trapped → (coreGet s k).mode ≠ .vacant →
        tagOf (coreGet s k).strand = o.ctx → (coreGet s k).deque.length < slice (coreGet s k).dqcap 0 16 →
        RoomFor s k (Cont.ofBytes b) → Vacant s o.core → mayResume s o [] = true →
        let p := Cont.ofBytes b
        let x := (o.poke 0x2800 (· &&& ~~~(2 : Word))).load.strand
        ((∃ y, (o.poke 0x2800 (· &&& ~~~(2 : Word))).edited = some y ∧ imageOk y = false) →
          exec (.pendingSlot i k) s = .next { s with svc := { s.svc with
            messages := s.svc.messages ++ [.imageRefused o.ctx o.strand.spillovf 0x16] } }) ∧
        ((∀ y, (o.poke 0x2800 (· &&& ~~~(2 : Word))).edited = some y → imageOk y = true) →
          ∃ t, exec (.pendingSlot i k) s = .next t ∧ (coreGet t k).deque = p :: (coreGet s k).deque ∧
          (coreGet t k).strand = (coreGet s k).strand ∧
          Placed o { x with slot := none, status := x.status &&& ~~~(2 : Word) } o.core x.epc t)) ∧
      (o.strand.slot = none → exec (.pendingSlot i k) s = .next s) ∧
      (o.why = .trapped → slice o.strand.cause 0 8 = 0x18 →
        let m := Message.watchdog o.ctx o.strand.spillovf o.strand.epc (W (o.strand.wdmode.toNat % 2 ^ 48))
          (BitVec.ofNat 16 (o.strand.hbeat.toNat / 2 ^ 48))
        (∀ x, contextGet s o.ctx = some x → x.hold = true → ∃ t, exec (.watchdogRecord i) s = .next t ∧ t = { s with
          svc := { s.svc with
            messages := s.svc.messages ++ [m]
            off := s.svc.off.map fun y => if y = o then { y with why := .held } else y } }) ∧
        (∀ x, contextGet s o.ctx = some x → x.hold = false → ∃ t, exec (.watchdogRecord i) s = .next t ∧
          m ∈ t.svc.messages ∧ Message.failed o.ctx ∈ t.svc.messages ∧
          (∀ j, (coreGet t j).mode ≠ .vacant → tagOf (coreGet t j).strand ≠ o.ctx) ∧
          ∀ y ∈ t.svc.off, y.ctx = o.ctx → y.why = .ending)) ∧
      (o.why ≠ .trapped ∨ slice o.strand.cause 0 8 ≠ 0x18 → exec (.watchdogRecord i) s = .next s)) ∧
    (dirty = true → line % 64 = 0 → line < 0x3000 →
      (ecc = .uncorrectable → OnCore s img k →
        ∃ t, exec (.registerLineFill img line ⟨dirty, evict⟩ ecc) s = .next t ∧
          t = { s with core := t.core, others := t.others } ∧ (∀ j, j ≠ k → coreGet t j = coreGet s j) ∧
          coreGet t k = { coreGet s k with strand := (coreGet t k).strand } ∧
          LineLost line evict (coreGet s k).strand (coreGet t k).strand) ∧
      (ecc = .uncorrectable → OffCore s img →
        ∃ (t : State) (f : Strand → Strand), exec (.registerLineFill img line ⟨dirty, evict⟩ ecc) s = .next t ∧
          (∀ j, coreGet t j = coreGet s j) ∧ t.mem = s.mem ∧ t.svc = { s.svc with
            off := s.svc.off.map fun y => if y.strand.spillovf = img then { y with strand := f y.strand } else y } ∧
          ∀ x, LineLost line evict x (f x)) ∧
      (∀ u, ecc ≠ .uncorrectable → evict = true → MemoryOk s → strandPlace img s = some (k, u) →
        ∃ t a, exec (.registerLineFill img line ⟨dirty, evict⟩ ecc) s = .next t ∧ Outside s a 64 t ∧
          (∀ j < 64, some (memGet t.mem (a + j)) = u.image[line + j]?) ∧
          (∀ j, carvePlace u line = some j → a = carveBase k u + 64 * j ∧ t = mapStrand img (fun x => { x with
            carved := (line, j) :: x.carved.filter fun e => e.1 != line }) { s with mem := t.mem, poison := t.poison }) ∧
          (carvePlace u line = none → a = u.spillovf.toNat + line ∧ t = { s with mem := t.mem, poison := t.poison }) ∧
          (a % 64 = 0 → ∀ x, a ≤ x → x < a + 64 → (poisonUnit x ∈ t.poison ↔ linePoison u line = true)))) ∧
    (dirty = false → evict = false → line % 64 = 0 → line < 0x3000 → ∀ u, strandPlace img s = some (k, u) →
      let a := lineCopy k u line
      (memRead s.mem a 64 ≠ (u.image.drop line).take 64 ∨ firstPoison s.poison a 64 = none →
        exec (.registerLineFill img line ⟨dirty, evict⟩ ecc) s = .next s) ∧
      (memRead s.mem a 64 = (u.image.drop line).take 64 → firstPoison s.poison a 64 ≠ none →
        exec (.registerLineFill img line ⟨dirty, evict⟩ ecc) s = .next (mapStrand img (fun x =>
          if line < 0x2000 then { x with rowPoison := x.rowPoison ||| 1#64 <<< (line / 128) }
          else { x with lost := sortedInsert line x.lost }) s))) ∧
    ((dirty = false ∧ evict = true) ∨ line % 64 ≠ 0 ∨ 0x3000 ≤ line ∨ (dirty = true ∧ ecc ≠ .uncorrectable ∧ evict = false) →
      exec (.registerLineFill img line ⟨dirty, evict⟩ ecc) s = .next s) ∧
    ((coreGet s k).wdReq = true → (coreGet s k).mode = .running ∨ (coreGet s k).mode = .idle → Stoppable s k →
      ∃ u, exec (.watchdogStop k) s = .next (focus u s.cur) ∧
        Traps 0x18 false (W ((coreGet s k).strand.wdmode.toNat % 2 ^ 48)) (focus s k) u) ∧
    ((coreGet s k).wdReq = false → exec (.watchdogStop k) s = .next s)

/-! Traffic between devices. -/

namespace Sys2Proof.Claims

/-- R264: the answer to a request of a peer outside, which waits no more, with the state it leaves. -/
def Answered (q : PeerReq) (e : PeerEnd) (m t : State) : Prop :=
  t = { m with
    held := m.held.filter fun x => decide (x ≠ q)
    svc := { m.svc with messages := m.svc.messages ++ [.peer q.id e] } }
/-- R246, R250, R255, R245: a request of a peer outside that must wait is held until it can be done. -/
def Held (s : State) (q : PeerReq) (t : State) : Prop :=
  t = if q ∈ s.held then s else { s with held := s.held ++ [q] }

/-- R263: bytes stored at their home for a peer; every byte outside the pieces stays. -/
def HomeStored (s : State) (ps : List Piece) (bs : List Byte) (t : State) : Prop :=
  t = { s with
      mem := t.mem
      poison := t.poison
      dirty := t.dirty
      svc := { s.svc with accounts := t.svc.accounts } } ∧
    (∀ x, ¬ inPieces ps x → memGet t.mem x = memGet s.mem x) ∧
    (ps.Pairwise (fun x y => x.key + x.len ≤ y.key ∨ y.key + y.len ≤ x.key) →
      (ps.map fun p => memRead t.mem p.key p.len).flatten = bs)

/-- R263: the bytes of pieces at their home. -/
def homeBytes (s : State) (ps : List Piece) : List Byte := (ps.map fun p => memRead s.mem p.key p.len).flatten

/-- R207: the operation that a peer's AMO names by its code, on `w` bytes. -/
def amoCode (op : BitVec 4) (w old src : Nat) : Nat :=
  let n := 8 * w
  let x := BitVec.ofNat n old
  let y := BitVec.ofNat n src
  (match op.toNat with
    | 0 => y
    | 1 => x + y
    | 2 => x &&& y
    | 3 => x ||| y
    | 4 => x ^^^ y
    | 5 => if x.toInt ≤ y.toInt then x else y
    | 6 => if x.toInt ≤ y.toInt then y else x
    | 7 => if x.toNat ≤ y.toNat then x else y
    | 8 => if x.toNat ≤ y.toNat then y else x
    | _ => BitVec.ofNat n (fpAdd (if n = 64 then fp64 else fp32) .rne (decode (if n = 64 then fp64 else fp32) x.toNat)
        (decode (if n = 64 then fp64 else fp32) y.toNat)).1).toNat

/-- R395: what an engine's bytes do to the poison of the units they lie in and of those they cover. -/
def EnginePoisoned (s : State) (ps : List Piece) (bad : Bool) (t : State) : Prop :=
  (bad = true → ∀ p ∈ ps, poisonUnit p.key ∈ t.poison) ∧
    (bad = false → ∀ u, u ∈ t.poison ↔ u ∈ s.poison ∧ ¬ ∀ i, i < poisonSize u → inPieces ps (u + i))

/-- R395: the 32 bytes of control of a ring or barrier are sound. -/
def RingSound (s : State) (r : ORec) : Prop := firstPoison s.poison r.place 32 = none

/-- R245: the slot of a ring that a packet's command has, or claims with its first packet. -/
inductive SlotOf (s : State) (q : PeerReq) (r : ORec) (cmd : Nat) (start : BitVec 44) (total : Nat) : Append → State → Prop where
  | held (a) : s.appends.find? (fun x => x.own == q.own && x.cmd == cmd && x.base == r.place) = some a →
      SlotOf s q r cmd start total a s
  | claim : s.appends.find? (fun x => x.own == q.own && x.cmd == cmd && x.base == r.place) = none → start = 0 →
      total ≤ r.ringS → ringAt s r 2 - ringAt s r 1 < r.ringN →
      SlotOf s q r cmd start total ⟨q.own, cmd, r.place, ringAt s r 2, total⟩
        { setWord s (r.place + 16) (W (ringAt s r 2 + 1)) with
          appends := s.appends ++ [⟨q.own, cmd, r.place, ringAt s r 2, total⟩] }

/-- R259 to R265: a request of a peer that is done at once: the event, the pieces it acts on, its answer and the state it
leaves. -/
inductive PeerServes (s : State) (q : PeerReq) : Instr → PeerEnd → State → Prop where
  | bulk (bs bad n start total r ps m) : q.op = .bulk bs bad n start total → targetSpan s q bs.length .ewrite = .ok (r, ps) →
      r.kind ≠ kRING → HomeStored s ps bs m → EnginePoisoned s ps bad m →
      PeerServes s q (.bulkWr q) (.done 0 []) m
  | append (bs bad n start total r a s1 ps u m) : q.op = .bulk bs bad n start total → targetRecord s q .ewrite = .ok r →
      r.kind = kRING → r.reloc = false → RingSound s r → SlotOf s q r n start total a s1 →
      q.off.toNat - start.toNat + bs.length ≤ r.ringS →
      ps = runPieces (r.place + 64 + r.ringS * (a.seq % r.ringN) + (q.off.toNat - start.toNat)) bs.length .home →
      HomeStored s1 ps bs u → EnginePoisoned s1 ps bad u →
      RingsSettled { u with appends := u.appends.map fun x => if x = a then { x with left := a.left - bs.length } else x } m →
      PeerServes s q (.bulkWr q) (.done 0 []) m
  | read (n r ps b) : q.op = .read n → targetSpan s q n .read = .ok (r, ps) →
      (∀ i, i < 64 → (bitOf b i = true ↔ ∃ p, ps[i]? = some p ∧ poisonUnit p.key ∈ s.poison)) →
      PeerServes s q (.bulkRd q) (.done b (homeBytes s ps)) s
  | barrier (n r ps m) : q.op = .flag n → targetSpan s q 8 .atomic = .ok (r, ps) → r.kind = kBARRIER →
      BarrierAfter s r.place (arrivalsAt s r.place) (expectedAt s r.place - W n) m →
      PeerServes s q (.flag q) (.done 0 []) m
  | flag (n r ps m) : q.op = .flag n → targetSpan s q 8 .atomic = .ok (r, ps) → r.kind ≠ kBARRIER →
      HomeStored s ps (natBytes 8 (bytesNat (homeBytes s ps) + 1)) m → PeerServes s q (.flag q) (.done 0 []) m
  | load (w r ps) : q.op = .load w → targetSpan s q w .read = .ok (r, ps) → poisonAt s 0 ps = none →
      PeerServes s q (.ord q) (.done (W (bytesNat (homeBytes s ps))) []) s
  | store (w v r ps m) : q.op = .store w v → targetSpan s q w .write = .ok (r, ps) →
      HomeStored s ps (natBytes w v.toNat) m → PeerServes s q (.ord q) (.done 0 []) m
  | amo (op w v r ps m) : q.op = .amo op w v → w = 4 ∨ w = 8 → targetSpan s q w .atomic = .ok (r, ps) →
      poisonAt s 0 ps = none → HomeStored s ps (natBytes w (amoCode op w (bytesNat (homeBytes s ps)) v.toNat)) m →
      PeerServes s q (.ord q) (.done (W (bytesNat (homeBytes s ps))) []) m
  | cas (w e v r ps m) : q.op = .cas w e v → targetSpan s q w .atomic = .ok (r, ps) → poisonAt s 0 ps = none →
      (bytesNat (homeBytes s ps) = e.toNat → HomeStored s ps (natBytes w v.toNat) m) →
      (bytesNat (homeBytes s ps) ≠ e.toNat → m = s) →
      PeerServes s q (.ord q) (.done (W (bytesNat (homeBytes s ps))) []) m
  | rwait (n r ps) : q.op = .rwait n → targetSpan s q 1 .read = .ok (r, ps) → r.kind = kRING → RingSound s r → n.toNat < ringAt s r 0 →
      PeerServes s q (.syncClass q) (.done (W (64 + r.ringS * (n.toNat % r.ringN))) []) s
  | rrel (n r ps) : q.op = .rrel n → targetSpan s q 1 .read = .ok (r, ps) → r.permW = true → r.kind = kRING → RingSound s r →
      PeerServes s q (.syncClass q) (.done 0 [])
        (setWord s (r.place + 8) (W (max (ringAt s r 1) (min (n.toNat + 1) (ringAt s r 0)))))
  | cwait (v r ps) : q.op = .cwait v → targetSpan s q 8 .read = .ok (r, ps) → poisonAt s 0 ps = none →
      r.kind ≠ kBARRIER → v.toNat ≤ bytesNat (homeBytes s ps) → PeerServes s q (.syncClass q) (.done 0 []) s
  | bara (n r ps m) : q.op = .bara n → targetSpan s q 32 .atomic = .ok (r, ps) → r.kind = kBARRIER → RingSound s r →
      BarrierAfter s r.place (arrivalsAt s r.place - 1) (expectedAt s r.place + n) m →
      PeerServes s q (.syncClass q)
        (.done (W (phaseAt s r.place + if arrivalsAt s r.place = 0 then 2 else 0)) []) m
  | barw (p r ps) : q.op = .barw p → targetSpan s q 32 .atomic = .ok (r, ps) → r.kind = kBARRIER → RingSound s r →
      phaseAt s r.place ≠ p.toNat % 2 → PeerServes s q (.syncClass q) (.done 0 []) s
  | full (ws r) : q.op = .donate ws → targetRecord s q .ewrite = .ok r → q.off = 0 → r.reloc = false → r.permAT = true →
      r.kind = kRING → r.ringS = 64 → RingSound s r → r.ringN ≤ ringAt s r 2 - ringAt s r 1 → PeerServes s q (.don q) (.done 1 []) s
  | donate (ws r b u m) : q.op = .donate ws → ws.length = 8 → targetRecord s q .ewrite = .ok r → q.off = 0 → r.reloc = false →
      r.permAT = true → r.kind = kRING → r.ringS = 64 → RingSound s r → ringAt s r 2 - ringAt s r 1 < r.ringN → ringAt s r 2 < 2 ^ 64 - 1 →
      b = r.place + 64 + 64 * (ringAt s r 2 % r.ringN) →
      u = { s with mem := u.mem, poison := u.poison, appends := s.appends ++ [⟨q.own, q.id, r.place, ringAt s r 2, 0⟩] } →
      memRead u.mem b 64 = (ws.flatMap fun x => natBytes 8 x.toNat) → ringAt u r 2 = ringAt s r 2 + 1 →
      ringAt u r 0 = ringAt s r 0 → ringAt u r 1 = ringAt s r 1 →
      (∀ x, x < r.place + 16 ∨ r.place + 24 ≤ x → x < b ∨ b + 64 ≤ x → memGet u.mem x = memGet s.mem x) →
      (∀ x, x ∈ u.poison ↔ x ∈ s.poison ∧ ¬ (b ≤ x ∧ x + poisonSize x ≤ b + 64)) → RingsSettled u m →
      PeerServes s q (.don q) (.done 0 []) m

/-- R263: the requests that a peer's access is, with the event that carries each, the bytes it names and the permission. -/
inductive AccessForm (q : PeerReq) : Instr → Nat → AKind → Prop where
  | read (n) : q.op = .read n → AccessForm q (.bulkRd q) n .read
  | flag (n) : q.op = .flag n → AccessForm q (.flag q) 8 .atomic
  | load (w) : q.op = .load w → AccessForm q (.ord q) w .read
  | store (w v) : q.op = .store w v → AccessForm q (.ord q) w .write
  | amo (o w v) : q.op = .amo o w v → AccessForm q (.ord q) w .atomic
  | cas (w e v) : q.op = .cas w e v → AccessForm q (.ord q) w .atomic
  | rwait (n) : q.op = .rwait n → AccessForm q (.syncClass q) 1 .read
  | rrel (n) : q.op = .rrel n → AccessForm q (.syncClass q) 1 .read
  | cwait (v) : q.op = .cwait v → AccessForm q (.syncClass q) 8 .read
  | bara (n) : q.op = .bara n → AccessForm q (.syncClass q) 32 .atomic
  | barw (p) : q.op = .barw p → AccessForm q (.syncClass q) 32 .atomic

/-- R262, R263, R265, R267: what turns a peer's request back: its span or record fails, a poisoned record or map entry among
the failures, or it reads poison. -/
inductive PeerFails (s : State) (q : PeerReq) : Instr → PeerEnd → Prop where
  | span (i n k c v) : AccessForm q i n k → targetSpan s q n k = .error (.trap c v) → PeerFails s q i .failed
  | bulk (bs bad n start total c v) : q.op = .bulk bs bad n start total → targetRecord s q .ewrite = .error (.trap c v) →
      PeerFails s q (.bulkWr q) .failed
  | bytes (bs bad n start total r c v) : q.op = .bulk bs bad n start total → targetRecord s q .ewrite = .ok r →
      r.kind ≠ kRING → targetSpan s q bs.length .ewrite = .error (.trap c v) → PeerFails s q (.bulkWr q) .failed
  | moved (bs bad n start total r) : q.op = .bulk bs bad n start total → targetRecord s q .ewrite = .ok r →
      r.kind = kRING → r.reloc = true ∨ ¬ RingSound s r → PeerFails s q (.bulkWr q) .failed
  | donate (ws c v) : q.op = .donate ws → targetRecord s q .ewrite = .error (.trap c v) → PeerFails s q (.don q) .failed
  | ring (ws r) : q.op = .donate ws → targetRecord s q .ewrite = .ok r →
      q.off ≠ 0 ∨ r.reloc = true ∨ r.permAT = false ∨ r.kind ≠ kRING ∨ r.ringS ≠ 64 ∨ ¬ RingSound s r →
      PeerFails s q (.don q) .failed
  | rrel (n r ps) : q.op = .rrel n → targetSpan s q 1 .read = .ok (r, ps) → r.permW = false ∨ r.kind ≠ kRING →
      PeerFails s q (.syncClass q) .failed
  | control (k n r ps) : (k = kRING ∧ ((∃ m, q.op = .rwait m) ∨ ∃ m, q.op = .rrel m) ∧ r.permW = true) ∨
        (k = kBARRIER ∧ ((∃ m, q.op = .bara m) ∨ ∃ m, q.op = .barw m)) →
      targetSpan s q n (if k = kRING then .read else .atomic) = .ok (r, ps) → n = (if k = kRING then 1 else 32) →
      r.kind = k → ¬ RingSound s r → PeerFails s q (.syncClass q) .poisoned
  | poisoned (i n k r ps x) : AccessForm q i n k →
      ((∃ w, q.op = .load w) ∨ (∃ o w v, q.op = .amo o w v) ∨ (∃ w e v, q.op = .cas w e v) ∨ ∃ v, q.op = .cwait v) →
      targetSpan s q n k = .ok (r, ps) → poisonAt s 0 ps = some x → PeerFails s q i .poisoned

/-- R246, R250, R255, R245: a peer's request whose condition does not hold, or whose ring is full. -/
inductive PeerWaits (s : State) (q : PeerReq) : Instr → Prop where
  | rwait (n r ps) : q.op = .rwait n → targetSpan s q 1 .read = .ok (r, ps) → r.kind = kRING → RingSound s r → ringAt s r 0 ≤ n.toNat →
      PeerWaits s q (.syncClass q)
  | cwait (v r ps) : q.op = .cwait v → targetSpan s q 8 .read = .ok (r, ps) → poisonAt s 0 ps = none → r.kind ≠ kBARRIER →
      bytesNat (homeBytes s ps) < v.toNat → PeerWaits s q (.syncClass q)
  | barw (p r ps) : q.op = .barw p → targetSpan s q 32 .atomic = .ok (r, ps) → r.kind = kBARRIER → RingSound s r →
      phaseAt s r.place = p.toNat % 2 → PeerWaits s q (.syncClass q)
  | append (bs bad n start total r) : q.op = .bulk bs bad n start total → targetRecord s q .ewrite = .ok r →
      r.kind = kRING → r.reloc = false → RingSound s r →
      s.appends.find? (fun x => x.own == q.own && x.cmd == n && x.base == r.place) = none → start = 0 → total ≤ r.ringS →
      r.ringN ≤ ringAt s r 2 - ringAt s r 1 → PeerWaits s q (.bulkWr q)

/-- R267: the handle of a request that has failed: its state is INVALID, or REVOKED. -/
def HandleFailed (s : State) (u : Tag) (h : BitVec 12) (e : PeerEnd) (t : State) : Prop :=
  ∀ x b, contextGet s u = some x → recordAddr x.ortBase (BitVec.ofNat 18 (0x3F000 + h.toNat)) = some b →
    memWord t.mem b = (memWord s.mem b &&& ~~~(3 : Word)) ||| (if e = .revoked then 2 else 1)

end Sys2Proof.Claims

/-- R256 to R259, R263 to R265, R267, R246, R247, R250, R254, R255, R294: a request of a peer completes: it acts at the home
under the exporting context's record (R207 for each code of an AMO) and is answered, to the peer or straight to the logical
device of this package that made it; one whose checks fail is answered so and changes nothing; one whose condition does not hold
is held. An answer completes: it reaches the strand or the command that made the request, and a failure its handle; the
timeout of a request completes: it fails one that is still unanswered when its time is up (R258); a discarded packet completes:
it is counted. That a flag updates the barrier whose 32 bytes hold it is the model's reading (log 15, the clause of
`PeerServes.barrier`), and so is that an answer or timeout for no request changes nothing (log 59). -/
def Obligations.PeerTraffic : Prop :=
  ∀ (s : State) (q : PeerReq) (w : Discard), MemoryOk s → s.ckpt.flashing = false → s.ckpt.powered = true →
    (∀ i e m, PeerServes s q i e m → ∃ m', PeerServes s q i e m' ∧
      (q.own = false → ∃ t, exec i s = .next t ∧ Answered q e m' t) ∧
      (q.own = true → outstanding s q = true → exec i s = exec (.peerAnswer q.id e) m')) ∧
    (∀ i e, PeerFails s q i e →
      (q.own = false → ∃ t, exec i s = .next t ∧ Answered q e s t) ∧
      (q.own = true → outstanding s q = true → exec i s = exec (.peerAnswer q.id e) s)) ∧
    (∀ i, PeerWaits s q i → (q.own = false → ∃ t, exec i s = .next t ∧ Held s q t) ∧
      (q.own = true → exec i s = .next s)) ∧
    (∀ x e, s.out.find? (fun y => y.req.id == q.id) = some x →
      ∃ t, exec (.peerAnswer q.id e) s = .next t ∧ t.out = s.out.filter (fun y => decide (y.req.id ≠ q.id)) ∧
        t.cur = s.cur ∧
        (∀ img k, x.use = .wait img → (coreGet s k).mode ≠ .vacant → (coreGet s k).strand.spillovf = img →
          (∀ j, (coreGet s j).mode ≠ .vacant → (coreGet s j).strand.spillovf = img → j = k) →
          (coreGet s k).strand.peer.wait = some q.id →
          (coreGet t k).strand = { (coreGet s k).strand with
            peer := { (coreGet s k).strand.peer with wait := none, answer := some e } }) ∧
        (∀ img k, x.use = .posted img → (coreGet s k).mode ≠ .vacant → (coreGet s k).strand.spillovf = img →
          (∀ j, (coreGet s j).mode ≠ .vacant → (coreGet s j).strand.spillovf = img → j = k) →
          (coreGet t k).strand = { (coreGet s k).strand with peer := { (coreGet s k).strand.peer with
            posted := (coreGet s k).strand.peer.posted.filter fun y => decide (y ≠ q.id)
            lost := if (e = .failed ∨ e = .revoked) ∧ (coreGet s k).strand.peer.lost = none then some x.addr
              else (coreGet s k).strand.peer.lost } }) ∧
        (∀ img, x.use = .wait img ∨ x.use = .posted img →
          (e ≠ .failed → e ≠ .revoked → t.mem = s.mem) ∧ (e = .failed ∨ e = .revoked → HandleFailed s x.ctx x.handle e t)) ∧
        (∀ n b bad c, x.use = .cmdData n b bad → CmdAt s n c → e ≠ .failed → e ≠ .revoked →
          CmdAt t n { c with
            out := c.out.filter fun y => decide (y ≠ q.id)
            written := c.written + b
            poisoned := c.poisoned || bad } ∧ t.mem = s.mem) ∧
        (∀ n c, x.use = .cmdFlag n → CmdAt s n c → e ≠ .failed → e ≠ .revoked →
          CmdAt t n { c with out := c.out.filter fun y => decide (y ≠ q.id) } ∧ t.mem = s.mem) ∧
        (∀ n us c v bs, x.use = .cmdRead n us → e = .done v bs → CmdAt s n c → c.failed = false →
          bs.length = (us.map (·.bytes.length)).sum → ∃ c' us', CmdAt t n c' ∧ c'.units = c.units ++ us' ∧
            us'.flatMap unitBytes = ((us.flatMap unitBytes).map (·.1)).zip bs ∧ us'.length = us.length ∧
            (∀ (j : Nat) (u : EUnit), us'[j]? = some u → u.poisoned = bitOf v j) ∧
            c'.out = c.out.filter fun y => decide (y ≠ q.id)) ∧
        (∀ n us c b bad, (x.use = .cmdData n b bad ∨ x.use = .cmdFlag n ∨ x.use = .cmdRead n us) →
          e = .failed ∨ e = .revoked → CmdAt s n c →
          (∃ c', CmdAt t n c' ∧ c'.failed = true ∧ c'.units = []) ∧ HandleFailed s c.ctx x.handle e t) ∧
        (e = .failed → x.sent + 100 * s.pkg.timeout[(partOfCore s x.core).toNat] ≤ s.pkg.time →
          exec (.remoteTimeout q.id) s = .next t) ∧
        (s.pkg.time < x.sent + 100 * s.pkg.timeout[(partOfCore s x.core).toNat] →
          exec (.remoteTimeout q.id) s = .next s)) ∧
    (s.out.find? (fun y => y.req.id == q.id) = none →
      (∀ e, exec (.peerAnswer q.id e) s = .next s) ∧ exec (.remoteTimeout q.id) s = .next s) ∧
    ∃ t, exec (.discardedPacket w) s = .next t ∧ t = { s with svc := { s.svc with discards := t.svc.discards } } ∧
      ∀ i : Fin 3, t.svc.discards[i] = s.svc.discards[i] +
        if i.val = (match w with | .rudi => 0 | .uud => 1 | .security => 2) then 1 else 0

/-! Recovery. -/

namespace Sys2Proof.Claims

/-- R402: a machine-check record has reached the service's ring. -/
def Recorded (s : State) (kind : BitVec 8) (addr : Nat) (t : State) : Prop :=
  ∃ r : Check, t = { s with svc := { s.svc with checks := s.svc.checks ++ [r] } } ∧ r.kind = kind ∧ r.addr = W addr ∧
    r.time = W s.pkg.time ∧ r.ctx = 0

/-- R400: a die position or a cluster is fenced: its caches and commands are gone, every context that held anything there
has failed, and the service has a record. -/
structure Fenced (s : State) (u : FencedUnit) (t : State) : Prop where
  mark : match u with
    | .die d => t.pkg.fencedDie = s.pkg.fencedDie.set d.toNat true d.isLt ∧ t.pkg.fencedCluster = s.pkg.fencedCluster
    | .cluster c => t.pkg.fencedDie = s.pkg.fencedDie ∧ ∀ x, x ∈ t.pkg.fencedCluster ↔ x = c ∨ x ∈ s.pkg.fencedCluster
  parts : t.pkg.part = s.pkg.part ∧ t.pkg.mesh = s.pkg.mesh ∧ t.pkg.links = s.pkg.links
  lines : ∀ c, inUnit u c = true → (clusterGet t c).l1 = []
  cmds : ∀ c ∈ t.cmds, inUnit u (clusterOf c.core) = false
  failed : ∀ x ∈ s.svc.contexts, holdsIn s u x = true → Message.failed x.tag ∈ t.svc.messages ∧
    (∀ k, (coreGet t k).mode ≠ .vacant → tagOf (coreGet t k).strand ≠ x.tag) ∧ ∀ o ∈ t.svc.off, o.ctx = x.tag → o.why = .ending
  check : ∃ r ∈ t.svc.checks, r.kind = 0x05
  cur : t.cur = s.cur

/-- The bytes of a cluster's scratchpads and of its SRAM. -/
def OfCluster (k : ClusterId) (x : Nat) : Prop :=
  (spBase (coreAt k 0) ≤ x ∧ x < spBase (coreAt k 0) + 2 ^ 23) ∨ (sramBase k ≤ x ∧ x < sramBase k + 2 ^ 23)
/-- The bytes of storage, their full-empty bits and their poison are at one address what they were at another. -/
def SameByte (s : State) (x : Nat) (m : State) (y : Nat) : Prop :=
  memGet m.mem y = memGet s.mem x ∧ (y ∈ m.empty ↔ x ∈ s.empty) ∧ (y ∈ m.poison ↔ x ∈ s.poison)
/-- R3, R10, R399: a cluster number names what another named: its cores, its storage and its caches. -/
structure Renamed (s : State) (z k : ClusterId) (m : State) : Prop where
  storage : ∀ b < 2 ^ 23, SameByte s (spBase (coreAt z 0) + b) m (spBase (coreAt k 0) + b) ∧
    SameByte s (sramBase z + b) m (sramBase k + b)
  others : ∀ x, ¬ OfCluster k x → ¬ OfCluster z x → SameByte s x m x
  cores : ∀ i < 8, let c := coreGet m (coreAt k i)
    c = { coreGet s (coreAt z i) with ovf := c.ovf } ∧ coreGet m (coreAt z i) = Core.vacant
  caches : clusterGet m k = clusterGet s z
  power : powerGet m k = powerGet s z

/-- R396: a link keeps `n` lane groups, with a record. One left with none is mapped out, and the dies that have no route then
are fenced. -/
structure LinkKeeps (s : State) (l n : Nat) (t : State) : Prop where
  groups : ∀ k, laneGroups t k = if k = l then n else laneGroups s k
  fences : ∀ d : DieId, t.pkg.fencedDie[d.toNat] = (s.pkg.fencedDie[d.toNat] ||
    decide (n = 0) && Config.cutOff ((t.pkg.links.filter fun e => e.2 == 0).map (·.1)) d)
  check : ∃ r ∈ t.svc.checks, r.kind = 0x06
  rest : n ≠ 0 → Recorded { s with pkg := { s.pkg with links := t.pkg.links } } 0x06 0 t

/-- R398: the copies of a line are gone everywhere, their dirty bytes merged at the home, and the service has a record. -/
def Rebuilt (s : State) (line : Nat) (t : State) : Prop :=
  ∃ u, Purged s (fun a => a = lineOf line) u ∧ Recorded u 0x04 (lineOf line) t

end Sys2Proof.Claims

/-- R183, R197, R200, R218, R394, R396 to R402: the eviction of a line completes: it leaves a cache with its dirty bytes
merged at home; a snoop completes: it takes a hardware-coherent line; a replayed flit completes and changes nothing; an
exhausted replay completes: it poisons the line of data, fences what cannot be reached or rebuilds a directory entry; a late die
is fenced; a lane group's map-out completes, and fences the dies that it leaves without a route; a check of stored data
completes: it corrects, poisons the unit, which reads FULL, or the copy in a cache alone, or fences a cluster; a map-out completes
for a unit that no live context uses, clusters keeping contiguous numbers and the last one, with all that it holds, taking the
number that is free (that it must be unused too is the model's reading, log 68); the
mirror restores a line of service memory or the device stops; the standby pair takes over and answers RETRY to what waits. -/
def Obligations.Recovery : Prop :=
  ∀ (s : State) (c : ClusterId) (line l : Nat) (d : DieId) (u : MapUnit), MemoryOk s → LinesOk s → DirtyOk s →
    let a := lineOf line
    let unit := poisonUnit line
    let here (e : DirtyLine) : Prop := e.addr = a ∧ clusterOf e.core = c
    (∃ t, exec (.lineEviction c line) s = .next t ∧
      (((clusterGet s c).line a).isSome → (clusterGet t c).line a = none ∧
        (∀ x, memGet t.mem x = if lineOf x = a then homeByte s c x else memGet s.mem x) ∧
        (∀ k b, ¬ (k = c ∧ b = a) → (clusterGet t k).line b = (clusterGet s k).line b) ∧ t.core = s.core) ∧
      ((clusterGet s c).line a = none → (∃ x ∈ s.dirty, here x) →
        t = { s with dirty := t.dirty, svc := { s.svc with accounts := t.svc.accounts } } ∧
          ∀ x, x ∈ t.dirty ↔ x ∈ s.dirty ∧ ¬ here x) ∧
      ((∀ k, dieOfCluster k = dieOfCluster c → (clusterGet s k).line a = none) → (∀ x ∈ s.dirty, ¬ here x) →
        (∀ e, l2Get s (dieOfCluster c) a = some e → e.mask = 0) →
        t = { s with l2 := t.l2 } ∧ l2Get t (dieOfCluster c) a = none ∧
          ∀ k b, ¬ (k = dieOfCluster c ∧ b = a) → l2Get t k b = l2Get s k b)) ∧
    (∃ t, exec (.snoop c line) s = .next t ∧
      t = { s with dirty := t.dirty, svc := { s.svc with accounts := t.svc.accounts } } ∧
      ∀ x, x ∈ t.dirty ↔ x ∈ s.dirty ∧ ¬ here x) ∧
    exec (.flitReplay l) s = .next s ∧
    (∀ r, ∃ t m, exec (.replayExhausted l .data line d r) s = .next t ∧ Recorded s 0x03 a m ∧
      t = { m with poison := t.poison } ∧ ∀ x, x ∈ t.poison ↔ (∃ j < 64, x = poisonUnit (a + j)) ∨ x ∈ s.poison) ∧
    (∃ t, exec (.replayExhausted l .request line d true) s = .next t ∧ Recorded s 0x03 a t) ∧
    (∃ m t, exec (.replayExhausted l .request line d false) s = .next t ∧ Recorded s 0x03 a m ∧ Fenced m (.die d) t) ∧
    (∀ r, ∃ m t, exec (.replayExhausted l .directory line d r) s = .next t ∧ Recorded s 0x03 a m ∧ Rebuilt m line t) ∧
    (∃ m t, exec (.recoveryTimeout line d) s = .next t ∧ Fenced s (.die d) m ∧ Rebuilt m line t) ∧
    (∃ t, exec (.laneGroupMapout l) s = .next t ∧ LinkKeeps s l (laneGroups s l - 1) t) ∧
    (exec (.patrolScrub (.unit line) .sound) s = .next s ∧
      (∃ t, exec (.patrolScrub (.unit line) .corrected) s = .next t ∧ Recorded s 0x01 unit t) ∧
      ∃ m t, exec (.patrolScrub (.unit line) .uncorrectable) s = .next t ∧
        m = { s with poison := m.poison, empty := m.empty } ∧ (∀ x, x ∈ m.poison ↔ x = unit ∨ x ∈ s.poison) ∧
        (∀ g, g ∈ m.empty ↔ g ∈ s.empty ∧ (isSp line = true → g + 16 ≤ unit ∨ unit + 16 ≤ g)) ∧ Recorded m 0x02 unit t) ∧
    (exec (.patrolScrub (.l1 c line) .sound) s = .next s ∧ exec (.patrolScrub (.l2 d line) .sound) s = .next s ∧
      (∃ t, exec (.patrolScrub (.l1 c line) .corrected) s = .next t ∧ Recorded s 0x01 a t) ∧
      (∃ t, exec (.patrolScrub (.l2 d line) .corrected) s = .next t ∧ Recorded s 0x01 a t) ∧
      (∀ e, (clusterGet s c).line a = some e → ∃ m t, exec (.patrolScrub (.l1 c line) .uncorrectable) s = .next t ∧
        Recorded m 0x02 a t ∧ m = { s with clusters := m.clusters } ∧
        (clusterGet m c).line a = some { e with bad := true } ∧
        ∀ k b, ¬ (k = c ∧ b = a) → (clusterGet m k).line b = (clusterGet s k).line b) ∧
      (∀ e, l2Get s d a = some e → ∃ m t, exec (.patrolScrub (.l2 d line) .uncorrectable) s = .next t ∧
        Recorded m 0x02 a t ∧ m = { s with l2 := m.l2 } ∧ l2Get m d a = some { e with bad := true } ∧
        ∀ k b, ¬ (k = d ∧ b = a) → l2Get m k b = l2Get s k b) ∧
      (∀ i, (i = .patrolScrub (.l1 c line) .uncorrectable ∧ (clusterGet s c).line a = none) ∨
          (i = .patrolScrub (.l2 d line) .uncorrectable ∧ l2Get s d a = none) →
        ∃ m t, exec i s = .next t ∧ Recorded m 0x02 a t ∧ m = { s with poison := m.poison } ∧
          ∀ x, x ∈ m.poison ↔ x = a ∨ x ∈ s.poison)) ∧
    (exec (.patrolScrub (.fe c) .sound) s = .next s ∧
      (∃ t, exec (.patrolScrub (.fe c) .corrected) s = .next t ∧ Recorded s 0x01 0 t) ∧
      ∃ t, exec (.patrolScrub (.fe c) .uncorrectable) s = .next t ∧ Fenced s (.cluster c) t) ∧
    (∃ t, exec (.mapOut u) s = .next t ∧ match u with
      | .link k => LinkKeeps s k 0 t
      | .hbmChannel k ch =>
          let used := ∃ x ∈ s.svc.contexts, hbmUsed s x (k.toNat * 2 ^ 36 + ch % 32 * 2 ^ 31, 2 ^ 31) = true
          (used → t = s) ∧ (¬ used → ∃ m, Recorded m 0x06 0 t ∧ m = { s with pkg := { s.pkg with hbmOut := m.pkg.hbmOut } } ∧
            ∀ x, x ∈ m.pkg.hbmOut ↔ x = (k, ch % 32) ∨ x ∈ s.pkg.hbmOut)
      | .sdie k =>
          let used := ∃ x ∈ s.svc.contexts, ∃ h ∈ x.held, 0x80000 < h.lay.shareLimit ∧ dieOf h.core = k
          (used → t = s) ∧ (¬ used →
            Recorded { s with pkg := { s.pkg with sdie := s.pkg.sdie.set k.toNat false k.isLt } } 0x06 0 t)
      | .cdie k => Recorded { s with pkg := { s.pkg with mapOutNext := s.pkg.mapOutNext.set k.toNat true k.isLt } } 0x06 0 t
      | .cluster k =>
          let z := mkCluster (dieOfCluster k) (clusterCount s (dieOfCluster k) - 1)
          let mesh := s.pkg.mesh[(dieOfCluster k).toNat]
          let free := ∀ x ∈ s.svc.contexts, holdsIn s (.cluster k) x = false ∧ holdsIn s (.cluster z) x = false
          (mesh.length ≤ k.toNat % 32 ∨ ¬ free → t = s) ∧
          (k.toNat % 32 < mesh.length → mesh.length ≤ 32 → free → ∃ m, Recorded m 0x06 0 t ∧
            (∀ j, j ≠ dieOfCluster k → m.pkg.mesh[j.toNat] = s.pkg.mesh[j.toNat]) ∧
            (m.pkg.mesh[(dieOfCluster k).toNat]).length = mesh.length - 1 ∧
            (∀ i, i + 1 < mesh.length → (m.pkg.mesh[(dieOfCluster k).toNat])[i]? =
              if i = k.toNat % 32 then mesh[mesh.length - 1]? else mesh[i]?) ∧
            (k ≠ z → Renamed s z k m) ∧
            (k = z → ∀ x, (OfCluster k x → memGet m.mem x = 0 ∧ x ∉ m.empty ∧ x ∉ m.poison) ∧
              (¬ OfCluster k x → SameByte s x m x)))) ∧
    (∃ t, exec (.mirrorRestore line false) s = .next t ∧ Recorded s 0x08 a t) ∧
    (∃ t, exec (.mirrorRestore line true) s = .next t ∧ t.svc = { s.svc with phase := .stopped } ∧ t.ckpt.flashing = true ∧
      t.core = s.core ∧ (s.ckpt.flashing = true → t.mem = s.mem ∧ t.ckpt = s.ckpt)) ∧
    ∃ t, exec .lockstepMismatch s = .next t ∧ Recorded { s with svc := { s.svc with
      standby := !s.svc.standby
      waiting := s.svc.waiting.filter fun i => (headOf i).isNone
      messages := s.svc.messages ++ (s.svc.waiting.filterMap headOf).map fun e => .answer e.1 4 e.2.id e.2.ctx [] } } 0x07 0 t

/-! Flashing and the supply. -/

namespace Sys2Proof.Claims

/-- R404: a field of `n` bytes of a marker. -/
def markAt (s : State) (o n : Nat) : Nat := bytesNat (memRead s.mem (Config.ridgeCap + o) n)
/-- The bytes of the marker and of its copy. -/
def inMarker (x : Nat) : Prop :=
  (Config.ridgeCap ≤ x ∧ x < Config.ridgeCap + 64) ∨ (Config.ridgeCapMirror ≤ x ∧ x < Config.ridgeCapMirror + 64)
/-- The two copies of the marker are the same. -/
def Mirrored (s : State) : Prop :=
  memRead s.mem Config.ridgeCap 64 = memRead s.mem Config.ridgeCapMirror 64
/-- R403: a phase of flashing has ended, and the marker says so. -/
def PhaseEnds (s : State) (n : Nat) (t : State) : Prop :=
  t.ckpt.phases = n ∧ markAt t 4 2 = 2 ^ n - 1 ∧ t.ckpt.flashing = true ∧ t.ckpt.seq = s.ckpt.seq ∧
    t.ckpt.twarn = s.ckpt.twarn ∧ t.svc.phase = s.svc.phase ∧ t.pkg.time = s.pkg.time

/-- R405: a strand saved by flashing stands on its core again, with the image that the service has written, if it has. -/
def Returned (o : Off) (t : State) : Prop :=
  let u := strandWith o []
  Placed o u o.core (if o.why = .preempted then u.pc else u.epc) t ∧ t.ckpt.saved = []
/-- R28, R405: a strand saved by flashing can return: its core is free, and its image is one the device loads. -/
def CanReturn (s : State) (o : Off) : Prop := Vacant s o.core ∧ ∀ b, o.edited = some b → imageOk b = true

/-- R403, R404: bytes have been saved at a place in HBM, and the manifest lists them. -/
def Saved (a : Nat) (bs : List Byte) (t : State) : Prop :=
  bs = [] ∨ memRead t.mem a bs.length = bs ∧ (a, bs.length) ∈ t.ckpt.manifest
/-- Two ranges of addresses share none. -/
def Separate (a n b m : Nat) : Prop := a + n ≤ b ∨ b + m ≤ a
/-- A range of HBM clear of the marker and of its copy. -/
def OffMarker (a n : Nat) : Prop :=
  Separate a n Config.ridgeCap 64 ∧ Separate a n Config.ridgeCapMirror 64 ∧ a + n ≤ 2 ^ 62
/-- R403: what a context has saved of its engines' duties and of what it holds on the C-dies, in the model's form (log 69). -/
def enginePart (s : State) (x : Context) : Nat × Nat := (x.saveArea, (Machine.engineBytes s x).length)
def corePart (s : State) (x : Context) : Nat × Nat := (x.saveArea + (Machine.engineBytes s x).length, (coreBytes s x).length)
/-- The regions that flashing writes: the save areas and the images of the strands off their cores. -/
def savedParts (s : State) : List (Nat × Nat) :=
  (s.svc.contexts.map fun x => (x.saveArea, (Machine.engineBytes s x).length + (coreBytes s x).length)) ++
    s.svc.off.map fun o => (o.strand.spillovf.toNat, 0x3000)
def PartsApart (s : State) : Prop :=
  (savedParts s).Pairwise (fun x y => Separate x.1 x.2 y.1 y.2) ∧ ∀ x ∈ savedParts s, OffMarker x.1 x.2

/-- The lines of the caches have 64 bytes each. -/
def FullLines (s : State) : Prop :=
  (∀ c ∈ s.clusters, ∀ l ∈ c.2.l1, l.data.length = 64) ∧ ∀ e ∈ s.l2, e.2.data.length = 64
/-- R403 phase 3: dirty byte `j` of a line of an L1D is dirty in the L2 of its die. -/
def InL2 (s : State) (d : DieId) (a j : Nat) (t : State) : Prop :=
  ∃ e, (d, e) ∈ t.l2 ∧ e.addr = a ∧ e.mask.getLsbD j = true ∧
    ∃ c ∈ s.clusters, ∃ l ∈ c.2.l1, dieOfCluster c.1 = d ∧ l.addr = a ∧ l.mask.getLsbD j = true ∧ e.data[j]? = l.data[j]?
/-- A byte of memory that a die's L2 holds dirty. -/
def L2Dirty (e : DieId × L2Line) (x : Nat) (b : Byte) : Prop :=
  ∃ j < 64, x = e.2.addr + j ∧ e.2.mask.getLsbD j = true ∧ e.2.data[j]? = some b

end Sys2Proof.Claims

/-- R403 to R406, R416: flashing completes each of its steps: the warning writes the marker with a new SEQ and leaves no sealed
one; the phases stop the strands, once no stall holds a matrix command back (R327), save the engines' duties, save the images and what the C-dies hold and merge the L1Ds into the L2s, bring every
dirty line home, and seal the marker over its manifest; a withdrawn warning completes: it finishes the phases, resumes the
strands and answers RETRY to the requests that came meanwhile; the end of the hold-up completes: it loses what is not in HBM
unless the marker is sealed; the supply's return completes: it boots, and resumes the strands of a sealed marker or fails the
contexts; the auxiliary rail's end completes: it loses HBM. The form of what is saved and the zeros that fill the manifest up
are the model's (logs 69, 70). -/
def Obligations.Flashing : Prop :=
  ∀ s : State, MemoryOk s → LinesOk s → DirtyOk s →
    let c := s.ckpt
    (c.powered = false → exec .flashing s = .next s) ∧
    (c.powered = true → c.flashing = false → ∃ t, exec .flashing s = .next t ∧
      t = { s with mem := t.mem, ckpt := { c with
        warned := true, flashing := true, phases := 0, seq := c.seq + 1, twarn := s.pkg.time, manifest := []
        sealedSeq := 0, marker := false } } ∧
      (∀ x, ¬ inMarker x → memGet t.mem x = memGet s.mem x) ∧ Mirrored t ∧ markAt t 0 4 = 0x4D425A43 ∧ markAt t 4 2 = 0 ∧
      markAt t 6 2 = (c.seq + 1).toNat ∧ markAt t 8 8 = s.pkg.time % 2 ^ 64) ∧
    (c.powered = true → c.flashing = true →
      (c.phases = 0 → mxStalled s = false → ∃ t, exec .flashing s = .next t ∧ PhaseEnds s 1 t ∧
        ∀ k, (coreGet t k).mode = .vacant) ∧
      (c.phases = 0 → mxStalled s = true → ∃ t, exec .flashing s = .next t ∧ t.ckpt = c ∧ t.pkg.time = s.pkg.time + 1 ∧
        t.mem = s.mem ∧ ∀ k, (coreGet t k).mode = (coreGet s k).mode) ∧
      (c.phases = 1 → ∃ t, exec .flashing s = .next t ∧ PhaseEnds s 2 t ∧
        t = { s with mem := t.mem, poison := t.poison, ckpt := t.ckpt } ∧
        (∀ x, ¬ inMarker x → (∀ y ∈ s.svc.contexts, ¬ ((enginePart s y).1 ≤ x ∧ x < (enginePart s y).1 + (enginePart s y).2)) →
          memGet t.mem x = memGet s.mem x) ∧
        (PartsApart s → ∀ y ∈ s.svc.contexts, Saved (enginePart s y).1 (Machine.engineBytes s y) t)) ∧
      (c.phases = 2 → ∃ t, exec .flashing s = .next t ∧ PhaseEnds s 3 t ∧
        t = { s with
          mem := t.mem
          poison := t.poison
          clusters := t.clusters
          l2 := t.l2
          ckpt := t.ckpt
          svc := { s.svc with
            accounts := t.svc.accounts
            off := s.svc.off.map fun o => { o with strand := { o.strand with carved := [] } } } } ∧
        (∀ k, (clusterGet t k).l1 = []) ∧
        (FullLines s → ∀ k ∈ s.clusters, ∀ l ∈ k.2.l1, ∀ j < 64, l.mask.getLsbD j = true →
          InL2 s (dieOfCluster k.1) l.addr j t) ∧
        (PartsApart s → (∀ y ∈ s.svc.contexts, Saved (corePart s y).1 (coreBytes s y) t) ∧
          ∀ o ∈ s.svc.off, Saved o.strand.spillovf.toNat o.strand.image t)) ∧
      (c.phases = 3 → ∃ t, exec .flashing s = .next t ∧ PhaseEnds s 4 t ∧
        t = { s with mem := t.mem, poison := t.poison, l2 := [], dirty := [], ckpt := t.ckpt, svc := { s.svc with
          accounts := t.svc.accounts } } ∧
        (∀ x, ¬ inMarker x →
          ((∀ e ∈ s.l2, ∀ b, ¬ L2Dirty e x b) → memGet t.mem x = memGet s.mem x) ∧
          ((∃ e ∈ s.l2, ∃ b, L2Dirty e x b) → ∃ e ∈ s.l2, L2Dirty e x (memGet t.mem x))) ∧
        (∀ e ∈ s.l2, e.2.mask ≠ 0 → (e.2.addr, 64) ∈ t.ckpt.manifest) ∧
        ∀ e ∈ s.dirty, (e.addr, 64) ∈ t.ckpt.manifest) ∧
      (c.phases = 4 → c.manifest.length < 2 ^ 23 → ∃ t, exec .flashing s = .next t ∧ t.ckpt.phases = 5 ∧
        t.ckpt.sealedSeq = c.seq ∧ t.ckpt.marker = true ∧ t = { s with mem := t.mem, ckpt := t.ckpt } ∧ Mirrored t ∧ markAt t 0 4 = 0x4D425A43 ∧
        markAt t 4 2 = 15 ∧ markAt t 6 2 = c.seq.toNat ∧ markAt t 8 8 = c.twarn % 2 ^ 64 ∧
        markAt t 16 8 = s.pkg.time % 2 ^ 64 ∧ markAt t 24 8 % 2 ^ 52 = Config.manifestBase ∧
        markAt t 24 8 / 2 ^ 52 = (c.manifest.length + 4095) / 4096 ∧
        memRead t.mem (Config.ridgeCap + 32) 32 =
          Sm3.digest (memRead t.mem Config.manifestBase (65536 * ((c.manifest.length + 4095) / 4096))) ∧
        ∀ i < 4096 * ((c.manifest.length + 4095) / 4096), let e := c.manifest.getD i (0, 0)
          (memWord t.mem (Config.manifestBase + 16 * i)).toNat = e.1 % 2 ^ 64 ∧
            (memWord t.mem (Config.manifestBase + 16 * i + 8)).toNat = e.2 % 2 ^ 64) ∧
      (5 ≤ c.phases → ∃ t, exec .flashing s = .next t ∧ t = { s with ckpt := { c with phases := 6 } })) ∧
    (c.flashing = false → exec .warningWithdrawn s = .next s) ∧
    (c.flashing = true → s.svc.phase = .stopped →
      exec .warningWithdrawn s = .next { s with ckpt := { c with warned := false } }) ∧
    (c.flashing = true → s.svc.phase ≠ .stopped → ∃ t, exec .warningWithdrawn s = .next t ∧ t.ckpt.flashing = false ∧
      t.ckpt.warned = false ∧ (1 ≤ c.phases ∨ mxStalled s = false → 5 ≤ t.ckpt.phases) ∧
      (5 ≤ c.phases → s.svc.phase ≠ .running → t = { s with ckpt := { c with flashing := false, warned := false } }) ∧
      (s.svc.phase = .running → t.svc.deferred = [] ∧
        ∀ h ∈ s.svc.deferred, Message.answer h.kind 4 h.id h.ctx [] ∈ t.svc.messages) ∧
      ∀ o, 5 ≤ c.phases → s.svc.phase = .running → c.saved = [o.strand.spillovf] →
        s.svc.off.find? (fun p => p.strand.spillovf == o.strand.spillovf) = some o → CanReturn s o → Returned o t) ∧
    (c.powered = false ∨ c.flashing = false → exec .holdUpEnd s = .next s) ∧
    (c.powered = true → c.flashing = true → ∃ t, exec .holdUpEnd s = .next t ∧
      t.ckpt = { c with powered := false, flashing := false, warned := false } ∧
      t.svc = { s.svc with phase := .unbooted } ∧ t.pkg = s.pkg ∧
      (∀ x, memGet t.mem x = if 5 ≤ c.phases ∨ x < 2 ^ 62 then memGet s.mem x else 0) ∧
      (c.phases < 5 → (∀ k, coreGet t k = Core.vacant) ∧ t.cmds = [] ∧ t.clusters = [] ∧ t.l2 = [] ∧ t.out = [] ∧
        t.held = [])) ∧
    (c.powered = true → exec .supplyReturn s = .next s) ∧
    (c.powered = false → ∃ t, exec .supplyReturn s = .next t ∧ t.ckpt.powered = true ∧
      ((∀ b ∈ s.svc.flash.take 2, slotOk s b = false) → t = { s with
        ckpt := { c with powered := true }, svc := { s.svc with phase := .recovery, standby := false, svcDigest := 0 } }) ∧
      ∀ b, (s.svc.flash.take 2).find? (slotOk s) = some b → t.svc.phase = .running ∧
        t.svc.svcDigest = BitVec.ofNat 256 (bytesNat (Sm3.digest b.image)) ∧ t.ckpt.saved = [] ∧
        t.svc.standby = false ∧ (∀ h ∈ s.svc.deferred, Message.answer h.kind 4 h.id h.ctx [] ∈ t.svc.messages) ∧
        (markerSealed s (latestMarker s) = false → ∀ x ∈ s.svc.contexts, Message.failed x.tag ∈ t.svc.messages ∧
          ∀ k, (coreGet t k).mode ≠ .vacant → tagOf (coreGet t k).strand ≠ x.tag) ∧
        ∀ o, markerSealed s (latestMarker s) = true → c.saved = [o.strand.spillovf] →
          s.svc.off.find? (fun p => p.strand.spillovf == o.strand.spillovf) = some o → CanReturn s o → Returned o t) ∧
    (c.powered = true → exec .auxRailExpiry s = .next s) ∧
    (c.powered = false → ∃ t, exec .auxRailExpiry s = .next t ∧ t.mem = [] ∧ t.poison = [] ∧
      t.ckpt = { c with sealedSeq := 0, marker := false } ∧ t.svc = s.svc ∧ ∀ k, coreGet t k = Core.vacant)

/-! Requests to the resident service. -/

namespace Sys2Proof.Claims

/-- R411: an answer to a request. -/
def Replies (h : ReqHead) (kind status : BitVec 8) (ctx : Tag) (body : List Byte) (s t : State) : Prop :=
  t = { s with svc := { s.svc with messages := s.svc.messages ++ [.answer kind status h.id ctx body] } }

/-- R411 to R413: the service runs, is not flashing, hears this endpoint, supports all that the request needs, and the
request's header has the kind of its body. -/
def Serving (s : State) (h : ReqHead) (kind : BitVec 8) : Prop :=
  s.svc.phase = .running ∧ s.ckpt.flashing = false ∧ h.ep ≠ .unlisted ∧ h.needs = none ∧ h.kind = kind
/-- R327: no cluster is stalled. -/
def NothingStalled (s : State) : Prop := ∀ c, stalled s c = false
/-- R413: no request that names the same context waits. -/
def NoneAhead (s : State) (h : ReqHead) : Prop := ∀ j ∈ s.svc.waiting, ctxOf j ≠ some h.ctx
/-- R413: a request waits as the last one. -/
def Queued (i : Instr) (s t : State) : Prop := t = { s with svc := { s.svc with waiting := s.svc.waiting ++ [i] } }

/-- R334, R341: a record's eight doublewords stand at an address. -/
def RecordAt (s : State) (a : Nat) (r : ORec) (t : State) : Prop :=
  t = { s with mem := t.mem, poison := t.poison } ∧ (∀ i < 8, memWord t.mem (a + 8 * i) = r.dw i) ∧ Outside s a 64 t

/-- R180: the storage that a new object needs: its bytes, its map or its root. -/
def storageOf (r : ORec) : Nat :=
  if r.kind = kMAPPED then 8 * ((r.bytes + r.subTile - 1) / r.subTile) else if r.kind = kSPARSE then 512 else r.bytes
/-- R338, R339: the bases of the sub-tiles that a map makes resident, by number. -/
def tilesOf (r : ORec) (map : List Word) : List (Nat × Nat) :=
  (List.range ((r.bytes + r.subTile - 1) / r.subTile)).filterMap fun i =>
    let e := map.getD i 0
    let pa := slice e 12 40 * 4096
    if bitOf e 63 = true ∧ slice e 52 11 = 0 ∧ slice e 0 12 = 0 ∧ pa % r.subTile = 0 then some (i, pa) else none
/-- The bytes that sub-tile `i` of an object holds. -/
def tileLength (r : ORec) (i : Nat) : Nat := min r.subTile (r.bytes - i * r.subTile)
/-- The places of a new MAPPED object: its map, the shadow's map and its resident sub-tiles. -/
def newParts (r : ORec) (map : List Word) : List (Nat × Nat) :=
  (r.place, storageOf r) :: ((if r.sh then [(r.shadow, storageOf r)] else []) ++
    (tilesOf r map).map fun e => (e.2, tileLength r e.1))

/-- R180, R411: the storage of a new object holds its map, its initial image and then zero, and its shadow zero; the initial
image of a sparse volume is in leaves that the service gave it (R368, log 30). -/
structure StoragePlaced (s : State) (r : ORec) (map : List Word) (init : List Byte) (t : State) : Prop where
  rest : t = { s with
    mem := t.mem
    empty := t.empty
    poison := t.poison
    clusters := t.clusters
    l2 := t.l2
    dirty := t.dirty
    svc := { s.svc with accounts := t.svc.accounts, paged := t.svc.paged } }
  paged : ∀ e ∈ t.svc.paged, e ∈ s.svc.paged
  caches : ∀ c, clusterGet t c = { clusterGet s c with l1 := (clusterGet t c).l1 }
  sparse : r.kind = kSPARSE → ∀ j < init.length,
    let leaf := slice (memWord t.mem (leafEntry t (j / (4096 * r.elem)) (r.levels - 1) r.place)) 0 52
    leaf ∈ map.map (·.toNat) ∧ memGet t.mem (leaf + j % (4096 * r.elem)) = init.getD j 0
  plain : r.kind ≠ kMAPPED → (r.kind = kSPARSE → init = []) → ∀ x, memGet t.mem x =
    if r.place ≤ x ∧ x < r.place + storageOf r then init.getD (x - r.place) 0
    else if r.sh = true ∧ r.shadow ≤ x ∧ x < r.shadow + storageOf r then 0 else memGet s.mem x
  mapped : r.kind = kMAPPED → (newParts r map).Pairwise (fun x y => x.1 + x.2 ≤ y.1 ∨ y.1 + y.2 ≤ x.1) →
    (∀ i < (r.bytes + r.subTile - 1) / r.subTile, memWord t.mem (r.place + 8 * i) = map.getD i 0) ∧
    (∀ e ∈ tilesOf r map, ∀ j < tileLength r e.1, memGet t.mem (e.2 + j) = init.getD (e.1 * r.subTile + j) 0) ∧
    (r.sh = true → ∀ j < storageOf r, memGet t.mem (r.shadow + j) = 0) ∧
    ∀ x, (∀ p ∈ newParts r map, ¬ (p.1 ≤ x ∧ x < p.1 + p.2)) → memGet t.mem x = memGet s.mem x

/-- R341: a record is installed for an object of a context, and every cached version of it is gone. -/
def Installed (s : State) (x : Context) (n : BitVec 18) (r : ORec) (t : State) : Prop :=
  ∃ a q, recordAddr x.ortBase n = some a ∧ RecordAt s a r q ∧ VersionsGone q x.part x.tag (some n) t

/-- R334, R260: the record of a handle. -/
def handleRecord (dev : BitVec 32) (ldev : BitVec 3) (ctx : Tag) (obj : BitVec 18) (rd w at_ ew : Bool) (grant : Nat) : ORec :=
  [W (2 ^ 63 + 5 * 2 ^ 60 + ew.toNat * 2 ^ 46 + at_.toNat * 2 ^ 45 + w.toNat * 2 ^ 44 + rd.toNat * 2 ^ 43),
    W (ldev.toNat * 2 ^ 32 + dev.toNat), W (obj.toNat * 2 ^ 44 + ctx.toNat), W (grant % 2 ^ 45), 0, 0, 0, 0]

/-- R293: the record of a donation ring of slots of 64 bytes. -/
def donationRing (q : DonReq) (part : BitVec 3) : ORec :=
  [W (2 ^ 63 + 3 * 2 ^ 60 + 15 * 2 ^ 43 + part.toNat * 2 ^ 37), W (2 ^ 32 + 1), W (2 ^ 32 + 1), q.place,
    W (3 * 2 ^ 20 + q.slots.toNat), 0, 0, 0]

/-- R180: what a CREATE clears: the table, the join records, the overflow areas of the deques (R279) and the shared read
regions. -/
def clearedBy (cr : CreateReq) : List (Nat × Nat) :=
  (slice cr.ortBase 12 40 * 4096, 64 * (2 ^ slice cr.ortBase 52 5 + 4096)) ::
    (cr.pools.flatMap fun e => e.2.map fun o => (sramBase e.1 + o, 16)) ++
    (cr.ovf.map fun e => (sramBase (clusterOf e.1) + e.2.1, 32 * e.2.2)) ++
    cr.regions.map fun e => (spBase e.1 + slice e.2.2 0 21, slice e.2.2 32 21 - slice e.2.2 0 21)
/-- R24, R411: a context has been created. -/
structure Created (s : State) (cr : CreateReq) (tag : Tag) (m : State) : Prop where
  rest : m = { s with
    mem := m.mem
    empty := m.empty
    poison := m.poison
    clusters := m.clusters
    l2 := m.l2
    dirty := m.dirty
    core := m.core
    others := m.others
    pkg := { s.pkg with mode := m.pkg.mode }
    svc := { s.svc with
      accounts := m.svc.accounts
      contexts := s.svc.contexts ++ [{
        tag := tag, part := cr.part, mode := cr.mode, limit := cr.limit, hold := cr.hold, solo := cr.solo,
        weight := cr.weight, ortBase := cr.ortBase, image := cr.image, images := cr.images, groups := cr.groups,
        layouts := cr.layouts, saveArea := cr.saveArea, ovf := cr.ovf, dring := 0, args := 0, pools := cr.pools,
        areas := cr.pools, cores := [], launches := [], held := [], strands := 0 }] } }
  mem : ∀ b, memGet m.mem b = if ∃ z ∈ clearedBy cr, z.1 ≤ b ∧ b < z.1 + z.2 then 0 else memGet s.mem b
  cores : ∀ j, coreGet m j = { coreGet s j with spshr := (coreGet m j).spshr }
  awake : ∀ d : DieId, m.pkg.mode[d.toNat] =
    if s.pkg.mode[d.toNat] = .off ∧ ∃ e ∈ cr.regions, dieOf e.1 = d then .active else s.pkg.mode[d.toNat]
  regions : ∀ j (i : Fin 4), (coreGet m j).spshr[i] =
    (((cr.regions.filter fun e => decide (e.1 = j ∧ e.2.1.toNat = i.val)).getLast?).map (·.2.2)).getD (coreGet s j).spshr[i]

/-- R297, R299, R377: a context can place another strand on a core: it has an image left, and a share waits there or there is
room for one of its layouts. -/
def CanPlace (s : State) (x : Context) (k : CoreId) : Prop :=
  x.strands < x.images ∧ ((∃ h ∈ x.held, h.core = k ∧ h.strand = 0) ∨ ∃ lay ∈ x.layouts, layoutFree s k lay = true)
/-- R297 to R299: a core that can take a root task at once: its strand of the context is idle with an empty deque, or it is
vacant and a strand can be placed, or the strand of another context on it can be pre-empted for that. -/
inductive TakesRoot (s : State) (x : Context) (k : CoreId) : Prop where
  | idle : (coreGet s k).mode = .idle → (coreGet s k).deque = [] → tagOf (coreGet s k).strand = x.tag → TakesRoot s x k
  | vacant : (coreGet s k).mode = .vacant → CanPlace s x k → TakesRoot s x k
  | other (v) : (coreGet s k).mode = .running ∨ (coreGet s k).mode = .idle → tagOf (coreGet s k).strand ≠ x.tag →
      Stoppable s k → exec (.preemption k) s = .next v → CanPlace v x k → TakesRoot s x k

/-- R297: a root task has been started: its strand's registers, its launch record in cluster SRAM, and the launch that the
context keeps until the task returns; the argument address is in g3 of every strand of the context. -/
structure RootStarted (s : State) (h : ReqHead) (lr : LaunchReq) (k : CoreId) (x : Context) (q : Nat) (rest : List Nat)
    (t : State) : Prop where
  mode : (coreGet t k).mode = .running
  strand : let u := (coreGet t k).strand
    u.pc = lr.entry ∧ u.prio = W lr.cls.toNat ∧ u.mhold = W lr.hold.toNat ∧ u.hbeat = 0 ∧ tagOf u = x.tag ∧
      u.wdmode = W (x.mode.toNat * 2 ^ 62 + x.limit.toNat) ∧ u.mweight = W (x.weight.toNat + x.solo.toNat * 256) ∧
      u.readG 1 = joinName s (sramBase (clusterOf k) + q) ∧
      u.readG 2 = globalAt s k (slice (coreGet t k).ftop 0 21)
  args : ∀ j, (coreGet t j).mode ≠ .vacant → tagOf (coreGet t j).strand = x.tag → (coreGet t j).strand.readG 3 = lr.args
  offArgs : ∀ o ∈ t.svc.off, tagOf o.strand = x.tag → o.strand.readG 3 = lr.args ∧
    ∀ b, o.edited = some b → b.length = 0x3000 → imgWord b 0x2018 = lr.args
  record : memRead t.mem (sramBase (clusterOf k) + q) 16 = natBytes 8 1 ++ natBytes 8 8
  context : ∃ y, contextGet t x.tag = some y ∧ y.args = lr.args ∧
    y.launches = x.launches ++ [(h.id, sramBase (clusterOf k) + q)]
  pool : Machine.poolAt t x.tag (clusterOf k) = rest
  awake : t.pkg.mode[(dieOf k).toNat] = .active

/-- R353, R180, R413: a context has ended: nothing of it is left, the cluster SRAM that it had or wrote is zero, its launches and the requests of it that waited are answered. -/
structure ContextGone (s : State) (x : Context) (m : State) : Prop where
  gone : contextGet m x.tag = none
  others : ∀ u, u ≠ x.tag → contextGet m u = contextGet s u
  strands : ∀ j, (coreGet m j).mode ≠ .vacant → tagOf (coreGet m j).strand ≠ x.tag
  off : ∀ e ∈ m.svc.off, e.ctx ≠ x.tag
  versions : ∀ c v, partOfDie s (dieOfCluster c) = x.part → cachedRecord m c x.tag v = none
  windows : ∀ j i, (windowGet m j i).ctx = x.tag → (windowGet m j i).st = .free
  sram : (∀ e ∈ s.sramBy, e.2 = x.tag → memGet m.mem e.1 = 0) ∧
    ∀ e ∈ x.sramAreas, ∀ i < e.2, memGet m.mem (e.1 + i) = 0
  waiting : ∀ j ∈ m.svc.waiting, ctxOf j ≠ some x.tag
  launches : ∀ l ∈ x.launches, Message.answer 0x04 0x02 l.1 x.tag [] ∈ m.svc.messages
  requests : ∀ j ∈ s.svc.waiting, ∀ k h, ctxOf j = some x.tag → headOf j = some (k, h) →
    Message.answer k 0x02 h.id h.ctx [] ∈ m.svc.messages

end Sys2Proof.Claims

/-- R411, R413, R24, R297 to R299, R260, R293, R407, R353: CREATE completes: it makes a context with the lowest free tag, an
empty table, cleared join records and shared read regions; DEFINE completes: it installs a record over cleared storage with its
map and initial image; LOAD completes: it puts bytes in an object, a shared read region or a share; LAUNCH completes: it starts a
root task on the core it names, or on one that the service chooses (whose order is the model's, log 88; that running strands take the argument address too is the reading of log 75); IMPORT completes:
it installs a handle or is refused; DONSETUP completes: it makes a donation ring and the donor's handle; RESUME completes: it
returns a held strand; END completes: it ends a context. A request that cannot be performed yet, or whose context has another
ahead of it, waits (log 27). -/
def Obligations.ContextRequests : Prop :=
  ∀ (s : State) (h : ReqHead) (cr : CreateReq) (n : BitVec 18) (r : ORec) (map : List Word) (init : List Byte) (lr : LaunchReq)
    (im : ImportReq) (dn : DonReq) (img : Word) (limit : BitVec 48) (o : Nat) (k : CoreId), MemoryOk s → LinesOk s →
    (Serving s h 0x01 →
      let good := (cr.mode = 1 ∨ cr.mode = 2) ∧ 100 ≤ cr.limit.toNat ∧ diesOf s cr.part ≠ [] ∧ layoutFits cr s = true
      (∀ tag : Tag, good → contextGet s tag = none → (∀ u, u.toNat < tag.toNat → contextGet s u ≠ none) →
        ∃ m t, exec (.create h cr) s = .next t ∧ Replies h 0x01 0x00 tag [] m t ∧ Created s cr tag m) ∧
      (good → (∀ u, contextGet s u ≠ none) → ∃ t, exec (.create h cr) s = .next t ∧ Replies h 0x01 0x03 h.ctx [] s t) ∧
      (¬ good → ∃ t, exec (.create h cr) s = .next t ∧ Replies h 0x01 0x02 h.ctx [] s t)) ∧
    (NoneAhead s h → contextGet s h.ctx = none → ∀ j kind, Serving s h kind →
      (j = .define h n ⟨r, map⟩ init ∧ kind = 0x02) ∨ (∃ d, j = .load h d init ∧ kind = 0x03) ∨
      (j = .launch h lr ∧ kind = 0x04) ∨ (j = .importPeer h im ∧ kind = 0x05) ∨ (j = .donsetup h dn ∧ kind = 0x06) ∨
      (j = .endCtx h ∧ kind = 0x0A) → ∃ t, exec j s = .next t ∧ Replies h kind 0x02 h.ctx [] s t) ∧
    (∀ j kind, Serving s h kind → headOf j = some (kind, h) → j ∉ s.svc.waiting → ¬ NoneAhead s h →
      (kind = 0x0A → ∀ q lq, .launch q lq ∈ s.svc.waiting → q.ctx ≠ h.ctx) →
      ∃ t, exec j s = .next t ∧ Queued j s t) ∧
    (∀ x, contextGet s h.ctx = some x → NoneAhead s h →
      (Serving s h 0x02 →
        let good := r.length = 8 ∧ n.toNat < 0x3F000 ∧ (recordAddr x.ortBase n).isSome ∧ r.ok s n = true ∧ r.part = x.part ∧
          besideOk s x r map init = true
        let placed := placeObject s r map
        let fits := (placeImage r init (map.map (·.toNat)) placed).isSome ∧ ∀ y ∈ objectRanges placed r, placeOk s x.part y = true
        (good → fits → ∃ p m t, exec (.define h n ⟨r, map⟩ init) s = .next t ∧ StoragePlaced s r map init p ∧
          Installed p x n r m ∧ Replies h 0x02 0x00 h.ctx [] m t) ∧
        (¬ good ∨ ¬ fits → ∃ t, exec (.define h n ⟨r, map⟩ init) s = .next t ∧ Replies h 0x02 0x02 h.ctx [] s t)) ∧
      (Serving s h 0x03 →
        (∀ q ps, n.toNat < 0x3F000 → lookup s (serviceAgent s x) n (W (n.toNat * 2 ^ 44 + o)) = .ok q →
          objectSpan s (serviceAgent s x) (W (n.toNat * 2 ^ 44 + o)) q init.length .ewrite = .ok ps →
          ∃ m t, exec (.load h (.object n o) init) s = .next t ∧ Replies h 0x03 0x00 h.ctx [] m t ∧
            (ps.Pairwise (fun y z => y.key + y.len ≤ z.key ∨ z.key + z.len ≤ y.key) →
              (∀ p ∈ ps, p.key / 64 = (p.key + p.len - 1) / 64) →
              (ps.map fun p => memRead m.mem p.key p.len).flatten = init) ∧
            (∀ b, (∀ p ∈ ps, ∀ j < p.len, lineOf b ≠ lineOf (p.key + j)) → (∀ p ∈ ps, 0 < p.len) →
              memGet m.mem b = memGet s.mem b) ∧
            m.core = s.core ∧ m.others = s.others) ∧
        (coreServes s x k = true → inRegion s k o init.length = true ∨ (∃ e ∈ x.held, e.core = k ∧ layHolds e.lay o init.length = true) →
          ∃ m t, exec (.load h (.scratch k o) init) s = .next t ∧ Replies h 0x03 0x00 h.ctx [] m t ∧
            memRead m.mem (spBase k + o) init.length = init ∧ Outside s (spBase k + o) init.length m ∧
            contextGet m x.tag = some x ∧ m.pkg.mode[(dieOf k).toNat] ≠ .off) ∧
        (∀ lay, coreServes s x k = true → inRegion s k o init.length = false →
          (∀ e ∈ x.held, ¬ (e.core = k ∧ layHolds e.lay o init.length = true)) →
          x.layouts.find? (fun l => layHolds l o init.length && layoutFree s k l) = some lay →
          ∃ m t y, exec (.load h (.scratch k o) init) s = .next t ∧ Replies h 0x03 0x00 h.ctx [] m t ∧
            memRead m.mem (spBase k + o) init.length = init ∧
            (∀ b, lay.shareBase ≤ b → b < lay.shareLimit → b < o ∨ o + init.length ≤ b → memGet m.mem (spBase k + b) = 0) ∧
            (∀ b, b < spBase k + lay.shareBase ∨ spBase k + lay.shareLimit ≤ b → memGet m.mem b = memGet s.mem b) ∧
            contextGet m x.tag = some y ∧ (⟨k, 0, lay⟩ : Share) ∈ y.held) ∧
        (coreServes s x k = false ∨ (inRegion s k o init.length = false ∧
            (∀ e ∈ x.held, ¬ (e.core = k ∧ layHolds e.lay o init.length = true)) ∧
            ∀ l ∈ x.layouts, ¬ (layHolds l o init.length = true ∧ layoutFree s k l = true)) →
          ∃ t, exec (.load h (.scratch k o) init) s = .next t ∧ Replies h 0x03 0x02 h.ctx [] s t)) ∧
      (Serving s h 0x04 →
        let named := ∀ j, lr.core = some j → coreServes s x j = true
        (∀ j, launchCore s x lr = some j → lr.core = some j ∨
          (lr.core = none ∧ coreServes s x j = true ∧ Machine.poolAt s x.tag (clusterOf j) ≠ [])) ∧
        (∀ j q rest, lr.entry.toNat % 64 = 0 → named → launchCore s x lr = some j → TakesRoot s x j →
          Machine.poolAt s x.tag (clusterOf j) = q :: rest →
          ∃ t, exec (.launch h lr) s = .next t ∧ RootStarted s h lr j x q rest t ∧
            (lr.idle = [] → t.svc.messages = s.svc.messages)) ∧
        (lr.entry.toNat % 64 ≠ 0 ∨ ¬ named → ∃ t, exec (.launch h lr) s = .next t ∧ Replies h 0x04 0x02 h.ctx [] s t) ∧
        (lr.entry.toNat % 64 = 0 → named → launchCore s x lr = none ∨ (∃ j, launchCore s x lr = some j ∧
            Machine.poolAt s x.tag (clusterOf j) = []) →
          ∃ t, exec (.launch h lr) s = .next t ∧ Replies h 0x04 0x03 h.ctx [] s t) ∧
        (∀ j, lr.entry.toNat % 64 = 0 → named → launchCore s x lr = some j →
          Machine.poolAt s x.tag (clusterOf j) ≠ [] →
          ((coreGet s j).mode = .vacant → ¬ CanPlace s x j →
            (hasOff s x.tag j = false → ∃ t, exec (.launch h lr) s = .next t ∧ Replies h 0x04 0x03 h.ctx [] s t) ∧
            (hasOff s x.tag j = true → ∃ t, exec (.launch h lr) s = .next t ∧ Queued (.launch h lr) s t)) ∧
          ((coreGet s j).mode ≠ .vacant → tagOf (coreGet s j).strand = x.tag →
            ¬ ((coreGet s j).mode = .idle ∧ (coreGet s j).deque = []) →
            ∃ t, exec (.launch h lr) s = .next t ∧ Queued (.launch h lr) s t))) ∧
      (Serving s h 0x05 →
        (im.granted = true → (recordAddr x.ortBase (BitVec.ofNat 18 (0x3F000 + im.num.toNat))).isSome →
          ∃ m t, exec (.importPeer h im) s = .next t ∧ Replies h 0x05 0x00 h.ctx [] m t ∧
          Installed s x (BitVec.ofNat 18 (0x3F000 + im.num.toNat)) (handleRecord im.dev im.ldev im.ctx im.obj
            (im.perms.getLsbD 0) (im.perms.getLsbD 1) (im.perms.getLsbD 2) (im.perms.getLsbD 3) im.grant.toNat) m) ∧
        (im.granted = false → ∃ t, exec (.importPeer h im) s = .next t ∧ Replies h 0x05 0x05 h.ctx [] s t)) ∧
      (Serving s h 0x06 →
        let ring := donationRing dn x.part
        let good := dn.ringObj.toNat < 0x3F000 ∧ ring.ok s dn.ringObj = true ∧ (recordAddr x.ortBase dn.ringObj).isSome ∧
          placeOk s x.part (ring.place, ring.bytes) = true
        let dr := W (dn.ringObj.toNat * 2 ^ 44)
        let hn := BitVec.ofNat 18 (0x3F000 + dn.handle.toNat)
        (good → ∃ p m u w t, exec (.donsetup h dn) s = .next t ∧ Replies h 0x06 0x00 h.ctx [] w t ∧
          StoragePlaced s ring [] [] p ∧ Installed p x dn.ringObj ring m ∧
          (∀ j, coreGet u j = if (coreGet m j).mode ≠ .vacant ∧ tagOf (coreGet m j).strand = x.tag then
            { coreGet m j with dring := dr } else coreGet m j) ∧ u.mem = m.mem ∧
          contextGet u x.tag = some { x with dring := dr } ∧
          (contextGet s dn.donor = none → w = u) ∧
          ∀ y, contextGet s dn.donor = some y → dn.donor ≠ x.tag → (recordAddr y.ortBase hn).isSome →
            Installed u y hn (handleRecord dn.dev dn.ldev x.tag dn.ringObj false false true true ring.bytes) w) ∧
        (¬ good → ∃ t, exec (.donsetup h dn) s = .next t ∧ Replies h 0x06 0x02 h.ctx [] s t)) ∧
      (Serving s h 0x09 → ∀ e, s.svc.off.find? (fun y => y.strand.spillovf == img) = some e → e.why = .held → e.ctx = h.ctx →
        (¬ Vacant s e.core → slice e.strand.wdmode 62 2 = 2 →
          ∃ t, exec (.resume h img limit) s = .next t ∧ Queued (.resume h img limit) s t) ∧
        (Vacant s e.core → slice e.strand.wdmode 62 2 = 2 → ∀ y, (e.poke 0x2880 fun z => z &&& 0xFFFF000000000000).edited = some y →
          imageOk y = false → ∃ m t, exec (.resume h img limit) s = .next t ∧ Replies h 0x09 0x00 h.ctx [] m t ∧
            Message.imageRefused e.ctx img 0x16 ∈ m.svc.messages ∧ ∀ j, coreGet m j = coreGet s j) ∧
        (Vacant s e.core → slice e.strand.wdmode 62 2 = 2 → e.edited = none →
          ∃ m t u, exec (.resume h img limit) s = .next t ∧ Replies h 0x09 0x00 h.ctx [] m t ∧
            Placed e u e.core e.strand.epc m ∧ u = { e.strand with hbeat := u.hbeat } ∧ u.hbeat.toNat % 2 ^ 48 = 0 ∧
            u.hbeat.toNat / 2 ^ 48 = e.strand.hbeat.toNat / 2 ^ 48) ∧
        (Vacant s e.core → slice e.strand.wdmode 62 2 = 1 → e.edited = none → e.strand.wdmode.toNat % 2 ^ 48 < limit.toNat →
          ∃ m t u, exec (.resume h img limit) s = .next t ∧ Replies h 0x09 0x00 h.ctx [] m t ∧
            Placed e u e.core e.strand.epc m ∧ u = { e.strand with wdmode := u.wdmode } ∧
            u.wdmode.toNat % 2 ^ 48 = limit.toNat ∧ u.wdmode.toNat / 2 ^ 48 = e.strand.wdmode.toNat / 2 ^ 48)) ∧
      (Serving s h 0x0A → (∃ y ∈ s.out, y.ctx = x.tag) → ∃ t, exec (.endCtx h) s = .next t ∧ .endCtx h ∈ t.svc.waiting ∧
        (∀ j, (coreGet t j).mode ≠ .vacant → tagOf (coreGet t j).strand ≠ x.tag) ∧ ∃ y, contextGet t x.tag = some y)) ∧
    (∀ x, contextGet s h.ctx = some x → Serving s h 0x0A → x.tag = h.ctx →
      (NoneAhead s h ∨ ∃ q lq, .launch q lq ∈ s.svc.waiting ∧ q.ctx = h.ctx) →
      .endCtx h ∉ s.svc.waiting → NothingStalled s →
      (∀ c ∈ s.cmds, c.ctx ≠ x.tag) → (∀ y ∈ s.out, y.ctx ≠ x.tag) → ∃ m t, exec (.endCtx h) s = .next t ∧
        Replies h 0x0A 0x00 h.ctx [] m t ∧ ContextGone s x m) ∧
    (NoneAhead s h → Serving s h 0x09 → (∀ e, s.svc.off.find? (fun y => y.strand.spillovf == img) = some e → e.why ≠ .held ∨ e.ctx ≠ h.ctx ∨
        (slice e.strand.wdmode 62 2 = 1 ∧ limit.toNat ≤ e.strand.wdmode.toNat % 2 ^ 48)) →
      ∃ t, exec (.resume h img limit) s = .next t ∧ Replies h 0x09 0x02 h.ctx [] s t)

namespace Sys2Proof.Claims

/-- R411, R412: a request with its kind, and whether only an operator may make it. -/
inductive RequestForm : Instr → ReqHead → BitVec 8 → Bool → Prop where
  | create (h q) : RequestForm (.create h q) h 0x01 false
  | define (h n r m b) : RequestForm (.define h n ⟨r, m⟩ b) h 0x02 false
  | load (h d b) : RequestForm (.load h d b) h 0x03 false
  | launch (h q) : RequestForm (.launch h q) h 0x04 false
  | importPeer (h q) : RequestForm (.importPeer h q) h 0x05 false
  | donsetup (h q) : RequestForm (.donsetup h q) h 0x06 false
  | query (h q) : RequestForm (.query h q) h 0x07 false
  | attest (h n) : RequestForm (.attest h n) h 0x08 false
  | resume (h i l) : RequestForm (.resume h i l) h 0x09 false
  | endCtx (h) : RequestForm (.endCtx h) h 0x0A false
  | partition (h p) : RequestForm (.partition h p) h 0x0B true
  | timeout (h l u) : RequestForm (.timeout h l u) h 0x0B true
  | budget (h d b x y) : RequestForm (.budget h d b x y) h 0x0B true
  | clock (h u r f) : RequestForm (.clock h u r f) h 0x0B true
  | diestate (h d m) : RequestForm (.diestate h d m) h 0x0B true
  | port (h p b) : RequestForm (.port h p b) h 0x0B true

/-- R410, R399, R1: the clusters, S-dies and C-dies mapped out, those that the part never had left aside. -/
def mappedOut (s : State) : Nat :=
  let dies : List DieId := (List.range 8).map (BitVec.ofNat 3)
  let most := if s.pkg.bin.getLsbD 0 then 18 else 20
  (dies.map fun d => most - (s.pkg.mesh[d.toNat]).length).sum % 256 +
    2 ^ 8 * ((dies.filter fun d => !s.pkg.bin.getLsbD 1 && !s.pkg.sdie[d.toNat]).length % 16) +
    2 ^ 12 * ((dies.filter fun d => s.pkg.mapOutDie[d.toNat]).length % 16)
/-- R376: CAPS as a core of die 0 of a logical device reads it, and its DIECAP. -/
def capsWord (s : State) (p : BitVec 3) : Nat :=
  p.toNat * 2 ^ 24 + 8 * 2 ^ 16 + (((diesOf s p).head?).map fun d => (s.pkg.mesh[d.toNat]).length).getD 0 * 2 ^ 8 +
    (diesOf s p).length
def dieCapWord (s : State) (p : BitVec 3) : Nat := (W (packNat 8 ((diesOf s p).map fun d => (s.pkg.mesh[d.toNat]).length))).toNat
/-- R410: bytes 0 to 127 of a report, field by field. -/
def Attests (s : State) (nonce : BitVec 256) (b : List Byte) : Prop :=
  b.length = 128 ∧ fieldAt b 0 4 = 0x4D425A41 ∧ fieldAt b 4 4 = 1 ∧ fieldAt b 8 32 = nonce.toNat ∧
    (b.drop 40).take 16 = (Sm3.digest (Sm2.publicKey Config.idPrivate.toNat)).take 16 ∧
    fieldAt b 56 32 = (if s.svc.phase = .running then s.svc.svcDigest.toNat else 0) ∧
    fieldAt b 88 4 = s.svc.fusedRollback % 2 ^ 32 ∧ fieldAt b 92 4 = s.pkg.bin.toNat ∧
    fieldAt b 96 8 = capsWord s 0 % 2 ^ 64 ∧ fieldAt b 104 2 = mappedOut s ∧
    fieldAt b 106 2 = s.ckpt.sealedSeq.toNat ∧ fieldAt b 108 8 = dieCapWord s 0 ∧ fieldAt b 116 12 = 0
/-- R411, R354, R257: the body of a QUERY answer: doublewords in the order in which the spec names their contents; the bytes of
HBM left count a stack as 32 channels of 2 GiB (log 65). -/
def queryWords (s : State) (h : ReqHead) : QuerySel → List Nat
  | .accounting => match s.svc.accounts.find? (fun x => x.tag == h.ctx) with
    | some a => [a.fills, a.writeBacks, a.tokens]
    | none => [0, 0, 0]
  | .discards => s.svc.discards.toList
  | .capacities =>
    let ds : List (BitVec 3) := (List.range 8).map (BitVec.ofNat 3)
    (ds.flatMap fun p => [capsWord s p, dieCapWord s p]) ++
      (ds.map fun d => if s.pkg.sdie[d.toNat] = true then 0x100000 else 0x80000) ++
      [mappedOut s, (256 - s.pkg.hbmOut.length) * 2 ^ 31]
  | .bin => []
  | .checkpoint => [s.ckpt.seq.toNat, s.ckpt.phases, s.ckpt.sealedSeq.toNat]

/-- R327: the ratios and the frequencies that each allows. -/
def ClockOk (r : BitVec 2) (f : BitVec 8) : Prop :=
  (r = 0 ∧ (f = 40 ∨ f = 36 ∨ f = 32 ∨ f = 28)) ∨ (r = 1 ∧ (f = 24 ∨ f = 20 ∨ f = 16)) ∨ (r = 2 ∧ (f = 8 ∨ f = 6 ∨ f = 4))

/-- R329: a strand stands on a core of a die; a live context has occupied one, or holds a share there. -/
def Standing (s : State) (d : DieId) : Prop := ∃ k, dieOf k = d ∧ (coreGet s k).mode ≠ .vacant
/-- R329: a strand runs on a die, an idle one set aside. -/
def Running (s : State) (d : DieId) : Prop :=
  ∃ k, dieOf k = d ∧ (coreGet s k).mode ≠ .vacant ∧ (coreGet s k).mode ≠ .idle
def Occupied (s : State) (d : DieId) : Prop :=
  ∃ x ∈ s.svc.contexts, (∃ k ∈ x.cores, dieOf k = d) ∨ ∃ e ∈ x.held, dieOf e.core = d
/-- R412: a live context occupies a die: with a core, a share or a join record there, or memory in its stack. -/
def Inhabited (s : State) (d : DieId) : Prop :=
  ∃ x ∈ s.svc.contexts, (∃ k ∈ x.cores, dieOf k = d) ∨ (∃ e ∈ x.held, dieOf e.core = d) ∨
    (∃ e ∈ x.areas, dieOfCluster e.1 = d) ∨ hbmUsed s x (d.toNat * 2 ^ 36, 2 ^ 36) = true

/-- R408: the service that a slot of the boot flash starts, or none. -/
def Booted (s : State) (t : State) : Prop :=
  (∀ b, (s.svc.flash.take 2).find? (slotOk s) = some b → t = { s with svc := { s.svc with
      phase := .running
      standby := false
      svcDigest := BitVec.ofNat 256 (bytesNat (Sm3.digest b.image)) } }) ∧
    ((∀ b ∈ s.svc.flash.take 2, slotOk s b = false) → t = { s with svc := { s.svc with
      phase := .recovery
      standby := false
      svcDigest := 0 } })
/-- R408 steps 2 and 3: a slot whose image may be started: its key has the fused hash, its signature verifies over the
image's digest, and its rollback number is not below the fused counter. -/
def SlotGood (s : State) (b : BootSlot) : Prop :=
  let key := natBytes 64 b.key.toNat
  BitVec.ofNat 256 (bytesNat (Sm3.digest key)) = s.svc.vendorKey ∧
    Sm2.slotVerifies (Sm3.digest b.image) key (natBytes 64 b.sig.toNat) = true ∧ s.svc.fusedRollback ≤ b.rollback

end Sys2Proof.Claims

/-- R408, R410 to R413, R327, R329, R257, R258, R325, R399: the boot completes, at power-on and at a reset (log 85): it runs the first good slot or recovers (what
SM2 leaves to its standard is log 64, and so are the identity and the random number of a report's signature, log 18); a request is not heard before the boot; it is denied to those who may not make it and in
recovery but for QUERY and ATTEST; one that needs an unsupported part is answered so, its body naming the part (log 66), one of
no kind BADARG; one that comes during flashing is kept until the service resumes; QUERY and ATTEST complete with what they
report; an operator's CONFIG completes: PARTITION of free dies, TIMEOUT, BUDGET, CLOCK, DIESTATE and PORT, within their limits. -/
def Obligations.OperatorRequests : Prop :=
  ∀ (s : State) (h : ReqHead), MemoryOk s →
    (s.ckpt.powered = false ∨ s.ckpt.flashing = true ∨ s.svc.phase = .stopped → exec .boot s = .next s) ∧
    (s.ckpt.powered = true → s.ckpt.flashing = false → s.svc.phase ≠ .stopped → ∃ t, exec .boot s = .next t ∧ Booted s t) ∧
    (∀ b, slotOk s b = true ↔ SlotGood s b) ∧
    (∀ i kind op, RequestForm i h kind op →
      (s.svc.phase = .unbooted ∨ s.svc.phase = .stopped → exec i s = .next s) ∧
      (s.svc.phase = .recovery → ¬ (h.kind = kind ∧ (kind = 0x07 ∨ kind = 0x08)) →
        ∃ t, exec i s = .next t ∧ Replies h h.kind 0x05 h.ctx [] s t) ∧
      (s.svc.phase = .running →
        (s.ckpt.flashing = true → exec i s = .next { s with svc := { s.svc with deferred := s.svc.deferred ++ [h] } }) ∧
        (s.ckpt.flashing = false → h.ep = .unlisted → ∃ t, exec i s = .next t ∧ Replies h h.kind 0x05 h.ctx [] s t) ∧
        (∀ w, s.ckpt.flashing = false → h.ep ≠ .unlisted → h.needs = some w → ∃ t, exec i s = .next t ∧
          Replies h h.kind 0x01 h.ctx [match w with | .rudi => 0 | .uud => 1 | .security => 2] s t) ∧
        (s.ckpt.flashing = false → h.ep ≠ .unlisted → h.needs = none → h.kind = 0 ∨ 0x0B < h.kind.toNat →
          ∃ t, exec i s = .next t ∧ Replies h h.kind 0x02 h.ctx [] s t) ∧
        (Serving s h kind → op = true → h.ep ≠ .operator → ∃ t, exec i s = .next t ∧ Replies h kind 0x05 h.ctx [] s t))) ∧
    ((Serving s h 0x07 ∧ NoneAhead s h) ∨ (s.svc.phase = .recovery ∧ h.kind = 0x07) → ∀ q,
      ∃ t, exec (.query h q) s = .next t ∧ Replies h 0x07 0x00 h.ctx
        (if q = .bin then natBytes 4 s.pkg.bin.toNat else (queryWords s h q).flatMap (natBytes 8)) s t) ∧
    (Serving s h 0x08 ∨ (s.svc.phase = .recovery ∧ h.kind = 0x08) → ∀ nonce,
      ∃ t b, exec (.attest h nonce) s = .next t ∧ Attests s nonce b ∧
        let x := Sm2.sign Config.idIdent (Sm3.digest b) Config.idPrivate.toNat (Config.random s.svc.signed).toNat
        Replies h 0x08 0x00 h.ctx (b ++ Sm2.beBytes 32 x.1 ++ Sm2.beBytes 32 x.2) { s with svc := { s.svc with signed := s.svc.signed + 1 } } t) ∧
    (Serving s h 0x0B → h.ep = .operator →
      (∀ v : Vector (BitVec 3) 8,
        let free := ∀ d : DieId, (v[d.toNat] = partOfDie s d ∧ s.pkg.mapOutNext[d.toNat] = false) ∨ ¬ Inhabited s d
        (free → ∃ t w, exec (.partition h v.toList) s = .next t ∧
          (∀ d : DieId, w[d.toNat] = (s.pkg.mapOutDie[d.toNat] || s.pkg.mapOutNext[d.toNat])) ∧
          Replies h 0x0B 0x00 h.ctx [] { s with pkg := { s.pkg with
            part := v
            mapOutDie := w
            mapOutNext := Vector.replicate 8 false } } t) ∧
        (¬ free → ∃ t, exec (.partition h v.toList) s = .next t ∧ Replies h 0x0B 0x03 h.ctx [] s t)) ∧
      (∀ l : List (BitVec 3), l.length ≠ 8 → ∃ t, exec (.partition h l) s = .next t ∧ Replies h 0x0B 0x02 h.ctx [] s t) ∧
      (∀ (l : BitVec 3) (u : Nat),
        (1000 ≤ u → u ≤ 10000000 → ∃ t, exec (.timeout h l u) s = .next t ∧ Replies h 0x0B 0x00 h.ctx []
          { s with pkg := { s.pkg with timeout := s.pkg.timeout.set l.toNat u l.isLt } } t) ∧
        (u < 1000 ∨ 10000000 < u → ∃ t, exec (.timeout h l u) s = .next t ∧ Replies h 0x0B 0x02 h.ctx [] s t)) ∧
      (∀ (d : DieId) (b x y : Nat),
        (y < x → ∃ t, exec (.budget h d b x y) s = .next t ∧ Replies h 0x0B 0x00 h.ctx []
          { s with pkg := { s.pkg with budget := s.pkg.budget.set d.toNat ⟨b, x, y⟩ d.isLt } } t) ∧
        (x ≤ y → ∃ t, exec (.budget h d b x y) s = .next t ∧ Replies h 0x0B 0x02 h.ctx [] s t)) ∧
      (∀ (c : ClusterId) (r : BitVec 2) (f : BitVec 8),
        (ClockOk r f → ∃ m t, exec (.clock h (.cluster c) r f) s = .next t ∧ Replies h 0x0B 0x00 h.ctx [] m t ∧
          m = { s with pkg := { s.pkg with power := m.pkg.power } } ∧ (∀ k, k ≠ c → powerGet m k = powerGet s k) ∧
          powerGet m c = { powerGet s c with
            ratio := r
            freq := f
            stall := if (powerGet s c).ratio ≠ r then some (max (s.pkg.time + 200) ((powerGet s c).stall.getD 0))
              else if (powerGet s c).freq ≠ f then some (max (s.pkg.time + 10) ((powerGet s c).stall.getD 0))
              else (powerGet s c).stall }) ∧
        (¬ ClockOk r f → ∀ u, ∃ t, exec (.clock h u r f) s = .next t ∧ Replies h 0x0B 0x02 h.ctx [] s t) ∧
        ∀ d : DieId, ClockOk r f → (s.pkg.mesh[d.toNat]).length ≤ 32 → ∃ m t, exec (.clock h (.die d) r f) s = .next t ∧
          Replies h 0x0B 0x00 h.ctx [] m t ∧ ∀ i < (s.pkg.mesh[d.toNat]).length,
            (powerGet m (mkCluster d i)).ratio = r ∧ (powerGet m (mkCluster d i)).freq = f) ∧
      (∀ d : DieId,
        (∃ t, exec (.diestate h d .active) s = .next t ∧ Replies h 0x0B 0x00 h.ctx []
          { s with pkg := { s.pkg with mode := s.pkg.mode.set d.toNat .active d.isLt } } t) ∧
        (¬ Running s d → ∃ t, exec (.diestate h d .retain) s = .next t ∧ Replies h 0x0B 0x00 h.ctx []
          { s with pkg := { s.pkg with mode := s.pkg.mode.set d.toNat .retain d.isLt } } t) ∧
        (Running s d → ∃ t, exec (.diestate h d .retain) s = .next t ∧ Replies h 0x0B 0x03 h.ctx [] s t) ∧
        (¬ Standing s d → ¬ Occupied s d → ∃ m t, exec (.diestate h d .off) s = .next t ∧ Replies h 0x0B 0x00 h.ctx [] m t ∧
          m.pkg = { s.pkg with mode := s.pkg.mode.set d.toNat .off d.isLt } ∧ m.core = s.core ∧ m.others = s.others ∧
          (∀ c, dieOfCluster c = d → (clusterGet m c).l1 = []) ∧ (∀ a, l2Get m d a = none) ∧
          (∀ e ∈ m.dirty, dieOf e.core ≠ d) ∧
          ∀ x, memGet m.mem x = if (isSp x = true ∨ isSram x = true) ∧ x / 2 ^ 28 % 8 = d.toNat ∧ x % 2 ^ 62 < 2 ^ 31 then 0
            else memGet s.mem x) ∧
        (Standing s d ∨ Occupied s d → ∃ t, exec (.diestate h d .off) s = .next t ∧ Replies h 0x0B 0x03 h.ctx [] s t)) ∧
      ∀ (p : BitVec 2) (b : Bool), ∃ t, exec (.port h p b) s = .next t ∧ Replies h 0x0B 0x00 h.ctx []
        { s with
          pkg := { s.pkg with split := s.pkg.split.set p.toNat b p.isLt }
          svc := { s.svc with
            waiting := s.svc.waiting.filter fun i => !(headOf i).any fun e => e.2.port == p
            messages := s.svc.messages ++ ((s.svc.waiting.filterMap headOf).filter fun e => e.2.port == p).map
              fun e => .answer e.1 0x04 e.2.id e.2.ctx [] } } t)

/-! Service calls, and the service's work on objects. -/

namespace Sys2Proof.Claims

/-- R414, R389: the strand that is off its core for a service call of a number, by its image. -/
def CallAt (s : State) (img : Word) (num : Nat) (o : Off) : Prop :=
  s.svc.off.find? (fun y => y.strand.spillovf == img) = some o ∧ o.why = .trapped ∧ slice o.strand.cause 0 8 = 0x1A ∧
    o.strand.tval = W num

/-- R28, R414: the image that the service has edited, with the result in g4 and the pc behind the call. -/
def Answering (y : List Byte) (v pc : Word) (z : List Byte) : Prop :=
  z.length = y.length ∧ imgWord z 0x2020 = v ∧ imgWord z 0x23C0 = pc ∧
    ∀ i, ¬ (0x2020 ≤ i ∧ i < 0x2028) → ¬ (0x23C0 ≤ i ∧ i < 0x23C8) → z[i]? = y[i]?
/-- R414: the caller resumes on its core at EPC + 4 with the result in g4; while its core is taken it keeps the result. A caller
whose image the service has edited resumes with that image, or the device refuses it (R28). `ms` is what the service says. -/
def CallEnds (s : State) (o : Off) (v : Word) (ms : List Message) (t : State) : Prop :=
  let onCore (u : Strand) : Prop :=
    (coreGet t o.core).mode = (if o.idle = true then .idle else .running) ∧
    (coreGet t o.core).strand = { u with
      decDone := (coreGet t o.core).strand.decDone
      status := u.status ||| 4 } ∧
    (coreGet t o.core).deque = o.deque ∧ (∀ x ∈ t.svc.off, x.strand.spillovf ≠ u.spillovf) ∧
    t.svc.messages = s.svc.messages ++ ms
  let kept (z : Option (List Byte)) (pc : Word) : List Off := s.svc.off.map fun x =>
    if x = o then { o with
      strand := { o.strand with g := o.strand.g.set 4 v, pc := pc }
      why := .preempted, pushed := 0, edited := z } else x
  (o.edited = none →
    (Vacant s o.core → onCore { o.strand with g := o.strand.g.set 4 v, pc := o.strand.epc + 4 }) ∧
    (¬ Vacant s o.core → t.svc.off = kept none (o.strand.epc + 4) ∧ t.svc.messages = s.svc.messages ++ ms)) ∧
  ∀ y, o.edited = some y → y.length = 0x3000 →
    let pc := (o.strand.loadImage y).epc + 4
    ∃ z, Answering y v pc z ∧
      (Vacant s o.core → imageOk z = true → onCore (o.strand.loadImage z)) ∧
      (Vacant s o.core → imageOk z = false → t.svc.off = kept (some z) pc ∧
        t.svc.messages = s.svc.messages ++ ms ++ [.imageRefused o.ctx o.strand.spillovf 0x16]) ∧
      (¬ Vacant s o.core → t.svc.off = kept (some z) pc ∧ t.svc.messages = s.svc.messages ++ ms)

/-- An object of a context, with its valid record in memory. -/
def ObjectAt (s : State) (tag : Tag) (n : BitVec 18) (x : Context) (r : ORec) : Prop :=
  contextGet s tag = some x ∧ x.tag = tag ∧ ∃ a, recordAddr x.ortBase n = some a ∧ r = readRecord s a ∧ r.ok s n = true

/-- R350: the removals of an object's versions are forgotten, once nothing translated under them is under way. -/
def Drained (s : State) (tag : Tag) (n : BitVec 18) (t : State) : Prop :=
  ¬ UnderRemoved s tag (some n) ∧
    t = { s with removals := s.removals.filter fun x => decide (¬ (x.ctx = tag ∧ x.obj = some n)) }

/-- R359: a pool's ring has room for a tile, and no lower slot of it is still being filled. -/
def RoomIn (s : State) (p : ORec) : Prop := ringAt s p 2 - ringAt s p 1 < p.ringN ∧ ringAt s p 0 = ringAt s p 2
/-- R359: a tile is pushed into a pool's ring. -/
def TilePushed (s : State) (p : ORec) (tile : Nat) (t : State) : Prop :=
  let slot := p.place + 64 + p.ringS * (ringAt s p 2 % p.ringN)
  t = { s with mem := t.mem } ∧ memWord t.mem slot = W tile ∧ memWord t.mem (slot + 8) = 0 ∧
    ringAt t p 2 = (ringAt s p 2 + 1) % 2 ^ 64 ∧ ringAt t p 0 = (ringAt s p 2 + 1) % 2 ^ 64 ∧ ringAt t p 1 = ringAt s p 1 ∧
    ∀ x, (x < slot ∨ slot + 16 ≤ x) → (x < p.place ∨ p.place + 24 ≤ x) → memGet t.mem x = memGet s.mem x

/-- R414, R359: the volume and the pool that a REFILL call names. -/
def RefillOf (s : State) (o : Off) (r q : ORec) : Prop :=
  let va := o.strand.readG 5
  spaceOf va = 0 ∧ inPeerWindow va = false ∧ lookup s ⟨o.core, o.ctx, o.strand.ortbase, 0⟩ (objOf va) va = .ok r ∧
    r.kind = kSPARSE ∧ poolOf s ⟨o.core, o.ctx, o.strand.ortbase, 0⟩ r = some q

/-- R347: a step of a relocation has been made: the relocation of the object stands at the next one. -/
def Staged (tag : Tag) (n : BitVec 18) (k : Nat) (u t : State) : Prop :=
  t = { u with svc := { u.svc with relocs := t.svc.relocs } } ∧ relocStage t tag n = k ∧
    ∀ v m, ¬ (v = tag ∧ m = n) → relocStage t v m = relocStage u v m
/-- R347 step 3: the shadow has a place for every sub-tile that the placement holds. -/
def HeldByShadow (s : State) (r : ORec) : Prop :=
  r.kind = kMAPPED → ∀ i < (r.bytes + r.subTile - 1) / r.subTile,
    mapEntry s r r.place i ≠ none → mapEntry s r r.shadow i ≠ none
/-- R347: the place in their order of a relocation's steps. -/
def stepNumber : RelocStep → Nat
  | .begin _ _ => 0
  | .drain => 1
  | .copy => 2
  | .publish => 3
  | .finish => 4
  | .free => 5

/-- R356, R364: the entry at an address on the path of a key, its value, and whether it names a leaf. -/
inductive EntryOnPath (s : State) (r : ORec) (key at_ : Nat) : Nat → Nat → Word → Bool → Prop where
  | here (i node) : at_ = node + 8 * (key / 64 ^ i % 64) → memWord s.mem at_ ≠ 0 → entryOk r (i == 0) (memWord s.mem at_) = true →
      EntryOnPath s r key at_ (i + 1) node (memWord s.mem at_) (i == 0)
  | deeper (i node a e leaf) : a = node + 8 * (key / 64 ^ i % 64) → a ≠ at_ → memWord s.mem a ≠ 0 →
      entryOk r (i == 0) (memWord s.mem a) = true → EntryOnPath s r key at_ i (slice (memWord s.mem a) 0 52) e leaf →
      EntryOnPath s r key at_ (i + 1) node e leaf
/-- R364: a tile may be freed: a leaf, or a node with null entries only. -/
def MayFree (s : State) (e : Word) (leaf : Bool) : Prop :=
  leaf = true ∨ ∀ i < 64, memWord s.mem (slice e 0 52 + 8 * i) = 0
/-- R364 step 3: a tile on the path of a key has been freed, and waits for what becomes of it. -/
def FreedTile (s : State) (tag : Tag) (n : BitVec 18) (key tile : Nat) (f : TileFreeing) : Prop :=
  s.svc.frees.find? (fun g => g.ctx == tag && g.obj == n && g.key == key && g.stage == 3 && g.tile == tile) = some f
/-- R359, R362: storage for a tile that no context uses. -/
def Unused (s : State) (x : Context) (r : ORec) (tile : Nat) : Prop :=
  tile % r.leafBytes = 0 ∧ placeOk s x.part (tile, r.leafBytes) = true ∧
    (∀ c ∈ s.svc.contexts, hbmUsed s c (tile, r.leafBytes) = false) ∧ ∀ f ∈ s.svc.frees, f.tile ≠ tile
/-- R364 step 2, R370: the translations of an object that meet `bad` are gone from the cores of a logical device, and the
removal of the leaves of `keys` is remembered for the drain. -/
structure TranslationsGone (s : State) (p : BitVec 3) (u : Tag) (n : BitVec 18) (keys : List Nat) (bad : ClbEntry → Prop)
    (m : State) : Prop where
  rest : m = { s with
    core := { s.core with clb := m.core.clb }
    others := m.others
    removals := s.removals ++ [⟨u, some n, some keys, s.nextId + 1⟩]
    nextId := s.nextId + 1 }
  cores : ∀ k, coreGet m k = { coreGet s k with clb := (coreGet m k).clb }
  clb : ∀ k e, e ∈ (coreGet m k).clb ↔ e ∈ (coreGet s k).clb ∧ ¬ (partOfCore s k = p ∧ e.ctx = u ∧ e.obj = n ∧ bad e)
/-- R180, R339: the bytes of a sub-tile: those of its place, or those that it had when it was last resident, or zeros. -/
def TileContent (u : State) (tag : Tag) (n : BitVec 18) (i : Nat) (old : Option Nat) (size : Nat) : List Byte :=
  match old with
  | some b => memRead u.mem b size
  | none => ((u.svc.paged.find? fun e => e.ctx == tag && e.obj == n && e.idx == i).map (·.bytes)).getD (List.replicate size 0)
/-- R364: the freeing of a tile goes on to a stage. -/
def Freed (s : State) (f : TileFreeing) (g : List TileFreeing) (u t : State) : Prop :=
  t = { u with svc := { u.svc with frees := (s.svc.frees.filter fun x => decide (x ≠ f)) ++ g } }

end Sys2Proof.Claims

/-- R414, R347, R348, R350, R364, R338, R339: END, REPORT and REFILL complete for the strand that called, and a number that names
no call is answered with all ones; each step of an object's relocation completes in its order, from the record with its shadow
to the exchange and the record without one; each step of freeing a volume's tile completes in its order; a change of a map's
entry completes. A step out of its order, or that must wait, changes nothing (log 59). The form in which a number that names no
call is answered, and what a failing call returns, are the model's (log 34). -/
def Obligations.ServiceWork : Prop :=
  ∀ (s : State) (img : Word) (o : Off) (tag : Tag) (n : BitVec 18) (x : Context) (r : ORec) (p : Word) (map : List Word)
    (a key tile : Nat), MemoryOk s → LinesOk s →
    (CallAt s img 1 o → contextGet s o.ctx = some x → (∀ c ∈ s.cmds, c.ctx ≠ o.ctx) → (∀ y ∈ s.out, y.ctx ≠ o.ctx) →
      NothingStalled s → ∃ t, exec (.svcEnd img) s = .next t ∧ ContextGone s x t ∧ Message.ended o.ctx (o.strand.readG 5) ∈ t.svc.messages) ∧
    (CallAt s img 1 o → contextGet s o.ctx = some x → (∃ y ∈ s.out, y.ctx = o.ctx) →
      ∃ t, exec (.svcEnd img) s = .next t ∧ .svcEnd img ∈ t.svc.waiting ∧ ∃ y, contextGet t o.ctx = some y) ∧
    (∀ bs, CallAt s img 2 o → callBytes o s = .ok bs → ∃ t, exec (.report img) s = .next t ∧
      CallEnds s o 0 [.report o.ctx bs] t) ∧
    (∀ e, CallAt s img 2 o → callBytes o s = .error e → ∃ t, exec (.report img) s = .next t ∧
      CallEnds s o (BitVec.allOnes 64) [] t) ∧
    (∀ num, CallAt s img num o → num < 2 ^ 64 → num = 0 ∨ 3 < num →
      ∃ t, exec (.report img) s = .next t ∧ CallEnds s o (BitVec.allOnes 64) [] t) ∧
    (∀ q, CallAt s img 3 o → contextGet s o.ctx = some x → RefillOf s o r q →
      let want := (o.strand.readG 6).toNat - o.pushed
      let good := tile % r.leafBytes = 0 ∧ placeOk s x.part (tile, r.leafBytes) = true
      (want = 0 → ∀ l, ∃ t, exec (.refill img l) s = .next t ∧ CallEnds s o (o.strand.readG 6) [] t ∧ t.mem = s.mem) ∧
      (0 < want → exec (.refill img []) s = .next s) ∧
      (0 < want → good → RoomIn s q → ∃ m t, exec (.refill img [tile]) s = .next t ∧ TilePushed s q tile m ∧ t.mem = m.mem ∧
        (want = 1 → CallEnds s o (o.strand.readG 6) [] t) ∧
        (1 < want → t = { m with svc := { m.svc with
          off := m.svc.off.map fun y => if y = o then { o with pushed := o.pushed + 1 } else y } })) ∧
      (0 < want → ¬ good ∨ ¬ RoomIn s q → exec (.refill img [tile]) s = .next s)) ∧
    (CallAt s img 3 o → (∀ r q, ¬ RefillOf s o r q) → ∀ l, ∃ t, exec (.refill img l) s = .next t ∧
      CallEnds s o (BitVec.allOnes 64) [] t ∧ t.mem = s.mem) ∧
    (((∀ o, ¬ CallAt s img 1 o) → exec (.svcEnd img) s = .next s) ∧
      ((∀ num o, CallAt s img num o → num = 1 ∨ num = 3) → exec (.report img) s = .next s) ∧
      ((∀ o, ¬ CallAt s img 3 o) → ∀ l, exec (.refill img l) s = .next s)) ∧
    (ObjectAt s tag n x r → r.kind = kDENSE ∨ r.kind = kMAPPED →
      (∀ st, stepNumber st ≠ relocStage s tag n → exec (.objectRelocation tag n st) s = .next s) ∧
      (relocStage s tag n = 0 →
        let r1 : ORec := (r.set 0 (r.dw 0 ||| W (3 * 2 ^ 41))).set 4 p
        let tiles := (r.bytes + r.subTile - 1) / r.subTile
        let w := if r.kind = kMAPPED then writeMap r1.shadow (map.take tiles) s else s
        let good := r1.ok s n = true ∧ (∀ y ∈ objectRanges w r1, placeOk s x.part y = true) ∧ HeldByShadow w r1
        (r.kind = kMAPPED → ∀ (i : Nat) (e : Word), (map.take tiles)[i]? = some e → memWord w.mem (r1.shadow + 8 * i) = e) ∧
        (good → ∃ m t, exec (.objectRelocation tag n (.begin p map)) s = .next t ∧ Installed w x n r1 m ∧ Staged tag n 1 m t) ∧
        (¬ good → exec (.objectRelocation tag n (.begin p map)) s = .next s)) ∧
      (∀ st k, (st = .drain ∧ k = 2) ∨ (st = .free ∧ k = 0) → relocStage s tag n = stepNumber st →
        (UnderRemoved s tag (some n) → exec (.objectRelocation tag n st) s = .next s) ∧
        (¬ UnderRemoved s tag (some n) → ∃ m t, exec (.objectRelocation tag n st) s = .next t ∧ Drained s tag n m ∧
          Staged tag n k m t)) ∧
      (relocStage s tag n = 2 → r.kind = kDENSE → DirtyOk s → r.shadow + r.bytes ≤ 2 ^ 62 →
        ∃ u v t, exec (.objectRelocation tag n .copy) s = .next t ∧
          Purged s (LinesOf s r 0 r.bytes) u ∧ (∀ j < r.bytes, memGet v.mem (r.shadow + j) = memGet u.mem (r.place + j)) ∧
          Outside u r.shadow r.bytes v ∧ v.core = s.core ∧ Staged tag n 3 v t ∧
          (r.place % 64 = 0 → r.shadow % 64 = 0 → ∀ j, 64 * j + 64 ≤ r.bytes →
            (r.shadow + 64 * j ∈ v.poison ↔ r.place + 64 * j ∈ s.poison))) ∧
      (relocStage s tag n = 2 → ¬ HeldByShadow s r → exec (.objectRelocation tag n .copy) s = .next s) ∧
      (relocStage s tag n = 2 → r.kind = kMAPPED → HeldByShadow s r →
        (∀ c b, LinesOf s r 0 (2 ^ 52) b → (clusterGet s c).line b = none) →
        let tiles := (r.bytes + r.subTile - 1) / r.subTile
        let moves := (List.range tiles).filterMap fun i => match mapEntry s r r.place i, mapEntry s r r.shadow i with
          | some b, some d => some (i, b, d)
          | _, _ => none
        ((r.place, 8 * tiles) :: (r.shadow, 8 * tiles) :: moves.flatMap fun e =>
            [(e.2.1, tileLength r e.1), (e.2.2, tileLength r e.1)]).Pairwise
          (fun y z => y.1 + y.2 ≤ z.1 ∨ z.1 + z.2 ≤ y.1) →
        ∃ v t, exec (.objectRelocation tag n .copy) s = .next t ∧ Staged tag n 3 v t ∧
          (∀ e ∈ moves, ∀ j < tileLength r e.1, memGet v.mem (e.2.2 + j) = memGet s.mem (e.2.1 + j)) ∧
          ∀ b, (∀ e ∈ moves, b < e.2.2 ∨ e.2.2 + tileLength r e.1 ≤ b) → memGet v.mem b = memGet s.mem b) ∧
      (∀ b, relocStage s tag n = 3 → DirtyOk s → recordAddr x.ortBase n = some b → ∃ u v m t,
        exec (.objectRelocation tag n .publish) s = .next t ∧ Purged s (LinesOf s r 0 (2 ^ 52)) u ∧
        Purged u (LinesOf u (r.set 3 (W r.shadow)) 0 (2 ^ 52)) v ∧
        VersionsGone (setWord (setWord v (b + 24) (memWord v.mem (b + 32))) (b + 32) (memWord v.mem (b + 24)))
          x.part tag (some n) m ∧ Staged tag n 4 m t) ∧
      (relocStage s tag n = 4 → ∃ m t, exec (.objectRelocation tag n .finish) s = .next t ∧
        Installed s x n ((r.set 0 (r.dw 0 &&& ~~~(W (3 * 2 ^ 41)))).set 4 0) m ∧ Staged tag n 5 m t)) ∧
    (ObjectAt s tag n x r → r.kind = kSPARSE →
      (∀ e leaf, EntryOnPath s r key a r.levels r.place e leaf → MayFree s e leaf →
        ∃ t, exec (.tileFree tag n key (.unlink a)) s = .next t ∧
          Freed s ⟨tag, n, key, slice e 0 52, 1⟩ [⟨tag, n, key, slice e 0 52, 1⟩] (setWord s a 0) t) ∧
      ((∀ e leaf, EntryOnPath s r key a r.levels r.place e leaf → ¬ MayFree s e leaf) →
        exec (.tileFree tag n key (.unlink a)) s = .next s) ∧
      (freeing s tag n key 1 = none →
        exec (.tileFree tag n key .invalidate) s = .next s ∧ exec (.tileFree tag n key .invalidateAll) s = .next s) ∧
      (∀ f, freeing s tag n key 1 = some f →
        (∃ m t, exec (.tileFree tag n key .invalidate) s = .next t ∧
          TranslationsGone s x.part tag n [key] (fun e => e.key = key) m ∧ Freed s f [{ f with stage := 2 }] m t) ∧
        ∃ keys m t, exec (.tileFree tag n key .invalidateAll) s = .next t ∧ key ∈ keys ∧
          (∀ k e, e ∈ (coreGet s k).clb → partOfCore s k = x.part → e.ctx = tag → e.obj = n → e.key ∈ keys) ∧
          TranslationsGone s x.part tag n keys (fun _ => True) m ∧ Freed s f [{ f with stage := 2 }] m t) ∧
      (freeing s tag n key 2 = none → exec (.tileFree tag n key .drain) s = .next s) ∧
      (∀ f, freeing s tag n key 2 = some f →
        (UnderRemoved s tag (some n) → exec (.tileFree tag n key .drain) s = .next s) ∧
        (¬ UnderRemoved s tag (some n) → ∃ m t, exec (.tileFree tag n key .drain) s = .next t ∧ Drained s tag n m ∧
          Freed s f [{ f with stage := 3 }] m t)) ∧
      (∀ f, FreedTile s tag n key tile f →
        (∀ st q, (st = .push tile ∧ poolOf s (serviceAgent s x) r = some q) ∨
            (∃ c, st = .pushTo c tile ∧ poolNamed s x r c = some q) →
          (RoomIn s q → ∃ m t, exec (.tileFree tag n key st) s = .next t ∧ TilePushed s q tile m ∧ Freed s f [] m t) ∧
          (¬ RoomIn s q → exec (.tileFree tag n key st) s = .next s)) ∧
        ∃ t, exec (.tileFree tag n key (.reuse tile)) s = .next t ∧ Freed s f [] s t) ∧
      ((∀ f, ¬ FreedTile s tag n key tile f) →
        exec (.tileFree tag n key (.reuse tile)) s = .next s ∧
        (∀ c, exec (.tileFree tag n key (.pushTo c tile)) s = .next s) ∧
        (∀ q, Unused s x r tile → poolOf s (serviceAgent s x) r = some q → RoomIn s q →
          ∃ t, exec (.tileFree tag n key (.push tile)) s = .next t ∧ TilePushed s q tile t) ∧
        (¬ Unused s x r tile → exec (.tileFree tag n key (.push tile)) s = .next s))) ∧
    (ObjectAt s tag n x r → r.kind = kMAPPED →
      let tiles := (r.bytes + r.subTile - 1) / r.subTile
      let old := mapEntry s r r.place a
      let new := mapEntry (setWord s (r.place + 8 * a) p) r r.place a
      let ready := a < tiles ∧ relocStage s tag n = 0 ∧
        (∀ b, old = some b → ∀ c ∈ s.cmds, touchesRange s c b r.subTile = false) ∧
        ∀ b, new = some b → placeOk s x.part (b, r.subTile) = true
      (¬ ready → exec (.residencyChange tag n a p) s = .next s) ∧
      (ready → DirtyOk s → ∃ u v m t, exec (.residencyChange tag n a p) s = .next t ∧
        (old = none → u = s ∧ t = m) ∧
        (old ≠ none → Purged s (LinesOf s r (a * r.subTile) ((a + 1) * r.subTile)) u ∧ VersionsGone m x.part tag (some n) t) ∧
        m = setWord v (r.place + 8 * a) p ∧ v.core = u.core ∧ v.others = u.others ∧
        (∀ e, ¬ (e.ctx = tag ∧ e.obj = n ∧ e.idx = a) → (e ∈ v.svc.paged ↔ e ∈ s.svc.paged)) ∧
        let content := TileContent u tag n a old r.subTile
        (new = none → v.mem = u.mem ∧
          (old ≠ none → ∃ e ∈ v.svc.paged, e.ctx = tag ∧ e.obj = n ∧ e.idx = a ∧ e.bytes = content)) ∧
        ∀ b, new = some b → (∀ j < r.subTile, memGet v.mem (b + j) = content.getD j 0) ∧
          Outside u b (max r.subTile content.length) v ∧
          ∀ e ∈ v.svc.paged, ¬ (e.ctx = tag ∧ e.obj = n ∧ e.idx = a)))

/-! What every step keeps. -/

/-- Every step keeps the memory's canonical form: addresses rise strictly and no cell holds what an unlisted address
reads as. -/
def Obligations.MemoryInvariant : Prop :=
  ∀ s t : State, MemoryOk s → step s = .next t → MemoryOk t

/-- Every step keeps the lines of a cluster rising and at the starts of lines (R217), the marks of dirty
hardware-coherent lines too, one for each line (R218), and the numbers of commands and requests below the next one
(R235, R264); all three hold at reset. -/
def Obligations.CachesInvariant : Prop :=
  LinesOk State.reset ∧ DirtyOk State.reset ∧ IdsOk State.reset ∧
    ∀ s t : State, LinesOk s → DirtyOk s → IdsOk s → step s = .next t → LinesOk t ∧ DirtyOk t ∧ IdsOk t
end

