-- ==== Sys2Proof/Laws/State.lean ====
section
/-! SUPPORT. What each named update of the state, of a core and of a strand leaves in each field. -/

namespace Sys2Proof.Machine

@[simp] theorem strandSet_cur (s : State) (t : Strand) : (strandSet s t).cur = s.cur := rfl
@[simp] theorem strandSet_core (s : State) (t : Strand) : (strandSet s t).core = { s.core with strand := t } := rfl
@[simp] theorem strandSet_others (s : State) (t : Strand) : (strandSet s t).others = s.others := rfl
@[simp] theorem strandSet_mem (s : State) (t : Strand) : (strandSet s t).mem = s.mem := rfl
@[simp] theorem strandSet_empty (s : State) (t : Strand) : (strandSet s t).empty = s.empty := rfl
@[simp] theorem strandSet_poison (s : State) (t : Strand) : (strandSet s t).poison = s.poison := rfl
@[simp] theorem strandSet_sramBy (s : State) (t : Strand) : (strandSet s t).sramBy = s.sramBy := rfl
@[simp] theorem strandSet_clusters (s : State) (t : Strand) : (strandSet s t).clusters = s.clusters := rfl
@[simp] theorem strandSet_l2 (s : State) (t : Strand) : (strandSet s t).l2 = s.l2 := rfl
@[simp] theorem strandSet_dirty (s : State) (t : Strand) : (strandSet s t).dirty = s.dirty := rfl
@[simp] theorem strandSet_cmds (s : State) (t : Strand) : (strandSet s t).cmds = s.cmds := rfl
@[simp] theorem strandSet_nextId (s : State) (t : Strand) : (strandSet s t).nextId = s.nextId := rfl
@[simp] theorem strandSet_removals (s : State) (t : Strand) : (strandSet s t).removals = s.removals := rfl
@[simp] theorem strandSet_out (s : State) (t : Strand) : (strandSet s t).out = s.out := rfl
@[simp] theorem strandSet_held (s : State) (t : Strand) : (strandSet s t).held = s.held := rfl
@[simp] theorem strandSet_appends (s : State) (t : Strand) : (strandSet s t).appends = s.appends := rfl
@[simp] theorem strandSet_pkg (s : State) (t : Strand) : (strandSet s t).pkg = s.pkg := rfl
@[simp] theorem strandSet_svc (s : State) (t : Strand) : (strandSet s t).svc = s.svc := rfl
@[simp] theorem strandSet_ckpt (s : State) (t : Strand) : (strandSet s t).ckpt = s.ckpt := rfl
@[simp] theorem strandSet_turns (s : State) (t : Strand) : (strandSet s t).turns = s.turns := rfl
@[simp] theorem strandSet_acted (s : State) (t : Strand) : (strandSet s t).acted = s.acted := rfl
@[simp] theorem strandSet_beats (s : State) (t : Strand) : (strandSet s t).beats = s.beats := rfl
@[simp] theorem strandSet_served (s : State) (t : Strand) : (strandSet s t).served = s.served := rfl

@[simp] theorem clusterSet_cur (s : State) (c : ClusterId) (x : Cluster) : (clusterSet s c x).cur = s.cur := rfl
@[simp] theorem clusterSet_core (s : State) (c : ClusterId) (x : Cluster) : (clusterSet s c x).core = s.core := rfl
@[simp] theorem clusterSet_others (s : State) (c : ClusterId) (x : Cluster) : (clusterSet s c x).others = s.others := rfl
@[simp] theorem clusterSet_mem (s : State) (c : ClusterId) (x : Cluster) : (clusterSet s c x).mem = s.mem := rfl
@[simp] theorem clusterSet_empty (s : State) (c : ClusterId) (x : Cluster) : (clusterSet s c x).empty = s.empty := rfl
@[simp] theorem clusterSet_poison (s : State) (c : ClusterId) (x : Cluster) : (clusterSet s c x).poison = s.poison := rfl
@[simp] theorem clusterSet_sramBy (s : State) (c : ClusterId) (x : Cluster) : (clusterSet s c x).sramBy = s.sramBy := rfl
@[simp] theorem clusterSet_clusters (s : State) (c : ClusterId) (x : Cluster) : (clusterSet s c x).clusters = clustersSet c x s.clusters := rfl
@[simp] theorem clusterSet_l2 (s : State) (c : ClusterId) (x : Cluster) : (clusterSet s c x).l2 = s.l2 := rfl
@[simp] theorem clusterSet_dirty (s : State) (c : ClusterId) (x : Cluster) : (clusterSet s c x).dirty = s.dirty := rfl
@[simp] theorem clusterSet_cmds (s : State) (c : ClusterId) (x : Cluster) : (clusterSet s c x).cmds = s.cmds := rfl
@[simp] theorem clusterSet_nextId (s : State) (c : ClusterId) (x : Cluster) : (clusterSet s c x).nextId = s.nextId := rfl
@[simp] theorem clusterSet_removals (s : State) (c : ClusterId) (x : Cluster) : (clusterSet s c x).removals = s.removals := rfl
@[simp] theorem clusterSet_out (s : State) (c : ClusterId) (x : Cluster) : (clusterSet s c x).out = s.out := rfl
@[simp] theorem clusterSet_held (s : State) (c : ClusterId) (x : Cluster) : (clusterSet s c x).held = s.held := rfl
@[simp] theorem clusterSet_appends (s : State) (c : ClusterId) (x : Cluster) : (clusterSet s c x).appends = s.appends := rfl
@[simp] theorem clusterSet_pkg (s : State) (c : ClusterId) (x : Cluster) : (clusterSet s c x).pkg = s.pkg := rfl
@[simp] theorem clusterSet_svc (s : State) (c : ClusterId) (x : Cluster) : (clusterSet s c x).svc = s.svc := rfl
@[simp] theorem clusterSet_ckpt (s : State) (c : ClusterId) (x : Cluster) : (clusterSet s c x).ckpt = s.ckpt := rfl
@[simp] theorem clusterSet_turns (s : State) (c : ClusterId) (x : Cluster) : (clusterSet s c x).turns = s.turns := rfl
@[simp] theorem clusterSet_acted (s : State) (c : ClusterId) (x : Cluster) : (clusterSet s c x).acted = s.acted := rfl
@[simp] theorem clusterSet_beats (s : State) (c : ClusterId) (x : Cluster) : (clusterSet s c x).beats = s.beats := rfl
@[simp] theorem clusterSet_served (s : State) (c : ClusterId) (x : Cluster) : (clusterSet s c x).served = s.served := rfl

@[simp] theorem powerSet_cur (s : State) (c : ClusterId) (x : Power) : (powerSet s c x).cur = s.cur := rfl
@[simp] theorem powerSet_core (s : State) (c : ClusterId) (x : Power) : (powerSet s c x).core = s.core := rfl
@[simp] theorem powerSet_others (s : State) (c : ClusterId) (x : Power) : (powerSet s c x).others = s.others := rfl
@[simp] theorem powerSet_mem (s : State) (c : ClusterId) (x : Power) : (powerSet s c x).mem = s.mem := rfl
@[simp] theorem powerSet_empty (s : State) (c : ClusterId) (x : Power) : (powerSet s c x).empty = s.empty := rfl
@[simp] theorem powerSet_poison (s : State) (c : ClusterId) (x : Power) : (powerSet s c x).poison = s.poison := rfl
@[simp] theorem powerSet_sramBy (s : State) (c : ClusterId) (x : Power) : (powerSet s c x).sramBy = s.sramBy := rfl
@[simp] theorem powerSet_clusters (s : State) (c : ClusterId) (x : Power) : (powerSet s c x).clusters = s.clusters := rfl
@[simp] theorem powerSet_l2 (s : State) (c : ClusterId) (x : Power) : (powerSet s c x).l2 = s.l2 := rfl
@[simp] theorem powerSet_dirty (s : State) (c : ClusterId) (x : Power) : (powerSet s c x).dirty = s.dirty := rfl
@[simp] theorem powerSet_cmds (s : State) (c : ClusterId) (x : Power) : (powerSet s c x).cmds = s.cmds := rfl
@[simp] theorem powerSet_nextId (s : State) (c : ClusterId) (x : Power) : (powerSet s c x).nextId = s.nextId := rfl
@[simp] theorem powerSet_removals (s : State) (c : ClusterId) (x : Power) : (powerSet s c x).removals = s.removals := rfl
@[simp] theorem powerSet_out (s : State) (c : ClusterId) (x : Power) : (powerSet s c x).out = s.out := rfl
@[simp] theorem powerSet_held (s : State) (c : ClusterId) (x : Power) : (powerSet s c x).held = s.held := rfl
@[simp] theorem powerSet_appends (s : State) (c : ClusterId) (x : Power) : (powerSet s c x).appends = s.appends := rfl
@[simp] theorem powerSet_pkg (s : State) (c : ClusterId) (x : Power) : (powerSet s c x).pkg = { s.pkg with power := powersSet c x s.pkg.power } := rfl
@[simp] theorem powerSet_svc (s : State) (c : ClusterId) (x : Power) : (powerSet s c x).svc = s.svc := rfl
@[simp] theorem powerSet_ckpt (s : State) (c : ClusterId) (x : Power) : (powerSet s c x).ckpt = s.ckpt := rfl
@[simp] theorem powerSet_turns (s : State) (c : ClusterId) (x : Power) : (powerSet s c x).turns = s.turns := rfl
@[simp] theorem powerSet_acted (s : State) (c : ClusterId) (x : Power) : (powerSet s c x).acted = s.acted := rfl
@[simp] theorem powerSet_beats (s : State) (c : ClusterId) (x : Power) : (powerSet s c x).beats = s.beats := rfl
@[simp] theorem powerSet_served (s : State) (c : ClusterId) (x : Power) : (powerSet s c x).served = s.served := rfl

@[simp] theorem contextSet_cur (s : State) (x : Context) : (contextSet s x).cur = s.cur := rfl
@[simp] theorem contextSet_core (s : State) (x : Context) : (contextSet s x).core = s.core := rfl
@[simp] theorem contextSet_others (s : State) (x : Context) : (contextSet s x).others = s.others := rfl
@[simp] theorem contextSet_mem (s : State) (x : Context) : (contextSet s x).mem = s.mem := rfl
@[simp] theorem contextSet_empty (s : State) (x : Context) : (contextSet s x).empty = s.empty := rfl
@[simp] theorem contextSet_poison (s : State) (x : Context) : (contextSet s x).poison = s.poison := rfl
@[simp] theorem contextSet_sramBy (s : State) (x : Context) : (contextSet s x).sramBy = s.sramBy := rfl
@[simp] theorem contextSet_clusters (s : State) (x : Context) : (contextSet s x).clusters = s.clusters := rfl
@[simp] theorem contextSet_l2 (s : State) (x : Context) : (contextSet s x).l2 = s.l2 := rfl
@[simp] theorem contextSet_dirty (s : State) (x : Context) : (contextSet s x).dirty = s.dirty := rfl
@[simp] theorem contextSet_cmds (s : State) (x : Context) : (contextSet s x).cmds = s.cmds := rfl
@[simp] theorem contextSet_nextId (s : State) (x : Context) : (contextSet s x).nextId = s.nextId := rfl
@[simp] theorem contextSet_removals (s : State) (x : Context) : (contextSet s x).removals = s.removals := rfl
@[simp] theorem contextSet_out (s : State) (x : Context) : (contextSet s x).out = s.out := rfl
@[simp] theorem contextSet_held (s : State) (x : Context) : (contextSet s x).held = s.held := rfl
@[simp] theorem contextSet_appends (s : State) (x : Context) : (contextSet s x).appends = s.appends := rfl
@[simp] theorem contextSet_pkg (s : State) (x : Context) : (contextSet s x).pkg = s.pkg := rfl
@[simp] theorem contextSet_svc (s : State) (x : Context) : (contextSet s x).svc = { s.svc with contexts := s.svc.contexts.map fun d => if d.tag = x.tag then x else d } := rfl
@[simp] theorem contextSet_ckpt (s : State) (x : Context) : (contextSet s x).ckpt = s.ckpt := rfl
@[simp] theorem contextSet_turns (s : State) (x : Context) : (contextSet s x).turns = s.turns := rfl
@[simp] theorem contextSet_acted (s : State) (x : Context) : (contextSet s x).acted = s.acted := rfl
@[simp] theorem contextSet_beats (s : State) (x : Context) : (contextSet s x).beats = s.beats := rfl
@[simp] theorem contextSet_served (s : State) (x : Context) : (contextSet s x).served = s.served := rfl

@[simp] theorem charge_cur (t : Tag) (a b c : Nat) (s : State) : (charge t a b c s).cur = s.cur := rfl
@[simp] theorem charge_core (t : Tag) (a b c : Nat) (s : State) : (charge t a b c s).core = s.core := rfl
@[simp] theorem charge_others (t : Tag) (a b c : Nat) (s : State) : (charge t a b c s).others = s.others := rfl
@[simp] theorem charge_mem (t : Tag) (a b c : Nat) (s : State) : (charge t a b c s).mem = s.mem := rfl
@[simp] theorem charge_empty (t : Tag) (a b c : Nat) (s : State) : (charge t a b c s).empty = s.empty := rfl
@[simp] theorem charge_poison (t : Tag) (a b c : Nat) (s : State) : (charge t a b c s).poison = s.poison := rfl
@[simp] theorem charge_sramBy (t : Tag) (a b c : Nat) (s : State) : (charge t a b c s).sramBy = s.sramBy := rfl
@[simp] theorem charge_clusters (t : Tag) (a b c : Nat) (s : State) : (charge t a b c s).clusters = s.clusters := rfl
@[simp] theorem charge_l2 (t : Tag) (a b c : Nat) (s : State) : (charge t a b c s).l2 = s.l2 := rfl
@[simp] theorem charge_dirty (t : Tag) (a b c : Nat) (s : State) : (charge t a b c s).dirty = s.dirty := rfl
@[simp] theorem charge_cmds (t : Tag) (a b c : Nat) (s : State) : (charge t a b c s).cmds = s.cmds := rfl
@[simp] theorem charge_nextId (t : Tag) (a b c : Nat) (s : State) : (charge t a b c s).nextId = s.nextId := rfl
@[simp] theorem charge_removals (t : Tag) (a b c : Nat) (s : State) : (charge t a b c s).removals = s.removals := rfl
@[simp] theorem charge_out (t : Tag) (a b c : Nat) (s : State) : (charge t a b c s).out = s.out := rfl
@[simp] theorem charge_held (t : Tag) (a b c : Nat) (s : State) : (charge t a b c s).held = s.held := rfl
@[simp] theorem charge_appends (t : Tag) (a b c : Nat) (s : State) : (charge t a b c s).appends = s.appends := rfl
@[simp] theorem charge_pkg (t : Tag) (a b c : Nat) (s : State) : (charge t a b c s).pkg = s.pkg := rfl
@[simp] theorem charge_ckpt (t : Tag) (a b c : Nat) (s : State) : (charge t a b c s).ckpt = s.ckpt := rfl
@[simp] theorem charge_turns (t : Tag) (a b c : Nat) (s : State) : (charge t a b c s).turns = s.turns := rfl
@[simp] theorem charge_acted (t : Tag) (a b c : Nat) (s : State) : (charge t a b c s).acted = s.acted := rfl
@[simp] theorem charge_beats (t : Tag) (a b c : Nat) (s : State) : (charge t a b c s).beats = s.beats := rfl
@[simp] theorem charge_served (t : Tag) (a b c : Nat) (s : State) : (charge t a b c s).served = s.served := rfl

@[simp] theorem claimSram_cur (t : Tag) (a n : Nat) (s : State) : (claimSram t a n s).cur = s.cur := rfl
@[simp] theorem claimSram_core (t : Tag) (a n : Nat) (s : State) : (claimSram t a n s).core = s.core := rfl
@[simp] theorem claimSram_others (t : Tag) (a n : Nat) (s : State) : (claimSram t a n s).others = s.others := rfl
@[simp] theorem claimSram_mem (t : Tag) (a n : Nat) (s : State) : (claimSram t a n s).mem = s.mem := rfl
@[simp] theorem claimSram_empty (t : Tag) (a n : Nat) (s : State) : (claimSram t a n s).empty = s.empty := rfl
@[simp] theorem claimSram_poison (t : Tag) (a n : Nat) (s : State) : (claimSram t a n s).poison = s.poison := rfl
@[simp] theorem claimSram_clusters (t : Tag) (a n : Nat) (s : State) : (claimSram t a n s).clusters = s.clusters := rfl
@[simp] theorem claimSram_l2 (t : Tag) (a n : Nat) (s : State) : (claimSram t a n s).l2 = s.l2 := rfl
@[simp] theorem claimSram_dirty (t : Tag) (a n : Nat) (s : State) : (claimSram t a n s).dirty = s.dirty := rfl
@[simp] theorem claimSram_cmds (t : Tag) (a n : Nat) (s : State) : (claimSram t a n s).cmds = s.cmds := rfl
@[simp] theorem claimSram_nextId (t : Tag) (a n : Nat) (s : State) : (claimSram t a n s).nextId = s.nextId := rfl
@[simp] theorem claimSram_removals (t : Tag) (a n : Nat) (s : State) : (claimSram t a n s).removals = s.removals := rfl
@[simp] theorem claimSram_out (t : Tag) (a n : Nat) (s : State) : (claimSram t a n s).out = s.out := rfl
@[simp] theorem claimSram_held (t : Tag) (a n : Nat) (s : State) : (claimSram t a n s).held = s.held := rfl
@[simp] theorem claimSram_appends (t : Tag) (a n : Nat) (s : State) : (claimSram t a n s).appends = s.appends := rfl
@[simp] theorem claimSram_pkg (t : Tag) (a n : Nat) (s : State) : (claimSram t a n s).pkg = s.pkg := rfl
@[simp] theorem claimSram_svc (t : Tag) (a n : Nat) (s : State) : (claimSram t a n s).svc = s.svc := rfl
@[simp] theorem claimSram_ckpt (t : Tag) (a n : Nat) (s : State) : (claimSram t a n s).ckpt = s.ckpt := rfl
@[simp] theorem claimSram_turns (t : Tag) (a n : Nat) (s : State) : (claimSram t a n s).turns = s.turns := rfl
@[simp] theorem claimSram_acted (t : Tag) (a n : Nat) (s : State) : (claimSram t a n s).acted = s.acted := rfl
@[simp] theorem claimSram_beats (t : Tag) (a n : Nat) (s : State) : (claimSram t a n s).beats = s.beats := rfl
@[simp] theorem claimSram_served (t : Tag) (a n : Nat) (s : State) : (claimSram t a n s).served = s.served := rfl

@[simp] theorem coreSet_cur (s : State) (k : CoreId) (c : Core) : (coreSet s k c).cur = s.cur := by unfold coreSet; split <;> rfl
@[simp] theorem coreSet_mem (s : State) (k : CoreId) (c : Core) : (coreSet s k c).mem = s.mem := by unfold coreSet; split <;> rfl
@[simp] theorem coreSet_empty (s : State) (k : CoreId) (c : Core) : (coreSet s k c).empty = s.empty := by unfold coreSet; split <;> rfl
@[simp] theorem coreSet_poison (s : State) (k : CoreId) (c : Core) : (coreSet s k c).poison = s.poison := by unfold coreSet; split <;> rfl
@[simp] theorem coreSet_sramBy (s : State) (k : CoreId) (c : Core) : (coreSet s k c).sramBy = s.sramBy := by unfold coreSet; split <;> rfl
@[simp] theorem coreSet_clusters (s : State) (k : CoreId) (c : Core) : (coreSet s k c).clusters = s.clusters := by unfold coreSet; split <;> rfl
@[simp] theorem coreSet_l2 (s : State) (k : CoreId) (c : Core) : (coreSet s k c).l2 = s.l2 := by unfold coreSet; split <;> rfl
@[simp] theorem coreSet_dirty (s : State) (k : CoreId) (c : Core) : (coreSet s k c).dirty = s.dirty := by unfold coreSet; split <;> rfl
@[simp] theorem coreSet_cmds (s : State) (k : CoreId) (c : Core) : (coreSet s k c).cmds = s.cmds := by unfold coreSet; split <;> rfl
@[simp] theorem coreSet_nextId (s : State) (k : CoreId) (c : Core) : (coreSet s k c).nextId = s.nextId := by unfold coreSet; split <;> rfl
@[simp] theorem coreSet_removals (s : State) (k : CoreId) (c : Core) : (coreSet s k c).removals = s.removals := by unfold coreSet; split <;> rfl
@[simp] theorem coreSet_out (s : State) (k : CoreId) (c : Core) : (coreSet s k c).out = s.out := by unfold coreSet; split <;> rfl
@[simp] theorem coreSet_held (s : State) (k : CoreId) (c : Core) : (coreSet s k c).held = s.held := by unfold coreSet; split <;> rfl
@[simp] theorem coreSet_appends (s : State) (k : CoreId) (c : Core) : (coreSet s k c).appends = s.appends := by unfold coreSet; split <;> rfl
@[simp] theorem coreSet_pkg (s : State) (k : CoreId) (c : Core) : (coreSet s k c).pkg = s.pkg := by unfold coreSet; split <;> rfl
@[simp] theorem coreSet_svc (s : State) (k : CoreId) (c : Core) : (coreSet s k c).svc = s.svc := by unfold coreSet; split <;> rfl
@[simp] theorem coreSet_ckpt (s : State) (k : CoreId) (c : Core) : (coreSet s k c).ckpt = s.ckpt := by unfold coreSet; split <;> rfl
@[simp] theorem coreSet_turns (s : State) (k : CoreId) (c : Core) : (coreSet s k c).turns = s.turns := by unfold coreSet; split <;> rfl
@[simp] theorem coreSet_acted (s : State) (k : CoreId) (c : Core) : (coreSet s k c).acted = s.acted := by unfold coreSet; split <;> rfl
@[simp] theorem coreSet_beats (s : State) (k : CoreId) (c : Core) : (coreSet s k c).beats = s.beats := by unfold coreSet; split <;> rfl
@[simp] theorem coreSet_served (s : State) (k : CoreId) (c : Core) : (coreSet s k c).served = s.served := by unfold coreSet; split <;> rfl

@[simp] theorem focus_mem (s : State) (k : CoreId) : (focus s k).mem = s.mem := by unfold focus; split <;> rfl
@[simp] theorem focus_empty (s : State) (k : CoreId) : (focus s k).empty = s.empty := by unfold focus; split <;> rfl
@[simp] theorem focus_poison (s : State) (k : CoreId) : (focus s k).poison = s.poison := by unfold focus; split <;> rfl
@[simp] theorem focus_sramBy (s : State) (k : CoreId) : (focus s k).sramBy = s.sramBy := by unfold focus; split <;> rfl
@[simp] theorem focus_clusters (s : State) (k : CoreId) : (focus s k).clusters = s.clusters := by unfold focus; split <;> rfl
@[simp] theorem focus_l2 (s : State) (k : CoreId) : (focus s k).l2 = s.l2 := by unfold focus; split <;> rfl
@[simp] theorem focus_dirty (s : State) (k : CoreId) : (focus s k).dirty = s.dirty := by unfold focus; split <;> rfl
@[simp] theorem focus_cmds (s : State) (k : CoreId) : (focus s k).cmds = s.cmds := by unfold focus; split <;> rfl
@[simp] theorem focus_nextId (s : State) (k : CoreId) : (focus s k).nextId = s.nextId := by unfold focus; split <;> rfl
@[simp] theorem focus_removals (s : State) (k : CoreId) : (focus s k).removals = s.removals := by unfold focus; split <;> rfl
@[simp] theorem focus_out (s : State) (k : CoreId) : (focus s k).out = s.out := by unfold focus; split <;> rfl
@[simp] theorem focus_held (s : State) (k : CoreId) : (focus s k).held = s.held := by unfold focus; split <;> rfl
@[simp] theorem focus_appends (s : State) (k : CoreId) : (focus s k).appends = s.appends := by unfold focus; split <;> rfl
@[simp] theorem focus_pkg (s : State) (k : CoreId) : (focus s k).pkg = s.pkg := by unfold focus; split <;> rfl
@[simp] theorem focus_svc (s : State) (k : CoreId) : (focus s k).svc = s.svc := by unfold focus; split <;> rfl
@[simp] theorem focus_ckpt (s : State) (k : CoreId) : (focus s k).ckpt = s.ckpt := by unfold focus; split <;> rfl
@[simp] theorem focus_turns (s : State) (k : CoreId) : (focus s k).turns = s.turns := by unfold focus; split <;> rfl
@[simp] theorem focus_acted (s : State) (k : CoreId) : (focus s k).acted = s.acted := by unfold focus; split <;> rfl
@[simp] theorem focus_beats (s : State) (k : CoreId) : (focus s k).beats = s.beats := by unfold focus; split <;> rfl
@[simp] theorem focus_served (s : State) (k : CoreId) : (focus s k).served = s.served := by unfold focus; split <;> rfl

@[simp] theorem Strand.writeG_pc (t : Strand) (r : Reg) (x : Word) : (Strand.writeG t r x).pc = t.pc := by unfold Strand.writeG; split <;> rfl
@[simp] theorem Strand.writeG_f (t : Strand) (r : Reg) (x : Word) : (Strand.writeG t r x).f = t.f := by unfold Strand.writeG; split <;> rfl
@[simp] theorem Strand.writeG_p (t : Strand) (r : Reg) (x : Word) : (Strand.writeG t r x).p = t.p := by unfold Strand.writeG; split <;> rfl
@[simp] theorem Strand.writeG_z (t : Strand) (r : Reg) (x : Word) : (Strand.writeG t r x).z = t.z := by unfold Strand.writeG; split <;> rfl
@[simp] theorem Strand.writeG_m (t : Strand) (r : Reg) (x : Word) : (Strand.writeG t r x).m = t.m := by unfold Strand.writeG; split <;> rfl
@[simp] theorem Strand.writeG_v (t : Strand) (r : Reg) (x : Word) : (Strand.writeG t r x).v = t.v := by unfold Strand.writeG; split <;> rfl
@[simp] theorem Strand.writeG_ty (t : Strand) (r : Reg) (x : Word) : (Strand.writeG t r x).ty = t.ty := by unfold Strand.writeG; split <;> rfl
@[simp] theorem Strand.writeG_cb (t : Strand) (r : Reg) (x : Word) : (Strand.writeG t r x).cb = t.cb := by unfold Strand.writeG; split <;> rfl
@[simp] theorem Strand.writeG_q (t : Strand) (r : Reg) (x : Word) : (Strand.writeG t r x).q = t.q := by unfold Strand.writeG; split <;> rfl
@[simp] theorem Strand.writeG_lcnt (t : Strand) (r : Reg) (x : Word) : (Strand.writeG t r x).lcnt = t.lcnt := by unfold Strand.writeG; split <;> rfl
@[simp] theorem Strand.writeG_lbeg (t : Strand) (r : Reg) (x : Word) : (Strand.writeG t r x).lbeg = t.lbeg := by unfold Strand.writeG; split <;> rfl
@[simp] theorem Strand.writeG_llen (t : Strand) (r : Reg) (x : Word) : (Strand.writeG t r x).llen = t.llen := by unfold Strand.writeG; split <;> rfl
@[simp] theorem Strand.writeG_lact (t : Strand) (r : Reg) (x : Word) : (Strand.writeG t r x).lact = t.lact := by unfold Strand.writeG; split <;> rfl
@[simp] theorem Strand.writeG_status (t : Strand) (r : Reg) (x : Word) : (Strand.writeG t r x).status = t.status := by unfold Strand.writeG; split <;> rfl
@[simp] theorem Strand.writeG_cause (t : Strand) (r : Reg) (x : Word) : (Strand.writeG t r x).cause = t.cause := by unfold Strand.writeG; split <;> rfl
@[simp] theorem Strand.writeG_epc (t : Strand) (r : Reg) (x : Word) : (Strand.writeG t r x).epc = t.epc := by unfold Strand.writeG; split <;> rfl
@[simp] theorem Strand.writeG_tval (t : Strand) (r : Reg) (x : Word) : (Strand.writeG t r x).tval = t.tval := by unfold Strand.writeG; split <;> rfl
@[simp] theorem Strand.writeG_tvec (t : Strand) (r : Reg) (x : Word) : (Strand.writeG t r x).tvec = t.tvec := by unfold Strand.writeG; split <;> rfl
@[simp] theorem Strand.writeG_ctxid (t : Strand) (r : Reg) (x : Word) : (Strand.writeG t r x).ctxid = t.ctxid := by unfold Strand.writeG; split <;> rfl
@[simp] theorem Strand.writeG_ortbase (t : Strand) (r : Reg) (x : Word) : (Strand.writeG t r x).ortbase = t.ortbase := by unfold Strand.writeG; split <;> rfl
@[simp] theorem Strand.writeG_spillbase (t : Strand) (r : Reg) (x : Word) : (Strand.writeG t r x).spillbase = t.spillbase := by unfold Strand.writeG; split <;> rfl
@[simp] theorem Strand.writeG_spilltop (t : Strand) (r : Reg) (x : Word) : (Strand.writeG t r x).spilltop = t.spilltop := by unfold Strand.writeG; split <;> rfl
@[simp] theorem Strand.writeG_spillovf (t : Strand) (r : Reg) (x : Word) : (Strand.writeG t r x).spillovf = t.spillovf := by unfold Strand.writeG; split <;> rfl
@[simp] theorem Strand.writeG_fcsr (t : Strand) (r : Reg) (x : Word) : (Strand.writeG t r x).fcsr = t.fcsr := by unfold Strand.writeG; split <;> rfl
@[simp] theorem Strand.writeG_vstat (t : Strand) (r : Reg) (x : Word) : (Strand.writeG t r x).vstat = t.vstat := by unfold Strand.writeG; split <;> rfl
@[simp] theorem Strand.writeG_mhold (t : Strand) (r : Reg) (x : Word) : (Strand.writeG t r x).mhold = t.mhold := by unfold Strand.writeG; split <;> rfl
@[simp] theorem Strand.writeG_mweight (t : Strand) (r : Reg) (x : Word) : (Strand.writeG t r x).mweight = t.mweight := by unfold Strand.writeG; split <;> rfl
@[simp] theorem Strand.writeG_mstep (t : Strand) (r : Reg) (x : Word) : (Strand.writeG t r x).mstep = t.mstep := by unfold Strand.writeG; split <;> rfl
@[simp] theorem Strand.writeG_prio (t : Strand) (r : Reg) (x : Word) : (Strand.writeG t r x).prio = t.prio := by unfold Strand.writeG; split <;> rfl
@[simp] theorem Strand.writeG_hbeat (t : Strand) (r : Reg) (x : Word) : (Strand.writeG t r x).hbeat = t.hbeat := by unfold Strand.writeG; split <;> rfl
@[simp] theorem Strand.writeG_wdmode (t : Strand) (r : Reg) (x : Word) : (Strand.writeG t r x).wdmode = t.wdmode := by unfold Strand.writeG; split <;> rfl
@[simp] theorem Strand.writeG_mxseq (t : Strand) (r : Reg) (x : Word) : (Strand.writeG t r x).mxseq = t.mxseq := by unfold Strand.writeG; split <;> rfl
@[simp] theorem Strand.writeG_rowPoison (t : Strand) (r : Reg) (x : Word) : (Strand.writeG t r x).rowPoison = t.rowPoison := by unfold Strand.writeG; split <;> rfl
@[simp] theorem Strand.writeG_lost (t : Strand) (r : Reg) (x : Word) : (Strand.writeG t r x).lost = t.lost := by unfold Strand.writeG; split <;> rfl
@[simp] theorem Strand.writeG_slot (t : Strand) (r : Reg) (x : Word) : (Strand.writeG t r x).slot = t.slot := by unfold Strand.writeG; split <;> rfl
@[simp] theorem Strand.writeG_carved (t : Strand) (r : Reg) (x : Word) : (Strand.writeG t r x).carved = t.carved := by unfold Strand.writeG; split <;> rfl
@[simp] theorem Strand.writeG_decDone (t : Strand) (r : Reg) (x : Word) : (Strand.writeG t r x).decDone = t.decDone := by unfold Strand.writeG; split <;> rfl
@[simp] theorem Strand.writeG_begun (t : Strand) (r : Reg) (x : Word) : (Strand.writeG t r x).begun = t.begun := by unfold Strand.writeG; split <;> rfl
@[simp] theorem Strand.writeG_changing (t : Strand) (r : Reg) (x : Word) : (Strand.writeG t r x).changing = t.changing := by unfold Strand.writeG; split <;> rfl
@[simp] theorem Strand.writeG_evicted (t : Strand) (r : Reg) (x : Word) : (Strand.writeG t r x).evicted = t.evicted := by unfold Strand.writeG; split <;> rfl
@[simp] theorem Strand.writeG_share (t : Strand) (r : Reg) (x : Word) : (Strand.writeG t r x).share = t.share := by unfold Strand.writeG; split <;> rfl
@[simp] theorem Strand.writeG_peer (t : Strand) (r : Reg) (x : Word) : (Strand.writeG t r x).peer = t.peer := by unfold Strand.writeG; split <;> rfl

@[simp] theorem Strand.writeF_pc (t : Strand) (r : Reg) (x : Word) : (Strand.writeF t r x).pc = t.pc := rfl
@[simp] theorem Strand.writeF_g (t : Strand) (r : Reg) (x : Word) : (Strand.writeF t r x).g = t.g := rfl
@[simp] theorem Strand.writeF_f (t : Strand) (r : Reg) (x : Word) : (Strand.writeF t r x).f = t.f.set r.toNat x r.isLt := rfl
@[simp] theorem Strand.writeF_p (t : Strand) (r : Reg) (x : Word) : (Strand.writeF t r x).p = t.p := rfl
@[simp] theorem Strand.writeF_z (t : Strand) (r : Reg) (x : Word) : (Strand.writeF t r x).z = t.z := rfl
@[simp] theorem Strand.writeF_m (t : Strand) (r : Reg) (x : Word) : (Strand.writeF t r x).m = t.m := rfl
@[simp] theorem Strand.writeF_v (t : Strand) (r : Reg) (x : Word) : (Strand.writeF t r x).v = t.v := rfl
@[simp] theorem Strand.writeF_ty (t : Strand) (r : Reg) (x : Word) : (Strand.writeF t r x).ty = t.ty := rfl
@[simp] theorem Strand.writeF_cb (t : Strand) (r : Reg) (x : Word) : (Strand.writeF t r x).cb = t.cb := rfl
@[simp] theorem Strand.writeF_q (t : Strand) (r : Reg) (x : Word) : (Strand.writeF t r x).q = t.q := rfl
@[simp] theorem Strand.writeF_lcnt (t : Strand) (r : Reg) (x : Word) : (Strand.writeF t r x).lcnt = t.lcnt := rfl
@[simp] theorem Strand.writeF_lbeg (t : Strand) (r : Reg) (x : Word) : (Strand.writeF t r x).lbeg = t.lbeg := rfl
@[simp] theorem Strand.writeF_llen (t : Strand) (r : Reg) (x : Word) : (Strand.writeF t r x).llen = t.llen := rfl
@[simp] theorem Strand.writeF_lact (t : Strand) (r : Reg) (x : Word) : (Strand.writeF t r x).lact = t.lact := rfl
@[simp] theorem Strand.writeF_status (t : Strand) (r : Reg) (x : Word) : (Strand.writeF t r x).status = t.status := rfl
@[simp] theorem Strand.writeF_cause (t : Strand) (r : Reg) (x : Word) : (Strand.writeF t r x).cause = t.cause := rfl
@[simp] theorem Strand.writeF_epc (t : Strand) (r : Reg) (x : Word) : (Strand.writeF t r x).epc = t.epc := rfl
@[simp] theorem Strand.writeF_tval (t : Strand) (r : Reg) (x : Word) : (Strand.writeF t r x).tval = t.tval := rfl
@[simp] theorem Strand.writeF_tvec (t : Strand) (r : Reg) (x : Word) : (Strand.writeF t r x).tvec = t.tvec := rfl
@[simp] theorem Strand.writeF_ctxid (t : Strand) (r : Reg) (x : Word) : (Strand.writeF t r x).ctxid = t.ctxid := rfl
@[simp] theorem Strand.writeF_ortbase (t : Strand) (r : Reg) (x : Word) : (Strand.writeF t r x).ortbase = t.ortbase := rfl
@[simp] theorem Strand.writeF_spillbase (t : Strand) (r : Reg) (x : Word) : (Strand.writeF t r x).spillbase = t.spillbase := rfl
@[simp] theorem Strand.writeF_spilltop (t : Strand) (r : Reg) (x : Word) : (Strand.writeF t r x).spilltop = t.spilltop := rfl
@[simp] theorem Strand.writeF_spillovf (t : Strand) (r : Reg) (x : Word) : (Strand.writeF t r x).spillovf = t.spillovf := rfl
@[simp] theorem Strand.writeF_fcsr (t : Strand) (r : Reg) (x : Word) : (Strand.writeF t r x).fcsr = t.fcsr := rfl
@[simp] theorem Strand.writeF_vstat (t : Strand) (r : Reg) (x : Word) : (Strand.writeF t r x).vstat = t.vstat := rfl
@[simp] theorem Strand.writeF_mhold (t : Strand) (r : Reg) (x : Word) : (Strand.writeF t r x).mhold = t.mhold := rfl
@[simp] theorem Strand.writeF_mweight (t : Strand) (r : Reg) (x : Word) : (Strand.writeF t r x).mweight = t.mweight := rfl
@[simp] theorem Strand.writeF_mstep (t : Strand) (r : Reg) (x : Word) : (Strand.writeF t r x).mstep = t.mstep := rfl
@[simp] theorem Strand.writeF_prio (t : Strand) (r : Reg) (x : Word) : (Strand.writeF t r x).prio = t.prio := rfl
@[simp] theorem Strand.writeF_hbeat (t : Strand) (r : Reg) (x : Word) : (Strand.writeF t r x).hbeat = t.hbeat := rfl
@[simp] theorem Strand.writeF_wdmode (t : Strand) (r : Reg) (x : Word) : (Strand.writeF t r x).wdmode = t.wdmode := rfl
@[simp] theorem Strand.writeF_mxseq (t : Strand) (r : Reg) (x : Word) : (Strand.writeF t r x).mxseq = t.mxseq := rfl
@[simp] theorem Strand.writeF_rowPoison (t : Strand) (r : Reg) (x : Word) : (Strand.writeF t r x).rowPoison = t.rowPoison := rfl
@[simp] theorem Strand.writeF_lost (t : Strand) (r : Reg) (x : Word) : (Strand.writeF t r x).lost = t.lost := rfl
@[simp] theorem Strand.writeF_slot (t : Strand) (r : Reg) (x : Word) : (Strand.writeF t r x).slot = t.slot := rfl
@[simp] theorem Strand.writeF_carved (t : Strand) (r : Reg) (x : Word) : (Strand.writeF t r x).carved = t.carved := rfl
@[simp] theorem Strand.writeF_decDone (t : Strand) (r : Reg) (x : Word) : (Strand.writeF t r x).decDone = t.decDone := rfl
@[simp] theorem Strand.writeF_begun (t : Strand) (r : Reg) (x : Word) : (Strand.writeF t r x).begun = t.begun := rfl
@[simp] theorem Strand.writeF_changing (t : Strand) (r : Reg) (x : Word) : (Strand.writeF t r x).changing = t.changing := rfl
@[simp] theorem Strand.writeF_evicted (t : Strand) (r : Reg) (x : Word) : (Strand.writeF t r x).evicted = t.evicted := rfl
@[simp] theorem Strand.writeF_share (t : Strand) (r : Reg) (x : Word) : (Strand.writeF t r x).share = t.share := rfl
@[simp] theorem Strand.writeF_peer (t : Strand) (r : Reg) (x : Word) : (Strand.writeF t r x).peer = t.peer := rfl

@[simp] theorem Strand.writeP_pc (t : Strand) (r : BitVec 3) (x : Bool) : (Strand.writeP t r x).pc = t.pc := by unfold Strand.writeP; split <;> rfl
@[simp] theorem Strand.writeP_g (t : Strand) (r : BitVec 3) (x : Bool) : (Strand.writeP t r x).g = t.g := by unfold Strand.writeP; split <;> rfl
@[simp] theorem Strand.writeP_f (t : Strand) (r : BitVec 3) (x : Bool) : (Strand.writeP t r x).f = t.f := by unfold Strand.writeP; split <;> rfl
@[simp] theorem Strand.writeP_z (t : Strand) (r : BitVec 3) (x : Bool) : (Strand.writeP t r x).z = t.z := by unfold Strand.writeP; split <;> rfl
@[simp] theorem Strand.writeP_m (t : Strand) (r : BitVec 3) (x : Bool) : (Strand.writeP t r x).m = t.m := by unfold Strand.writeP; split <;> rfl
@[simp] theorem Strand.writeP_v (t : Strand) (r : BitVec 3) (x : Bool) : (Strand.writeP t r x).v = t.v := by unfold Strand.writeP; split <;> rfl
@[simp] theorem Strand.writeP_ty (t : Strand) (r : BitVec 3) (x : Bool) : (Strand.writeP t r x).ty = t.ty := by unfold Strand.writeP; split <;> rfl
@[simp] theorem Strand.writeP_cb (t : Strand) (r : BitVec 3) (x : Bool) : (Strand.writeP t r x).cb = t.cb := by unfold Strand.writeP; split <;> rfl
@[simp] theorem Strand.writeP_q (t : Strand) (r : BitVec 3) (x : Bool) : (Strand.writeP t r x).q = t.q := by unfold Strand.writeP; split <;> rfl
@[simp] theorem Strand.writeP_lcnt (t : Strand) (r : BitVec 3) (x : Bool) : (Strand.writeP t r x).lcnt = t.lcnt := by unfold Strand.writeP; split <;> rfl
@[simp] theorem Strand.writeP_lbeg (t : Strand) (r : BitVec 3) (x : Bool) : (Strand.writeP t r x).lbeg = t.lbeg := by unfold Strand.writeP; split <;> rfl
@[simp] theorem Strand.writeP_llen (t : Strand) (r : BitVec 3) (x : Bool) : (Strand.writeP t r x).llen = t.llen := by unfold Strand.writeP; split <;> rfl
@[simp] theorem Strand.writeP_lact (t : Strand) (r : BitVec 3) (x : Bool) : (Strand.writeP t r x).lact = t.lact := by unfold Strand.writeP; split <;> rfl
@[simp] theorem Strand.writeP_status (t : Strand) (r : BitVec 3) (x : Bool) : (Strand.writeP t r x).status = t.status := by unfold Strand.writeP; split <;> rfl
@[simp] theorem Strand.writeP_cause (t : Strand) (r : BitVec 3) (x : Bool) : (Strand.writeP t r x).cause = t.cause := by unfold Strand.writeP; split <;> rfl
@[simp] theorem Strand.writeP_epc (t : Strand) (r : BitVec 3) (x : Bool) : (Strand.writeP t r x).epc = t.epc := by unfold Strand.writeP; split <;> rfl
@[simp] theorem Strand.writeP_tval (t : Strand) (r : BitVec 3) (x : Bool) : (Strand.writeP t r x).tval = t.tval := by unfold Strand.writeP; split <;> rfl
@[simp] theorem Strand.writeP_tvec (t : Strand) (r : BitVec 3) (x : Bool) : (Strand.writeP t r x).tvec = t.tvec := by unfold Strand.writeP; split <;> rfl
@[simp] theorem Strand.writeP_ctxid (t : Strand) (r : BitVec 3) (x : Bool) : (Strand.writeP t r x).ctxid = t.ctxid := by unfold Strand.writeP; split <;> rfl
@[simp] theorem Strand.writeP_ortbase (t : Strand) (r : BitVec 3) (x : Bool) : (Strand.writeP t r x).ortbase = t.ortbase := by unfold Strand.writeP; split <;> rfl
@[simp] theorem Strand.writeP_spillbase (t : Strand) (r : BitVec 3) (x : Bool) : (Strand.writeP t r x).spillbase = t.spillbase := by unfold Strand.writeP; split <;> rfl
@[simp] theorem Strand.writeP_spilltop (t : Strand) (r : BitVec 3) (x : Bool) : (Strand.writeP t r x).spilltop = t.spilltop := by unfold Strand.writeP; split <;> rfl
@[simp] theorem Strand.writeP_spillovf (t : Strand) (r : BitVec 3) (x : Bool) : (Strand.writeP t r x).spillovf = t.spillovf := by unfold Strand.writeP; split <;> rfl
@[simp] theorem Strand.writeP_fcsr (t : Strand) (r : BitVec 3) (x : Bool) : (Strand.writeP t r x).fcsr = t.fcsr := by unfold Strand.writeP; split <;> rfl
@[simp] theorem Strand.writeP_vstat (t : Strand) (r : BitVec 3) (x : Bool) : (Strand.writeP t r x).vstat = t.vstat := by unfold Strand.writeP; split <;> rfl
@[simp] theorem Strand.writeP_mhold (t : Strand) (r : BitVec 3) (x : Bool) : (Strand.writeP t r x).mhold = t.mhold := by unfold Strand.writeP; split <;> rfl
@[simp] theorem Strand.writeP_mweight (t : Strand) (r : BitVec 3) (x : Bool) : (Strand.writeP t r x).mweight = t.mweight := by unfold Strand.writeP; split <;> rfl
@[simp] theorem Strand.writeP_mstep (t : Strand) (r : BitVec 3) (x : Bool) : (Strand.writeP t r x).mstep = t.mstep := by unfold Strand.writeP; split <;> rfl
@[simp] theorem Strand.writeP_prio (t : Strand) (r : BitVec 3) (x : Bool) : (Strand.writeP t r x).prio = t.prio := by unfold Strand.writeP; split <;> rfl
@[simp] theorem Strand.writeP_hbeat (t : Strand) (r : BitVec 3) (x : Bool) : (Strand.writeP t r x).hbeat = t.hbeat := by unfold Strand.writeP; split <;> rfl
@[simp] theorem Strand.writeP_wdmode (t : Strand) (r : BitVec 3) (x : Bool) : (Strand.writeP t r x).wdmode = t.wdmode := by unfold Strand.writeP; split <;> rfl
@[simp] theorem Strand.writeP_mxseq (t : Strand) (r : BitVec 3) (x : Bool) : (Strand.writeP t r x).mxseq = t.mxseq := by unfold Strand.writeP; split <;> rfl
@[simp] theorem Strand.writeP_rowPoison (t : Strand) (r : BitVec 3) (x : Bool) : (Strand.writeP t r x).rowPoison = t.rowPoison := by unfold Strand.writeP; split <;> rfl
@[simp] theorem Strand.writeP_lost (t : Strand) (r : BitVec 3) (x : Bool) : (Strand.writeP t r x).lost = t.lost := by unfold Strand.writeP; split <;> rfl
@[simp] theorem Strand.writeP_slot (t : Strand) (r : BitVec 3) (x : Bool) : (Strand.writeP t r x).slot = t.slot := by unfold Strand.writeP; split <;> rfl
@[simp] theorem Strand.writeP_carved (t : Strand) (r : BitVec 3) (x : Bool) : (Strand.writeP t r x).carved = t.carved := by unfold Strand.writeP; split <;> rfl
@[simp] theorem Strand.writeP_decDone (t : Strand) (r : BitVec 3) (x : Bool) : (Strand.writeP t r x).decDone = t.decDone := by unfold Strand.writeP; split <;> rfl
@[simp] theorem Strand.writeP_begun (t : Strand) (r : BitVec 3) (x : Bool) : (Strand.writeP t r x).begun = t.begun := by unfold Strand.writeP; split <;> rfl
@[simp] theorem Strand.writeP_changing (t : Strand) (r : BitVec 3) (x : Bool) : (Strand.writeP t r x).changing = t.changing := by unfold Strand.writeP; split <;> rfl
@[simp] theorem Strand.writeP_evicted (t : Strand) (r : BitVec 3) (x : Bool) : (Strand.writeP t r x).evicted = t.evicted := by unfold Strand.writeP; split <;> rfl
@[simp] theorem Strand.writeP_share (t : Strand) (r : BitVec 3) (x : Bool) : (Strand.writeP t r x).share = t.share := by unfold Strand.writeP; split <;> rfl
@[simp] theorem Strand.writeP_peer (t : Strand) (r : BitVec 3) (x : Bool) : (Strand.writeP t r x).peer = t.peer := by unfold Strand.writeP; split <;> rfl

@[simp] theorem Strand.writeZ_pc (t : Strand) (r : BitVec 3) (x : Bool) : (Strand.writeZ t r x).pc = t.pc := by unfold Strand.writeZ; split <;> rfl
@[simp] theorem Strand.writeZ_g (t : Strand) (r : BitVec 3) (x : Bool) : (Strand.writeZ t r x).g = t.g := by unfold Strand.writeZ; split <;> rfl
@[simp] theorem Strand.writeZ_f (t : Strand) (r : BitVec 3) (x : Bool) : (Strand.writeZ t r x).f = t.f := by unfold Strand.writeZ; split <;> rfl
@[simp] theorem Strand.writeZ_p (t : Strand) (r : BitVec 3) (x : Bool) : (Strand.writeZ t r x).p = t.p := by unfold Strand.writeZ; split <;> rfl
@[simp] theorem Strand.writeZ_m (t : Strand) (r : BitVec 3) (x : Bool) : (Strand.writeZ t r x).m = t.m := by unfold Strand.writeZ; split <;> rfl
@[simp] theorem Strand.writeZ_v (t : Strand) (r : BitVec 3) (x : Bool) : (Strand.writeZ t r x).v = t.v := by unfold Strand.writeZ; split <;> rfl
@[simp] theorem Strand.writeZ_ty (t : Strand) (r : BitVec 3) (x : Bool) : (Strand.writeZ t r x).ty = t.ty := by unfold Strand.writeZ; split <;> rfl
@[simp] theorem Strand.writeZ_cb (t : Strand) (r : BitVec 3) (x : Bool) : (Strand.writeZ t r x).cb = t.cb := by unfold Strand.writeZ; split <;> rfl
@[simp] theorem Strand.writeZ_q (t : Strand) (r : BitVec 3) (x : Bool) : (Strand.writeZ t r x).q = t.q := by unfold Strand.writeZ; split <;> rfl
@[simp] theorem Strand.writeZ_lcnt (t : Strand) (r : BitVec 3) (x : Bool) : (Strand.writeZ t r x).lcnt = t.lcnt := by unfold Strand.writeZ; split <;> rfl
@[simp] theorem Strand.writeZ_lbeg (t : Strand) (r : BitVec 3) (x : Bool) : (Strand.writeZ t r x).lbeg = t.lbeg := by unfold Strand.writeZ; split <;> rfl
@[simp] theorem Strand.writeZ_llen (t : Strand) (r : BitVec 3) (x : Bool) : (Strand.writeZ t r x).llen = t.llen := by unfold Strand.writeZ; split <;> rfl
@[simp] theorem Strand.writeZ_lact (t : Strand) (r : BitVec 3) (x : Bool) : (Strand.writeZ t r x).lact = t.lact := by unfold Strand.writeZ; split <;> rfl
@[simp] theorem Strand.writeZ_status (t : Strand) (r : BitVec 3) (x : Bool) : (Strand.writeZ t r x).status = t.status := by unfold Strand.writeZ; split <;> rfl
@[simp] theorem Strand.writeZ_cause (t : Strand) (r : BitVec 3) (x : Bool) : (Strand.writeZ t r x).cause = t.cause := by unfold Strand.writeZ; split <;> rfl
@[simp] theorem Strand.writeZ_epc (t : Strand) (r : BitVec 3) (x : Bool) : (Strand.writeZ t r x).epc = t.epc := by unfold Strand.writeZ; split <;> rfl
@[simp] theorem Strand.writeZ_tval (t : Strand) (r : BitVec 3) (x : Bool) : (Strand.writeZ t r x).tval = t.tval := by unfold Strand.writeZ; split <;> rfl
@[simp] theorem Strand.writeZ_tvec (t : Strand) (r : BitVec 3) (x : Bool) : (Strand.writeZ t r x).tvec = t.tvec := by unfold Strand.writeZ; split <;> rfl
@[simp] theorem Strand.writeZ_ctxid (t : Strand) (r : BitVec 3) (x : Bool) : (Strand.writeZ t r x).ctxid = t.ctxid := by unfold Strand.writeZ; split <;> rfl
@[simp] theorem Strand.writeZ_ortbase (t : Strand) (r : BitVec 3) (x : Bool) : (Strand.writeZ t r x).ortbase = t.ortbase := by unfold Strand.writeZ; split <;> rfl
@[simp] theorem Strand.writeZ_spillbase (t : Strand) (r : BitVec 3) (x : Bool) : (Strand.writeZ t r x).spillbase = t.spillbase := by unfold Strand.writeZ; split <;> rfl
@[simp] theorem Strand.writeZ_spilltop (t : Strand) (r : BitVec 3) (x : Bool) : (Strand.writeZ t r x).spilltop = t.spilltop := by unfold Strand.writeZ; split <;> rfl
@[simp] theorem Strand.writeZ_spillovf (t : Strand) (r : BitVec 3) (x : Bool) : (Strand.writeZ t r x).spillovf = t.spillovf := by unfold Strand.writeZ; split <;> rfl
@[simp] theorem Strand.writeZ_fcsr (t : Strand) (r : BitVec 3) (x : Bool) : (Strand.writeZ t r x).fcsr = t.fcsr := by unfold Strand.writeZ; split <;> rfl
@[simp] theorem Strand.writeZ_vstat (t : Strand) (r : BitVec 3) (x : Bool) : (Strand.writeZ t r x).vstat = t.vstat := by unfold Strand.writeZ; split <;> rfl
@[simp] theorem Strand.writeZ_mhold (t : Strand) (r : BitVec 3) (x : Bool) : (Strand.writeZ t r x).mhold = t.mhold := by unfold Strand.writeZ; split <;> rfl
@[simp] theorem Strand.writeZ_mweight (t : Strand) (r : BitVec 3) (x : Bool) : (Strand.writeZ t r x).mweight = t.mweight := by unfold Strand.writeZ; split <;> rfl
@[simp] theorem Strand.writeZ_mstep (t : Strand) (r : BitVec 3) (x : Bool) : (Strand.writeZ t r x).mstep = t.mstep := by unfold Strand.writeZ; split <;> rfl
@[simp] theorem Strand.writeZ_prio (t : Strand) (r : BitVec 3) (x : Bool) : (Strand.writeZ t r x).prio = t.prio := by unfold Strand.writeZ; split <;> rfl
@[simp] theorem Strand.writeZ_hbeat (t : Strand) (r : BitVec 3) (x : Bool) : (Strand.writeZ t r x).hbeat = t.hbeat := by unfold Strand.writeZ; split <;> rfl
@[simp] theorem Strand.writeZ_wdmode (t : Strand) (r : BitVec 3) (x : Bool) : (Strand.writeZ t r x).wdmode = t.wdmode := by unfold Strand.writeZ; split <;> rfl
@[simp] theorem Strand.writeZ_mxseq (t : Strand) (r : BitVec 3) (x : Bool) : (Strand.writeZ t r x).mxseq = t.mxseq := by unfold Strand.writeZ; split <;> rfl
@[simp] theorem Strand.writeZ_rowPoison (t : Strand) (r : BitVec 3) (x : Bool) : (Strand.writeZ t r x).rowPoison = t.rowPoison := by unfold Strand.writeZ; split <;> rfl
@[simp] theorem Strand.writeZ_lost (t : Strand) (r : BitVec 3) (x : Bool) : (Strand.writeZ t r x).lost = t.lost := by unfold Strand.writeZ; split <;> rfl
@[simp] theorem Strand.writeZ_slot (t : Strand) (r : BitVec 3) (x : Bool) : (Strand.writeZ t r x).slot = t.slot := by unfold Strand.writeZ; split <;> rfl
@[simp] theorem Strand.writeZ_carved (t : Strand) (r : BitVec 3) (x : Bool) : (Strand.writeZ t r x).carved = t.carved := by unfold Strand.writeZ; split <;> rfl
@[simp] theorem Strand.writeZ_decDone (t : Strand) (r : BitVec 3) (x : Bool) : (Strand.writeZ t r x).decDone = t.decDone := by unfold Strand.writeZ; split <;> rfl
@[simp] theorem Strand.writeZ_begun (t : Strand) (r : BitVec 3) (x : Bool) : (Strand.writeZ t r x).begun = t.begun := by unfold Strand.writeZ; split <;> rfl
@[simp] theorem Strand.writeZ_changing (t : Strand) (r : BitVec 3) (x : Bool) : (Strand.writeZ t r x).changing = t.changing := by unfold Strand.writeZ; split <;> rfl
@[simp] theorem Strand.writeZ_evicted (t : Strand) (r : BitVec 3) (x : Bool) : (Strand.writeZ t r x).evicted = t.evicted := by unfold Strand.writeZ; split <;> rfl
@[simp] theorem Strand.writeZ_share (t : Strand) (r : BitVec 3) (x : Bool) : (Strand.writeZ t r x).share = t.share := by unfold Strand.writeZ; split <;> rfl
@[simp] theorem Strand.writeZ_peer (t : Strand) (r : BitVec 3) (x : Bool) : (Strand.writeZ t r x).peer = t.peer := by unfold Strand.writeZ; split <;> rfl

@[simp] theorem Strand.writeV_pc (t : Strand) (r : VReg) (x : Row) : (Strand.writeV t r x).pc = t.pc := rfl
@[simp] theorem Strand.writeV_g (t : Strand) (r : VReg) (x : Row) : (Strand.writeV t r x).g = t.g := rfl
@[simp] theorem Strand.writeV_f (t : Strand) (r : VReg) (x : Row) : (Strand.writeV t r x).f = t.f := rfl
@[simp] theorem Strand.writeV_p (t : Strand) (r : VReg) (x : Row) : (Strand.writeV t r x).p = t.p := rfl
@[simp] theorem Strand.writeV_z (t : Strand) (r : VReg) (x : Row) : (Strand.writeV t r x).z = t.z := rfl
@[simp] theorem Strand.writeV_m (t : Strand) (r : VReg) (x : Row) : (Strand.writeV t r x).m = t.m := rfl
@[simp] theorem Strand.writeV_v (t : Strand) (r : VReg) (x : Row) : (Strand.writeV t r x).v = t.v.set r.toNat x r.isLt := rfl
@[simp] theorem Strand.writeV_ty (t : Strand) (r : VReg) (x : Row) : (Strand.writeV t r x).ty = t.ty := rfl
@[simp] theorem Strand.writeV_cb (t : Strand) (r : VReg) (x : Row) : (Strand.writeV t r x).cb = t.cb := rfl
@[simp] theorem Strand.writeV_q (t : Strand) (r : VReg) (x : Row) : (Strand.writeV t r x).q = t.q := rfl
@[simp] theorem Strand.writeV_lcnt (t : Strand) (r : VReg) (x : Row) : (Strand.writeV t r x).lcnt = t.lcnt := rfl
@[simp] theorem Strand.writeV_lbeg (t : Strand) (r : VReg) (x : Row) : (Strand.writeV t r x).lbeg = t.lbeg := rfl
@[simp] theorem Strand.writeV_llen (t : Strand) (r : VReg) (x : Row) : (Strand.writeV t r x).llen = t.llen := rfl
@[simp] theorem Strand.writeV_lact (t : Strand) (r : VReg) (x : Row) : (Strand.writeV t r x).lact = t.lact := rfl
@[simp] theorem Strand.writeV_status (t : Strand) (r : VReg) (x : Row) : (Strand.writeV t r x).status = t.status := rfl
@[simp] theorem Strand.writeV_cause (t : Strand) (r : VReg) (x : Row) : (Strand.writeV t r x).cause = t.cause := rfl
@[simp] theorem Strand.writeV_epc (t : Strand) (r : VReg) (x : Row) : (Strand.writeV t r x).epc = t.epc := rfl
@[simp] theorem Strand.writeV_tval (t : Strand) (r : VReg) (x : Row) : (Strand.writeV t r x).tval = t.tval := rfl
@[simp] theorem Strand.writeV_tvec (t : Strand) (r : VReg) (x : Row) : (Strand.writeV t r x).tvec = t.tvec := rfl
@[simp] theorem Strand.writeV_ctxid (t : Strand) (r : VReg) (x : Row) : (Strand.writeV t r x).ctxid = t.ctxid := rfl
@[simp] theorem Strand.writeV_ortbase (t : Strand) (r : VReg) (x : Row) : (Strand.writeV t r x).ortbase = t.ortbase := rfl
@[simp] theorem Strand.writeV_spillbase (t : Strand) (r : VReg) (x : Row) : (Strand.writeV t r x).spillbase = t.spillbase := rfl
@[simp] theorem Strand.writeV_spilltop (t : Strand) (r : VReg) (x : Row) : (Strand.writeV t r x).spilltop = t.spilltop := rfl
@[simp] theorem Strand.writeV_spillovf (t : Strand) (r : VReg) (x : Row) : (Strand.writeV t r x).spillovf = t.spillovf := rfl
@[simp] theorem Strand.writeV_fcsr (t : Strand) (r : VReg) (x : Row) : (Strand.writeV t r x).fcsr = t.fcsr := rfl
@[simp] theorem Strand.writeV_vstat (t : Strand) (r : VReg) (x : Row) : (Strand.writeV t r x).vstat = t.vstat := rfl
@[simp] theorem Strand.writeV_mhold (t : Strand) (r : VReg) (x : Row) : (Strand.writeV t r x).mhold = t.mhold := rfl
@[simp] theorem Strand.writeV_mweight (t : Strand) (r : VReg) (x : Row) : (Strand.writeV t r x).mweight = t.mweight := rfl
@[simp] theorem Strand.writeV_mstep (t : Strand) (r : VReg) (x : Row) : (Strand.writeV t r x).mstep = t.mstep := rfl
@[simp] theorem Strand.writeV_prio (t : Strand) (r : VReg) (x : Row) : (Strand.writeV t r x).prio = t.prio := rfl
@[simp] theorem Strand.writeV_hbeat (t : Strand) (r : VReg) (x : Row) : (Strand.writeV t r x).hbeat = t.hbeat := rfl
@[simp] theorem Strand.writeV_wdmode (t : Strand) (r : VReg) (x : Row) : (Strand.writeV t r x).wdmode = t.wdmode := rfl
@[simp] theorem Strand.writeV_mxseq (t : Strand) (r : VReg) (x : Row) : (Strand.writeV t r x).mxseq = t.mxseq := rfl
@[simp] theorem Strand.writeV_rowPoison (t : Strand) (r : VReg) (x : Row) : (Strand.writeV t r x).rowPoison = t.rowPoison := rfl
@[simp] theorem Strand.writeV_lost (t : Strand) (r : VReg) (x : Row) : (Strand.writeV t r x).lost = t.lost := rfl
@[simp] theorem Strand.writeV_slot (t : Strand) (r : VReg) (x : Row) : (Strand.writeV t r x).slot = t.slot := rfl
@[simp] theorem Strand.writeV_carved (t : Strand) (r : VReg) (x : Row) : (Strand.writeV t r x).carved = t.carved := rfl
@[simp] theorem Strand.writeV_decDone (t : Strand) (r : VReg) (x : Row) : (Strand.writeV t r x).decDone = t.decDone := rfl
@[simp] theorem Strand.writeV_begun (t : Strand) (r : VReg) (x : Row) : (Strand.writeV t r x).begun = t.begun := rfl
@[simp] theorem Strand.writeV_changing (t : Strand) (r : VReg) (x : Row) : (Strand.writeV t r x).changing = t.changing := rfl
@[simp] theorem Strand.writeV_evicted (t : Strand) (r : VReg) (x : Row) : (Strand.writeV t r x).evicted = t.evicted := rfl
@[simp] theorem Strand.writeV_share (t : Strand) (r : VReg) (x : Row) : (Strand.writeV t r x).share = t.share := rfl
@[simp] theorem Strand.writeV_peer (t : Strand) (r : VReg) (x : Row) : (Strand.writeV t r x).peer = t.peer := rfl

@[simp] theorem Strand.writeM_pc (t : Strand) (r : BitVec 3) (x : BitVec 128) : (Strand.writeM t r x).pc = t.pc := rfl
@[simp] theorem Strand.writeM_g (t : Strand) (r : BitVec 3) (x : BitVec 128) : (Strand.writeM t r x).g = t.g := rfl
@[simp] theorem Strand.writeM_f (t : Strand) (r : BitVec 3) (x : BitVec 128) : (Strand.writeM t r x).f = t.f := rfl
@[simp] theorem Strand.writeM_p (t : Strand) (r : BitVec 3) (x : BitVec 128) : (Strand.writeM t r x).p = t.p := rfl
@[simp] theorem Strand.writeM_z (t : Strand) (r : BitVec 3) (x : BitVec 128) : (Strand.writeM t r x).z = t.z := rfl
@[simp] theorem Strand.writeM_m (t : Strand) (r : BitVec 3) (x : BitVec 128) : (Strand.writeM t r x).m = t.m.set r.toNat x r.isLt := rfl
@[simp] theorem Strand.writeM_v (t : Strand) (r : BitVec 3) (x : BitVec 128) : (Strand.writeM t r x).v = t.v := rfl
@[simp] theorem Strand.writeM_ty (t : Strand) (r : BitVec 3) (x : BitVec 128) : (Strand.writeM t r x).ty = t.ty := rfl
@[simp] theorem Strand.writeM_cb (t : Strand) (r : BitVec 3) (x : BitVec 128) : (Strand.writeM t r x).cb = t.cb := rfl
@[simp] theorem Strand.writeM_q (t : Strand) (r : BitVec 3) (x : BitVec 128) : (Strand.writeM t r x).q = t.q := rfl
@[simp] theorem Strand.writeM_lcnt (t : Strand) (r : BitVec 3) (x : BitVec 128) : (Strand.writeM t r x).lcnt = t.lcnt := rfl
@[simp] theorem Strand.writeM_lbeg (t : Strand) (r : BitVec 3) (x : BitVec 128) : (Strand.writeM t r x).lbeg = t.lbeg := rfl
@[simp] theorem Strand.writeM_llen (t : Strand) (r : BitVec 3) (x : BitVec 128) : (Strand.writeM t r x).llen = t.llen := rfl
@[simp] theorem Strand.writeM_lact (t : Strand) (r : BitVec 3) (x : BitVec 128) : (Strand.writeM t r x).lact = t.lact := rfl
@[simp] theorem Strand.writeM_status (t : Strand) (r : BitVec 3) (x : BitVec 128) : (Strand.writeM t r x).status = t.status := rfl
@[simp] theorem Strand.writeM_cause (t : Strand) (r : BitVec 3) (x : BitVec 128) : (Strand.writeM t r x).cause = t.cause := rfl
@[simp] theorem Strand.writeM_epc (t : Strand) (r : BitVec 3) (x : BitVec 128) : (Strand.writeM t r x).epc = t.epc := rfl
@[simp] theorem Strand.writeM_tval (t : Strand) (r : BitVec 3) (x : BitVec 128) : (Strand.writeM t r x).tval = t.tval := rfl
@[simp] theorem Strand.writeM_tvec (t : Strand) (r : BitVec 3) (x : BitVec 128) : (Strand.writeM t r x).tvec = t.tvec := rfl
@[simp] theorem Strand.writeM_ctxid (t : Strand) (r : BitVec 3) (x : BitVec 128) : (Strand.writeM t r x).ctxid = t.ctxid := rfl
@[simp] theorem Strand.writeM_ortbase (t : Strand) (r : BitVec 3) (x : BitVec 128) : (Strand.writeM t r x).ortbase = t.ortbase := rfl
@[simp] theorem Strand.writeM_spillbase (t : Strand) (r : BitVec 3) (x : BitVec 128) : (Strand.writeM t r x).spillbase = t.spillbase := rfl
@[simp] theorem Strand.writeM_spilltop (t : Strand) (r : BitVec 3) (x : BitVec 128) : (Strand.writeM t r x).spilltop = t.spilltop := rfl
@[simp] theorem Strand.writeM_spillovf (t : Strand) (r : BitVec 3) (x : BitVec 128) : (Strand.writeM t r x).spillovf = t.spillovf := rfl
@[simp] theorem Strand.writeM_fcsr (t : Strand) (r : BitVec 3) (x : BitVec 128) : (Strand.writeM t r x).fcsr = t.fcsr := rfl
@[simp] theorem Strand.writeM_vstat (t : Strand) (r : BitVec 3) (x : BitVec 128) : (Strand.writeM t r x).vstat = t.vstat := rfl
@[simp] theorem Strand.writeM_mhold (t : Strand) (r : BitVec 3) (x : BitVec 128) : (Strand.writeM t r x).mhold = t.mhold := rfl
@[simp] theorem Strand.writeM_mweight (t : Strand) (r : BitVec 3) (x : BitVec 128) : (Strand.writeM t r x).mweight = t.mweight := rfl
@[simp] theorem Strand.writeM_mstep (t : Strand) (r : BitVec 3) (x : BitVec 128) : (Strand.writeM t r x).mstep = t.mstep := rfl
@[simp] theorem Strand.writeM_prio (t : Strand) (r : BitVec 3) (x : BitVec 128) : (Strand.writeM t r x).prio = t.prio := rfl
@[simp] theorem Strand.writeM_hbeat (t : Strand) (r : BitVec 3) (x : BitVec 128) : (Strand.writeM t r x).hbeat = t.hbeat := rfl
@[simp] theorem Strand.writeM_wdmode (t : Strand) (r : BitVec 3) (x : BitVec 128) : (Strand.writeM t r x).wdmode = t.wdmode := rfl
@[simp] theorem Strand.writeM_mxseq (t : Strand) (r : BitVec 3) (x : BitVec 128) : (Strand.writeM t r x).mxseq = t.mxseq := rfl
@[simp] theorem Strand.writeM_rowPoison (t : Strand) (r : BitVec 3) (x : BitVec 128) : (Strand.writeM t r x).rowPoison = t.rowPoison := rfl
@[simp] theorem Strand.writeM_lost (t : Strand) (r : BitVec 3) (x : BitVec 128) : (Strand.writeM t r x).lost = t.lost := rfl
@[simp] theorem Strand.writeM_slot (t : Strand) (r : BitVec 3) (x : BitVec 128) : (Strand.writeM t r x).slot = t.slot := rfl
@[simp] theorem Strand.writeM_carved (t : Strand) (r : BitVec 3) (x : BitVec 128) : (Strand.writeM t r x).carved = t.carved := rfl
@[simp] theorem Strand.writeM_decDone (t : Strand) (r : BitVec 3) (x : BitVec 128) : (Strand.writeM t r x).decDone = t.decDone := rfl
@[simp] theorem Strand.writeM_begun (t : Strand) (r : BitVec 3) (x : BitVec 128) : (Strand.writeM t r x).begun = t.begun := rfl
@[simp] theorem Strand.writeM_changing (t : Strand) (r : BitVec 3) (x : BitVec 128) : (Strand.writeM t r x).changing = t.changing := rfl
@[simp] theorem Strand.writeM_evicted (t : Strand) (r : BitVec 3) (x : BitVec 128) : (Strand.writeM t r x).evicted = t.evicted := rfl
@[simp] theorem Strand.writeM_share (t : Strand) (r : BitVec 3) (x : BitVec 128) : (Strand.writeM t r x).share = t.share := rfl
@[simp] theorem Strand.writeM_peer (t : Strand) (r : BitVec 3) (x : BitVec 128) : (Strand.writeM t r x).peer = t.peer := rfl

@[simp] theorem Strand.writeQ_pc (t : Strand) (r : BitVec 3) (x : Queue) : (Strand.writeQ t r x).pc = t.pc := rfl
@[simp] theorem Strand.writeQ_g (t : Strand) (r : BitVec 3) (x : Queue) : (Strand.writeQ t r x).g = t.g := rfl
@[simp] theorem Strand.writeQ_f (t : Strand) (r : BitVec 3) (x : Queue) : (Strand.writeQ t r x).f = t.f := rfl
@[simp] theorem Strand.writeQ_p (t : Strand) (r : BitVec 3) (x : Queue) : (Strand.writeQ t r x).p = t.p := rfl
@[simp] theorem Strand.writeQ_z (t : Strand) (r : BitVec 3) (x : Queue) : (Strand.writeQ t r x).z = t.z := rfl
@[simp] theorem Strand.writeQ_m (t : Strand) (r : BitVec 3) (x : Queue) : (Strand.writeQ t r x).m = t.m := rfl
@[simp] theorem Strand.writeQ_v (t : Strand) (r : BitVec 3) (x : Queue) : (Strand.writeQ t r x).v = t.v := rfl
@[simp] theorem Strand.writeQ_ty (t : Strand) (r : BitVec 3) (x : Queue) : (Strand.writeQ t r x).ty = t.ty := rfl
@[simp] theorem Strand.writeQ_cb (t : Strand) (r : BitVec 3) (x : Queue) : (Strand.writeQ t r x).cb = t.cb := rfl
@[simp] theorem Strand.writeQ_q (t : Strand) (r : BitVec 3) (x : Queue) : (Strand.writeQ t r x).q = t.q.set r.toNat x r.isLt := rfl
@[simp] theorem Strand.writeQ_lcnt (t : Strand) (r : BitVec 3) (x : Queue) : (Strand.writeQ t r x).lcnt = t.lcnt := rfl
@[simp] theorem Strand.writeQ_lbeg (t : Strand) (r : BitVec 3) (x : Queue) : (Strand.writeQ t r x).lbeg = t.lbeg := rfl
@[simp] theorem Strand.writeQ_llen (t : Strand) (r : BitVec 3) (x : Queue) : (Strand.writeQ t r x).llen = t.llen := rfl
@[simp] theorem Strand.writeQ_lact (t : Strand) (r : BitVec 3) (x : Queue) : (Strand.writeQ t r x).lact = t.lact := rfl
@[simp] theorem Strand.writeQ_status (t : Strand) (r : BitVec 3) (x : Queue) : (Strand.writeQ t r x).status = t.status := rfl
@[simp] theorem Strand.writeQ_cause (t : Strand) (r : BitVec 3) (x : Queue) : (Strand.writeQ t r x).cause = t.cause := rfl
@[simp] theorem Strand.writeQ_epc (t : Strand) (r : BitVec 3) (x : Queue) : (Strand.writeQ t r x).epc = t.epc := rfl
@[simp] theorem Strand.writeQ_tval (t : Strand) (r : BitVec 3) (x : Queue) : (Strand.writeQ t r x).tval = t.tval := rfl
@[simp] theorem Strand.writeQ_tvec (t : Strand) (r : BitVec 3) (x : Queue) : (Strand.writeQ t r x).tvec = t.tvec := rfl
@[simp] theorem Strand.writeQ_ctxid (t : Strand) (r : BitVec 3) (x : Queue) : (Strand.writeQ t r x).ctxid = t.ctxid := rfl
@[simp] theorem Strand.writeQ_ortbase (t : Strand) (r : BitVec 3) (x : Queue) : (Strand.writeQ t r x).ortbase = t.ortbase := rfl
@[simp] theorem Strand.writeQ_spillbase (t : Strand) (r : BitVec 3) (x : Queue) : (Strand.writeQ t r x).spillbase = t.spillbase := rfl
@[simp] theorem Strand.writeQ_spilltop (t : Strand) (r : BitVec 3) (x : Queue) : (Strand.writeQ t r x).spilltop = t.spilltop := rfl
@[simp] theorem Strand.writeQ_spillovf (t : Strand) (r : BitVec 3) (x : Queue) : (Strand.writeQ t r x).spillovf = t.spillovf := rfl
@[simp] theorem Strand.writeQ_fcsr (t : Strand) (r : BitVec 3) (x : Queue) : (Strand.writeQ t r x).fcsr = t.fcsr := rfl
@[simp] theorem Strand.writeQ_vstat (t : Strand) (r : BitVec 3) (x : Queue) : (Strand.writeQ t r x).vstat = t.vstat := rfl
@[simp] theorem Strand.writeQ_mhold (t : Strand) (r : BitVec 3) (x : Queue) : (Strand.writeQ t r x).mhold = t.mhold := rfl
@[simp] theorem Strand.writeQ_mweight (t : Strand) (r : BitVec 3) (x : Queue) : (Strand.writeQ t r x).mweight = t.mweight := rfl
@[simp] theorem Strand.writeQ_mstep (t : Strand) (r : BitVec 3) (x : Queue) : (Strand.writeQ t r x).mstep = t.mstep := rfl
@[simp] theorem Strand.writeQ_prio (t : Strand) (r : BitVec 3) (x : Queue) : (Strand.writeQ t r x).prio = t.prio := rfl
@[simp] theorem Strand.writeQ_hbeat (t : Strand) (r : BitVec 3) (x : Queue) : (Strand.writeQ t r x).hbeat = t.hbeat := rfl
@[simp] theorem Strand.writeQ_wdmode (t : Strand) (r : BitVec 3) (x : Queue) : (Strand.writeQ t r x).wdmode = t.wdmode := rfl
@[simp] theorem Strand.writeQ_mxseq (t : Strand) (r : BitVec 3) (x : Queue) : (Strand.writeQ t r x).mxseq = t.mxseq := rfl
@[simp] theorem Strand.writeQ_rowPoison (t : Strand) (r : BitVec 3) (x : Queue) : (Strand.writeQ t r x).rowPoison = t.rowPoison := rfl
@[simp] theorem Strand.writeQ_lost (t : Strand) (r : BitVec 3) (x : Queue) : (Strand.writeQ t r x).lost = t.lost := rfl
@[simp] theorem Strand.writeQ_slot (t : Strand) (r : BitVec 3) (x : Queue) : (Strand.writeQ t r x).slot = t.slot := rfl
@[simp] theorem Strand.writeQ_carved (t : Strand) (r : BitVec 3) (x : Queue) : (Strand.writeQ t r x).carved = t.carved := rfl
@[simp] theorem Strand.writeQ_decDone (t : Strand) (r : BitVec 3) (x : Queue) : (Strand.writeQ t r x).decDone = t.decDone := rfl
@[simp] theorem Strand.writeQ_begun (t : Strand) (r : BitVec 3) (x : Queue) : (Strand.writeQ t r x).begun = t.begun := rfl
@[simp] theorem Strand.writeQ_changing (t : Strand) (r : BitVec 3) (x : Queue) : (Strand.writeQ t r x).changing = t.changing := rfl
@[simp] theorem Strand.writeQ_evicted (t : Strand) (r : BitVec 3) (x : Queue) : (Strand.writeQ t r x).evicted = t.evicted := rfl
@[simp] theorem Strand.writeQ_share (t : Strand) (r : BitVec 3) (x : Queue) : (Strand.writeQ t r x).share = t.share := rfl
@[simp] theorem Strand.writeQ_peer (t : Strand) (r : BitVec 3) (x : Queue) : (Strand.writeQ t r x).peer = t.peer := rfl

@[simp] theorem Strand.setEv_pc (t : Strand) : (Strand.setEv t).pc = t.pc := rfl
@[simp] theorem Strand.setEv_g (t : Strand) : (Strand.setEv t).g = t.g := rfl
@[simp] theorem Strand.setEv_f (t : Strand) : (Strand.setEv t).f = t.f := rfl
@[simp] theorem Strand.setEv_p (t : Strand) : (Strand.setEv t).p = t.p := rfl
@[simp] theorem Strand.setEv_z (t : Strand) : (Strand.setEv t).z = t.z := rfl
@[simp] theorem Strand.setEv_m (t : Strand) : (Strand.setEv t).m = t.m := rfl
@[simp] theorem Strand.setEv_v (t : Strand) : (Strand.setEv t).v = t.v := rfl
@[simp] theorem Strand.setEv_ty (t : Strand) : (Strand.setEv t).ty = t.ty := rfl
@[simp] theorem Strand.setEv_cb (t : Strand) : (Strand.setEv t).cb = t.cb := rfl
@[simp] theorem Strand.setEv_q (t : Strand) : (Strand.setEv t).q = t.q := rfl
@[simp] theorem Strand.setEv_lcnt (t : Strand) : (Strand.setEv t).lcnt = t.lcnt := rfl
@[simp] theorem Strand.setEv_lbeg (t : Strand) : (Strand.setEv t).lbeg = t.lbeg := rfl
@[simp] theorem Strand.setEv_llen (t : Strand) : (Strand.setEv t).llen = t.llen := rfl
@[simp] theorem Strand.setEv_lact (t : Strand) : (Strand.setEv t).lact = t.lact := rfl
@[simp] theorem Strand.setEv_status (t : Strand) : (Strand.setEv t).status = t.status ||| 4 := rfl
@[simp] theorem Strand.setEv_cause (t : Strand) : (Strand.setEv t).cause = t.cause := rfl
@[simp] theorem Strand.setEv_epc (t : Strand) : (Strand.setEv t).epc = t.epc := rfl
@[simp] theorem Strand.setEv_tval (t : Strand) : (Strand.setEv t).tval = t.tval := rfl
@[simp] theorem Strand.setEv_tvec (t : Strand) : (Strand.setEv t).tvec = t.tvec := rfl
@[simp] theorem Strand.setEv_ctxid (t : Strand) : (Strand.setEv t).ctxid = t.ctxid := rfl
@[simp] theorem Strand.setEv_ortbase (t : Strand) : (Strand.setEv t).ortbase = t.ortbase := rfl
@[simp] theorem Strand.setEv_spillbase (t : Strand) : (Strand.setEv t).spillbase = t.spillbase := rfl
@[simp] theorem Strand.setEv_spilltop (t : Strand) : (Strand.setEv t).spilltop = t.spilltop := rfl
@[simp] theorem Strand.setEv_spillovf (t : Strand) : (Strand.setEv t).spillovf = t.spillovf := rfl
@[simp] theorem Strand.setEv_fcsr (t : Strand) : (Strand.setEv t).fcsr = t.fcsr := rfl
@[simp] theorem Strand.setEv_vstat (t : Strand) : (Strand.setEv t).vstat = t.vstat := rfl
@[simp] theorem Strand.setEv_mhold (t : Strand) : (Strand.setEv t).mhold = t.mhold := rfl
@[simp] theorem Strand.setEv_mweight (t : Strand) : (Strand.setEv t).mweight = t.mweight := rfl
@[simp] theorem Strand.setEv_mstep (t : Strand) : (Strand.setEv t).mstep = t.mstep := rfl
@[simp] theorem Strand.setEv_prio (t : Strand) : (Strand.setEv t).prio = t.prio := rfl
@[simp] theorem Strand.setEv_hbeat (t : Strand) : (Strand.setEv t).hbeat = t.hbeat := rfl
@[simp] theorem Strand.setEv_wdmode (t : Strand) : (Strand.setEv t).wdmode = t.wdmode := rfl
@[simp] theorem Strand.setEv_mxseq (t : Strand) : (Strand.setEv t).mxseq = t.mxseq := rfl
@[simp] theorem Strand.setEv_rowPoison (t : Strand) : (Strand.setEv t).rowPoison = t.rowPoison := rfl
@[simp] theorem Strand.setEv_lost (t : Strand) : (Strand.setEv t).lost = t.lost := rfl
@[simp] theorem Strand.setEv_slot (t : Strand) : (Strand.setEv t).slot = t.slot := rfl
@[simp] theorem Strand.setEv_carved (t : Strand) : (Strand.setEv t).carved = t.carved := rfl
@[simp] theorem Strand.setEv_decDone (t : Strand) : (Strand.setEv t).decDone = t.decDone := rfl
@[simp] theorem Strand.setEv_begun (t : Strand) : (Strand.setEv t).begun = t.begun := rfl
@[simp] theorem Strand.setEv_changing (t : Strand) : (Strand.setEv t).changing = t.changing := rfl
@[simp] theorem Strand.setEv_evicted (t : Strand) : (Strand.setEv t).evicted = t.evicted := rfl
@[simp] theorem Strand.setEv_share (t : Strand) : (Strand.setEv t).share = t.share := rfl
@[simp] theorem Strand.setEv_peer (t : Strand) : (Strand.setEv t).peer = t.peer := rfl

end Sys2Proof.Machine
end

