-- ==== Sys2Proof/Laws/Ops.lean ====
section
/-! SUPPORT. What each shared operation over cores, clusters and registers can do, said once. -/

namespace Sys2Proof.Machine

/-! Keyed lists: what was set is found, and nothing else changes. -/

theorem find_clustersSet (c d : ClusterId) (x : Cluster) : ∀ l : List (ClusterId × Cluster),
    ((clustersSet c x l).find? fun e => e.1 == d) = if d = c then some (c, x) else l.find? fun e => e.1 == d
  | [] => by
    by_cases h : d = c
    · subst h; simp [clustersSet]
    · simp [clustersSet, h, show (c == d) = false by simpa using Ne.symm h]
  | (j, y) :: t => by
    unfold clustersSet
    by_cases h1 : c.toNat < j.toNat
    · by_cases h : d = c
      · simp [h1, h]
      · simp [h1, h, show (c == d) = false by simpa using Ne.symm h]
    · by_cases h2 : c = j
      · subst h2
        by_cases h : d = c
        · simp [h]
        · simp [h, show (c == d) = false by simpa using Ne.symm h]
      · by_cases h : d = c
        · subst h
          simp [h1, h2, show (j == d) = false by simpa using Ne.symm h2, find_clustersSet]
        · by_cases h3 : j = d
          · subst h3; simp [h1, h2, h]
          · simp [h1, h2, h, show (j == d) = false by simpa using h3, find_clustersSet]

/-- The shared state of a cluster after one cluster's was replaced. -/
theorem clusterGet_clusterSet (s : State) (c d : ClusterId) (x : Cluster) :
    clusterGet (clusterSet s c x) d = if d = c then x else clusterGet s d := by
  unfold clusterGet
  rw [clusterSet_clusters, find_clustersSet]
  split <;> rfl

theorem find_othersSet (k d : CoreId) (x : Core) : ∀ l : List (CoreId × Core),
    ((othersSet k x l).find? fun e => e.1 == d) = if d = k then some (k, x) else l.find? fun e => e.1 == d
  | [] => by
    by_cases h : d = k
    · subst h; simp [othersSet]
    · simp [othersSet, h, show (k == d) = false by simpa using Ne.symm h]
  | (j, y) :: t => by
    unfold othersSet
    by_cases h1 : k.toNat < j.toNat
    · by_cases h : d = k
      · simp [h1, h]
      · simp [h1, h, show (k == d) = false by simpa using Ne.symm h]
    · by_cases h2 : k = j
      · subst h2
        by_cases h : d = k
        · simp [h]
        · simp [h, show (k == d) = false by simpa using Ne.symm h]
      · by_cases h : d = k
        · subst h
          simp [h1, h2, show (j == d) = false by simpa using Ne.symm h2, find_othersSet]
        · by_cases h3 : j = d
          · subst h3; simp [h1, h2, h]
          · simp [h1, h2, h, show (j == d) = false by simpa using h3, find_othersSet]

/-- The core with a number after one core was replaced. -/
theorem coreGet_coreSet (s : State) (k d : CoreId) (x : Core) :
    coreGet (coreSet s k x) d = if d = k then x else coreGet s d := by
  unfold coreGet coreSet
  by_cases hk : k = s.cur
  · subst hk
    by_cases hd : d = s.cur <;> simp [hd]
  · simp only [hk, if_false]
    by_cases hd : d = s.cur
    · simp [hd, Ne.symm hk]
    · simp only [hd, if_false, find_othersSet]
      split <;> rfl

theorem find_powersSet (c d : ClusterId) (x : Power) : ∀ l : List (ClusterId × Power),
    ((powersSet c x l).find? fun e => e.1 == d) = if d = c then some (c, x) else l.find? fun e => e.1 == d
  | [] => by
    by_cases h : d = c
    · subst h; simp [powersSet]
    · simp [powersSet, h, show (c == d) = false by simpa using Ne.symm h]
  | (j, y) :: t => by
    unfold powersSet
    by_cases h1 : c.toNat < j.toNat
    · by_cases h : d = c
      · simp [h1, h]
      · simp [h1, h, show (c == d) = false by simpa using Ne.symm h]
    · by_cases h2 : c = j
      · subst h2
        by_cases h : d = c
        · simp [h]
        · simp [h, show (c == d) = false by simpa using Ne.symm h]
      · by_cases h : d = c
        · subst h
          simp [h1, h2, show (j == d) = false by simpa using Ne.symm h2, find_powersSet]
        · by_cases h3 : j = d
          · subst h3; simp [h1, h2, h]
          · simp [h1, h2, h, show (j == d) = false by simpa using h3, find_powersSet]

theorem powerGet_powerSet (s : State) (c d : ClusterId) (x : Power) :
    powerGet (powerSet s c x) d = if d = c then x else powerGet s d := by
  unfold powerGet
  rw [powerSet_pkg, find_powersSet]
  split <;> rfl

/-! Registers. -/

theorem readG_writeG (t : Strand) (d r : Reg) (x : Word) :
    (t.writeG d x).readG r = if r = 0 then 0 else if r = d then x else t.readG r := by
  unfold Strand.readG Strand.writeG
  by_cases hr : r = 0
  · rw [if_pos hr, if_pos hr]
  · rw [if_neg hr, if_neg hr, if_neg hr]
    by_cases hd : d = 0
    · simp only [if_pos hd]
      rw [if_neg (show ¬ r = d from fun h => hr (h.trans hd))]
    · simp only [if_neg hd]
      by_cases h : r = d
      · subst h; simp
      · have : d.toNat ≠ r.toNat := fun e => h (BitVec.eq_of_toNat_eq e.symm)
        simp [h, Vector.getElem_set_ne, this]

theorem readF_writeF (t : Strand) (d r : Reg) (x : Word) :
    (t.writeF d x).readF r = if r = d then x else t.readF r := by
  unfold Strand.readF Strand.writeF
  by_cases h : r = d
  · subst h; simp
  · have : d.toNat ≠ r.toNat := fun e => h (BitVec.eq_of_toNat_eq e.symm)
    simp [h, Vector.getElem_set_ne, this]

theorem readV_writeV (t : Strand) (d r : VReg) (x : Row) :
    (t.writeV d x).readV r = if r = d then x else t.readV r := by
  unfold Strand.readV Strand.writeV
  by_cases h : r = d
  · subst h; simp
  · have : d.toNat ≠ r.toNat := fun e => h (BitVec.eq_of_toNat_eq e.symm)
    simp [h, Vector.getElem_set_ne, this]

theorem readM_writeM (t : Strand) (d r : BitVec 3) (x : BitVec 128) :
    (t.writeM d x).readM r = if r = d then x else t.readM r := by
  unfold Strand.readM Strand.writeM
  by_cases h : r = d
  · subst h; simp
  · have : d.toNat ≠ r.toNat := fun e => h (BitVec.eq_of_toNat_eq e.symm)
    simp [h, Vector.getElem_set_ne, this]

theorem readQ_writeQ (t : Strand) (d r : BitVec 3) (x : Queue) :
    (t.writeQ d x).readQ r = if r = d then x else t.readQ r := by
  unfold Strand.readQ Strand.writeQ
  by_cases h : r = d
  · subst h; simp
  · have : d.toNat ≠ r.toNat := fun e => h (BitVec.eq_of_toNat_eq e.symm)
    simp [h, Vector.getElem_set_ne, this]

theorem setBit8_get (x : BitVec 8) (n i : BitVec 3) (v : Bool) :
    (setBit8 x n v).getLsbD i.toNat = if i = n then v else x.getLsbD i.toNat := by
  have hi := i.isLt
  by_cases h : i = n
  · subst h; cases v <;> simp [setBit8] <;> omega
  · have : ¬ i.toNat = n.toNat := fun e => h (BitVec.eq_of_toNat_eq e)
    cases v <;> simp [setBit8, h, BitVec.getLsbD_one] <;> omega

theorem readP_writeP (t : Strand) (d r : BitVec 3) (v : Bool) :
    (t.writeP d v).readP r = if r = 0 then true else if r = d then v else t.readP r := by
  unfold Strand.readP Strand.writeP
  by_cases hr : r = 0
  · rw [if_pos hr, hr]; rfl
  · have h0 : (r == 0) = false := beq_eq_false_iff_ne.mpr hr
    rw [if_neg hr, h0, Bool.false_or, Bool.false_or]
    by_cases hd : d = 0
    · simp only [if_pos hd]
      rw [if_neg (show ¬ r = d from fun h => hr (h.trans hd))]
    · simp only [if_neg hd, setBit8_get]

theorem readZ_writeZ (t : Strand) (d r : BitVec 3) (v : Bool) :
    (t.writeZ d v).readZ r = if r = 0 then true else if r = d then v else t.readZ r := by
  unfold Strand.readZ Strand.writeZ
  by_cases hr : r = 0
  · rw [if_pos hr, hr]; rfl
  · have h0 : (r == 0) = false := beq_eq_false_iff_ne.mpr hr
    rw [if_neg hr, h0, Bool.false_or, Bool.false_or]
    by_cases hd : d = 0
    · simp only [if_pos hd]
      rw [if_neg (show ¬ r = d from fun h => hr (h.trans hd))]
    · simp only [if_neg hd, setBit8_get]

/-! Retirement. -/

/-- The end check changes the pc and the loop counters alone (R67). -/
theorem endCheck_frame (a n : Word) : ∀ (ks : List (Fin 3)) (t : Strand),
    ∃ pc lcnt lact, endCheck a n ks t = { t with pc := pc, lcnt := lcnt, lact := lact }
  | [], t => ⟨n, t.lcnt, t.lact, rfl⟩
  | k :: ks, t => by
    unfold endCheck
    by_cases h : loopHits t k a n = true
    · simp only [h, if_true]
      split
      · exact ⟨_, _, _, rfl⟩
      · obtain ⟨pc, lc, la, e⟩ := endCheck_frame a n ks
          { t with lcnt := t.lcnt.set k.val (t.lcnt[k] - 1) k.isLt, lact := t.lact &&& ~~~(1#3 <<< k.val) }
        exact ⟨pc, lc, la, e⟩
    · simp only [h]
      exact endCheck_frame a n ks t

/-- With no loop active an instruction retires at the next address. -/
theorem advance_plain {t : Strand} (h : t.lact = 0) (n : Nat) : t.advance n = { t with pc := t.pc + W n } := by
  simp [Strand.advance, loopOrder, h, endCheck]

/-- A debit touches the fraction of the core that pays, the store of its cluster and the tokens charged. -/
theorem debitAt_frame (k : CoreId) (t : Tag) (c : Cost) (s : State) :
    ∃ b p a, debitAt k t c s =
      { coreSet s k { coreGet s k with debit := b } with
        pkg := { s.pkg with power := p }, svc := { s.svc with accounts := a } } := by
  let f := (coreGet s k).debit.toNat + c.units (powerGet s (clusterOf k)).ratio
  by_cases h : f / 256 = 0
  · refine ⟨BitVec.ofNat 8 f, s.pkg.power, s.svc.accounts, ?_⟩
    simp only [debitAt]
    rw [if_pos h]
    unfold coreSet
    split <;> rfl
  · refine ⟨BitVec.ofNat 8 f, powersSet (clusterOf k) ((powerGet s (clusterOf k)).spend (f / 256)) s.pkg.power,
      (charge t 0 0 (f / 256) s).svc.accounts, ?_⟩
    simp only [debitAt]
    rw [if_neg h]
    unfold coreSet
    split <;> rfl

/-- A debit of the current core, field by field. -/
theorem debit_frame (c : Cost) (s : State) :
    ∃ b p a, debit c s =
      { s with core := { s.core with debit := b }, pkg := { s.pkg with power := p },
               svc := { s.svc with accounts := a }, acted := true } := by
  obtain ⟨b, p, a, h⟩ := debitAt_frame s.cur (tagOf s.core.strand) c (noteIssue s)
  refine ⟨b, p, a, ?_⟩
  unfold debit
  rw [h]
  simp [coreSet, coreGet, noteIssue, powerSet]

/-- Retirement with a changed strand: the strand advances, the core pays, and nothing else changes. -/
theorem retireWith_frame (c : Cost) (s : State) (t : Strand) :
    ∃ b p a, retireWith c s t =
      { s with core := { s.core with strand := t.advance 4, debit := b }, pkg := { s.pkg with power := p },
               svc := { s.svc with accounts := a }, acted := true } := by
  obtain ⟨b, p, a, h⟩ := debit_frame c (strandSet s (t.advance 4))
  exact ⟨b, p, a, h⟩

/-! Traps. -/

/-- A meaning whose checks pass answers its effect. -/
theorem finish_ok {s t : State} {r : M State} (h : r = .ok t) : finish s r = .next t := by rw [h]; rfl

/-- Every meaning that ends in `finish` answers a next state: its effect, a wait, or a trap. -/
theorem finish_next (s : State) (r : M State) : ∃ t, finish s r = .next t := by
  unfold finish; split <;> exact ⟨_, rfl⟩

/-- When no matrix command and no posted store is outstanding a trap is delivered at once. -/
theorem takeTrap_ready {s : State} (h : stopReady s = true) (c : BitVec 8) (f : Bool) (v : Word) :
    takeTrap c f v s = deliver c f v s := by
  unfold stopReady at h
  simp only [Bool.and_eq_true, Bool.not_eq_true', beq_iff_eq] at h
  obtain ⟨⟨h1, h2⟩, h3⟩ := h
  unfold takeTrap
  simp [h1, h2, h3]

/-- A trap delivered to the handler at TVEC changes the strand alone (R373). -/
theorem deliver_handler {s : State} {c : BitVec 8} (h : toHandler c s.core.strand = true) (f : Bool) (v : Word) :
    deliver c f v s = strandSet s { trapRegs c f false v s.core.strand with
      status := s.core.strand.status ||| 1, pc := s.core.strand.tvec } := by
  unfold deliver
  simp only [h, if_true]
  rfl

/-- A check that holds lets a meaning go on; one that fails is the trap. -/
theorem need_true {b : Bool} (h : b = true) (c : BitVec 8) (v : Word) : need b c v = .ok () := by rw [h]; rfl
theorem need_false {b : Bool} (h : b = false) (c : BitVec 8) (v : Word) : need b c v = trapM c v := by rw [h]; rfl

end Sys2Proof.Machine
end

