-- ==== Sys2Proof/Laws/Access.lean ====
section
/-! SUPPORT. What the reading half of an access can do: it notes translations, fills lines and starts bound windows,
and leaves every byte as it reads. -/

namespace Sys2Proof.Machine

theorem Reads.refl (s : State) : Reads s s :=
  ⟨rfl, rfl, rfl, rfl, rfl, rfl, rfl, rfl, rfl, rfl, rfl, rfl, fun _ => rfl, fun _ _ => rfl⟩

theorem Reads.trans {s t u : State} (h : Reads s t) (k : Reads t u) : Reads s u where
  cur := k.cur.trans h.cur
  mem := k.mem.trans h.mem
  empty := k.empty.trans h.empty
  poison := k.poison.trans h.poison
  dirty := k.dirty.trans h.dirty
  removals := k.removals.trans h.removals
  out := k.out.trans h.out
  ckpt := k.ckpt.trans h.ckpt
  turns := k.turns.trans h.turns
  pkg := by rw [k.pkg, h.pkg]
  svc := by rw [k.svc, h.svc]
  core := by rw [k.core, h.core]
  strands := fun i => (k.strands i).trans (h.strands i)
  bytes := fun c a => (k.bytes c a).trans (h.bytes c a)

/-- A change of one core outside its strand, with the current core's other fields kept, is a read's. -/
theorem coreSet_reads (s : State) (k : CoreId) (w : Vector Window 4) (b : BitVec 8) (l : List ClbEntry) :
    Reads s (coreSet s k { coreGet s k with win := w, debit := b, clb := l }) where
  cur := coreSet_cur ..
  mem := coreSet_mem ..
  empty := coreSet_empty ..
  poison := coreSet_poison ..
  dirty := coreSet_dirty ..
  removals := coreSet_removals ..
  out := coreSet_out ..
  ckpt := coreSet_ckpt ..
  turns := coreSet_turns ..
  pkg := by rw [coreSet_pkg]
  svc := by rw [coreSet_svc]
  core := by
    unfold coreSet
    by_cases h : k = s.cur
    · subst h; simp [coreGet]
    · simp [h]
  strands := fun d => by
    rw [coreGet_coreSet]
    split
    · rename_i h; rw [h]
    · rfl
  bytes := fun c a => by simp [engineByte, clusterGet, l2Get]

theorem windowSet_reads (s : State) (k : CoreId) (i : BitVec 2) (w : Window) : Reads s (windowSet s k i w) :=
  coreSet_reads s k _ (coreGet s k).debit (coreGet s k).clb

theorem charge_reads (t : Tag) (a b c : Nat) (s : State) : Reads s (charge t a b c s) :=
  ⟨rfl, rfl, rfl, rfl, rfl, rfl, rfl, rfl, rfl, rfl, rfl, rfl, fun _ => rfl, fun _ _ => rfl⟩

theorem chargeFills_reads (t : Tag) (n : Nat) (s : State) : Reads s (chargeFills t n s) := by
  unfold chargeFills
  split
  · exact Reads.refl s
  · exact charge_reads t n 0 0 s

theorem debitAt_reads (k : CoreId) (t : Tag) (c : Cost) (s : State) : Reads s (debitAt k t c s) := by
  obtain ⟨b, p, a, h⟩ := debitAt_frame k t c s
  have r := coreSet_reads s k (coreGet s k).win b (coreGet s k).clb
  rw [h]
  exact {
    cur := r.cur, mem := r.mem, empty := r.empty, poison := r.poison, dirty := r.dirty, removals := r.removals
    out := r.out, ckpt := r.ckpt, turns := r.turns, pkg := rfl, svc := rfl, core := r.core
    strands := fun d => r.strands d, bytes := fun c a => r.bytes c a }

theorem enqueue_reads (c : Cmd) (s : State) : Reads s (enqueue c s) := by
  have h : Reads s { s with cmds := s.cmds ++ [{ c with id := s.nextId }], nextId := s.nextId + 1 } :=
    ⟨rfl, rfl, rfl, rfl, rfl, rfl, rfl, rfl, rfl, rfl, rfl, rfl, fun _ => rfl, fun _ _ => rfl⟩
  exact (h.trans (chargeFills_reads ..)).trans (debitAt_reads c.core c.ctx (.engine c.pieces) _)

theorem startWindow_reads (k : CoreId) (s : State) (i : BitVec 2) : Reads s (startWindow k s i) := by
  unfold startWindow
  simp only
  split
  · split
    · exact (windowSet_reads s k i _).trans (enqueue_reads _ _)
    · exact Reads.refl s
  · exact Reads.refl s

theorem foldl_reads {α : Type} (f : State → α → State) (hf : ∀ s x, Reads s (f s x)) :
    ∀ (l : List α) (s : State), Reads s (l.foldl f s)
  | [], s => Reads.refl s
  | x :: l, s => (hf s x).trans (foldl_reads f hf l (f s x))

/-- Touching bound windows reads (R243). -/
theorem touchCore_reads (ps : List Piece) (s : State) (k : CoreId) : Reads s (touchCore ps s k) := by
  unfold touchCore
  refine foldl_reads _ (fun u i => ?_) _ s
  simp only
  split
  · exact (windowSet_reads u k i _).trans (startWindow_reads _ _ i)
  · exact Reads.refl u
theorem touch_reads (s : State) (ps : List Piece) : Reads s (touch s ps) :=
  foldl_reads _ (touchCore_reads ps) _ s

theorem startWindows_reads (s : State) : Reads s (startWindows s) := by
  unfold startWindows
  exact foldl_reads (fun u (e : CoreId × Core) => ([0, 1, 2, 3] : List (BitVec 2)).foldl (startWindow e.1) u)
    (fun u e => foldl_reads _ (startWindow_reads e.1) _ u) _ s

/-- A change of record caches alone is a read's. -/
theorem recs_reads (s : State) (c : ClusterId) (r : List RecEntry) :
    Reads s (clusterSet s c { clusterGet s c with recs := r }) where
  cur := rfl
  mem := rfl
  empty := rfl
  poison := rfl
  dirty := rfl
  removals := rfl
  out := rfl
  ckpt := rfl
  turns := rfl
  pkg := rfl
  svc := rfl
  core := rfl
  strands := fun _ => rfl
  bytes := fun d a => by
    unfold engineByte
    rw [clusterGet_clusterSet]
    by_cases h : d = c
    · subst h; simp [Cluster.line, l2Get]
    · simp [h, l2Get]

theorem noteRecord_reads (g : Agent) (n : BitVec 18) (s : State) : Reads s (noteRecord g n s) := by
  unfold noteRecord
  split
  · exact Reads.refl s
  · simp only
    split
    · exact Reads.refl s
    · exact recs_reads s _ _

theorem clbNote_reads (s : State) (g : Agent) (e : ClbEntry) : Reads s (clbNote s g e) :=
  coreSet_reads s g.core (coreGet s g.core).win (coreGet s g.core).debit _

theorem noteSubTile_reads (g : Agent) (n : BitVec 18) (r : ORec) (i : Nat) (s : State) : Reads s (noteSubTile g n r i s) := by
  unfold noteSubTile
  split
  · exact Reads.refl s
  · exact clbNote_reads s g _

theorem noteTranslation_reads (g : Agent) (va : Word) (w : Nat) (s : State) : Reads s (noteTranslation g va w s) := by
  unfold noteTranslation
  simp only
  split
  · exact Reads.refl s
  · split
    · exact Reads.refl s
    · split
      · exact noteRecord_reads ..
      · exact (noteRecord_reads ..).trans (foldl_reads _ (fun u j => noteSubTile_reads ..) _ _)

/-! Lines. -/

theorem find_l1Set (x : L1Line) (a : Nat) : ∀ l : List L1Line,
    ((l1Set x l).find? fun y => y.addr == a) = if a = x.addr then some x else l.find? fun y => y.addr == a
  | [] => by
    by_cases h : a = x.addr
    · subst h; simp [l1Set]
    · simp [l1Set, h, show (x.addr == a) = false by simpa using Ne.symm h]
  | y :: t => by
    unfold l1Set
    by_cases h1 : x.addr < y.addr
    · by_cases h : a = x.addr
      · simp [h1, h]
      · simp [h1, h, show (x.addr == a) = false by simpa using Ne.symm h]
    · by_cases h2 : x.addr = y.addr
      · by_cases h : a = x.addr
        · simp [h2, h]
        · have h3 : ¬ a = y.addr := fun e => h (e.trans h2.symm)
          simp [h2, h3, show (y.addr == a) = false by simpa using Ne.symm h3]
      · by_cases h : a = x.addr
        · subst h
          simp [h1, h2, show (y.addr == x.addr) = false by simpa using Ne.symm h2, find_l1Set]
        · by_cases h3 : y.addr = a
          · subst h3; simp [h1, h2, h]
          · simp [h1, h2, h, show (y.addr == a) = false by simpa using h3, find_l1Set]

theorem memRead_getD (m : List Host.Cell) : ∀ (n a i : Nat), i < n → (memRead m a n).getD i 0 = memGet m (a + i)
  | n + 1, a, 0, _ => by simp [memRead]
  | n + 1, a, i + 1, h => by
    have := memRead_getD m n (a + 1) i (by omega)
    simp only [memRead, List.getD_cons_succ, this]
    congr 1; omega

/-! Filling a line, by where it comes from (R217). -/

theorem fillLine_hit {s : State} {c : ClusterId} {a : Nat} {l : L1Line} (h : (clusterGet s c).line a = some l) (t : Tag) :
    fillLine s c t a = s := by
  unfold fillLine; rw [h]

theorem fillLine_l2 {s : State} {c : ClusterId} {a : Nat} {y : L2Line} (h : (clusterGet s c).line a = none)
    (h2 : l2Get s (dieOfCluster c) a = some y) (t : Tag) :
    fillLine s c t a = charge t 1 0 0
      (clusterSet s c { clusterGet s c with l1 := l1Set ⟨a, y.data, 0, t, 0, y.bad⟩ (clusterGet s c).l1 }) := by
  unfold fillLine; rw [h]; simp only [h2, Option.isSome_some, if_true]

theorem fillLine_home {s : State} {c : ClusterId} {a : Nat} (h : (clusterGet s c).line a = none)
    (h2 : l2Get s (dieOfCluster c) a = none) (t : Tag) :
    fillLine s c t a = charge t 2 0 0
      (clusterSet { s with l2 := (dieOfCluster c, ⟨a, memRead s.mem a 64, 0, s.poison.contains a⟩) :: s.l2 } c
        { clusterGet s c with l1 := l1Set ⟨a, memRead s.mem a 64, 0, t, 0, s.poison.contains a⟩ (clusterGet s c).l1 }) := by
  unfold fillLine; rw [h]; simp only [h2, Option.isSome_none, Bool.false_eq_true, if_false]; rfl

theorem line_l1Set (c : Cluster) (x : L1Line) (a : Nat) :
    ({ c with l1 := l1Set x c.l1 } : Cluster).line a = if a = x.addr then some x else c.line a :=
  find_l1Set x a c.l1

/-- Filling a line leaves every byte as it reads (R217). -/
theorem fillLine_reads (s : State) (c : ClusterId) (t : Tag) (a : Nat) : Reads s (fillLine s c t (lineOf a)) := by
  rcases h : (clusterGet s c).line (lineOf a) with _ | l
  · rcases h2 : l2Get s (dieOfCluster c) (lineOf a) with _ | y
    · rw [fillLine_home h h2]
      refine ⟨rfl, rfl, rfl, rfl, rfl, rfl, rfl, rfl, rfl, rfl, rfl, rfl, fun _ => rfl, fun d k => ?_⟩
      have hk : lineOf k + k % 64 = k := by unfold lineOf; omega
      have hm := Nat.mod_lt k (show 0 < 64 by decide)
      unfold engineByte
      simp only [charge_mem, clusterSet_mem,
        show ∀ x : State, clusterGet (charge t 2 0 0 x) d = clusterGet x d from fun _ => rfl,
        show ∀ x : State, l2Get (charge t 2 0 0 x) (dieOfCluster d) (lineOf k) = l2Get x (dieOfCluster d) (lineOf k)
          from fun _ => rfl, clusterGet_clusterSet]
      have e2 : ∀ u, l2Get (clusterSet { s with l2 := (dieOfCluster c, ⟨lineOf a, memRead s.mem (lineOf a) 64, 0, s.poison.contains (lineOf a)⟩) :: s.l2 } c u)
          (dieOfCluster d) (lineOf k) = if dieOfCluster c = dieOfCluster d ∧ lineOf a = lineOf k then
            some ⟨lineOf a, memRead s.mem (lineOf a) 64, 0, s.poison.contains (lineOf a)⟩ else l2Get s (dieOfCluster d) (lineOf k) := fun u => by
        unfold l2Get
        simp only [clusterSet_l2, List.find?_cons]
        by_cases hx : dieOfCluster c = dieOfCluster d ∧ lineOf a = lineOf k
        · simp [hx]
        · have : (dieOfCluster c == dieOfCluster d && lineOf a == lineOf k) = false := by
            simpa only [Bool.and_eq_false_iff, beq_eq_false_iff_ne, Classical.not_and_iff_not_or_not] using hx
          simp only [this, if_neg hx]
      by_cases hd : d = c
      · subst hd
        simp only [if_true, line_l1Set, e2]
        by_cases hka : lineOf k = lineOf a
        · simp only [hka, if_true, h, h2]
          rw [memRead_getD _ _ _ _ hm, ← hka, hk]
        · simp only [hka, if_false, show ¬ lineOf a = lineOf k from fun e => hka e.symm, and_false]
      · simp only [if_neg hd, e2]
        show (match (clusterGet s d).line (lineOf k) with | some l => _ | none => _) = _
        rcases (clusterGet s d).line (lineOf k) with _ | l
        · simp only
          split
          · rename_i hx; split at hx
            · rename_i hy
              cases hx
              simp only [← hy.1, ← hy.2, h2]
              rw [memRead_getD _ _ _ _ hm, hy.2, hk]
            · rw [hx]
          · rename_i hx; split at hx
            · cases hx
            · rw [hx]
        · rfl
    · rw [fillLine_l2 h h2]
      refine ⟨rfl, rfl, rfl, rfl, rfl, rfl, rfl, rfl, rfl, rfl, rfl, rfl, fun _ => rfl, fun d k => ?_⟩
      unfold engineByte
      simp only [charge_mem, clusterSet_mem,
        show ∀ x : State, clusterGet (charge t 1 0 0 x) d = clusterGet x d from fun _ => rfl,
        show ∀ x : State, l2Get (charge t 1 0 0 x) (dieOfCluster d) (lineOf k) = l2Get x (dieOfCluster d) (lineOf k)
          from fun _ => rfl, clusterGet_clusterSet]
      by_cases hd : d = c
      · subst hd
        simp only [if_true, line_l1Set]
        by_cases hka : lineOf k = lineOf a
        · simp only [hka, if_true, h, h2]
        · simp only [hka, if_false]
          rfl
      · simp only [if_neg hd]
        rfl
  · rw [fillLine_hit h]
    exact Reads.refl s

theorem fillPieces_reads (s : State) (c : ClusterId) (t : Tag) (ps : List Piece) : Reads s (fillPieces s c t ps) := by
  unfold fillPieces
  refine Reads.trans (foldl_reads _ (fun u p => ?_) _ s) (chargeFills_reads ..)
  split
  · exact fillLine_reads u c t p.key
  · exact Reads.refl u

/-- A plain read: the checks it makes, the bytes it gives and what it may change. -/
theorem loadBytes_spec {s : State} {va : Word} {w : Nat} {ps : List Piece}
    (h : translate s (self s) va w .read = .ok ps) (hp : poisonAt s 0 ps = none) :
    ∃ t, loadBytes s va w = .ok (bytesAt s ps, t) ∧ Reads s t := by
  refine ⟨touch (fillPieces (noteTranslation (self s) va w s) (clusterOf (self s).core) (self s).tag ps) ps, ?_,
    ((noteTranslation_reads _ _ _ _).trans (fillPieces_reads _ _ _ _)).trans (touch_reads _ _)⟩
  unfold loadBytes
  simp only [h, needClean, hp, bind, Except.bind]
  rfl

end Sys2Proof.Machine
end

