-- ==== Sys2Proof/Laws/Memory.lean ====
section
/-! SUPPORT. The one memory: a read after a write, and the canonical form that every memory operation keeps. -/

namespace Sys2Proof.Machine

/-! Reads after writes. -/

theorem wfFrom_mono {lo lo' : Nat} (h : lo' ≤ lo) : ∀ {m}, Memory.wfFrom lo m = true → Memory.wfFrom lo' m = true
  | [], _ => rfl
  | (k, b) :: t, hm => by
    simp only [Memory.wfFrom, Bool.and_eq_true, decide_eq_true_eq] at hm ⊢
    exact ⟨⟨Nat.le_trans h hm.1.1, hm.1.2⟩, hm.2⟩

/-- Below every listed address a memory in canonical form reads as unlisted. -/
theorem memGet_below : ∀ {m : List Host.Cell} {lo a : Nat}, Memory.wfFrom lo m = true → a < lo → memGet m a = unlisted
  | [], _, _, _, _ => rfl
  | (k, b) :: t, lo, a, h, ha => by
    simp only [Memory.wfFrom, Bool.and_eq_true, decide_eq_true_eq] at h
    have hk : a < k := Nat.lt_of_lt_of_le ha h.1.1
    simp [memGet, Nat.ne_of_lt hk, hk]

/-- A byte written is the byte read. -/
theorem memGet_memSet_same : ∀ {m : List Host.Cell} {lo : Nat} (_ : Memory.wfFrom lo m = true) (a : Nat) (x : Byte),
    memGet (memSet a x m) a = x
  | [], _, _, a, x => by by_cases hx : x = unlisted <;> simp [memSet, memGet, hx]
  | (k, b) :: t, lo, h, a, x => by
    simp only [Memory.wfFrom, Bool.and_eq_true, decide_eq_true_eq] at h
    rcases Nat.lt_trichotomy a k with hk | rfl | hk
    · by_cases hx : x = unlisted <;> simp [memSet, memGet, hx, hk, Nat.ne_of_lt hk]
    · by_cases hx : x = unlisted
      · simp [memSet, hx, memGet_below h.2 (Nat.lt_succ_self a)]
      · simp [memSet, memGet, hx]
    · have h1 : ¬ a < k := by omega
      have h2 : a ≠ k := by omega
      simp [memSet, memGet, h1, h2, memGet_memSet_same h.2 a x]

/-- A write leaves every other byte alone. -/
theorem memGet_memSet_other : ∀ {m : List Host.Cell} {lo : Nat} (_ : Memory.wfFrom lo m = true) {a c : Nat} (x : Byte),
    c ≠ a → memGet (memSet a x m) c = memGet m c
  | [], _, _, a, c, x, hc => by by_cases hx : x = unlisted <;> simp [memSet, memGet, hx, hc]
  | (k, b) :: t, lo, h, a, c, x, hc => by
    simp only [Memory.wfFrom, Bool.and_eq_true, decide_eq_true_eq] at h
    rcases Nat.lt_trichotomy a k with hk | rfl | hk
    · by_cases hx : x = unlisted
      · simp [memSet, hx, hk]
      · by_cases hca : c < a
        · simp [memSet, memGet, hx, hk, hc, hca, Nat.ne_of_lt (Nat.lt_trans hca hk), Nat.lt_trans hca hk]
        · simp [memSet, memGet, hx, hk, hc, hca]
    · by_cases hx : x = unlisted
      · by_cases hca : c < a
        · simp [memSet, memGet, hx, hc, hca, memGet_below h.2 (Nat.lt_succ_of_lt hca)]
        · simp [memSet, memGet, hx, hc, hca]
      · simp [memSet, memGet, hx, hc]
    · have h1 : ¬ a < k := by omega
      have h2 : a ≠ k := by omega
      simp [memSet, memGet, h1, h2, memGet_memSet_other h.2 x hc]

theorem wfFrom_memSet : ∀ {m : List Host.Cell} {lo : Nat} (_ : Memory.wfFrom lo m = true) {a : Nat} (x : Byte), lo ≤ a →
    Memory.wfFrom lo (memSet a x m) = true
  | [], _, _, a, x, ha => by by_cases hx : x = unlisted <;> simp [memSet, Memory.wfFrom, hx, ha]
  | (k, b) :: t, lo, h, a, x, ha => by
    have h0 := h
    simp only [Memory.wfFrom, Bool.and_eq_true, decide_eq_true_eq] at h
    rcases Nat.lt_trichotomy a k with hk | rfl | hk
    · by_cases hx : x = unlisted
      · simp only [memSet, hk, hx, if_true]; exact h0
      · simp only [memSet, hk, hx, if_true, if_false, Memory.wfFrom, Bool.and_eq_true, decide_eq_true_eq]
        exact ⟨⟨ha, by simpa using hx⟩, ⟨hk, h.1.2⟩, h.2⟩
    · by_cases hx : x = unlisted
      · simp [memSet, hx]; exact wfFrom_mono (Nat.le_succ_of_le ha) h.2
      · simp [memSet, Memory.wfFrom, hx, ha, h.2]
    · have h1 : ¬ a < k := by omega
      have h2 : a ≠ k := by omega
      have h3 : k + 1 ≤ a := hk
      simp only [memSet, h1, h2, if_false, Memory.wfFrom, Bool.and_eq_true, decide_eq_true_eq]
      exact ⟨h.1, wfFrom_memSet h.2 x h3⟩

/-! Every memory operation keeps the canonical form. -/

theorem wf_memSet {m : List Host.Cell} (h : Memory.wf m = true) (a : Nat) (x : Byte) : Memory.wf (memSet a x m) = true :=
  wfFrom_memSet h x (Nat.zero_le a)

theorem wf_memWrite : ∀ (bs : List Byte) {m : List Host.Cell} (a : Nat), Memory.wf m = true → Memory.wf (memWrite m a bs) = true
  | [], _, _, h => h
  | x :: t, _, a, h => wf_memWrite t (a + 1) (wf_memSet h a x)

theorem wf_memMerge : ∀ (bs : List Byte) {m : List Host.Cell} (a k : Nat), Memory.wf m = true →
    Memory.wf (memMerge m a k bs) = true
  | [], _, _, _, h => h
  | x :: t, m, a, k, h => by
    unfold memMerge
    by_cases hk : k % 2 = 1
    · simpa [hk] using wf_memMerge t (a + 1) (k / 2) (wf_memSet h a x)
    · simpa [hk] using wf_memMerge t (a + 1) (k / 2) h

theorem wf_memSetWord {m : List Host.Cell} (h : Memory.wf m = true) (a : Nat) (x : Word) :
    Memory.wf (memSetWord m a x) = true := wf_memWrite _ a h

theorem wfFrom_filter (p : Host.Cell → Bool) : ∀ {m : List Host.Cell} {lo : Nat}, Memory.wfFrom lo m = true →
    Memory.wfFrom lo (m.filter p) = true
  | [], _, _ => rfl
  | (k, b) :: t, lo, h => by
    simp only [Memory.wfFrom, Bool.and_eq_true, decide_eq_true_eq] at h
    by_cases hp : p (k, b) = true
    · simp only [List.filter_cons, hp, if_true, Memory.wfFrom, Bool.and_eq_true, decide_eq_true_eq]
      exact ⟨h.1, wfFrom_filter p h.2⟩
    · simp only [List.filter_cons, hp]
      exact wfFrom_filter p (wfFrom_mono (Nat.le_succ_of_le h.1.1) h.2)

/-- A memory with some of its cells taken out keeps the form. -/
theorem wf_filter {m : List Host.Cell} (h : Memory.wf m = true) (p : Host.Cell → Bool) : Memory.wf (m.filter p) = true :=
  wfFrom_filter p h

theorem wf_clearCells {m : List Host.Cell} (h : Memory.wf m = true) (a n : Nat) : Memory.wf (clearCells m a n) = true :=
  wf_filter h _

/-! Runs of bytes. -/

/-- A run of bytes written leaves every byte outside it alone. -/
theorem memGet_memWrite_other : ∀ (bs : List Byte) {m : List Host.Cell} {a c : Nat}, Memory.wf m = true →
    (c < a ∨ a + bs.length ≤ c) → memGet (memWrite m a bs) c = memGet m c
  | [], _, _, _, _, _ => rfl
  | x :: t, m, a, c, h, hc => by
    simp only [List.length_cons] at hc
    unfold memWrite
    rw [memGet_memWrite_other t (wf_memSet h a x) (by omega)]
    exact memGet_memSet_other h x (by omega)

/-- The byte of a run, after the run was written. -/
theorem memGet_memWrite_in : ∀ (bs : List Byte) {m : List Host.Cell} (a i : Nat), Memory.wf m = true → (hi : i < bs.length) →
    memGet (memWrite m a bs) (a + i) = bs[i]
  | x :: t, m, a, 0, h, _ => by
    unfold memWrite
    rw [memGet_memWrite_other t (wf_memSet h a x) (by omega)]
    exact memGet_memSet_same h a x
  | x :: t, m, a, i + 1, h, hi => by
    have := memGet_memWrite_in t (a + 1) i (wf_memSet h a x) (by simpa using hi)
    unfold memWrite
    rw [show a + (i + 1) = a + 1 + i by omega, this]
    rfl

theorem memRead_length (m : List Host.Cell) : ∀ (n a : Nat), (memRead m a n).length = n
  | 0, _ => rfl
  | n + 1, a => by simp [memRead, memRead_length m n (a + 1)]

/-- Reading a run that leaves alone what was written reads as before. -/
theorem memRead_congr {m m' : List Host.Cell} : ∀ (n a : Nat), (∀ c, a ≤ c → c < a + n → memGet m' c = memGet m c) →
    memRead m' a n = memRead m a n
  | 0, _, _ => rfl
  | n + 1, a, h => by
    simp only [memRead]
    rw [h a (Nat.le_refl a) (by omega), memRead_congr n (a + 1) fun c h1 h2 => h c (by omega) (by omega)]

/-- A run of bytes reads back as it was written. -/
theorem memRead_memWrite : ∀ (bs : List Byte) {m : List Host.Cell} (a : Nat), Memory.wf m = true →
    memRead (memWrite m a bs) a bs.length = bs
  | [], _, _, _ => rfl
  | x :: t, m, a, h => by
    simp only [List.length_cons, memRead, memWrite]
    rw [memRead_memWrite t (a + 1) (wf_memSet h a x), memGet_memWrite_other t (wf_memSet h a x) (by omega),
      memGet_memSet_same h a x]

theorem natBytes_length : ∀ (n v : Nat), (natBytes n v).length = n
  | 0, _ => rfl
  | n + 1, v => by simp [natBytes, natBytes_length n (v / 256)]

/-- Little-endian bytes give back the number, in as many bytes as were made (R7). -/
theorem bytesNat_natBytes : ∀ (n v : Nat), bytesNat (natBytes n v) = v % 256 ^ n
  | 0, v => by simp [natBytes, bytesNat, Nat.mod_one]
  | n + 1, v => by
    simp only [natBytes, bytesNat, BitVec.toNat_ofNat, bytesNat_natBytes n (v / 256)]
    rw [show 256 ^ (n + 1) = 256 * 256 ^ n from Nat.pow_succ' , Nat.mod_mul]

/-- A doubleword reads back as it was written. -/
theorem memWord_memSetWord {m : List Host.Cell} (h : Memory.wf m = true) (a : Nat) (x : Word) :
    memWord (memSetWord m a x) a = x := by
  unfold memWord memSetWord
  have := memRead_memWrite (natBytes 8 x.toNat) a h
  rw [natBytes_length] at this
  rw [this, bytesNat_natBytes]
  apply BitVec.eq_of_toNat_eq
  simp only [W, BitVec.toNat_ofNat]
  have := x.isLt
  omega

/-! Continuations in memory. -/

theorem word_of_bytes (x : Word) : BitVec.ofNat 64 (bytesNat (natBytes 8 x.toNat)) = x := by
  apply BitVec.eq_of_toNat_eq
  rw [BitVec.toNat_ofNat, bytesNat_natBytes]
  have := x.isLt
  omega
/-- R277: a continuation takes 32 bytes. -/
theorem Cont.bytes_length (c : Cont) : c.bytes.length = 32 := by simp [Cont.bytes, natBytes_length]
/-- R277: the bytes of a continuation that starts at a fetch block are read back as it. -/
theorem Cont.ofBytes_bytes (c : Cont) (h : c.pc.toNat % 64 = 0) : Cont.ofBytes c.bytes = c := by
  obtain ⟨pc, cls, frame, jrec, tiles⟩ := c
  have hp := pc.isLt
  have hc := cls.isLt
  simp only at h
  have e : bytesNat (natBytes 8 (pc.toNat / 64 * 64 + cls.toNat)) = pc.toNat + cls.toNat := by
    rw [bytesNat_natBytes]; omega
  have a : (pc.toNat + cls.toNat) / 64 * 64 = pc.toNat := by omega
  have b : BitVec.ofNat 2 (pc.toNat + cls.toNat) = cls := by
    apply BitVec.eq_of_toNat_eq; rw [BitVec.toNat_ofNat]; omega
  have d (x k : Nat) (hk : 8 ≤ k) : (natBytes 8 x).drop k = [] := List.drop_of_length_le (by rwa [natBytes_length])
  have t (x : Nat) : (natBytes 8 x).take 8 = natBytes 8 x := List.take_of_length_le (Nat.le_of_eq (natBytes_length 8 x))
  simp [Cont.ofBytes, Cont.bytes, List.drop_append, natBytes_length, d, t, e, a, b, word_of_bytes, W]
/-- R292: a save area of continuations that start at fetch blocks holds them in their order. -/
theorem contList_contBytes : ∀ l : List Cont, (∀ c ∈ l, c.pc.toNat % 64 = 0) → contList (contBytes l) = l
  | [], _ => rfl
  | c :: l, h => by
    have e : contBytes (c :: l) = c.bytes ++ contBytes l := rfl
    have n : (contBytes (c :: l)).length / 32 = (contBytes l).length / 32 + 1 := by
      rw [e, List.length_append, c.bytes_length]; omega
    have ih := contList_contBytes l fun x hx => h x (List.mem_cons_of_mem _ hx)
    have z : Cont.ofBytes (((contBytes (c :: l)).drop (32 * 0)).take 32) = c := by
      rw [e, Nat.mul_zero, List.drop_zero, List.take_append_of_le_length (Nat.le_of_eq c.bytes_length.symm),
        List.take_of_length_le (Nat.le_of_eq c.bytes_length), Cont.ofBytes_bytes c (h c List.mem_cons_self)]
    rw [contList, n, List.range_succ_eq_map, List.map_cons, List.map_map, z]
    refine congrArg (c :: ·) (Eq.trans (List.map_congr_left fun i _ => ?_) ih)
    have k : 32 * (i + 1) = c.bytes.length + 32 * i := by rw [c.bytes_length]; omega
    simp only [Function.comp, Nat.succ_eq_add_one, e, k, List.drop_append, List.drop_of_length_le (Nat.le_add_right _ _),
      Nat.add_sub_cancel_left, List.nil_append]

end Sys2Proof.Machine
end

