-- ==== Sys2Proof/Laws/PerInstr.lean ====
section
/-! SUPPORT. The families of statements made of every instruction. Words: an instruction's words are 32-bit words, the
second one is 0 unless the instruction is long, and the rows that share words share them with the first of their rows. -/

namespace Sys2Proof.Laws.Words

set_option Elab.async false
set_option linter.unusedSimpArgs false

/-- R31, R41: what the encoder gives any instruction. -/
def Statement (i : Instr) : Prop :=
  (encode i).1 < 2 ^ 32 ∧ (encode i).2 < 2 ^ 32 ∧ (i.isLong = false → (encode i).2 = 0) ∧
    encode i.canon = encode i ∧ i.canon.wf = i.wf ∧ i.canon.isLong = i.isLong ∧ i.canon.isEvent = i.isEvent

theorem nop : Statement .nop := by
  exact ⟨by decide, Nat.two_pow_pos 32, fun _ => rfl, rfl, rfl, rfl, rfl⟩
theorem yield : Statement .yield := by
  exact ⟨by decide, Nat.two_pow_pos 32, fun _ => rfl, rfl, rfl, rfl, rfl⟩
theorem hbeat : Statement .hbeat := by
  exact ⟨by decide, Nat.two_pow_pos 32, fun _ => rfl, rfl, rfl, rfl, rfl⟩
theorem add : ∀ x0 x1 x2, Statement (.add x0 x1 x2) := by
  intros; refine ⟨?_, Nat.two_pow_pos 32, fun _ => rfl, rfl, rfl, rfl, rfl⟩
  simp only [encode, encA, encG, encV, encAmo, put, putb]; omega
theorem sub : ∀ x0 x1 x2, Statement (.sub x0 x1 x2) := by
  intros; refine ⟨?_, Nat.two_pow_pos 32, fun _ => rfl, rfl, rfl, rfl, rfl⟩
  simp only [encode, encA, encG, encV, encAmo, put, putb]; omega
theorem mul : ∀ x0 x1 x2, Statement (.mul x0 x1 x2) := by
  intros; refine ⟨?_, Nat.two_pow_pos 32, fun _ => rfl, rfl, rfl, rfl, rfl⟩
  simp only [encode, encA, encG, encV, encAmo, put, putb]; omega
theorem mulh : ∀ x0 x1 x2, Statement (.mulh x0 x1 x2) := by
  intros; refine ⟨?_, Nat.two_pow_pos 32, fun _ => rfl, rfl, rfl, rfl, rfl⟩
  simp only [encode, encA, encG, encV, encAmo, put, putb]; omega
theorem mulhu : ∀ x0 x1 x2, Statement (.mulhu x0 x1 x2) := by
  intros; refine ⟨?_, Nat.two_pow_pos 32, fun _ => rfl, rfl, rfl, rfl, rfl⟩
  simp only [encode, encA, encG, encV, encAmo, put, putb]; omega
theorem div : ∀ x0 x1 x2, Statement (.div x0 x1 x2) := by
  intros; refine ⟨?_, Nat.two_pow_pos 32, fun _ => rfl, rfl, rfl, rfl, rfl⟩
  simp only [encode, encA, encG, encV, encAmo, put, putb]; omega
theorem divu : ∀ x0 x1 x2, Statement (.divu x0 x1 x2) := by
  intros; refine ⟨?_, Nat.two_pow_pos 32, fun _ => rfl, rfl, rfl, rfl, rfl⟩
  simp only [encode, encA, encG, encV, encAmo, put, putb]; omega
theorem rem : ∀ x0 x1 x2, Statement (.rem x0 x1 x2) := by
  intros; refine ⟨?_, Nat.two_pow_pos 32, fun _ => rfl, rfl, rfl, rfl, rfl⟩
  simp only [encode, encA, encG, encV, encAmo, put, putb]; omega
theorem remu : ∀ x0 x1 x2, Statement (.remu x0 x1 x2) := by
  intros; refine ⟨?_, Nat.two_pow_pos 32, fun _ => rfl, rfl, rfl, rfl, rfl⟩
  simp only [encode, encA, encG, encV, encAmo, put, putb]; omega
theorem and : ∀ x0 x1 x2, Statement (.and x0 x1 x2) := by
  intros; refine ⟨?_, Nat.two_pow_pos 32, fun _ => rfl, rfl, rfl, rfl, rfl⟩
  simp only [encode, encA, encG, encV, encAmo, put, putb]; omega
theorem or : ∀ x0 x1 x2, Statement (.or x0 x1 x2) := by
  intros; refine ⟨?_, Nat.two_pow_pos 32, fun _ => rfl, rfl, rfl, rfl, rfl⟩
  simp only [encode, encA, encG, encV, encAmo, put, putb]; omega
theorem xor : ∀ x0 x1 x2, Statement (.xor x0 x1 x2) := by
  intros; refine ⟨?_, Nat.two_pow_pos 32, fun _ => rfl, rfl, rfl, rfl, rfl⟩
  simp only [encode, encA, encG, encV, encAmo, put, putb]; omega
theorem sll : ∀ x0 x1 x2, Statement (.sll x0 x1 x2) := by
  intros; refine ⟨?_, Nat.two_pow_pos 32, fun _ => rfl, rfl, rfl, rfl, rfl⟩
  simp only [encode, encA, encG, encV, encAmo, put, putb]; omega
theorem srl : ∀ x0 x1 x2, Statement (.srl x0 x1 x2) := by
  intros; refine ⟨?_, Nat.two_pow_pos 32, fun _ => rfl, rfl, rfl, rfl, rfl⟩
  simp only [encode, encA, encG, encV, encAmo, put, putb]; omega
theorem sra : ∀ x0 x1 x2, Statement (.sra x0 x1 x2) := by
  intros; refine ⟨?_, Nat.two_pow_pos 32, fun _ => rfl, rfl, rfl, rfl, rfl⟩
  simp only [encode, encA, encG, encV, encAmo, put, putb]; omega
theorem min : ∀ x0 x1 x2, Statement (.min x0 x1 x2) := by
  intros; refine ⟨?_, Nat.two_pow_pos 32, fun _ => rfl, rfl, rfl, rfl, rfl⟩
  simp only [encode, encA, encG, encV, encAmo, put, putb]; omega
theorem max : ∀ x0 x1 x2, Statement (.max x0 x1 x2) := by
  intros; refine ⟨?_, Nat.two_pow_pos 32, fun _ => rfl, rfl, rfl, rfl, rfl⟩
  simp only [encode, encA, encG, encV, encAmo, put, putb]; omega
theorem minu : ∀ x0 x1 x2, Statement (.minu x0 x1 x2) := by
  intros; refine ⟨?_, Nat.two_pow_pos 32, fun _ => rfl, rfl, rfl, rfl, rfl⟩
  simp only [encode, encA, encG, encV, encAmo, put, putb]; omega
theorem maxu : ∀ x0 x1 x2, Statement (.maxu x0 x1 x2) := by
  intros; refine ⟨?_, Nat.two_pow_pos 32, fun _ => rfl, rfl, rfl, rfl, rfl⟩
  simp only [encode, encA, encG, encV, encAmo, put, putb]; omega
theorem clz : ∀ x0 x1, Statement (.clz x0 x1) := by
  intros; refine ⟨?_, Nat.two_pow_pos 32, fun _ => rfl, rfl, rfl, rfl, rfl⟩
  simp only [encode, encA, encG, encV, encAmo, put, putb]; omega
theorem ctz : ∀ x0 x1, Statement (.ctz x0 x1) := by
  intros; refine ⟨?_, Nat.two_pow_pos 32, fun _ => rfl, rfl, rfl, rfl, rfl⟩
  simp only [encode, encA, encG, encV, encAmo, put, putb]; omega
theorem popc : ∀ x0 x1, Statement (.popc x0 x1) := by
  intros; refine ⟨?_, Nat.two_pow_pos 32, fun _ => rfl, rfl, rfl, rfl, rfl⟩
  simp only [encode, encA, encG, encV, encAmo, put, putb]; omega
theorem addi : ∀ x0 x1 x2, Statement (.addi x0 x1 x2) := by
  intros; refine ⟨?_, Nat.two_pow_pos 32, fun _ => rfl, rfl, rfl, rfl, rfl⟩
  simp only [encode, encA, encG, encV, encAmo, put, putb]; omega
theorem andi : ∀ x0 x1 x2, Statement (.andi x0 x1 x2) := by
  intros; refine ⟨?_, Nat.two_pow_pos 32, fun _ => rfl, rfl, rfl, rfl, rfl⟩
  simp only [encode, encA, encG, encV, encAmo, put, putb]; omega
theorem ori : ∀ x0 x1 x2, Statement (.ori x0 x1 x2) := by
  intros; refine ⟨?_, Nat.two_pow_pos 32, fun _ => rfl, rfl, rfl, rfl, rfl⟩
  simp only [encode, encA, encG, encV, encAmo, put, putb]; omega
theorem xori : ∀ x0 x1 x2, Statement (.xori x0 x1 x2) := by
  intros; refine ⟨?_, Nat.two_pow_pos 32, fun _ => rfl, rfl, rfl, rfl, rfl⟩
  simp only [encode, encA, encG, encV, encAmo, put, putb]; omega
theorem slli : ∀ x0 x1 x2, Statement (.slli x0 x1 x2) := by
  intros; refine ⟨?_, Nat.two_pow_pos 32, fun _ => rfl, rfl, rfl, rfl, rfl⟩
  simp only [encode, encA, encG, encV, encAmo, put, putb]; omega
theorem srli : ∀ x0 x1 x2, Statement (.srli x0 x1 x2) := by
  intros; refine ⟨?_, Nat.two_pow_pos 32, fun _ => rfl, rfl, rfl, rfl, rfl⟩
  simp only [encode, encA, encG, encV, encAmo, put, putb]; omega
theorem srai : ∀ x0 x1 x2, Statement (.srai x0 x1 x2) := by
  intros; refine ⟨?_, Nat.two_pow_pos 32, fun _ => rfl, rfl, rfl, rfl, rfl⟩
  simp only [encode, encA, encG, encV, encAmo, put, putb]; omega
theorem lui : ∀ x0 x1 x2, Statement (.lui x0 x1 x2) := by
  intros; refine ⟨?_, Nat.two_pow_pos 32, fun _ => rfl, rfl, rfl, rfl, rfl⟩
  simp only [encode, encA, encG, encV, encAmo, put, putb]; omega
theorem extr : ∀ x0 x1 x2 x3 x4, Statement (.extr x0 x1 x2 x3 x4) := by
  intros; refine ⟨?_, Nat.two_pow_pos 32, fun _ => rfl, rfl, rfl, rfl, rfl⟩
  simp only [encode, encA, encG, encV, encAmo, put, putb]; omega
theorem ins : ∀ x0 x1 x2 x3, Statement (.ins x0 x1 x2 x3) := by
  intros; refine ⟨?_, Nat.two_pow_pos 32, fun _ => rfl, rfl, rfl, rfl, rfl⟩
  simp only [encode, encA, encG, encV, encAmo, put, putb]; omega
theorem fadd : ∀ x0 x1 x2 x3 x4, Statement (.fadd x0 x1 x2 x3 x4) := by
  intros; refine ⟨?_, Nat.two_pow_pos 32, fun _ => rfl, rfl, rfl, rfl, rfl⟩
  simp only [encode, encA, encG, encV, encAmo, put, putb]; omega
theorem fsub : ∀ x0 x1 x2 x3 x4, Statement (.fsub x0 x1 x2 x3 x4) := by
  intros; refine ⟨?_, Nat.two_pow_pos 32, fun _ => rfl, rfl, rfl, rfl, rfl⟩
  simp only [encode, encA, encG, encV, encAmo, put, putb]; omega
theorem fmul : ∀ x0 x1 x2 x3 x4, Statement (.fmul x0 x1 x2 x3 x4) := by
  intros; refine ⟨?_, Nat.two_pow_pos 32, fun _ => rfl, rfl, rfl, rfl, rfl⟩
  simp only [encode, encA, encG, encV, encAmo, put, putb]; omega
theorem fdiv : ∀ x0 x1 x2 x3 x4, Statement (.fdiv x0 x1 x2 x3 x4) := by
  intros; refine ⟨?_, Nat.two_pow_pos 32, fun _ => rfl, rfl, rfl, rfl, rfl⟩
  simp only [encode, encA, encG, encV, encAmo, put, putb]; omega
theorem fsqrt : ∀ x0 x1 x2 x3, Statement (.fsqrt x0 x1 x2 x3) := by
  intros; refine ⟨?_, Nat.two_pow_pos 32, fun _ => rfl, rfl, rfl, rfl, rfl⟩
  simp only [encode, encA, encG, encV, encAmo, put, putb]; omega
theorem fmin : ∀ x0 x1 x2 x3, Statement (.fmin x0 x1 x2 x3) := by
  intros; refine ⟨?_, Nat.two_pow_pos 32, fun _ => rfl, rfl, rfl, rfl, rfl⟩
  simp only [encode, encA, encG, encV, encAmo, put, putb]; omega
theorem fmax : ∀ x0 x1 x2 x3, Statement (.fmax x0 x1 x2 x3) := by
  intros; refine ⟨?_, Nat.two_pow_pos 32, fun _ => rfl, rfl, rfl, rfl, rfl⟩
  simp only [encode, encA, encG, encV, encAmo, put, putb]; omega
theorem fclass : ∀ x0 x1 x2, Statement (.fclass x0 x1 x2) := by
  intros; refine ⟨?_, Nat.two_pow_pos 32, fun _ => rfl, rfl, rfl, rfl, rfl⟩
  simp only [encode, encA, encG, encV, encAmo, put, putb]; omega
theorem fmvgf : ∀ x0 x1, Statement (.fmvgf x0 x1) := by
  intros; refine ⟨?_, Nat.two_pow_pos 32, fun _ => rfl, rfl, rfl, rfl, rfl⟩
  simp only [encode, encA, encG, encV, encAmo, put, putb]; omega
theorem fmvfg : ∀ x0 x1, Statement (.fmvfg x0 x1) := by
  intros; refine ⟨?_, Nat.two_pow_pos 32, fun _ => rfl, rfl, rfl, rfl, rfl⟩
  simp only [encode, encA, encG, encV, encAmo, put, putb]; omega
theorem fcmp : ∀ x0 x1 x2 x3 x4, Statement (.fcmp x0 x1 x2 x3 x4) := by
  intros; refine ⟨?_, Nat.two_pow_pos 32, fun _ => rfl, rfl, rfl, rfl, rfl⟩
  simp only [encode, encA, encG, encV, encAmo, put, putb]; omega
theorem fcvt : ∀ x0 x1 x2 x3 x4, Statement (.fcvt x0 x1 x2 x3 x4) := by
  intros; refine ⟨?_, Nat.two_pow_pos 32, fun _ => rfl, rfl, rfl, rfl, rfl⟩
  simp only [encode, encA, encG, encV, encAmo, put, putb]; omega
theorem ffma : ∀ x0 x1 x2 x3 x4 x5 x6, Statement (.ffma x0 x1 x2 x3 x4 x5 x6) := by
  intros; refine ⟨?_, Nat.two_pow_pos 32, fun _ => rfl, rfl, rfl, rfl, rfl⟩
  simp only [encode, encA, encG, encV, encAmo, put, putb]; omega
theorem fld : ∀ x0 x1 x2 x3, Statement (.fld x0 x1 x2 x3) := by
  intros; refine ⟨?_, Nat.two_pow_pos 32, fun _ => rfl, rfl, rfl, rfl, rfl⟩
  simp only [encode, encA, encG, encV, encAmo, put, putb]; omega
theorem ld : ∀ x0 x1 x2 x3, Statement (.ld x0 x1 x2 x3) := by
  intros; refine ⟨?_, Nat.two_pow_pos 32, fun _ => rfl, rfl, rfl, rfl, rfl⟩
  simp only [encode, encA, encG, encV, encAmo, put, putb]; omega
theorem st : ∀ x0 x1 x2 x3 x4, Statement (.st x0 x1 x2 x3 x4) := by
  intros; refine ⟨?_, Nat.two_pow_pos 32, fun _ => rfl, rfl, rfl, rfl, rfl⟩
  simp only [encode, encA, encG, encV, encAmo, put, putb]; omega
theorem fst : ∀ x0 x1 x2 x3 x4, Statement (.fst x0 x1 x2 x3 x4) := by
  intros; refine ⟨?_, Nat.two_pow_pos 32, fun _ => rfl, rfl, rfl, rfl, rfl⟩
  simp only [encode, encA, encG, encV, encAmo, put, putb]; omega
theorem ldc : ∀ x0 x1 x2 x3 x4, Statement (.ldc x0 x1 x2 x3 x4) := by
  intros; refine ⟨?_, Nat.two_pow_pos 32, fun _ => rfl, rfl, rfl, rfl, rfl⟩
  simp only [encode, encA, encG, encV, encAmo, put, putb]; omega
theorem stc : ∀ x0 x1 x2 x3 x4 x5, Statement (.stc x0 x1 x2 x3 x4 x5) := by
  intros; refine ⟨?_, Nat.two_pow_pos 32, fun _ => rfl, rfl, rfl, rfl, rfl⟩
  simp only [encode, encA, encG, encV, encAmo, put, putb]; omega
theorem b : ∀ x0 x1, Statement (.b x0 x1) := by
  intros; refine ⟨?_, Nat.two_pow_pos 32, fun _ => rfl, rfl, rfl, rfl, rfl⟩
  simp only [encode, encA, encG, encV, encAmo, put, putb]; omega
theorem call : ∀ x0 x1, Statement (.call x0 x1) := by
  intros; refine ⟨?_, Nat.two_pow_pos 32, fun _ => rfl, rfl, rfl, rfl, rfl⟩
  simp only [encode, encA, encG, encV, encAmo, put, putb]; omega
theorem jr : ∀ x0 x1, Statement (.jr x0 x1) := by
  intros; refine ⟨?_, Nat.two_pow_pos 32, fun _ => rfl, rfl, rfl, rfl, rfl⟩
  simp only [encode, encA, encG, encV, encAmo, put, putb]; omega
theorem ret : ∀ x0, Statement (.ret x0) := by
  intros; refine ⟨?_, Nat.two_pow_pos 32, fun _ => rfl, rfl, rfl, rfl, rfl⟩
  simp only [encode, encA, encG, encV, encAmo, put, putb]; omega
theorem sel : ∀ x0 x1 x2 x3, Statement (.sel x0 x1 x2 x3) := by
  intros; refine ⟨?_, Nat.two_pow_pos 32, fun _ => rfl, rfl, rfl, rfl, rfl⟩
  simp only [encode, encA, encG, encV, encAmo, put, putb]; omega
theorem cmp : ∀ x0 x1 x2 x3, Statement (.cmp x0 x1 x2 x3) := by
  intros; refine ⟨?_, Nat.two_pow_pos 32, fun _ => rfl, rfl, rfl, rfl, rfl⟩
  simp only [encode, encA, encG, encV, encAmo, put, putb]; omega
theorem cmpi : ∀ x0 x1 x2 x3, Statement (.cmpi x0 x1 x2 x3) := by
  intros; refine ⟨?_, Nat.two_pow_pos 32, fun _ => rfl, rfl, rfl, rfl, rfl⟩
  simp only [encode, encA, encG, encV, encAmo, put, putb]; omega
theorem loop : ∀ x0 x1 x2, Statement (.loop x0 x1 x2) := by
  intros; refine ⟨?_, Nat.two_pow_pos 32, fun _ => rfl, rfl, rfl, rfl, rfl⟩
  simp only [encode, encA, encG, encV, encAmo, put, putb]; omega
theorem orderedLoad : ∀ x0 x1 x2 x3 x4, Statement (.orderedLoad x0 x1 x2 x3 x4) := by
  intros; refine ⟨?_, Nat.two_pow_pos 32, fun _ => rfl, rfl, rfl, rfl, rfl⟩
  simp only [encode, encA, encG, encV, encAmo, put, putb]; omega
theorem fence : ∀ x0 x1, Statement (.fence x0 x1) := by
  intros; refine ⟨?_, Nat.two_pow_pos 32, fun _ => rfl, rfl, rfl, rfl, rfl⟩
  simp only [encode, encA, encG, encV, encAmo, put, putb]; omega
theorem orderedStore : ∀ x0 x1 x2 x3 x4 x5, Statement (.orderedStore x0 x1 x2 x3 x4 x5) := by
  intros; refine ⟨?_, Nat.two_pow_pos 32, fun _ => rfl, rfl, rfl, rfl, rfl⟩
  simp only [encode, encA, encG, encV, encAmo, put, putb]; omega
theorem amoSwap : ∀ x0 x1 x2 x3 x4 x5, Statement (.amoSwap x0 x1 x2 x3 x4 x5) := by
  intros; refine ⟨?_, Nat.two_pow_pos 32, fun _ => rfl, rfl, rfl, rfl, rfl⟩
  simp only [encode, encA, encG, encV, encAmo, put, putb]; omega
theorem amoAdd : ∀ x0 x1 x2 x3 x4 x5, Statement (.amoAdd x0 x1 x2 x3 x4 x5) := by
  intros; refine ⟨?_, Nat.two_pow_pos 32, fun _ => rfl, rfl, rfl, rfl, rfl⟩
  simp only [encode, encA, encG, encV, encAmo, put, putb]; omega
theorem amoAnd : ∀ x0 x1 x2 x3 x4 x5, Statement (.amoAnd x0 x1 x2 x3 x4 x5) := by
  intros; refine ⟨?_, Nat.two_pow_pos 32, fun _ => rfl, rfl, rfl, rfl, rfl⟩
  simp only [encode, encA, encG, encV, encAmo, put, putb]; omega
theorem amoOr : ∀ x0 x1 x2 x3 x4 x5, Statement (.amoOr x0 x1 x2 x3 x4 x5) := by
  intros; refine ⟨?_, Nat.two_pow_pos 32, fun _ => rfl, rfl, rfl, rfl, rfl⟩
  simp only [encode, encA, encG, encV, encAmo, put, putb]; omega
theorem amoXor : ∀ x0 x1 x2 x3 x4 x5, Statement (.amoXor x0 x1 x2 x3 x4 x5) := by
  intros; refine ⟨?_, Nat.two_pow_pos 32, fun _ => rfl, rfl, rfl, rfl, rfl⟩
  simp only [encode, encA, encG, encV, encAmo, put, putb]; omega
theorem amoMin : ∀ x0 x1 x2 x3 x4 x5, Statement (.amoMin x0 x1 x2 x3 x4 x5) := by
  intros; refine ⟨?_, Nat.two_pow_pos 32, fun _ => rfl, rfl, rfl, rfl, rfl⟩
  simp only [encode, encA, encG, encV, encAmo, put, putb]; omega
theorem amoMax : ∀ x0 x1 x2 x3 x4 x5, Statement (.amoMax x0 x1 x2 x3 x4 x5) := by
  intros; refine ⟨?_, Nat.two_pow_pos 32, fun _ => rfl, rfl, rfl, rfl, rfl⟩
  simp only [encode, encA, encG, encV, encAmo, put, putb]; omega
theorem amoMinu : ∀ x0 x1 x2 x3 x4 x5, Statement (.amoMinu x0 x1 x2 x3 x4 x5) := by
  intros; refine ⟨?_, Nat.two_pow_pos 32, fun _ => rfl, rfl, rfl, rfl, rfl⟩
  simp only [encode, encA, encG, encV, encAmo, put, putb]; omega
theorem amoMaxu : ∀ x0 x1 x2 x3 x4 x5, Statement (.amoMaxu x0 x1 x2 x3 x4 x5) := by
  intros; refine ⟨?_, Nat.two_pow_pos 32, fun _ => rfl, rfl, rfl, rfl, rfl⟩
  simp only [encode, encA, encG, encV, encAmo, put, putb]; omega
theorem amoFadd : ∀ x0 x1 x2 x3 x4 x5, Statement (.amoFadd x0 x1 x2 x3 x4 x5) := by
  intros; refine ⟨?_, Nat.two_pow_pos 32, fun _ => rfl, rfl, rfl, rfl, rfl⟩
  simp only [encode, encA, encG, encV, encAmo, put, putb]; omega
theorem cas : ∀ x0 x1 x2 x3 x4 x5 x6, Statement (.cas x0 x1 x2 x3 x4 x5 x6) := by
  intros; refine ⟨?_, Nat.two_pow_pos 32, fun _ => rfl, rfl, rfl, rfl, rfl⟩
  simp only [encode, encA, encG, encV, encAmo, put, putb]; omega
theorem vadd : ∀ x0 x1 x2 x3, Statement (.vadd x0 x1 x2 x3) := by
  intros; refine ⟨?_, Nat.two_pow_pos 32, fun _ => rfl, rfl, rfl, rfl, rfl⟩
  simp only [encode, encA, encG, encV, encAmo, put, putb]; omega
theorem vsub : ∀ x0 x1 x2 x3, Statement (.vsub x0 x1 x2 x3) := by
  intros; refine ⟨?_, Nat.two_pow_pos 32, fun _ => rfl, rfl, rfl, rfl, rfl⟩
  simp only [encode, encA, encG, encV, encAmo, put, putb]; omega
theorem vmul : ∀ x0 x1 x2 x3, Statement (.vmul x0 x1 x2 x3) := by
  intros; refine ⟨?_, Nat.two_pow_pos 32, fun _ => rfl, rfl, rfl, rfl, rfl⟩
  simp only [encode, encA, encG, encV, encAmo, put, putb]; omega
theorem vfma : ∀ x0 x1 x2 x3, Statement (.vfma x0 x1 x2 x3) := by
  intros; refine ⟨?_, Nat.two_pow_pos 32, fun _ => rfl, rfl, rfl, rfl, rfl⟩
  simp only [encode, encA, encG, encV, encAmo, put, putb]; omega
theorem vmin : ∀ x0 x1 x2 x3, Statement (.vmin x0 x1 x2 x3) := by
  intros; refine ⟨?_, Nat.two_pow_pos 32, fun _ => rfl, rfl, rfl, rfl, rfl⟩
  simp only [encode, encA, encG, encV, encAmo, put, putb]; omega
theorem vmax : ∀ x0 x1 x2 x3, Statement (.vmax x0 x1 x2 x3) := by
  intros; refine ⟨?_, Nat.two_pow_pos 32, fun _ => rfl, rfl, rfl, rfl, rfl⟩
  simp only [encode, encA, encG, encV, encAmo, put, putb]; omega
theorem vabs : ∀ x0 x1 x2, Statement (.vabs x0 x1 x2) := by
  intros; refine ⟨?_, Nat.two_pow_pos 32, fun _ => rfl, rfl, rfl, rfl, rfl⟩
  simp only [encode, encA, encG, encV, encAmo, put, putb]; omega
theorem vneg : ∀ x0 x1 x2, Statement (.vneg x0 x1 x2) := by
  intros; refine ⟨?_, Nat.two_pow_pos 32, fun _ => rfl, rfl, rfl, rfl, rfl⟩
  simp only [encode, encA, encG, encV, encAmo, put, putb]; omega
theorem vand : ∀ x0 x1 x2, Statement (.vand x0 x1 x2) := by
  intros; refine ⟨?_, Nat.two_pow_pos 32, fun _ => rfl, rfl, rfl, rfl, rfl⟩
  simp only [encode, encA, encG, encV, encAmo, put, putb]; omega
theorem vor : ∀ x0 x1 x2, Statement (.vor x0 x1 x2) := by
  intros; refine ⟨?_, Nat.two_pow_pos 32, fun _ => rfl, rfl, rfl, rfl, rfl⟩
  simp only [encode, encA, encG, encV, encAmo, put, putb]; omega
theorem vxor : ∀ x0 x1 x2, Statement (.vxor x0 x1 x2) := by
  intros; refine ⟨?_, Nat.two_pow_pos 32, fun _ => rfl, rfl, rfl, rfl, rfl⟩
  simp only [encode, encA, encG, encV, encAmo, put, putb]; omega
theorem vnot : ∀ x0 x1, Statement (.vnot x0 x1) := by
  intros; refine ⟨?_, Nat.two_pow_pos 32, fun _ => rfl, rfl, rfl, rfl, rfl⟩
  simp only [encode, encA, encG, encV, encAmo, put, putb]; omega
theorem vsll : ∀ x0 x1 x2, Statement (.vsll x0 x1 x2) := by
  intros; refine ⟨?_, Nat.two_pow_pos 32, fun _ => rfl, rfl, rfl, rfl, rfl⟩
  simp only [encode, encA, encG, encV, encAmo, put, putb]; omega
theorem vsrl : ∀ x0 x1 x2, Statement (.vsrl x0 x1 x2) := by
  intros; refine ⟨?_, Nat.two_pow_pos 32, fun _ => rfl, rfl, rfl, rfl, rfl⟩
  simp only [encode, encA, encG, encV, encAmo, put, putb]; omega
theorem vsra : ∀ x0 x1 x2, Statement (.vsra x0 x1 x2) := by
  intros; refine ⟨?_, Nat.two_pow_pos 32, fun _ => rfl, rfl, rfl, rfl, rfl⟩
  simp only [encode, encA, encG, encV, encAmo, put, putb]; omega
theorem vslli : ∀ x0 x1 x2, Statement (.vslli x0 x1 x2) := by
  intros; refine ⟨?_, Nat.two_pow_pos 32, fun _ => rfl, rfl, rfl, rfl, rfl⟩
  simp only [encode, encA, encG, encV, encAmo, put, putb]; omega
theorem vsrli : ∀ x0 x1 x2, Statement (.vsrli x0 x1 x2) := by
  intros; refine ⟨?_, Nat.two_pow_pos 32, fun _ => rfl, rfl, rfl, rfl, rfl⟩
  simp only [encode, encA, encG, encV, encAmo, put, putb]; omega
theorem vsrai : ∀ x0 x1 x2, Statement (.vsrai x0 x1 x2) := by
  intros; refine ⟨?_, Nat.two_pow_pos 32, fun _ => rfl, rfl, rfl, rfl, rfl⟩
  simp only [encode, encA, encG, encV, encAmo, put, putb]; omega
theorem vcmp : ∀ x0 x1 x2 x3 x4, Statement (.vcmp x0 x1 x2 x3 x4) := by
  intros; refine ⟨?_, Nat.two_pow_pos 32, fun _ => rfl, rfl, rfl, rfl, rfl⟩
  simp only [encode, encA, encG, encV, encAmo, put, putb]; omega
theorem vsel : ∀ x0 x1 x2 x3 x4, Statement (.vsel x0 x1 x2 x3 x4) := by
  intros; refine ⟨?_, Nat.two_pow_pos 32, fun _ => rfl, rfl, rfl, rfl, rfl⟩
  simp only [encode, encA, encG, encV, encAmo, put, putb]; omega
theorem vcvt : ∀ x0 x1 x2 x3, Statement (.vcvt x0 x1 x2 x3) := by
  intros; refine ⟨?_, Nat.two_pow_pos 32, fun _ => rfl, rfl, rfl, rfl, rfl⟩
  simp only [encode, encA, encG, encV, encAmo, put, putb]; omega
theorem vcvtToE4m3 : ∀ x0 x1 x2 x3, Statement (.vcvtToE4m3 x0 x1 x2 x3) := by
  intros; refine ⟨?_, Nat.two_pow_pos 32, fun _ => rfl, rfl, rfl, rfl, rfl⟩
  simp only [encode, encA, encG, encV, encAmo, put, putb]; omega
theorem vcvtToE5m2 : ∀ x0 x1 x2 x3, Statement (.vcvtToE5m2 x0 x1 x2 x3) := by
  intros; refine ⟨?_, Nat.two_pow_pos 32, fun _ => rfl, rfl, rfl, rfl, rfl⟩
  simp only [encode, encA, encG, encV, encAmo, put, putb]; omega
theorem vcvtFromE4m3 : ∀ x0 x1 x2 x3, Statement (.vcvtFromE4m3 x0 x1 x2 x3) := by
  intros; refine ⟨?_, Nat.two_pow_pos 32, fun _ => rfl, rfl, rfl, rfl, rfl⟩
  simp only [encode, encA, encG, encV, encAmo, put, putb]; omega
theorem vcvtFromE5m2 : ∀ x0 x1 x2 x3, Statement (.vcvtFromE5m2 x0 x1 x2 x3) := by
  intros; refine ⟨?_, Nat.two_pow_pos 32, fun _ => rfl, rfl, rfl, rfl, rfl⟩
  simp only [encode, encA, encG, encV, encAmo, put, putb]; omega
theorem vredSum : ∀ x0 x1 x2, Statement (.vredSum x0 x1 x2) := by
  intros; refine ⟨?_, Nat.two_pow_pos 32, fun _ => rfl, rfl, rfl, rfl, rfl⟩
  simp only [encode, encA, encG, encV, encAmo, put, putb]; omega
theorem vredMax : ∀ x0 x1 x2, Statement (.vredMax x0 x1 x2) := by
  intros; refine ⟨?_, Nat.two_pow_pos 32, fun _ => rfl, rfl, rfl, rfl, rfl⟩
  simp only [encode, encA, encG, encV, encAmo, put, putb]; omega
theorem vredMin : ∀ x0 x1 x2, Statement (.vredMin x0 x1 x2) := by
  intros; refine ⟨?_, Nat.two_pow_pos 32, fun _ => rfl, rfl, rfl, rfl, rfl⟩
  simp only [encode, encA, encG, encV, encAmo, put, putb]; omega
theorem vperm : ∀ x0 x1 x2, Statement (.vperm x0 x1 x2) := by
  intros; refine ⟨?_, Nat.two_pow_pos 32, fun _ => rfl, rfl, rfl, rfl, rfl⟩
  simp only [encode, encA, encG, encV, encAmo, put, putb]; omega
theorem vbcastG : ∀ x0 x1, Statement (.vbcastG x0 x1) := by
  intros; refine ⟨?_, Nat.two_pow_pos 32, fun _ => rfl, rfl, rfl, rfl, rfl⟩
  simp only [encode, encA, encG, encV, encAmo, put, putb]; omega
theorem vbcastF : ∀ x0 x1, Statement (.vbcastF x0 x1) := by
  intros; refine ⟨?_, Nat.two_pow_pos 32, fun _ => rfl, rfl, rfl, rfl, rfl⟩
  simp only [encode, encA, encG, encV, encAmo, put, putb]; omega
theorem vld : ∀ x0 x1 x2 x3, Statement (.vld x0 x1 x2 x3) := by
  intros; refine ⟨?_, Nat.two_pow_pos 32, fun _ => rfl, rfl, rfl, rfl, rfl⟩
  simp only [encode, encA, encG, encV, encAmo, put, putb]; omega
theorem vlds : ∀ x0 x1 x2, Statement (.vlds x0 x1 x2) := by
  intros; refine ⟨?_, Nat.two_pow_pos 32, fun _ => rfl, rfl, rfl, rfl, rfl⟩
  simp only [encode, encA, encG, encV, encAmo, put, putb]; omega
theorem vst : ∀ x0 x1 x2 x3 x4, Statement (.vst x0 x1 x2 x3 x4) := by
  intros; refine ⟨?_, Nat.two_pow_pos 32, fun _ => rfl, rfl, rfl, rfl, rfl⟩
  simp only [encode, encA, encG, encV, encAmo, put, putb]; omega
theorem vexp2 : ∀ x0 x1, Statement (.vexp2 x0 x1) := by
  intros; refine ⟨?_, Nat.two_pow_pos 32, fun _ => rfl, rfl, rfl, rfl, rfl⟩
  simp only [encode, encA, encG, encV, encAmo, put, putb]; omega
theorem vlog2 : ∀ x0 x1, Statement (.vlog2 x0 x1) := by
  intros; refine ⟨?_, Nat.two_pow_pos 32, fun _ => rfl, rfl, rfl, rfl, rfl⟩
  simp only [encode, encA, encG, encV, encAmo, put, putb]; omega
theorem vrcp : ∀ x0 x1, Statement (.vrcp x0 x1) := by
  intros; refine ⟨?_, Nat.two_pow_pos 32, fun _ => rfl, rfl, rfl, rfl, rfl⟩
  simp only [encode, encA, encG, encV, encAmo, put, putb]; omega
theorem vrsq : ∀ x0 x1, Statement (.vrsq x0 x1) := by
  intros; refine ⟨?_, Nat.two_pow_pos 32, fun _ => rfl, rfl, rfl, rfl, rfl⟩
  simp only [encode, encA, encG, encV, encAmo, put, putb]; omega
theorem vemax : ∀ x0 x1, Statement (.vemax x0 x1) := by
  intros; refine ⟨?_, Nat.two_pow_pos 32, fun _ => rfl, rfl, rfl, rfl, rfl⟩
  simp only [encode, encA, encG, encV, encAmo, put, putb]; omega
theorem vscl2 : ∀ x0 x1 x2, Statement (.vscl2 x0 x1 x2) := by
  intros; refine ⟨?_, Nat.two_pow_pos 32, fun _ => rfl, rfl, rfl, rfl, rfl⟩
  simp only [encode, encA, encG, encV, encAmo, put, putb]; omega
theorem vtunpk : ∀ x0 x1 x2, Statement (.vtunpk x0 x1 x2) := by
  intros; refine ⟨?_, Nat.two_pow_pos 32, fun _ => rfl, rfl, rfl, rfl, rfl⟩
  simp only [encode, encA, encG, encV, encAmo, put, putb]; omega
theorem vtacc : ∀ x0 x1 x2, Statement (.vtacc x0 x1 x2) := by
  intros; refine ⟨?_, Nat.two_pow_pos 32, fun _ => rfl, rfl, rfl, rfl, rfl⟩
  simp only [encode, encA, encG, encV, encAmo, put, putb]; omega
theorem vwid : ∀ x0 x1 x2 x3, Statement (.vwid x0 x1 x2 x3) := by
  intros; refine ⟨?_, Nat.two_pow_pos 32, fun _ => rfl, rfl, rfl, rfl, rfl⟩
  simp only [encode, encA, encG, encV, encAmo, put, putb]; omega
theorem vwidu : ∀ x0 x1 x2 x3, Statement (.vwidu x0 x1 x2 x3) := by
  intros; refine ⟨?_, Nat.two_pow_pos 32, fun _ => rfl, rfl, rfl, rfl, rfl⟩
  simp only [encode, encA, encG, encV, encAmo, put, putb]; omega
theorem vstatr : ∀ x0, Statement (.vstatr x0) := by
  intros; refine ⟨?_, Nat.two_pow_pos 32, fun _ => rfl, rfl, rfl, rfl, rfl⟩
  simp only [encode, encA, encG, encV, encAmo, put, putb]; omega
theorem mand : ∀ x0 x1 x2, Statement (.mand x0 x1 x2) := by
  intros; refine ⟨?_, Nat.two_pow_pos 32, fun _ => rfl, rfl, rfl, rfl, rfl⟩
  simp only [encode, encA, encG, encV, encAmo, put, putb]; omega
theorem mor : ∀ x0 x1 x2, Statement (.mor x0 x1 x2) := by
  intros; refine ⟨?_, Nat.two_pow_pos 32, fun _ => rfl, rfl, rfl, rfl, rfl⟩
  simp only [encode, encA, encG, encV, encAmo, put, putb]; omega
theorem mxor : ∀ x0 x1 x2, Statement (.mxor x0 x1 x2) := by
  intros; refine ⟨?_, Nat.two_pow_pos 32, fun _ => rfl, rfl, rfl, rfl, rfl⟩
  simp only [encode, encA, encG, encV, encAmo, put, putb]; omega
theorem mnot : ∀ x0 x1, Statement (.mnot x0 x1) := by
  intros; refine ⟨?_, Nat.two_pow_pos 32, fun _ => rfl, rfl, rfl, rfl, rfl⟩
  simp only [encode, encA, encG, encV, encAmo, put, putb]; omega
theorem qbind : ∀ x0 x1, Statement (.qbind x0 x1) := by
  intros; refine ⟨?_, Nat.two_pow_pos 32, fun _ => rfl, rfl, rfl, rfl, rfl⟩
  simp only [encode, encA, encG, encV, encAmo, put, putb]; omega
theorem qput : ∀ x0 x1, Statement (.qput x0 x1) := by
  intros; refine ⟨?_, Nat.two_pow_pos 32, fun _ => rfl, rfl, rfl, rfl, rfl⟩
  simp only [encode, encA, encG, encV, encAmo, put, putb]; omega
theorem qget : ∀ x0 x1, Statement (.qget x0 x1) := by
  intros; refine ⟨?_, Nat.two_pow_pos 32, fun _ => rfl, rfl, rfl, rfl, rfl⟩
  simp only [encode, encA, encG, encV, encAmo, put, putb]; omega
theorem qcnt : ∀ x0 x1, Statement (.qcnt x0 x1) := by
  intros; refine ⟨?_, Nat.two_pow_pos 32, fun _ => rfl, rfl, rfl, rfl, rfl⟩
  simp only [encode, encA, encG, encV, encAmo, put, putb]; omega
theorem tcfg : ∀ x0 x1, Statement (.tcfg x0 x1) := by
  intros; refine ⟨?_, Nat.two_pow_pos 32, fun _ => rfl, rfl, rfl, rfl, rfl⟩
  simp only [encode, encA, encG, encV, encAmo, put, putb]; omega
theorem tzero : ∀ x0 x1, Statement (.tzero x0 x1) := by
  intros; refine ⟨?_, Nat.two_pow_pos 32, fun _ => rfl, rfl, rfl, rfl, rfl⟩
  simp only [encode, encA, encG, encV, encAmo, put, putb]; omega
theorem tztest : ∀ x0 x1 x2, Statement (.tztest x0 x1 x2) := by
  intros; refine ⟨?_, Nat.two_pow_pos 32, fun _ => rfl, rfl, rfl, rfl, rfl⟩
  simp only [encode, encA, encG, encV, encAmo, put, putb]; omega
theorem twait : ∀ x0, Statement (.twait x0) := by
  intros; refine ⟨?_, Nat.two_pow_pos 32, fun _ => rfl, rfl, rfl, rfl, rfl⟩
  simp only [encode, encA, encG, encV, encAmo, put, putb]; omega
theorem cbld : ∀ x0 x1, Statement (.cbld x0 x1) := by
  intros; refine ⟨?_, Nat.two_pow_pos 32, fun _ => rfl, rfl, rfl, rfl, rfl⟩
  simp only [encode, encA, encG, encV, encAmo, put, putb]; omega
theorem tld : ∀ x0 x1 x2, Statement (.tld x0 x1 x2) := by
  intros; refine ⟨?_, Nat.two_pow_pos 32, fun _ => rfl, rfl, rfl, rfl, rfl⟩
  simp only [encode, encA, encG, encV, encAmo, put, putb]; omega
theorem tst : ∀ x0 x1 x2 x3, Statement (.tst x0 x1 x2 x3) := by
  intros; refine ⟨?_, Nat.two_pow_pos 32, fun _ => rfl, rfl, rfl, rfl, rfl⟩
  simp only [encode, encA, encG, encV, encAmo, put, putb]; omega
theorem tmma : ∀ x0, Statement (.tmma x0) := by
  intros; refine ⟨?_, ?_, fun h => by simp only [Instr.isLong, reduceCtorEq] at h, rfl, rfl, rfl, rfl⟩ <;>
    simp only [encode, encL, encSc, encMat, encMode, put, putb] <;> omega
theorem tmmak : ∀ x0, Statement (.tmmak x0) := by
  intros; refine ⟨?_, ?_, fun h => by simp only [Instr.isLong, reduceCtorEq] at h, rfl, rfl, rfl, rfl⟩ <;>
    simp only [encode, encL, encSc, encMat, encMode, put, putb] <;> omega
theorem fenter : ∀ x0 x1, Statement (.fenter x0 x1) := by
  intros; refine ⟨?_, Nat.two_pow_pos 32, fun _ => rfl, rfl, rfl, rfl, rfl⟩
  simp only [encode, encA, encG, encV, encAmo, put, putb]; omega
theorem fleave : Statement .fleave := by
  exact ⟨by decide, Nat.two_pow_pos 32, fun _ => rfl, rfl, rfl, rfl, rfl⟩
theorem ftile : ∀ x0 x1 x2, Statement (.ftile x0 x1 x2) := by
  intros; refine ⟨?_, Nat.two_pow_pos 32, fun _ => rfl, rfl, rfl, rfl, rfl⟩
  simp only [encode, encA, encG, encV, encAmo, put, putb]; omega
theorem fpub : Statement .fpub := by
  exact ⟨by decide, Nat.two_pow_pos 32, fun _ => rfl, rfl, rfl, rfl, rfl⟩
theorem tret : Statement .tret := by
  exact ⟨by decide, Nat.two_pow_pos 32, fun _ => rfl, rfl, rfl, rfl, rfl⟩
theorem sync : Statement .sync := by
  exact ⟨by decide, Nat.two_pow_pos 32, fun _ => rfl, rfl, rfl, rfl, rfl⟩
theorem jinit : ∀ x0, Statement (.jinit x0) := by
  intros; refine ⟨?_, Nat.two_pow_pos 32, fun _ => rfl, rfl, rfl, rfl, rfl⟩
  simp only [encode, encA, encG, encV, encAmo, put, putb]; omega
theorem jdec : ∀ x0 x1, Statement (.jdec x0 x1) := by
  intros; refine ⟨?_, Nat.two_pow_pos 32, fun _ => rfl, rfl, rfl, rfl, rfl⟩
  simp only [encode, encA, encG, encV, encAmo, put, putb]; omega
theorem donate : ∀ x0 x1 x2, Statement (.donate x0 x1 x2) := by
  intros; refine ⟨?_, Nat.two_pow_pos 32, fun _ => rfl, rfl, rfl, rfl, rfl⟩
  simp only [encode, encA, encG, encV, encAmo, put, putb]; omega
theorem accept : ∀ x0 x1, Statement (.accept x0 x1) := by
  intros; refine ⟨?_, Nat.two_pow_pos 32, fun _ => rfl, rfl, rfl, rfl, rfl⟩
  simp only [encode, encA, encG, encV, encAmo, put, putb]; omega
theorem spawn : ∀ x0, Statement (.spawn x0) := by
  intros; refine ⟨?_, Nat.two_pow_pos 32, fun _ => rfl, rfl, rfl, rfl, rfl⟩
  simp only [encode, encA, encG, encV, encAmo, put, putb]; omega
theorem csrr : ∀ x0 x1, Statement (.csrr x0 x1) := by
  intros; refine ⟨?_, Nat.two_pow_pos 32, fun _ => rfl, rfl, rfl, rfl, rfl⟩
  simp only [encode, encA, encG, encV, encAmo, put, putb]; omega
theorem csrw : ∀ x0 x1, Statement (.csrw x0 x1) := by
  intros; refine ⟨?_, Nat.two_pow_pos 32, fun _ => rfl, rfl, rfl, rfl, rfl⟩
  simp only [encode, encA, encG, encV, encAmo, put, putb]; omega
theorem csrwTvec : ∀ x0, Statement (.csrwTvec x0) := by
  intros; refine ⟨?_, Nat.two_pow_pos 32, fun _ => rfl, rfl, rfl, rfl, rfl⟩
  simp only [encode, encA, encG, encV, encAmo, put, putb]; omega
theorem csrwLstate : ∀ x0, Statement (.csrwLstate x0) := by
  intros; refine ⟨?_, Nat.two_pow_pos 32, fun _ => rfl, rfl, rfl, rfl, rfl⟩
  simp only [encode, encA, encG, encV, encAmo, put, putb]; omega
theorem trap : ∀ x0, Statement (.trap x0) := by
  intros; refine ⟨?_, Nat.two_pow_pos 32, fun _ => rfl, rfl, rfl, rfl, rfl⟩
  simp only [encode, encA, encG, encV, encAmo, put, putb]; omega
theorem eret : Statement .eret := by
  exact ⟨by decide, Nat.two_pow_pos 32, fun _ => rfl, rfl, rfl, rfl, rfl⟩
theorem svc : ∀ x0, Statement (.svc x0) := by
  intros; refine ⟨?_, Nat.two_pow_pos 32, fun _ => rfl, rfl, rfl, rfl, rfl⟩
  simp only [encode, encA, encG, encV, encAmo, put, putb]; omega
theorem wfe : ∀ x0, Statement (.wfe x0) := by
  intros; refine ⟨?_, Nat.two_pow_pos 32, fun _ => rfl, rfl, rfl, rfl, rfl⟩
  simp only [encode, encA, encG, encV, encAmo, put, putb]; omega
theorem oseta : ∀ x0 x1 x2, Statement (.oseta x0 x1 x2) := by
  intros; refine ⟨?_, Nat.two_pow_pos 32, fun _ => rfl, rfl, rfl, rfl, rfl⟩
  simp only [encode, encA, encG, encV, encAmo, put, putb]; omega
theorem rwb : ∀ x0 x1, Statement (.rwb x0 x1) := by
  intros; refine ⟨?_, Nat.two_pow_pos 32, fun _ => rfl, rfl, rfl, rfl, rfl⟩
  simp only [encode, encA, encG, encV, encAmo, put, putb]; omega
theorem rwbLog : ∀ x0, Statement (.rwbLog x0) := by
  intros; refine ⟨?_, Nat.two_pow_pos 32, fun _ => rfl, rfl, rfl, rfl, rfl⟩
  simp only [encode, encA, encG, encV, encAmo, put, putb]; omega
theorem rwbObj : ∀ x0, Statement (.rwbObj x0) := by
  intros; refine ⟨?_, Nat.two_pow_pos 32, fun _ => rfl, rfl, rfl, rfl, rfl⟩
  simp only [encode, encA, encG, encV, encAmo, put, putb]; omega
theorem rinv : ∀ x0 x1, Statement (.rinv x0 x1) := by
  intros; refine ⟨?_, Nat.two_pow_pos 32, fun _ => rfl, rfl, rfl, rfl, rfl⟩
  simp only [encode, encA, encG, encV, encAmo, put, putb]; omega
theorem rinvLog : ∀ x0, Statement (.rinvLog x0) := by
  intros; refine ⟨?_, Nat.two_pow_pos 32, fun _ => rfl, rfl, rfl, rfl, rfl⟩
  simp only [encode, encA, encG, encV, encAmo, put, putb]; omega
theorem rinvObj : ∀ x0, Statement (.rinvObj x0) := by
  intros; refine ⟨?_, Nat.two_pow_pos 32, fun _ => rfl, rfl, rfl, rfl, rfl⟩
  simp only [encode, encA, encG, encV, encAmo, put, putb]; omega
theorem logrdRead : ∀ x0 x1 x2, Statement (.logrdRead x0 x1 x2) := by
  intros; refine ⟨?_, Nat.two_pow_pos 32, fun _ => rfl, rfl, rfl, rfl, rfl⟩
  simp only [encode, encA, encG, encV, encAmo, put, putb]; omega
theorem logrdStatus : ∀ x0 x1 x2, Statement (.logrdStatus x0 x1 x2) := by
  intros; refine ⟨?_, Nat.two_pow_pos 32, fun _ => rfl, rfl, rfl, rfl, rfl⟩
  simp only [encode, encA, encG, encV, encAmo, put, putb]; omega
theorem logrdRetire : ∀ x0 x1 x2, Statement (.logrdRetire x0 x1 x2) := by
  intros; refine ⟨?_, Nat.two_pow_pos 32, fun _ => rfl, rfl, rfl, rfl, rfl⟩
  simp only [encode, encA, encG, encV, encAmo, put, putb]; omega
theorem logrdReset : ∀ x0 x1 x2, Statement (.logrdReset x0 x1 x2) := by
  intros; refine ⟨?_, Nat.two_pow_pos 32, fun _ => rfl, rfl, rfl, rfl, rfl⟩
  simp only [encode, encA, encG, encV, encAmo, put, putb]; omega
theorem orinv : ∀ x0, Statement (.orinv x0) := by
  intros; refine ⟨?_, Nat.two_pow_pos 32, fun _ => rfl, rfl, rfl, rfl, rfl⟩
  simp only [encode, encA, encG, encV, encAmo, put, putb]; omega
theorem orinvCtx : Statement .orinvCtx := by
  exact ⟨by decide, Nat.two_pow_pos 32, fun _ => rfl, rfl, rfl, rfl, rfl⟩
theorem orsync : ∀ x0, Statement (.orsync x0) := by
  intros; refine ⟨?_, Nat.two_pow_pos 32, fun _ => rfl, rfl, rfl, rfl, rfl⟩
  simp only [encode, encA, encG, encV, encAmo, put, putb]; omega
theorem orsyncCtx : Statement .orsyncCtx := by
  exact ⟨by decide, Nat.two_pow_pos 32, fun _ => rfl, rfl, rfl, rfl, rfl⟩
theorem ttqry : ∀ x0 x1 x2, Statement (.ttqry x0 x1 x2) := by
  intros; refine ⟨?_, Nat.two_pow_pos 32, fun _ => rfl, rfl, rfl, rfl, rfl⟩
  simp only [encode, encA, encG, encV, encAmo, put, putb]; omega
theorem clbinv : ∀ x0 x1, Statement (.clbinv x0 x1) := by
  intros; refine ⟨?_, Nat.two_pow_pos 32, fun _ => rfl, rfl, rfl, rfl, rfl⟩
  simp only [encode, encA, encG, encV, encAmo, put, putb]; omega
theorem clbinvObj : ∀ x0, Statement (.clbinvObj x0) := by
  intros; refine ⟨?_, Nat.two_pow_pos 32, fun _ => rfl, rfl, rfl, rfl, rfl⟩
  simp only [encode, encA, encG, encV, encAmo, put, putb]; omega
theorem cpy : ∀ x0 x1 x2 x3 x4 x5, Statement (.cpy x0 x1 x2 x3 x4 x5) := by
  intros; refine ⟨?_, ?_, fun h => by simp only [Instr.isLong, reduceCtorEq] at h, rfl, rfl, rfl, rfl⟩ <;>
    simp only [encode, encL, encSc, encMat, encMode, put, putb] <;> omega
theorem cpyt : ∀ x0 x1 x2 x3 x4, Statement (.cpyt x0 x1 x2 x3 x4) := by
  intros; refine ⟨?_, ?_, fun h => by simp only [Instr.isLong, reduceCtorEq] at h, rfl, rfl, rfl, rfl⟩ <;>
    simp only [encode, encL, encSc, encMat, encMode, put, putb] <;> omega
theorem cpyr : ∀ x0 x1 x2 x3 x4, Statement (.cpyr x0 x1 x2 x3 x4) := by
  intros; refine ⟨?_, ?_, fun h => by simp only [Instr.isLong, reduceCtorEq] at h, rfl, rfl, rfl, rfl⟩ <;>
    simp only [encode, encL, encSc, encMat, encMode, put, putb] <;> omega
theorem wbind : ∀ x0 x1 x2 x3 x4, Statement (.wbind x0 x1 x2 x3 x4) := by
  intros; refine ⟨?_, ?_, fun h => by simp only [Instr.isLong, reduceCtorEq] at h, rfl, rfl, rfl, rfl⟩ <;>
    simp only [encode, encL, encSc, encMat, encMode, put, putb] <;> omega
theorem wunbind : ∀ x0 x1, Statement (.wunbind x0 x1) := by
  intros; refine ⟨?_, ?_, fun h => by simp only [Instr.isLong, reduceCtorEq] at h, rfl, rfl, rfl, rfl⟩ <;>
    simp only [encode, encL, encSc, encMat, encMode, put, putb] <;> omega
theorem rwait : ∀ x0 x1 x2 x3, Statement (.rwait x0 x1 x2 x3) := by
  intros; refine ⟨?_, ?_, fun h => by simp only [Instr.isLong, reduceCtorEq] at h, rfl, rfl, rfl, rfl⟩ <;>
    simp only [encode, encL, encSc, encMat, encMode, put, putb] <;> omega
theorem rrel : ∀ x0 x1 x2, Statement (.rrel x0 x1 x2) := by
  intros; refine ⟨?_, ?_, fun h => by simp only [Instr.isLong, reduceCtorEq] at h, rfl, rfl, rfl, rfl⟩ <;>
    simp only [encode, encL, encSc, encMat, encMode, put, putb] <;> omega
theorem publish : ∀ x0, Statement (.publish x0) := by
  intros; refine ⟨?_, ?_, fun h => by simp only [Instr.isLong, reduceCtorEq] at h, rfl, rfl, rfl, rfl⟩ <;>
    simp only [encode, encL, encSc, encMat, encMode, put, putb] <;> omega
theorem cwait : ∀ x0 x1 x2, Statement (.cwait x0 x1 x2) := by
  intros; refine ⟨?_, ?_, fun h => by simp only [Instr.isLong, reduceCtorEq] at h, rfl, rfl, rfl, rfl⟩ <;>
    simp only [encode, encL, encSc, encMat, encMode, put, putb] <;> omega
theorem gather : ∀ x0 x1 x2 x3 x4 x5 x6, Statement (.gather x0 x1 x2 x3 x4 x5 x6) := by
  intros; refine ⟨?_, ?_, fun h => by simp only [Instr.isLong, reduceCtorEq] at h, rfl, rfl, rfl, rfl⟩ <;>
    simp only [encode, encL, encSc, encMat, encMode, put, putb] <;> omega
theorem scatter : ∀ x0 x1 x2 x3 x4 x5 x6, Statement (.scatter x0 x1 x2 x3 x4 x5 x6) := by
  intros; refine ⟨?_, ?_, fun h => by simp only [Instr.isLong, reduceCtorEq] at h, rfl, rfl, rfl, rfl⟩ <;>
    simp only [encode, encL, encSc, encMat, encMode, put, putb] <;> omega
theorem bara : ∀ x0 x1 x2 x3, Statement (.bara x0 x1 x2 x3) := by
  intros; refine ⟨?_, ?_, fun h => by simp only [Instr.isLong, reduceCtorEq] at h, rfl, rfl, rfl, rfl⟩ <;>
    simp only [encode, encL, encSc, encMat, encMode, put, putb] <;> omega
theorem barw : ∀ x0 x1 x2, Statement (.barw x0 x1 x2) := by
  intros; refine ⟨?_, ?_, fun h => by simp only [Instr.isLong, reduceCtorEq] at h, rfl, rfl, rfl, rfl⟩ <;>
    simp only [encode, encL, encSc, encMat, encMode, put, putb] <;> omega
theorem engineWrite : ∀ x0 x1 x2, Statement (.engineWrite x0 x1 x2) := by
  intros; exact ⟨Nat.two_pow_pos 32, Nat.two_pow_pos 32, fun _ => rfl, rfl, rfl, rfl, rfl⟩
theorem commandComplete : ∀ x0, Statement (.commandComplete x0) := by
  intros; exact ⟨Nat.two_pow_pos 32, Nat.two_pow_pos 32, fun _ => rfl, rfl, rfl, rfl, rfl⟩
theorem thatchAdmission : ∀ x0, Statement (.thatchAdmission x0) := by
  intros; exact ⟨Nat.two_pow_pos 32, Nat.two_pow_pos 32, fun _ => rfl, rfl, rfl, rfl, rfl⟩
theorem groupDeadline : ∀ x0, Statement (.groupDeadline x0) := by
  intros; exact ⟨Nat.two_pow_pos 32, Nat.two_pow_pos 32, fun _ => rfl, rfl, rfl, rfl, rfl⟩
theorem matrixIssue : ∀ x0, Statement (.matrixIssue x0) := by
  intros; exact ⟨Nat.two_pow_pos 32, Nat.two_pow_pos 32, fun _ => rfl, rfl, rfl, rfl, rfl⟩
theorem issueEnd : ∀ x0, Statement (.issueEnd x0) := by
  intros; exact ⟨Nat.two_pow_pos 32, Nat.two_pow_pos 32, fun _ => rfl, rfl, rfl, rfl, rfl⟩
theorem stealRound : ∀ x0, Statement (.stealRound x0) := by
  intros; exact ⟨Nat.two_pow_pos 32, Nat.two_pow_pos 32, fun _ => rfl, rfl, rfl, rfl, rfl⟩
theorem continuationResume : ∀ x0, Statement (.continuationResume x0) := by
  intros; exact ⟨Nat.two_pow_pos 32, Nat.two_pow_pos 32, fun _ => rfl, rfl, rfl, rfl, rfl⟩
theorem preemption : ∀ x0, Statement (.preemption x0) := by
  intros; exact ⟨Nat.two_pow_pos 32, Nat.two_pow_pos 32, fun _ => rfl, rfl, rfl, rfl, rfl⟩
theorem migration : ∀ x0 x1, Statement (.migration x0 x1) := by
  intros; exact ⟨Nat.two_pow_pos 32, Nat.two_pow_pos 32, fun _ => rfl, rfl, rfl, rfl, rfl⟩
theorem resumption : ∀ x0 x1 x2, Statement (.resumption x0 x1 x2) := by
  intros; exact ⟨Nat.two_pow_pos 32, Nat.two_pow_pos 32, fun _ => rfl, rfl, rfl, rfl, rfl⟩
theorem pendingSlot : ∀ x0 x1, Statement (.pendingSlot x0 x1) := by
  intros; exact ⟨Nat.two_pow_pos 32, Nat.two_pow_pos 32, fun _ => rfl, rfl, rfl, rfl, rfl⟩
theorem registerLineFill : ∀ x0 x1 x2 x3, Statement (.registerLineFill x0 x1 x2 x3) := by
  intros; exact ⟨Nat.two_pow_pos 32, Nat.two_pow_pos 32, fun _ => rfl, rfl, rfl, rfl, rfl⟩
theorem watchdogStop : ∀ x0, Statement (.watchdogStop x0) := by
  intros; exact ⟨Nat.two_pow_pos 32, Nat.two_pow_pos 32, fun _ => rfl, rfl, rfl, rfl, rfl⟩
theorem watchdogRecord : ∀ x0, Statement (.watchdogRecord x0) := by
  intros; exact ⟨Nat.two_pow_pos 32, Nat.two_pow_pos 32, fun _ => rfl, rfl, rfl, rfl, rfl⟩
theorem tokenInjection : Statement .tokenInjection := by
  intros; exact ⟨Nat.two_pow_pos 32, Nat.two_pow_pos 32, fun _ => rfl, rfl, rfl, rfl, rfl⟩
theorem stallEnd : ∀ x0, Statement (.stallEnd x0) := by
  intros; exact ⟨Nat.two_pow_pos 32, Nat.two_pow_pos 32, fun _ => rfl, rfl, rfl, rfl, rfl⟩
theorem bulkWr : ∀ x0, Statement (.bulkWr x0) := by
  intros; exact ⟨Nat.two_pow_pos 32, Nat.two_pow_pos 32, fun _ => rfl, rfl, rfl, rfl, rfl⟩
theorem bulkRd : ∀ x0, Statement (.bulkRd x0) := by
  intros; exact ⟨Nat.two_pow_pos 32, Nat.two_pow_pos 32, fun _ => rfl, rfl, rfl, rfl, rfl⟩
theorem flag : ∀ x0, Statement (.flag x0) := by
  intros; exact ⟨Nat.two_pow_pos 32, Nat.two_pow_pos 32, fun _ => rfl, rfl, rfl, rfl, rfl⟩
theorem ord : ∀ x0, Statement (.ord x0) := by
  intros; exact ⟨Nat.two_pow_pos 32, Nat.two_pow_pos 32, fun _ => rfl, rfl, rfl, rfl, rfl⟩
theorem syncClass : ∀ x0, Statement (.syncClass x0) := by
  intros; exact ⟨Nat.two_pow_pos 32, Nat.two_pow_pos 32, fun _ => rfl, rfl, rfl, rfl, rfl⟩
theorem don : ∀ x0, Statement (.don x0) := by
  intros; exact ⟨Nat.two_pow_pos 32, Nat.two_pow_pos 32, fun _ => rfl, rfl, rfl, rfl, rfl⟩
theorem peerAnswer : ∀ x0 x1, Statement (.peerAnswer x0 x1) := by
  intros; exact ⟨Nat.two_pow_pos 32, Nat.two_pow_pos 32, fun _ => rfl, rfl, rfl, rfl, rfl⟩
theorem discardedPacket : ∀ x0, Statement (.discardedPacket x0) := by
  intros; exact ⟨Nat.two_pow_pos 32, Nat.two_pow_pos 32, fun _ => rfl, rfl, rfl, rfl, rfl⟩
theorem remoteTimeout : ∀ x0, Statement (.remoteTimeout x0) := by
  intros; exact ⟨Nat.two_pow_pos 32, Nat.two_pow_pos 32, fun _ => rfl, rfl, rfl, rfl, rfl⟩
theorem lineEviction : ∀ x0 x1, Statement (.lineEviction x0 x1) := by
  intros; exact ⟨Nat.two_pow_pos 32, Nat.two_pow_pos 32, fun _ => rfl, rfl, rfl, rfl, rfl⟩
theorem snoop : ∀ x0 x1, Statement (.snoop x0 x1) := by
  intros; exact ⟨Nat.two_pow_pos 32, Nat.two_pow_pos 32, fun _ => rfl, rfl, rfl, rfl, rfl⟩
theorem flitReplay : ∀ x0, Statement (.flitReplay x0) := by
  intros; exact ⟨Nat.two_pow_pos 32, Nat.two_pow_pos 32, fun _ => rfl, rfl, rfl, rfl, rfl⟩
theorem replayExhausted : ∀ x0 x1 x2 x3 x4, Statement (.replayExhausted x0 x1 x2 x3 x4) := by
  intros; exact ⟨Nat.two_pow_pos 32, Nat.two_pow_pos 32, fun _ => rfl, rfl, rfl, rfl, rfl⟩
theorem laneGroupMapout : ∀ x0, Statement (.laneGroupMapout x0) := by
  intros; exact ⟨Nat.two_pow_pos 32, Nat.two_pow_pos 32, fun _ => rfl, rfl, rfl, rfl, rfl⟩
theorem recoveryTimeout : ∀ x0 x1, Statement (.recoveryTimeout x0 x1) := by
  intros; exact ⟨Nat.two_pow_pos 32, Nat.two_pow_pos 32, fun _ => rfl, rfl, rfl, rfl, rfl⟩
theorem patrolScrub : ∀ x0 x1, Statement (.patrolScrub x0 x1) := by
  intros; exact ⟨Nat.two_pow_pos 32, Nat.two_pow_pos 32, fun _ => rfl, rfl, rfl, rfl, rfl⟩
theorem mapOut : ∀ x0, Statement (.mapOut x0) := by
  intros; exact ⟨Nat.two_pow_pos 32, Nat.two_pow_pos 32, fun _ => rfl, rfl, rfl, rfl, rfl⟩
theorem mirrorRestore : ∀ x0 x1, Statement (.mirrorRestore x0 x1) := by
  intros; exact ⟨Nat.two_pow_pos 32, Nat.two_pow_pos 32, fun _ => rfl, rfl, rfl, rfl, rfl⟩
theorem lockstepMismatch : Statement .lockstepMismatch := by
  intros; exact ⟨Nat.two_pow_pos 32, Nat.two_pow_pos 32, fun _ => rfl, rfl, rfl, rfl, rfl⟩
theorem flashing : Statement .flashing := by
  intros; exact ⟨Nat.two_pow_pos 32, Nat.two_pow_pos 32, fun _ => rfl, rfl, rfl, rfl, rfl⟩
theorem warningWithdrawn : Statement .warningWithdrawn := by
  intros; exact ⟨Nat.two_pow_pos 32, Nat.two_pow_pos 32, fun _ => rfl, rfl, rfl, rfl, rfl⟩
theorem supplyReturn : Statement .supplyReturn := by
  intros; exact ⟨Nat.two_pow_pos 32, Nat.two_pow_pos 32, fun _ => rfl, rfl, rfl, rfl, rfl⟩
theorem auxRailExpiry : Statement .auxRailExpiry := by
  intros; exact ⟨Nat.two_pow_pos 32, Nat.two_pow_pos 32, fun _ => rfl, rfl, rfl, rfl, rfl⟩
theorem boot : Statement .boot := by
  intros; exact ⟨Nat.two_pow_pos 32, Nat.two_pow_pos 32, fun _ => rfl, rfl, rfl, rfl, rfl⟩
theorem create : ∀ x0 x1, Statement (.create x0 x1) := by
  intros; exact ⟨Nat.two_pow_pos 32, Nat.two_pow_pos 32, fun _ => rfl, rfl, rfl, rfl, rfl⟩
theorem define : ∀ x0 x1 x2 x3, Statement (.define x0 x1 x2 x3) := by
  intros; exact ⟨Nat.two_pow_pos 32, Nat.two_pow_pos 32, fun _ => rfl, rfl, rfl, rfl, rfl⟩
theorem load : ∀ x0 x1 x2, Statement (.load x0 x1 x2) := by
  intros; exact ⟨Nat.two_pow_pos 32, Nat.two_pow_pos 32, fun _ => rfl, rfl, rfl, rfl, rfl⟩
theorem launch : ∀ x0 x1, Statement (.launch x0 x1) := by
  intros; exact ⟨Nat.two_pow_pos 32, Nat.two_pow_pos 32, fun _ => rfl, rfl, rfl, rfl, rfl⟩
theorem importPeer : ∀ x0 x1, Statement (.importPeer x0 x1) := by
  intros; exact ⟨Nat.two_pow_pos 32, Nat.two_pow_pos 32, fun _ => rfl, rfl, rfl, rfl, rfl⟩
theorem donsetup : ∀ x0 x1, Statement (.donsetup x0 x1) := by
  intros; exact ⟨Nat.two_pow_pos 32, Nat.two_pow_pos 32, fun _ => rfl, rfl, rfl, rfl, rfl⟩
theorem query : ∀ x0 x1, Statement (.query x0 x1) := by
  intros; exact ⟨Nat.two_pow_pos 32, Nat.two_pow_pos 32, fun _ => rfl, rfl, rfl, rfl, rfl⟩
theorem attest : ∀ x0 x1, Statement (.attest x0 x1) := by
  intros; exact ⟨Nat.two_pow_pos 32, Nat.two_pow_pos 32, fun _ => rfl, rfl, rfl, rfl, rfl⟩
theorem resume : ∀ x0 x1 x2, Statement (.resume x0 x1 x2) := by
  intros; exact ⟨Nat.two_pow_pos 32, Nat.two_pow_pos 32, fun _ => rfl, rfl, rfl, rfl, rfl⟩
theorem endCtx : ∀ x0, Statement (.endCtx x0) := by
  intros; exact ⟨Nat.two_pow_pos 32, Nat.two_pow_pos 32, fun _ => rfl, rfl, rfl, rfl, rfl⟩
theorem partition : ∀ x0 x1, Statement (.partition x0 x1) := by
  intros; exact ⟨Nat.two_pow_pos 32, Nat.two_pow_pos 32, fun _ => rfl, rfl, rfl, rfl, rfl⟩
theorem timeout : ∀ x0 x1 x2, Statement (.timeout x0 x1 x2) := by
  intros; exact ⟨Nat.two_pow_pos 32, Nat.two_pow_pos 32, fun _ => rfl, rfl, rfl, rfl, rfl⟩
theorem budget : ∀ x0 x1 x2 x3 x4, Statement (.budget x0 x1 x2 x3 x4) := by
  intros; exact ⟨Nat.two_pow_pos 32, Nat.two_pow_pos 32, fun _ => rfl, rfl, rfl, rfl, rfl⟩
theorem clock : ∀ x0 x1 x2 x3, Statement (.clock x0 x1 x2 x3) := by
  intros; exact ⟨Nat.two_pow_pos 32, Nat.two_pow_pos 32, fun _ => rfl, rfl, rfl, rfl, rfl⟩
theorem diestate : ∀ x0 x1 x2, Statement (.diestate x0 x1 x2) := by
  intros; exact ⟨Nat.two_pow_pos 32, Nat.two_pow_pos 32, fun _ => rfl, rfl, rfl, rfl, rfl⟩
theorem port : ∀ x0 x1 x2, Statement (.port x0 x1 x2) := by
  intros; exact ⟨Nat.two_pow_pos 32, Nat.two_pow_pos 32, fun _ => rfl, rfl, rfl, rfl, rfl⟩
theorem svcEnd : ∀ x0, Statement (.svcEnd x0) := by
  intros; exact ⟨Nat.two_pow_pos 32, Nat.two_pow_pos 32, fun _ => rfl, rfl, rfl, rfl, rfl⟩
theorem report : ∀ x0, Statement (.report x0) := by
  intros; exact ⟨Nat.two_pow_pos 32, Nat.two_pow_pos 32, fun _ => rfl, rfl, rfl, rfl, rfl⟩
theorem refill : ∀ x0 x1, Statement (.refill x0 x1) := by
  intros; exact ⟨Nat.two_pow_pos 32, Nat.two_pow_pos 32, fun _ => rfl, rfl, rfl, rfl, rfl⟩
theorem powerCap : ∀ x0, Statement (.powerCap x0) := by
  intros; exact ⟨Nat.two_pow_pos 32, Nat.two_pow_pos 32, fun _ => rfl, rfl, rfl, rfl, rfl⟩
theorem illegalInstruction : ∀ x0 x1, Statement (.illegalInstruction x0 x1) := by
  intros; exact ⟨Nat.two_pow_pos 32, Nat.two_pow_pos 32, fun _ => rfl, rfl, rfl, rfl, rfl⟩
theorem fetchFault : ∀ x0 x1, Statement (.fetchFault x0 x1) := by
  intros; exact ⟨Nat.two_pow_pos 32, Nat.two_pow_pos 32, fun _ => rfl, rfl, rfl, rfl, rfl⟩
theorem tickEdge : Statement .tickEdge := by
  intros; exact ⟨Nat.two_pow_pos 32, Nat.two_pow_pos 32, fun _ => rfl, rfl, rfl, rfl, rfl⟩
theorem holdUpEnd : Statement .holdUpEnd := by
  intros; exact ⟨Nat.two_pow_pos 32, Nat.two_pow_pos 32, fun _ => rfl, rfl, rfl, rfl, rfl⟩
theorem objectRelocation : ∀ x0 x1 x2, Statement (.objectRelocation x0 x1 x2) := by
  intros; exact ⟨Nat.two_pow_pos 32, Nat.two_pow_pos 32, fun _ => rfl, rfl, rfl, rfl, rfl⟩
theorem tileFree : ∀ x0 x1 x2 x3, Statement (.tileFree x0 x1 x2 x3) := by
  intros; exact ⟨Nat.two_pow_pos 32, Nat.two_pow_pos 32, fun _ => rfl, rfl, rfl, rfl, rfl⟩
theorem residencyChange : ∀ x0 x1 x2 x3, Statement (.residencyChange x0 x1 x2 x3) := by
  intros; exact ⟨Nat.two_pow_pos 32, Nat.two_pow_pos 32, fun _ => rfl, rfl, rfl, rfl, rfl⟩

end Sys2Proof.Laws.Words
end

