-- ==== Sys2Proof/Laws/Stores.lean ====
section
/-! SUPPORT. What a store can do: the bytes it writes, and what it leaves alone. -/

namespace Sys2Proof.Machine

theorem ringN_pos (l : ORec) : 0 < l.ringN := Nat.two_pow_pos _

theorem wf_ringSet {s : State} (h : Memory.wf s.mem = true) (b i v : Nat) : Memory.wf (ringSet s b i v).mem = true :=
  wf_memSetWord h _ _

theorem memGet_ringSet {s : State} (h : Memory.wf s.mem = true) (b i v : Nat) {a : Nat} (ha : a < b + 8 * i ∨ b + 8 * i + 8 ≤ a) :
    memGet (ringSet s b i v).mem a = memGet s.mem a :=
  memGet_memWrite_other _ h (by rw [natBytes_length]; omega)

theorem memGet_memSetWord_other {m : List Host.Cell} (h : Memory.wf m = true) (b : Nat) (x : Word) {a : Nat}
    (ha : a < b ∨ b + 8 ≤ a) : memGet (memSetWord m b x) a = memGet m a :=
  memGet_memWrite_other _ h (by rw [natBytes_length]; omega)

/-- What one addition to a log does: nothing, a longer last record, a new record, or a count of the lost (R220). -/
theorem logAdd_cases (s : State) (c : ClusterId) (l : ORec) (n : BitVec 18) (o : Nat) :
    logAdd s c l n o = s ∨
    (∃ i x, i < l.ringN ∧ logAdd s c l n o = { s with mem := memSetWord s.mem (l.place + 64 + 16 * i + 8) x }) ∨
    (∃ i x y v w, i < l.ringN ∧ logAdd s c l n o =
      { s with mem := memSetWord (memSetWord (memSetWord (memSetWord s.mem (l.place + 64 + 16 * i) x)
        (l.place + 64 + 16 * i + 8) y) (l.place + 8 * 0) v) (l.place + 8 * 2) w }) ∨
    (∃ v, logAdd s c l n o = { s with mem := memSetWord s.mem (l.place + 8 * 3) v }) := by
  have hs : ∀ i, i % l.ringN < l.ringN := fun i => Nat.mod_lt i (ringN_pos l)
  unfold logAdd
  simp only
  split
  · exact .inl rfl
  · split
    · exact .inr (.inl ⟨_, _, hs _, rfl⟩)
    · split
      · refine .inr (.inr (.inl ⟨ringW s l.place 0 % l.ringN, logDw0 n o,
          logDw1 o (logicalDie s (dieOfCluster c)) (c.toNat % 32) 64, W (ringW s l.place 0 + 1),
          W (max (ringW s l.place 2) (ringW s l.place 0 + 1)), hs _, ?_⟩))
        simp only [ringSet]
      · exact .inr (.inr (.inr ⟨W (ringW s l.place 3 + 1), by simp only [ringSet]⟩))

theorem wf_logAdd {s : State} (h : Memory.wf s.mem = true) (c : ClusterId) (l : ORec) (n : BitVec 18) (o : Nat) :
    Memory.wf (logAdd s c l n o).mem = true := by
  rcases logAdd_cases s c l n o with e | ⟨i, x, _, e⟩ | ⟨i, x, y, v, w, _, e⟩ | ⟨v, e⟩
  · rw [e]; exact h
  · have k := wf_memSetWord h (l.place + 64 + 16 * i + 8) x
    rw [e]; dsimp only; exact k
  · have k1 := wf_memSetWord h (l.place + 64 + 16 * i) x
    have k2 := wf_memSetWord k1 (l.place + 64 + 16 * i + 8) y
    have k3 := wf_memSetWord k2 (l.place + 8 * 0) v
    have k4 := wf_memSetWord k3 (l.place + 8 * 2) w
    rw [e]; dsimp only; exact k4
  · have k := wf_memSetWord h (l.place + 8 * 3) v
    rw [e]; dsimp only; exact k

/-- An addition to a log writes inside its ring (R219, R220). -/
theorem memGet_logAdd {s : State} (h : Memory.wf s.mem = true) (c : ClusterId) (l : ORec) (n : BitVec 18) (o : Nat) {a : Nat}
    (ha : ¬ (l.place ≤ a ∧ a < l.place + 64 + 16 * l.ringN)) : memGet (logAdd s c l n o).mem a = memGet s.mem a := by
  rcases logAdd_cases s c l n o with e | ⟨i, x, hi, e⟩ | ⟨i, x, y, v, w, hi, e⟩ | ⟨v, e⟩
  · rw [e]
  · have k := memGet_memSetWord_other h (l.place + 64 + 16 * i + 8) x (a := a) (by omega)
    rw [e]; dsimp only; exact k
  · have h1 := wf_memSetWord h (l.place + 64 + 16 * i) x
    have h2 := wf_memSetWord h1 (l.place + 64 + 16 * i + 8) y
    have h3 := wf_memSetWord h2 (l.place + 8 * 0) v
    have k1 := memGet_memSetWord_other h (l.place + 64 + 16 * i) x (a := a) (by omega)
    have k2 := memGet_memSetWord_other h1 (l.place + 64 + 16 * i + 8) y (a := a) (by omega)
    have k3 := memGet_memSetWord_other h2 (l.place + 8 * 0) v (a := a) (by omega)
    have k4 := memGet_memSetWord_other h3 (l.place + 8 * 2) w (a := a) (by omega)
    rw [e]; dsimp only; exact k4.trans (k3.trans (k2.trans k1))
  · have k := memGet_memSetWord_other h (l.place + 8 * 3) v (a := a) (by omega)
    rw [e]; dsimp only; exact k

/-- An addition to a log changes memory alone. -/
theorem logAdd_frame (s : State) (c : ClusterId) (l : ORec) (n : BitVec 18) (o : Nat) :
    ∃ m, logAdd s c l n o = { s with mem := m } := by
  rcases logAdd_cases s c l n o with e | ⟨_, _, _, e⟩ | ⟨_, _, _, _, _, _, e⟩ | ⟨_, e⟩
  · exact ⟨s.mem, e⟩
  all_goals exact ⟨_, e⟩

/-! One software-coherent piece. -/

/-- The line a cluster has after a fill (R217). -/
theorem line_fillLine (s : State) (c : ClusterId) (t : Tag) (a : Nat) :
    ∃ l, (clusterGet (fillLine s c t a) c).line a = some l ∧ l.data = lineBytes s c a ∧ l.mask = dirtyMask s c a := by
  rcases h : (clusterGet s c).line a with _ | l
  · rcases h2 : l2Get s (dieOfCluster c) a with _ | y
    · rw [fillLine_home h h2]
      refine ⟨⟨a, memRead s.mem a 64, 0, t, 0, s.poison.contains a⟩, ?_, ?_, ?_⟩
      · show (clusterGet (clusterSet _ c _) c).line a = _
        rw [clusterGet_clusterSet, if_pos rfl, line_l1Set, if_pos rfl]
      · simp [lineBytes, h, h2]
      · simp [dirtyMask, h]
    · rw [fillLine_l2 h h2]
      refine ⟨⟨a, y.data, 0, t, 0, y.bad⟩, ?_, ?_, ?_⟩
      · show (clusterGet (clusterSet _ c _) c).line a = _
        rw [clusterGet_clusterSet, if_pos rfl, line_l1Set, if_pos rfl]
      · simp [lineBytes, h, h2]
      · simp [dirtyMask, h]
  · rw [fillLine_hit h]
    exact ⟨l, h, by simp [lineBytes, h], by simp [dirtyMask, h]⟩

/-- A fill leaves every other line of every cluster, and every record cache. -/
theorem fillLine_lines (s : State) (c : ClusterId) (t : Tag) (a : Nat) (d : ClusterId) :
    (clusterGet (fillLine s c t a) d).recs = (clusterGet s d).recs ∧
      ∀ b, ¬ (d = c ∧ b = a) → (clusterGet (fillLine s c t a) d).line b = (clusterGet s d).line b := by
  have key : ∀ (u : State) (x : L1Line), u.clusters = s.clusters → x.addr = a →
      (clusterGet (clusterSet u c { clusterGet s c with l1 := l1Set x (clusterGet s c).l1 }) d).recs = (clusterGet s d).recs ∧
      ∀ b, ¬ (d = c ∧ b = a) → (clusterGet (clusterSet u c { clusterGet s c with l1 := l1Set x (clusterGet s c).l1 }) d).line b
        = (clusterGet s d).line b := by
    intro u x hu hx
    have hg : clusterGet u d = clusterGet s d := by unfold clusterGet; rw [hu]
    rw [clusterGet_clusterSet]
    by_cases hd : d = c
    · rw [if_pos hd]
      subst hd
      refine And.intro rfl fun b hb => ?_
      rw [line_l1Set, hx]
      exact if_neg fun e => hb ⟨rfl, e⟩
    · rw [if_neg hd, hg]
      exact And.intro rfl fun _ _ => rfl
  rcases h : (clusterGet s c).line a with _ | l
  · rcases h2 : l2Get s (dieOfCluster c) a with _ | y
    · rw [fillLine_home h h2]
      exact key { s with l2 := (dieOfCluster c, ⟨a, memRead s.mem a 64, 0, s.poison.contains a⟩) :: s.l2 }
        ⟨a, memRead s.mem a 64, 0, t, 0, s.poison.contains a⟩ rfl rfl
    · rw [fillLine_l2 h h2]; exact key s ⟨a, y.data, 0, t, 0, y.bad⟩ rfl rfl
  · rw [fillLine_hit h]
    exact And.intro rfl fun _ _ => rfl

/-- What a store may change between its start and its last piece, beside bytes. -/
structure PieceStep (s t : State) : Prop where
  cur : t.cur = s.cur
  core : t.core = s.core
  others : t.others = s.others
  empty : t.empty = s.empty
  removals : t.removals = s.removals
  out : t.out = s.out
  ckpt : t.ckpt = s.ckpt
  turns : t.turns = s.turns
  pkg : t.pkg = s.pkg
  svc : t.svc = { s.svc with accounts := t.svc.accounts }
  recs : ∀ d, (clusterGet t d).recs = (clusterGet s d).recs

theorem PieceStep.trans {s t u : State} (h : PieceStep s t) (k : PieceStep t u) : PieceStep s u where
  cur := k.cur.trans h.cur
  core := k.core.trans h.core
  others := k.others.trans h.others
  empty := k.empty.trans h.empty
  removals := k.removals.trans h.removals
  out := k.out.trans h.out
  ckpt := k.ckpt.trans h.ckpt
  turns := k.turns.trans h.turns
  pkg := k.pkg.trans h.pkg
  svc := by rw [k.svc, h.svc]
  recs := fun d => (k.recs d).trans (h.recs d)

theorem fillLine_step (s : State) (c : ClusterId) (t : Tag) (a : Nat) : PieceStep s (fillLine s c t a) := by
  have hr := fun d => (fillLine_lines s c t a d).1
  rcases h : (clusterGet s c).line a with _ | l
  · rcases h2 : l2Get s (dieOfCluster c) a with _ | y
    · rw [fillLine_home h h2] at hr ⊢
      exact ⟨rfl, rfl, rfl, rfl, rfl, rfl, rfl, rfl, rfl, rfl, hr⟩
    · rw [fillLine_l2 h h2] at hr ⊢
      exact ⟨rfl, rfl, rfl, rfl, rfl, rfl, rfl, rfl, rfl, rfl, hr⟩
  · rw [fillLine_hit h] at hr ⊢
    exact ⟨rfl, rfl, rfl, rfl, rfl, rfl, rfl, rfl, rfl, rfl, hr⟩

theorem fillLine_mem (s : State) (c : ClusterId) (t : Tag) (a : Nat) : (fillLine s c t a).mem = s.mem ∧
    (fillLine s c t a).poison = s.poison := by
  unfold fillLine
  split
  · exact ⟨rfl, rfl⟩
  · simp only [charge_mem, charge_poison, clusterSet_mem, clusterSet_poison]
    constructor <;> split <;> rfl

/-- A store to a software-coherent piece: its line, the log, and nothing else. -/
theorem scWrite_spec {s : State} (hm : Memory.wf s.mem = true) (g : Agent) (la : Option LogAt) (p : Piece) (bs : List Byte) :
    PieceStep s (scWrite s g la p bs) ∧ Memory.wf (scWrite s g la p bs).mem = true ∧
    (scWrite s g la p bs).poison = s.poison ∧
    (∀ d a, ¬ (d = clusterOf g.core ∧ a = lineOf p.key) →
      (clusterGet (scWrite s g la p bs) d).line a = (clusterGet s d).line a) ∧
    (∃ l, (clusterGet (scWrite s g la p bs) (clusterOf g.core)).line (lineOf p.key) = some l ∧ l.tag = g.tag ∧
      l.data = (lineBytes s (clusterOf g.core) (lineOf p.key)).take (p.key % 64) ++ bs ++
        (lineBytes s (clusterOf g.core) (lineOf p.key)).drop (p.key % 64 + bs.length) ∧
      l.mask = dirtyMask s (clusterOf g.core) (lineOf p.key) ||| (BitVec.ofNat 64 (2 ^ bs.length - 1) <<< (p.key % 64))) ∧
    (∀ a, (∀ x lg, la = some x → logRing (fillLine s (clusterOf g.core) g.tag (lineOf p.key)) g x.record = some lg →
        ¬ (lg.place ≤ a ∧ a < lg.place + 64 + 16 * lg.ringN)) →
      memGet (scWrite s g la p bs).mem a = memGet s.mem a) := by
  obtain ⟨l, hl, hd, hk⟩ := line_fillLine s (clusterOf g.core) g.tag (lineOf p.key)
  have hf := fillLine_step s (clusterOf g.core) g.tag (lineOf p.key)
  have hlines := fun d => (fillLine_lines s (clusterOf g.core) g.tag (lineOf p.key) d).2
  obtain ⟨hmem, hpoi⟩ := fillLine_mem s (clusterOf g.core) g.tag (lineOf p.key)
  have hw : Memory.wf (fillLine s (clusterOf g.core) g.tag (lineOf p.key)).mem = true := by rw [hmem]; exact hm
  have hlog : ∃ m, noteStore (fillLine s (clusterOf g.core) g.tag (lineOf p.key)) g la l.mask
      = { fillLine s (clusterOf g.core) g.tag (lineOf p.key) with mem := m } ∧ Memory.wf m = true ∧
        ∀ a, (∀ x lg, la = some x → logRing (fillLine s (clusterOf g.core) g.tag (lineOf p.key)) g x.record = some lg →
          ¬ (lg.place ≤ a ∧ a < lg.place + 64 + 16 * lg.ringN)) → memGet m a = memGet s.mem a := by
    unfold noteStore
    rcases la with _ | x
    · exact ⟨_, rfl, hw, fun a _ => congrArg (memGet · a) hmem⟩
    · simp only
      split
      · exact ⟨_, rfl, hw, fun a _ => congrArg (memGet · a) hmem⟩
      · split
        · exact ⟨_, rfl, hw, fun a _ => congrArg (memGet · a) hmem⟩
        · rename_i lg hlg
          obtain ⟨m, e⟩ := logAdd_frame (fillLine s (clusterOf g.core) g.tag (lineOf p.key)) (clusterOf g.core) lg x.obj (x.off / 64 * 64)
          refine ⟨m, e, ?_, fun a ha => ?_⟩
          · have := wf_logAdd hw (clusterOf g.core) lg x.obj (x.off / 64 * 64); rw [e] at this; exact this
          · have := memGet_logAdd hw (clusterOf g.core) lg x.obj (x.off / 64 * 64) (ha x lg rfl hlg)
            rw [e] at this
            rw [← hmem]; exact this
  obtain ⟨m, he, hwm, hma⟩ := hlog
  have hsc : scWrite s g la p bs =
      clusterSet { fillLine s (clusterOf g.core) g.tag (lineOf p.key) with mem := m } (clusterOf g.core)
        { clusterGet (fillLine s (clusterOf g.core) g.tag (lineOf p.key)) (clusterOf g.core) with
          l1 := l1Set ⟨lineOf p.key, l.data.take (p.key % 64) ++ bs ++ l.data.drop (p.key % 64 + bs.length),
            l.mask ||| (BitVec.ofNat 64 (2 ^ bs.length - 1) <<< (p.key % 64)), g.tag, coreNo g.core, l.bad⟩
            (clusterGet (fillLine s (clusterOf g.core) g.tag (lineOf p.key)) (clusterOf g.core)).l1 } := by
    unfold scWrite
    simp only [hl]
    rw [he]
    rfl
  rw [hsc]
  refine ⟨⟨hf.cur, hf.core, hf.others, hf.empty, hf.removals, hf.out, hf.ckpt, hf.turns, hf.pkg, hf.svc, fun d => ?_⟩,
    hwm, hpoi, fun d a hda => ?_, ⟨_, by rw [clusterGet_clusterSet, if_pos rfl, line_l1Set, if_pos rfl], rfl,
      by simp only [hd], by simp only [hk]⟩, hma⟩
  · rw [← hf.recs d, clusterGet_clusterSet]
    by_cases h : d = clusterOf g.core
    · subst h; simp
    · simp only [if_neg h]; rfl
  · rw [← hlines d a hda, clusterGet_clusterSet]
    by_cases h : d = clusterOf g.core
    · subst h
      simp only [true_and] at hda
      rw [if_pos rfl, line_l1Set, if_neg hda]
    · simp only [if_neg h]; rfl

/-! Any piece. -/

theorem mem_clearPoison {p : List Nat} {a n u : Nat} (h : u ∈ clearPoison p a n) : u ∈ p := (List.mem_filter.mp h).1

theorem markDirty_frame (s : State) (k : CoreId) (t : Tag) (a n : Nat) :
    ∃ dd ac, markDirty s k t a n = { s with dirty := dd, svc := { s.svc with accounts := ac } } := by
  unfold markDirty chargeFills
  split
  · exact ⟨_, s.svc.accounts, rfl⟩
  · exact ⟨_, _, rfl⟩

/-- A store to a piece of storage of one copy: its bytes, the poison that it overwrites, and notes beside them. -/
theorem pieceWrite_home (s : State) (g : Agent) (la : Option LogAt) {p : Piece} (bs : List Byte) (hk : p.kind ≠ .sc) :
    ∃ dd sb ac, pieceWrite s g la p bs = { s with
      mem := memWrite s.mem p.key bs
      poison := clearPoison s.poison p.key bs.length
      dirty := dd
      sramBy := sb
      svc := { s.svc with accounts := ac } } := by
  have hd := fun u : State => markDirty_frame u g.core g.tag p.key bs.length
  unfold pieceWrite
  rcases hp : p.kind with _ | _ | _ | _ | c | _ | _
  · exact ⟨s.dirty, s.sramBy, s.svc.accounts, rfl⟩
  · exact ⟨s.dirty, _, s.svc.accounts, rfl⟩
  · obtain ⟨dd, ac, e⟩ := hd { s with mem := memWrite s.mem p.key bs, poison := clearPoison s.poison p.key bs.length }
    exact ⟨dd, s.sramBy, ac, e⟩
  · exact absurd hp hk
  · obtain ⟨dd, ac, e⟩ := hd { s with mem := memWrite s.mem p.key bs, poison := clearPoison s.poison p.key bs.length }
    exact ⟨dd, s.sramBy, ac, e⟩
  · exact ⟨s.dirty, s.sramBy, s.svc.accounts, rfl⟩
  · exact ⟨s.dirty, s.sramBy, s.svc.accounts, rfl⟩

/-- One piece of a store. -/
theorem pieceWrite_spec {s : State} (hm : Memory.wf s.mem = true) (g : Agent) (la : Option LogAt) (p : Piece) (bs : List Byte) :
    PieceStep s (pieceWrite s g la p bs) ∧ Memory.wf (pieceWrite s g la p bs).mem = true ∧
    (∀ u, u ∈ (pieceWrite s g la p bs).poison → u ∈ s.poison) ∧
    (∀ d a, ¬ (d = clusterOf g.core ∧ p.kind = .sc ∧ a = lineOf p.key) →
      (clusterGet (pieceWrite s g la p bs) d).line a = (clusterGet s d).line a) ∧
    (∀ a, ¬ (p.kind ≠ .sc ∧ p.key ≤ a ∧ a < p.key + bs.length) →
      (∀ x lg, p.kind = .sc → la = some x → logRing (fillLine s (clusterOf g.core) g.tag (lineOf p.key)) g x.record = some lg →
        ¬ (lg.place ≤ a ∧ a < lg.place + 64 + 16 * lg.ringN)) →
      memGet (pieceWrite s g la p bs).mem a = memGet s.mem a) := by
  by_cases hk : p.kind = .sc
  · obtain ⟨h1, h2, h3, h4, _, h6⟩ := scWrite_spec hm g la p bs
    have e : pieceWrite s g la p bs = scWrite s g la p bs := by unfold pieceWrite; simp only [hk]
    rw [e]
    exact ⟨h1, h2, fun u hu => h3 ▸ hu, fun d a hda => h4 d a fun x => hda ⟨x.1, hk, x.2⟩,
      fun a _ ha => h6 a fun x lg hx hl => ha x lg hk hx hl⟩
  · obtain ⟨dd, sb, ac, e⟩ := pieceWrite_home s g la bs hk
    rw [e]
    exact ⟨⟨rfl, rfl, rfl, rfl, rfl, rfl, rfl, rfl, rfl, rfl, fun _ => rfl⟩, wf_memWrite bs _ hm,
      fun u hu => mem_clearPoison hu, fun _ _ _ => rfl,
      fun a ha _ => memGet_memWrite_other bs hm (by simp only [ne_eq, hk, not_false_eq_true, true_and, not_and] at ha; omega)⟩

theorem logRing_cached {s : State} {g : Agent} {r l : ORec}
    (h : cachedRecord s (clusterOf g.core) g.tag r.log = some l) {lg : ORec} (hl : logRing s g r = some lg) : lg = l := by
  unfold logRing findRecord at hl
  rw [h] at hl
  simp only at hl
  split at hl
  · cases hl
  · split at hl
    · cases hl; rfl
    · cases hl

/-- A whole store over its pieces: what it leaves alone (R70 to R72, R217 to R220). -/
theorem piecesWrite_spec (g : Agent) (x0 : Option ORec) : ∀ (ps : List Piece) (bs : List Byte) (s : State) (la : Option LogAt),
    Memory.wf s.mem = true → la.map (·.record) = x0 →
    PieceStep s (piecesWrite g la ps bs s) ∧ Memory.wf (piecesWrite g la ps bs s).mem = true ∧
    (∀ u, u ∈ (piecesWrite g la ps bs s).poison → u ∈ s.poison) ∧
    (∀ d a, ¬ (d = clusterOf g.core ∧ ∃ p ∈ ps, p.kind = .sc ∧ a = lineOf p.key) →
      (clusterGet (piecesWrite g la ps bs s) d).line a = (clusterGet s d).line a) ∧
    (∀ a, ¬ inPieces ps a →
      (∀ r, (∃ p ∈ ps, p.kind = .sc) → x0 = some r → r.logv = true →
        ∃ l, cachedRecord s (clusterOf g.core) g.tag r.log = some l ∧ ¬ (l.place ≤ a ∧ a < l.place + 64 + 16 * l.ringN)) →
      memGet (piecesWrite g la ps bs s).mem a = memGet s.mem a)
  | [], _, s, _, hm, _ =>
    ⟨⟨rfl, rfl, rfl, rfl, rfl, rfl, rfl, rfl, rfl, rfl, fun _ => rfl⟩, hm, fun _ h => h, fun _ _ _ => rfl, fun _ _ _ => rfl⟩
  | p :: ps, bs, s, la, hm, hx => by
    obtain ⟨h1, h2, h3, h4, h5⟩ := pieceWrite_spec hm g la p (bs.take p.len)
    obtain ⟨k1, k2, k3, k4, k5⟩ := piecesWrite_spec g x0 ps (bs.drop p.len) (pieceWrite s g la p (bs.take p.len))
      (la.map fun x => { x with off := x.off + p.len }) h2 (by rw [← hx]; cases la <;> rfl)
    refine ⟨h1.trans k1, k2, fun u hu => h3 u (k3 u hu), fun d a hda => ?_, fun a ha hl => ?_⟩
    · show (clusterGet (piecesWrite g _ ps _ _) d).line a = _
      rw [k4 d a fun x => hda ⟨x.1, by obtain ⟨q, hq, hq2⟩ := x.2; exact ⟨q, List.mem_cons_of_mem _ hq, hq2⟩⟩]
      exact h4 d a fun x => hda ⟨x.1, p, List.mem_cons_self, x.2⟩
    · show memGet (piecesWrite g _ ps _ _).mem a = _
      have hc : ∀ n, cachedRecord (pieceWrite s g la p (bs.take p.len)) (clusterOf g.core) g.tag n
          = cachedRecord s (clusterOf g.core) g.tag n := fun n => by unfold cachedRecord; rw [h1.recs]
      rw [k5 a (fun ⟨q, hq, hq2⟩ => ha ⟨q, List.mem_cons_of_mem _ hq, hq2⟩) fun r ⟨q, hq, hq2⟩ hr hv => by
        rw [hc]; exact hl r ⟨q, List.mem_cons_of_mem _ hq, hq2⟩ hr hv]
      refine h5 a (fun ⟨_, ha1, ha2⟩ => ha ⟨p, List.mem_cons_self, ha1, ?_⟩) fun x lg hk hxs hlg => ?_
      · rw [List.length_take] at ha2; omega
      · have hr : x0 = some x.record := by rw [← hx, hxs]; rfl
        have hv : x.record.logv = true := by
          rcases hv : x.record.logv with _ | _
          · unfold logRing at hlg
            rw [hv] at hlg
            cases hlg
          · rfl
        obtain ⟨l, hcl, hnot⟩ := hl x.record ⟨p, List.mem_cons_self, hk⟩ hr hv
        have : cachedRecord (fillLine s (clusterOf g.core) g.tag (lineOf p.key)) (clusterOf g.core) g.tag x.record.log = some l := by
          unfold cachedRecord; rw [(fillLine_lines s (clusterOf g.core) g.tag (lineOf p.key) _).1]; exact hcl
        rw [logRing_cached this hlg]
        exact hnot

/-- Noting translations and touching windows leave every line of every cluster. -/
theorem noteRecord_lines (g : Agent) (n : BitVec 18) (s : State) (c : ClusterId) (a : Nat) :
    (clusterGet (noteRecord g n s) c).line a = (clusterGet s c).line a := by
  unfold noteRecord
  split
  · rfl
  · simp only
    split
    · rfl
    · rw [clusterGet_clusterSet]
      by_cases h : c = clusterOf g.core
      · subst h; simp [Cluster.line]
      · simp [h]

theorem noteSubTile_caches (g : Agent) (n : BitVec 18) (r : ORec) (i : Nat) (s : State) :
    (noteSubTile g n r i s).clusters = s.clusters ∧ (noteSubTile g n r i s).l2 = s.l2 := by
  unfold noteSubTile
  split
  · exact ⟨rfl, rfl⟩
  · exact ⟨coreSet_clusters .., coreSet_l2 ..⟩

theorem foldl_caches {α : Type} {f : State → α → State} (h : ∀ u x, (f u x).clusters = u.clusters ∧ (f u x).l2 = u.l2) :
    ∀ (l : List α) (u : State), (l.foldl f u).clusters = u.clusters ∧ (l.foldl f u).l2 = u.l2
  | [], _ => ⟨rfl, rfl⟩
  | x :: l, u => ⟨(foldl_caches h l _).1.trans (h u x).1, (foldl_caches h l _).2.trans (h u x).2⟩

theorem noteTranslation_lines (g : Agent) (va : Word) (w : Nat) (s : State) (c : ClusterId) (a : Nat) :
    (clusterGet (noteTranslation g va w s) c).line a = (clusterGet s c).line a := by
  unfold noteTranslation
  simp only
  split
  · rfl
  · split
    · rfl
    · split
      · exact noteRecord_lines ..
      · unfold clusterGet
        rw [(foldl_caches (fun u j => noteSubTile_caches ..) _ _).1]
        exact noteRecord_lines ..

theorem debitAt_clusters (k : CoreId) (t : Tag) (c : Cost) (s : State) : (debitAt k t c s).clusters = s.clusters := by
  obtain ⟨b, p, a, h⟩ := debitAt_frame k t c s
  rw [h]; exact coreSet_clusters ..

theorem startWindow_clusters (k : CoreId) (s : State) (i : BitVec 2) : (startWindow k s i).clusters = s.clusters := by
  unfold startWindow
  simp only
  split
  · split
    · unfold enqueue chargeFills
      rw [debitAt_clusters]
      split <;> exact coreSet_clusters ..
    · rfl
  · rfl

theorem touchCore_clusters (ps : List Piece) (s : State) (k : CoreId) : (touchCore ps s k).clusters = s.clusters := by
  unfold touchCore
  generalize ([0, 1, 2, 3] : List (BitVec 2)) = l
  induction l generalizing s with
  | nil => rfl
  | cons i l ih =>
    rw [List.foldl_cons, ih]
    simp only
    split
    · rw [startWindow_clusters]; exact coreSet_clusters ..
    · rfl
theorem touch_clusters (s : State) (ps : List Piece) : (touch s ps).clusters = s.clusters := by
  unfold touch
  generalize (allCores s).map (·.1) = l
  induction l generalizing s with
  | nil => rfl
  | cons k l ih => rw [List.foldl_cons, ih, touchCore_clusters]

theorem coverUnit_line {ps : List Piece} {a : Nat} (h : coverUnit (ps.filter fun p => lineOf p.key == a) a = true) :
    ∃ p ∈ ps, a = lineOf p.key := by
  have h0 := List.all_eq_true.mp h 0 (List.mem_range.mpr (by unfold poisonSize; split <;> decide))
  obtain ⟨p, hp, _⟩ := List.any_eq_true.mp h0
  exact ⟨p, (List.mem_filter.mp hp).1, (eq_of_beq (List.mem_filter.mp hp).2).symm⟩

theorem find_map_bad (f : L1Line → Bool) (a : Nat) : ∀ l : List L1Line,
    ((l.map fun x => { x with bad := f x }).find? fun x => x.addr == a)
      = (l.find? fun x => x.addr == a).map fun x => { x with bad := f x }
  | [] => rfl
  | x :: l => by
    rw [List.map_cons, List.find?_cons, List.find?_cons, find_map_bad f a l]
    by_cases h : x.addr = a
    · simp [h]
    · simp [show (x.addr == a) = false by simpa using h]

/-- Clearing the poison of what a store has covered changes marks alone (R395). -/
theorem soundUnits_frame (c : ClusterId) (ps : List Piece) (s : State) :
    ∃ p cl, soundUnits c ps s = { s with poison := p, clusters := cl } := by
  unfold soundUnits
  simp only
  split
  · exact ⟨_, s.clusters, rfl⟩
  · exact ⟨_, _, rfl⟩

theorem soundUnits_poison (c : ClusterId) (ps : List Piece) (s : State) {u : Nat} (h : u ∈ (soundUnits c ps s).poison) :
    u ∈ s.poison := by
  unfold soundUnits at h
  simp only at h
  split at h <;> exact (List.mem_filter.mp h).1

/-- The line of an address in a cluster, after the marks of what a store has covered are cleared. -/
theorem soundUnits_line (c : ClusterId) (ps : List Piece) (s : State) (d : ClusterId) (a : Nat) :
    ∃ f : L1Line → Bool, (clusterGet (soundUnits c ps s) d).line a = ((clusterGet s d).line a).map fun x => { x with bad := f x } := by
  have hid : ∀ o : Option L1Line, o = o.map fun x => { x with bad := x.bad } := fun o => by cases o <;> rfl
  unfold soundUnits
  simp only
  split
  · exact ⟨(·.bad), hid _⟩
  · rw [clusterGet_clusterSet]
    by_cases h : d = c
    · subst h
      rw [if_pos rfl]
      exact ⟨_, find_map_bad _ a _⟩
    · rw [if_neg h]
      exact ⟨(·.bad), hid _⟩

theorem soundUnits_lines (c : ClusterId) (ps : List Piece) (s : State) (d : ClusterId) (a : Nat)
    (h : ¬ (d = c ∧ ∃ p ∈ ps, p.kind = .sc ∧ a = lineOf p.key)) :
    (clusterGet (soundUnits c ps s) d).line a = (clusterGet s d).line a := by
  unfold soundUnits
  simp only
  split
  · rfl
  · rw [clusterGet_clusterSet]
    by_cases hd : d = c
    · subst hd
      rw [if_pos rfl]
      unfold Cluster.line
      refine (find_map_bad _ a _).trans ?_
      show Option.map _ ((clusterGet s d).l1.find? fun x => x.addr == a) = (clusterGet s d).l1.find? fun x => x.addr == a
      rcases hf : (clusterGet s d).l1.find? fun x => x.addr == a with _ | x
      · rw [hf]; rfl
      · have hx : x.addr = a := eq_of_beq (List.find?_some (p := fun x : L1Line => x.addr == a) hf)
        have hn : coverUnit ((ps.filter fun p => p.kind == .sc).filter fun p => lineOf p.key == x.addr) x.addr = false := by
          refine Bool.eq_false_iff.mpr fun he => ?_
          obtain ⟨p, hp, hpa⟩ := coverUnit_line he
          exact h ⟨rfl, p, (List.mem_filter.mp hp).1, eq_of_beq (List.mem_filter.mp hp).2, hx ▸ hpa⟩
        rw [hf, Option.map_some, hn]
        simp
    · rw [if_neg hd]; rfl

/-- A plain store: what it may change, and what its pieces hold afterwards. -/
theorem storeBytes_spec {s : State} {va : Word} {bs : List Byte} {ps : List Piece} (hm : MemoryOk s)
    (h : translate s (self s) va bs.length .write = .ok ps) :
    ∃ t, storeBytes s va bs = .ok t ∧ Stores s va bs.length ps t := by
  have hn := noteTranslation_reads (self s) va bs.length s
  have hw : Memory.wf (noteTranslation (self s) va bs.length s).mem = true := by rw [hn.mem]; exact hm
  obtain ⟨h1, h2, h3, h4, h5⟩ := piecesWrite_spec (self s) ((logAtOf s (self s) va).map (·.record)) ps bs
    (noteTranslation (self s) va bs.length s) (logAtOf s (self s) va) hw rfl
  have ht := touch_reads (storePieces (self s) (logAtOf s (self s) va) ps bs (noteTranslation (self s) va bs.length s)) ps
  obtain ⟨pp, cl, hf⟩ := soundUnits_frame (clusterOf (self s).core) ps
    (piecesWrite (self s) (logAtOf s (self s) va) ps bs (noteTranslation (self s) va bs.length s))
  have hs : storePieces (self s) (logAtOf s (self s) va) ps bs (noteTranslation (self s) va bs.length s) =
      { piecesWrite (self s) (logAtOf s (self s) va) ps bs (noteTranslation (self s) va bs.length s) with
        poison := pp, clusters := cl } := hf
  have hp : ∀ u, u ∈ pp → u ∈ s.poison := fun u hu => by
    rw [← hn.poison]
    refine h3 u (soundUnits_poison (clusterOf (self s).core) ps _ ?_)
    rw [hf]; exact hu
  refine ⟨_, by unfold storeBytes; simp only [h, bind, Except.bind]; rfl, ?_⟩
  exact {
    cur := by rw [ht.cur, hs]; exact h1.cur.trans hn.cur
    empty := by rw [ht.empty, hs]; exact h1.empty.trans hn.empty
    removals := by rw [ht.removals, hs]; exact h1.removals.trans hn.removals
    out := by rw [ht.out, hs]; exact h1.out.trans hn.out
    ckpt := by rw [ht.ckpt, hs]; exact h1.ckpt.trans hn.ckpt
    turns := by rw [ht.turns, hs]; exact h1.turns.trans hn.turns
    pkg := by rw [ht.pkg, hs]; simp only; rw [h1.pkg, hn.pkg]
    svc := by rw [ht.svc, hs]; simp only; rw [h1.svc, hn.svc]
    core := by rw [ht.core, hs]; simp only; rw [h1.core, hn.core]
    strands := fun k => by
      rw [ht.strands k, ← hn.strands k, hs]
      unfold coreGet; simp only [h1.cur, h1.core, h1.others]
    poison := fun u hu => by rw [ht.poison, hs] at hu; exact hp u hu
    mem := fun a ha hl => by
      rw [ht.mem, hs]
      refine Eq.trans (h5 a ha fun r hsc hr hv => ?_) (by rw [hn.mem])
      rcases hx : logAtOf s (self s) va with _ | x
      · rw [hx] at hr; cases hr
      · rw [hx] at hr
        simp only [Option.map_some, Option.some.injEq] at hr
        refine Classical.byContradiction fun hcon => hl ⟨hsc, x, hx, by rw [hr]; exact hv, fun l hcl => ?_⟩
        exact Classical.byContradiction fun hno => hcon ⟨l, by rw [hr] at hcl; exact hcl, hno⟩
    lines := fun c a hca => by
      have : ∀ u v : State, u.clusters = v.clusters → (clusterGet u c).line a = (clusterGet v c).line a := fun u v e => by
        unfold clusterGet; rw [e]
      rw [this _ _ (touch_clusters _ ps)]
      refine (soundUnits_lines (clusterOf (self s).core) ps _ c a hca).trans ?_
      exact Eq.trans (h4 c a hca) (by rw [noteTranslation_lines]) }

theorem noteTranslation_l2 (g : Agent) (va : Word) (w : Nat) (s : State) : (noteTranslation g va w s).l2 = s.l2 := by
  have h1 : ∀ n, (noteRecord g n s).l2 = s.l2 := fun n => by
    unfold noteRecord
    split
    · rfl
    · simp only
      split <;> rfl
  unfold noteTranslation
  simp only
  split
  · rfl
  · split
    · rfl
    · split
      · exact h1 _
      · rw [(foldl_caches (fun u j => noteSubTile_caches ..) _ _).2]
        exact h1 _

/-- A store of one piece leaves its bytes there (R70, R217, R218). -/
theorem storeBytes_stored {s t : State} {va : Word} {bs : List Byte} {p : Piece} (hm : MemoryOk s)
    (h : translate s (self s) va bs.length .write = .ok [p]) (hp : p.len = bs.length) (ht : storeBytes s va bs = .ok t) :
    StoredAt s p bs t := by
  have hn := noteTranslation_reads (self s) va bs.length s
  have hw : Memory.wf (noteTranslation (self s) va bs.length s).mem = true := by rw [hn.mem]; exact hm
  have htk : bs.take p.len = bs := by rw [hp, List.take_length]
  generalize hx : noteTranslation (self s) va bs.length s = n at *
  have e : t = touch (soundUnits (clusterOf (self s).core) [p] (pieceWrite n (self s) (logAtOf s (self s) va) p bs)) [p] := by
    unfold storeBytes at ht
    simp only [h, bind, Except.bind, pure, Except.pure, storePieces, piecesWrite, htk, hx] at ht
    exact (Except.ok.inj ht).symm
  have hr := touch_reads (soundUnits (clusterOf (self s).core) [p] (pieceWrite n (self s) (logAtOf s (self s) va) p bs)) [p]
  have hlb : ∀ c a, lineBytes n c a = lineBytes s c a := fun c a => by
    unfold lineBytes l2Get; rw [← hx, noteTranslation_lines, noteTranslation_l2, hx, hn.mem]
  have hdm : ∀ c a, dirtyMask n c a = dirtyMask s c a := fun c a => by
    unfold dirtyMask; rw [← hx, noteTranslation_lines]
  unfold StoredAt
  by_cases hk : p.kind = .sc
  · rw [if_pos hk]
    obtain ⟨_, _, _, _, ⟨l, h1, h2, h3, h4⟩, _⟩ := scWrite_spec hw (self s) (logAtOf s (self s) va) p bs
    obtain ⟨f, hf⟩ := soundUnits_line (clusterOf (self s).core) [p] (pieceWrite n (self s) (logAtOf s (self s) va) p bs)
      (clusterOf s.cur) (lineOf p.key)
    refine ⟨{ l with bad := f l }, ?_, h2, by rw [← hlb]; exact h3, by rw [← hdm]; exact h4⟩
    have hq : pieceWrite n (self s) (logAtOf s (self s) va) p bs = scWrite n (self s) (logAtOf s (self s) va) p bs := by
      unfold pieceWrite; simp only [hk]
    rw [hq] at hf
    have h1 : (clusterGet (scWrite n (self s) (logAtOf s (self s) va) p bs) (clusterOf s.cur)).line (lineOf p.key) = some l := h1
    rw [h1] at hf
    rw [e, hq]
    have : ∀ u v : State, u.clusters = v.clusters → (clusterGet u (clusterOf s.cur)).line (lineOf p.key)
        = (clusterGet v (clusterOf s.cur)).line (lineOf p.key) := fun u v e => by unfold clusterGet; rw [e]
    rw [this _ _ (touch_clusters _ [p])]
    exact hf
  · rw [if_neg hk, e, hr.mem]
    obtain ⟨pp, cl, hf⟩ := soundUnits_frame (clusterOf (self s).core) [p] (pieceWrite n (self s) (logAtOf s (self s) va) p bs)
    obtain ⟨dd, sb, ac, hq⟩ := pieceWrite_home n (self s) (logAtOf s (self s) va) bs hk
    rw [hf, hq]
    exact memRead_memWrite bs p.key hw

end Sys2Proof.Machine
end

