-- ==== Sys2Proof/Tests/Slice0.lean ====
section
/-! SUPPORT. The model's own tests: words written out from the encoding maps of the spec and their instructions, an
ill-formed term for each check of WellFormed, and for every statement with hypotheses the states and operands that meet
them. -/

open Sys2Proof Sys2Proof.Machine Sys2Proof.Claims

namespace Sys2Proof.Tests

set_option Elab.async false

/-- A word from its fields: each a value and the place of its lowest bit. -/
def word (l : List (Nat × Nat)) : Nat := (l.map fun x => x.1 * 2 ^ x.2).sum
/-- A short instruction's word, by its fields, decodes to it. -/
def reads (l : List (Nat × Nat)) (i : Instr) : Prop := decodeWords (word l) 0 = .ok i
/-- A long instruction's words, by their fields, decode to it. -/
def readsLong (l m : List (Nat × Nat)) (i : Instr) : Prop := decodeWords (word l) (word m) = .ok i
/-- A word that decodes to nothing. -/
def rejects (w v : Nat) : Prop := ∀ i, decodeWords w v ≠ .ok i

/-! The spec's own example words. -/

/-- R46, R161 to R164: the examples of formats T and V. -/
theorem test_decode_examples_tile :
    decodeWords 0xB4C80000 0 = .ok (.twait 2) ∧ decodeWords 0xB4220000 0 = .ok (.tcfg 2 1) ∧
    decodeWords 0xB8803000 0 = .ok (.tld 1 0 6) ∧ decodeWords 0xAA040000 0 = .ok (.vtunpk 32 16 0) ∧
    decodeWords 0xAA040400 0 = .ok (.vtunpk 32 16 4) ∧ decodeWords 0xA8086001 0 = .ok (.vtacc 0 33 32) ∧
    decodeWords 0xAA041103 0 = .ok (.vwidu 32 16 true 1) := by
  and_intros <;> rfl
/-- The examples of "Coherence Attributes", "Tensor Objects" and "Sparse Volumes". -/
theorem test_decode_examples_coherence :
    decodeWords 0xD4065011 0 = .ok (.rwb 6 10) ∧ decodeWords 0xD4065012 0 = .ok (.rinv 6 10) ∧
    decodeWords 0xD4260011 0 = .ok (.rwbLog 6) ∧ decodeWords 0xD4E60810 0 = .ok (.oseta 7 6 1) ∧
    decodeWords 0xD686A813 0 = .ok (.logrdRead 10 6 21) ∧
    decodeWords 0x58E64001 0 = .ok (.ldc 7 6 8 false 1) ∧ decodeWords 0x5C0C8381 0 = .ok (.stc ⟨false, 0⟩ 6 8 7 false 1) ∧
    decodeWords 0xD4060020 0 = .ok (.orinv 6) ∧ decodeWords 0xD4000820 0 = .ok .orinvCtx ∧
    decodeWords 0xD4060021 0 = .ok (.orsync 6) ∧ decodeWords 0xD4000821 0 = .ok .orsyncCtx ∧
    decodeWords 0xD5E65030 0 = .ok (.ttqry 15 6 10) ∧ decodeWords 0xD4065031 0 = .ok (.clbinv 6 10) ∧
    decodeWords 0xD4260031 0 = .ok (.clbinvObj 6) := by
  and_intros <;> rfl
/-- The examples of "Tasks, Deques and Stealing" and "Traps, Pre-emption and Memory-Backed Contexts". -/
theorem test_decode_examples_tasks :
    decodeWords 0xC0004040 0 = .ok (.fenter 1 64) ∧ decodeWords 0xC4000000 0 = .ok .fleave ∧
    decodeWords 0xC4B90001 0 = .ok (.ftile 1 1 25) ∧ decodeWords 0xC4000002 0 = .ok .fpub ∧
    decodeWords 0xC4000003 0 = .ok .tret ∧ decodeWords 0xC4000004 0 = .ok .sync ∧
    decodeWords 0xC7000005 0 = .ok (.jinit 24) ∧ decodeWords 0xC4E90006 0 = .ok (.jdec 7 9) ∧
    decodeWords 0xC4E84807 0 = .ok (.donate 7 8 9) ∧ decodeWords 0xC4E80008 0 = .ok (.accept 7 8) ∧
    decodeWords 0xC8000000 0 = .ok (.spawn 0) ∧
    decodeWords 0xD4060000 0 = .ok (.trap 6) ∧ decodeWords 0xD4000001 0 = .ok .eret ∧
    decodeWords 0xD4060002 0 = .ok (.svc 6) ∧ decodeWords 0xD4070003 0 = .ok (.wfe 7) ∧
    decodeWords 0xD3000001 0 = .ok (.csrr 24 1) ∧ decodeWords 0xD0181004 0 = .ok (.csrwTvec 24) ∧
    decodeWords 0xD0191010 0 = .ok (.csrw 25 0x010) := by
  and_intros <;> rfl

/-! Words written out field by field from R36 to R47. -/

/-- R42. -/
theorem test_decode_misc :
    decodeWords 0x04000000 0 = .ok .nop ∧ decodeWords 0x04000001 0 = .ok .yield ∧
    decodeWords 0x04000002 0 = .ok .hbeat := by
  and_intros <;> rfl
/-- R42, format A of major 0x02. -/
theorem test_decode_alu :
    reads [(0x02, 26), (1, 21), (2, 16), (3, 11), (0x000, 0)] (.add 1 2 3) ∧
    reads [(0x02, 26), (4, 21), (5, 16), (6, 11), (0x001, 0)] (.sub 4 5 6) ∧
    reads [(0x02, 26), (1, 21), (2, 16), (3, 11), (0x002, 0)] (.mul 1 2 3) ∧
    reads [(0x02, 26), (1, 21), (2, 16), (3, 11), (0x003, 0)] (.mulh 1 2 3) ∧
    reads [(0x02, 26), (1, 21), (2, 16), (3, 11), (0x004, 0)] (.mulhu 1 2 3) ∧
    reads [(0x02, 26), (1, 21), (2, 16), (3, 11), (0x005, 0)] (.div 1 2 3) ∧
    reads [(0x02, 26), (1, 21), (2, 16), (3, 11), (0x006, 0)] (.divu 1 2 3) ∧
    reads [(0x02, 26), (1, 21), (2, 16), (3, 11), (0x007, 0)] (.rem 1 2 3) ∧
    reads [(0x02, 26), (1, 21), (2, 16), (3, 11), (0x008, 0)] (.remu 1 2 3) ∧
    reads [(0x02, 26), (31, 21), (30, 16), (29, 11), (0x010, 0)] (.and 31 30 29) ∧
    reads [(0x02, 26), (1, 21), (2, 16), (3, 11), (0x011, 0)] (.or 1 2 3) ∧
    reads [(0x02, 26), (1, 21), (2, 16), (3, 11), (0x012, 0)] (.xor 1 2 3) := by
  and_intros <;> rfl
/-- R42, format A of major 0x02, the other rows. -/
theorem test_decode_alu_more :
    reads [(0x02, 26), (1, 21), (2, 16), (3, 11), (0x018, 0)] (.sll 1 2 3) ∧
    reads [(0x02, 26), (1, 21), (2, 16), (3, 11), (0x019, 0)] (.srl 1 2 3) ∧
    reads [(0x02, 26), (1, 21), (2, 16), (3, 11), (0x01A, 0)] (.sra 1 2 3) ∧
    reads [(0x02, 26), (1, 21), (2, 16), (3, 11), (0x020, 0)] (.min 1 2 3) ∧
    reads [(0x02, 26), (1, 21), (2, 16), (3, 11), (0x021, 0)] (.max 1 2 3) ∧
    reads [(0x02, 26), (1, 21), (2, 16), (3, 11), (0x022, 0)] (.minu 1 2 3) ∧
    reads [(0x02, 26), (1, 21), (2, 16), (3, 11), (0x023, 0)] (.maxu 1 2 3) ∧
    reads [(0x02, 26), (1, 21), (2, 16), (0x028, 0)] (.clz 1 2) ∧
    reads [(0x02, 26), (1, 21), (2, 16), (0x029, 0)] (.ctz 1 2) ∧
    reads [(0x02, 26), (1, 21), (2, 16), (0x02A, 0)] (.popc 1 2) := by
  and_intros <;> rfl
/-- R42, format I of majors 0x03 to 0x09. -/
theorem test_decode_immediate :
    reads [(0x03, 26), (1, 21), (2, 16), (0xFFFE, 0)] (.addi 1 2 0xFFFE) ∧
    reads [(0x04, 26), (1, 21), (2, 16), (0x8001, 0)] (.andi 1 2 0x8001) ∧
    reads [(0x05, 26), (1, 21), (2, 16), (0x8001, 0)] (.ori 1 2 0x8001) ∧
    reads [(0x06, 26), (1, 21), (2, 16), (0x8001, 0)] (.xori 1 2 0x8001) ∧
    reads [(0x07, 26), (1, 21), (2, 16), (0, 14), (63, 0)] (.slli 1 2 63) ∧
    reads [(0x07, 26), (1, 21), (2, 16), (1, 14), (5, 0)] (.srli 1 2 5) ∧
    reads [(0x07, 26), (1, 21), (2, 16), (2, 14), (5, 0)] (.srai 1 2 5) ∧
    reads [(0x08, 26), (1, 21), (3, 16), (0xABCD, 0)] (.lui 1 3 0xABCD) ∧
    reads [(0x09, 26), (1, 21), (2, 16), (1, 14), (8, 6), (15, 0)] (.extr 1 2 true 8 15) ∧
    reads [(0x09, 26), (1, 21), (2, 16), (1, 15), (8, 6), (15, 0)] (.ins 1 2 8 15) := by
  and_intros <;> rfl
/-- R43, majors 0x10 to 0x12. -/
theorem test_decode_float :
    reads [(0x10, 26), (1, 21), (2, 16), (3, 11), (1, 9), (7, 6), (0, 0)] (.fadd 1 2 3 1 7) ∧
    reads [(0x10, 26), (1, 21), (2, 16), (3, 11), (2, 9), (1, 6), (1, 0)] (.fsub 1 2 3 2 1) ∧
    reads [(0x10, 26), (1, 21), (2, 16), (3, 11), (3, 9), (2, 6), (2, 0)] (.fmul 1 2 3 3 2) ∧
    reads [(0x10, 26), (1, 21), (2, 16), (3, 11), (0, 9), (3, 6), (3, 0)] (.fdiv 1 2 3 0 3) ∧
    reads [(0x10, 26), (1, 21), (2, 16), (1, 9), (1, 6), (4, 0)] (.fsqrt 1 2 1 1) ∧
    reads [(0x10, 26), (1, 21), (2, 16), (3, 11), (1, 9), (5, 0)] (.fmin 1 2 3 1) ∧
    reads [(0x10, 26), (1, 21), (2, 16), (3, 11), (1, 9), (6, 0)] (.fmax 1 2 3 1) ∧
    reads [(0x10, 26), (1, 21), (2, 16), (3, 9), (7, 0)] (.fclass 1 2 3) ∧
    reads [(0x10, 26), (1, 21), (2, 16), (8, 0)] (.fmvgf 1 2) ∧ reads [(0x10, 26), (1, 21), (2, 16), (9, 0)] (.fmvfg 1 2) ∧
    reads [(0x11, 26), (5, 21), (2, 16), (3, 11), (0, 8), (1, 6), (2, 0)] (.fcmp 5 2 3 1 2) ∧
    reads [(0x11, 26), (1, 21), (2, 16), (1, 11), (1, 8), (4, 5), (1, 2)] (.fcvt 1 2 1 4 1) ∧
    reads [(0x12, 26), (1, 21), (2, 16), (3, 11), (4, 6), (1, 4), (2, 1), (1, 0)] (.ffma 1 2 3 4 1 2 true) := by
  and_intros <;> rfl
/-- R43, majors 0x13 to 0x17. -/
theorem test_decode_memory :
    reads [(0x13, 26), (1, 21), (2, 16), (2, 13), (0x1FFF, 0)] (.fld 1 2 2 0x1FFF) ∧
    reads [(0x14, 26), (1, 21), (2, 16), (6, 13), (0x1000, 0)] (.ld 1 2 6 0x1000) ∧
    reads [(0x15, 26), (1, 25), (3, 22), (7, 17), (9, 12), (2, 9), (0x1F8, 0)] (.st ⟨true, 3⟩ 7 9 2 0x1F8) ∧
    reads [(0x15, 26), (0, 25), (2, 22), (7, 17), (9, 12), (5, 9), (0x008, 0)] (.fst ⟨false, 2⟩ 7 9 1 8) ∧
    reads [(0x16, 26), (1, 21), (2, 16), (3, 11), (1, 3), (2, 0)] (.ldc 1 2 3 true 2) ∧
    reads [(0x17, 26), (1, 25), (1, 22), (4, 17), (5, 12), (6, 7), (1, 2), (3, 0)] (.stc ⟨true, 1⟩ 4 5 6 true 3) := by
  and_intros <;> rfl
/-- R44, majors 0x18 to 0x1B. -/
theorem test_decode_control :
    reads [(0x18, 26), (1, 25), (2, 22), (0x3FFFFF, 0)] (.b ⟨true, 2⟩ 0x3FFFFF) ∧
    reads [(0x19, 26), (0, 25), (0, 22), (5, 0)] (.call ⟨false, 0⟩ 5) ∧
    reads [(0x1A, 26), (0, 25), (1, 22), (6, 12), (0, 0)] (.jr ⟨false, 1⟩ 6) ∧
    reads [(0x1A, 26), (1, 25), (1, 22), (1, 0)] (.ret ⟨true, 1⟩) ∧
    reads [(0x1A, 26), (0, 25), (4, 22), (1, 17), (2, 12), (3, 7), (2, 0)] (.sel ⟨false, 4⟩ 1 2 3) ∧
    reads [(0x1B, 26), (0, 24), (5, 21), (2, 16), (3, 11), (7, 0)] (.cmp 5 2 3 7) ∧
    reads [(0x1B, 26), (1, 24), (5, 21), (2, 16), (0x800, 4), (2, 0)] (.cmpi 5 2 0x800 2) ∧
    reads [(0x1B, 26), (2, 24), (2, 22), (2, 16), (255, 0)] (.loop 2 2 255) := by
  and_intros <;> rfl
/-- R44, majors 0x1C to 0x1F. -/
theorem test_decode_ordered :
    reads [(0x1C, 26), (1, 21), (2, 16), (3, 13), (4, 10), (2, 8), (1, 6)] (.orderedLoad 1 2 3 ⟨4, 2⟩ true) ∧
    reads [(0x1C, 26), (7, 13), (3, 10), (1, 8), (3, 6)] (.fence ⟨3, 1⟩ 3) ∧
    reads [(0x1D, 26), (0, 25), (3, 22), (1, 17), (2, 12), (3, 10), (2, 7), (1, 5), (2, 3)]
      (.orderedStore ⟨false, 3⟩ 1 2 3 ⟨2, 1⟩ true) ∧
    reads [(0x1E, 26), (1, 17), (2, 12), (0, 8), (1, 7), (3, 5), (4, 2), (2, 0)] (.amoSwap ⟨false, 0⟩ 1 2 true 3 ⟨4, 2⟩) ∧
    reads [(0x1E, 26), (1, 17), (2, 12), (1, 8), (0, 7), (1, 5), (2, 2), (1, 0)] (.amoAdd ⟨false, 0⟩ 1 2 false 1 ⟨2, 1⟩) ∧
    reads [(0x1E, 26), (1, 17), (2, 12), (2, 8)] (.amoAnd ⟨false, 0⟩ 1 2 false 0 ⟨0, 0⟩) ∧
    reads [(0x1E, 26), (1, 17), (2, 12), (3, 8)] (.amoOr ⟨false, 0⟩ 1 2 false 0 ⟨0, 0⟩) ∧
    reads [(0x1E, 26), (1, 17), (2, 12), (4, 8)] (.amoXor ⟨false, 0⟩ 1 2 false 0 ⟨0, 0⟩) ∧
    reads [(0x1E, 26), (1, 17), (2, 12), (5, 8)] (.amoMin ⟨false, 0⟩ 1 2 false 0 ⟨0, 0⟩) ∧
    reads [(0x1E, 26), (1, 17), (2, 12), (6, 8)] (.amoMax ⟨false, 0⟩ 1 2 false 0 ⟨0, 0⟩) ∧
    reads [(0x1E, 26), (1, 17), (2, 12), (7, 8)] (.amoMinu ⟨false, 0⟩ 1 2 false 0 ⟨0, 0⟩) ∧
    reads [(0x1E, 26), (1, 17), (2, 12), (8, 8)] (.amoMaxu ⟨false, 0⟩ 1 2 false 0 ⟨0, 0⟩) ∧
    reads [(0x1E, 26), (1, 25), (1, 17), (2, 12), (9, 8)] (.amoFadd ⟨true, 0⟩ 1 2 false 0 ⟨0, 0⟩) ∧
    reads [(0x1F, 26), (0, 25), (1, 22), (14, 17), (2, 12), (1, 11), (3, 9), (1, 8), (4, 5), (2, 3)]
      (.cas ⟨false, 1⟩ 7 2 true 3 true ⟨4, 2⟩) := by
  and_intros <;> rfl
/-- R45, majors 0x20 and 0x21. -/
theorem test_decode_vector :
    reads [(0x20, 26), (40, 20), (41, 14), (42, 8), (1, 5), (0, 0)] (.vadd 40 41 42 1) ∧
    reads [(0x20, 26), (40, 20), (41, 14), (42, 8), (1, 5), (1, 0)] (.vsub 40 41 42 1) ∧
    reads [(0x20, 26), (40, 20), (41, 14), (42, 8), (7, 5), (2, 0)] (.vmul 40 41 42 7) ∧
    reads [(0x20, 26), (40, 20), (41, 14), (42, 8), (2, 5), (3, 0)] (.vfma 40 41 42 2) ∧
    reads [(0x20, 26), (40, 20), (41, 14), (42, 8), (4, 0)] (.vmin 40 41 42 0) ∧
    reads [(0x20, 26), (40, 20), (41, 14), (42, 8), (5, 0)] (.vmax 40 41 42 0) ∧
    reads [(0x20, 26), (40, 20), (41, 14), (1, 5), (6, 0)] (.vabs 40 41 1) ∧
    reads [(0x20, 26), (40, 20), (41, 14), (1, 5), (7, 0)] (.vneg 40 41 1) ∧
    reads [(0x21, 26), (40, 20), (41, 14), (42, 8), (0, 0)] (.vand 40 41 42) ∧
    reads [(0x21, 26), (40, 20), (41, 14), (42, 8), (1, 0)] (.vor 40 41 42) ∧
    reads [(0x21, 26), (40, 20), (41, 14), (42, 8), (2, 0)] (.vxor 40 41 42) ∧
    reads [(0x21, 26), (40, 20), (41, 14), (3, 0)] (.vnot 40 41) ∧
    reads [(0x21, 26), (40, 20), (41, 14), (42, 8), (4, 0)] (.vsll 40 41 42) ∧
    reads [(0x21, 26), (40, 20), (41, 14), (42, 8), (5, 0)] (.vsrl 40 41 42) ∧
    reads [(0x21, 26), (40, 20), (41, 14), (42, 8), (6, 0)] (.vsra 40 41 42) ∧
    reads [(0x21, 26), (40, 20), (41, 14), (63, 8), (8, 0)] (.vslli 40 41 63) ∧
    reads [(0x21, 26), (40, 20), (41, 14), (3, 8), (9, 0)] (.vsrli 40 41 3) ∧
    reads [(0x21, 26), (40, 20), (41, 14), (3, 8), (10, 0)] (.vsrai 40 41 3) := by
  and_intros <;> rfl
/-- R45, majors 0x22 to 0x28. -/
theorem test_decode_vector_more :
    reads [(0x22, 26), (5, 20), (41, 14), (42, 8), (1, 3), (3, 0)] (.vcmp 5 41 42 true 3) ∧
    reads [(0x23, 26), (40, 20), (41, 14), (42, 8), (1, 7), (6, 4), (5, 0)] (.vsel ⟨true, 6⟩ 40 41 42 5) ∧
    reads [(0x24, 26), (40, 20), (41, 14), (3, 8), (1, 5), (0, 0)] (.vcvt 40 41 3 1) ∧
    reads [(0x24, 26), (40, 20), (41, 14), (2, 8), (1, 5), (1, 0)] (.vcvtToE4m3 40 41 2 1) ∧
    reads [(0x24, 26), (40, 20), (41, 14), (2, 8), (1, 5), (2, 0)] (.vcvtToE5m2 40 41 2 1) ∧
    reads [(0x24, 26), (40, 20), (41, 14), (2, 8), (1, 5), (3, 0)] (.vcvtFromE4m3 40 41 2 1) ∧
    reads [(0x24, 26), (40, 20), (41, 14), (2, 8), (1, 5), (4, 0)] (.vcvtFromE5m2 40 41 2 1) ∧
    reads [(0x25, 26), (40, 20), (41, 14), (1, 5), (0, 0)] (.vredSum 40 41 1) ∧
    reads [(0x25, 26), (40, 20), (41, 14), (1, 5), (1, 0)] (.vredMax 40 41 1) ∧
    reads [(0x25, 26), (40, 20), (41, 14), (1, 5), (2, 0)] (.vredMin 40 41 1) ∧
    reads [(0x26, 26), (40, 20), (41, 14), (42, 8), (0, 0)] (.vperm 40 41 42) ∧
    reads [(0x26, 26), (40, 20), (9, 14), (1, 0)] (.vbcastG 40 9) ∧ reads [(0x26, 26), (40, 20), (9, 14), (2, 0)] (.vbcastF 40 9) ∧
    reads [(0x27, 26), (40, 20), (9, 14), (63, 8), (2, 6), (0, 0)] (.vld 40 9 63 2) ∧
    reads [(0x27, 26), (40, 20), (9, 14), (31, 8), (1, 0)] (.vlds 40 9 31) ∧
    reads [(0x28, 26), (40, 20), (1, 19), (2, 16), (9, 11), (32, 5), (1, 0)] (.vst ⟨true, 2⟩ 40 9 32 1) := by
  and_intros <;> rfl
/-- R45, majors 0x29 to 0x2B. -/
theorem test_decode_vector_special :
    reads [(0x29, 26), (40, 20), (41, 14), (0, 0)] (.vexp2 40 41) ∧ reads [(0x29, 26), (40, 20), (41, 14), (1, 0)] (.vlog2 40 41) ∧
    reads [(0x29, 26), (40, 20), (41, 14), (2, 0)] (.vrcp 40 41) ∧ reads [(0x29, 26), (40, 20), (41, 14), (3, 0)] (.vrsq 40 41) ∧
    reads [(0x29, 26), (9, 20), (41, 14), (4, 0)] (.vemax 9 41) ∧
    reads [(0x29, 26), (40, 20), (41, 14), (7, 8), (5, 0)] (.vscl2 40 41 7) ∧
    reads [(0x2A, 26), (40, 20), (41, 14), (1, 12), (15, 8), (2, 0)] (.vwid 40 41 true 15) ∧
    reads [(0x2B, 26), (9, 20), (0, 0)] (.vstatr 9) ∧ reads [(0x2B, 26), (7, 20), (6, 14), (5, 8), (0x10, 0)] (.mand 7 6 5) ∧
    reads [(0x2B, 26), (7, 20), (6, 14), (5, 8), (0x11, 0)] (.mor 7 6 5) ∧
    reads [(0x2B, 26), (7, 20), (6, 14), (5, 8), (0x12, 0)] (.mxor 7 6 5) ∧ reads [(0x2B, 26), (7, 20), (6, 14), (0x13, 0)] (.mnot 7 6) := by
  and_intros <;> rfl
/-- R46. -/
theorem test_decode_queue_tile :
    reads [(0x2C, 26), (7, 21), (9, 16), (0, 0)] (.qbind 7 9) ∧ reads [(0x2C, 26), (7, 21), (9, 16), (1, 0)] (.qput 7 9) ∧
    reads [(0x2C, 26), (9, 21), (7, 16), (2, 0)] (.qget 9 7) ∧ reads [(0x2C, 26), (9, 21), (7, 16), (3, 0)] (.qcnt 9 7) ∧
    reads [(0x2D, 26), (1, 22), (3, 20), (5, 17)] (.tzero 3 5) ∧
    reads [(0x2D, 26), (2, 22), (5, 19), (9, 14), (1, 12)] (.tztest 5 9 1) ∧
    reads [(0x2D, 26), (4, 22), (3, 20), (9, 15)] (.cbld 3 9) ∧
    reads [(0x2E, 26), (1, 25), (3, 23), (5, 20), (1, 19), (2, 16), (9, 11)] (.tst ⟨true, 2⟩ 3 5 9) := by
  and_intros <;> rfl
/-- R46, R372, R222, R227: control registers and the modes of RWB and RINV. -/
theorem test_decode_system :
    reads [(0x34, 26), (9, 16), (1, 12), (0x0C8, 0)] (.csrwLstate 9) ∧
    reads [(0x35, 26), (0, 23), (2, 21), (6, 16), (0x011, 0)] (.rwbObj 6) ∧
    reads [(0x35, 26), (0, 23), (1, 21), (6, 16), (0x012, 0)] (.rinvLog 6) ∧
    reads [(0x35, 26), (0, 23), (2, 21), (6, 16), (0x012, 0)] (.rinvObj 6) := by
  and_intros <;> rfl
/-- R47, majors 0x38 and 0x39. -/
theorem test_decode_matrix :
    readsLong [(0x38, 26), (8, 22), (1, 20), (2, 17), (3, 12), (4, 7), (5, 2), (3, 0)] [(1, 30), (1, 29)]
      (.tmma ⟨8, 1, 2, 3, 4, 5, 3, false, true, true, false, false, false, 0⟩) ∧
    readsLong [(0x39, 26), (6, 22), (3, 20), (7, 17), (31, 12), (30, 7)] [(1, 31), (1, 28), (1, 27), (1, 26), (4095, 0)]
      (.tmmak ⟨6, 3, 7, 31, 30, 0, 0, true, false, false, true, true, true, 4095⟩) := by
  and_intros <;> rfl
/-- R47, R238 to R255: the engine majors. -/
theorem test_decode_engine :
    readsLong [(0x3C, 26), (0, 21), (1, 16), (2, 11), (3, 6), (4, 1)] [(1, 31), (2, 29), (1, 28)] (.cpy ⟨true, 2⟩ 1 2 3 4 true) ∧
    readsLong [(0x3C, 26), (1, 21), (1, 16), (2, 11), (4, 1)] [(1, 29), (1, 28)] (.cpyt ⟨false, 1⟩ 1 2 4 true) ∧
    readsLong [(0x3C, 26), (2, 21), (1, 16), (2, 11), (3, 6), (4, 1)] [(1, 31)] (.cpyr ⟨true, 0⟩ 1 2 3 4) ∧
    readsLong [(0x3D, 26), (0, 21), (1, 16), (2, 11), (4, 6), (3, 4)] [(1, 31)] (.wbind ⟨true, 0⟩ 3 1 2 4) ∧
    readsLong [(0x3D, 26), (1, 21), (1, 16), (3, 4)] [] (.wunbind 3 1) ∧
    readsLong [(0x3D, 26), (2, 21), (1, 16), (2, 11), (3, 6), (4, 3), (2, 1)] [] (.rwait 1 2 3 ⟨4, 2⟩) ∧
    readsLong [(0x3D, 26), (3, 21), (2, 11), (3, 6), (4, 3), (2, 1)] [] (.rrel 2 3 ⟨4, 2⟩) ∧
    readsLong [(0x3D, 26), (4, 21), (2, 11)] [] (.publish 2) ∧
    readsLong [(0x3D, 26), (5, 21), (2, 11), (3, 6), (4, 3), (2, 1)] [] (.cwait 2 3 ⟨4, 2⟩) ∧
    readsLong [(0x3E, 26), (0, 21), (1, 16), (2, 11), (3, 6), (4, 1)] [(1, 31), (1, 29), (4095, 16), (255, 8)]
      (.gather ⟨true, 1⟩ 1 2 3 4 4095 255) ∧
    readsLong [(0x3E, 26), (1, 21), (1, 16), (2, 11), (3, 6), (4, 1)] [(0, 31), (1, 29), (7, 16), (3, 8)]
      (.scatter ⟨false, 1⟩ 1 2 3 4 7 3) ∧
    readsLong [(0x3E, 26), (2, 21), (1, 16), (2, 11), (3, 6), (4, 3), (2, 1)] [] (.bara 1 2 3 ⟨4, 2⟩) ∧
    readsLong [(0x3E, 26), (3, 21), (2, 11), (3, 6), (4, 3), (2, 1)] [] (.barw 2 3 ⟨4, 2⟩) := by
  and_intros <;> rfl
/-- R228: the row of LOGRD that bits 63:62 of the command register select. -/
theorem test_decode_logrd : (∀ x ∈ ([(0, .logrdRead 10 6 21), (1, .logrdStatus 10 6 21), (2, .logrdRetire 10 6 21),
      (3, .logrdReset 10 6 21)] : List (Nat × Instr)),
    resolve (.logrdRead 10 6 21) (Strand.zero.writeG 21 (W (x.1 * 2 ^ 62))) = x.2) := by
  intro x h; simp only [List.mem_cons, List.not_mem_nil, or_false] at h
  rcases h with rfl | rfl | rfl | rfl <;> rfl

/-! Ill-formed words and terms. -/

/-- R41, R48: unassigned majors, a nonzero reserved field, an unassigned selector and illegal codes are refused by name. -/
theorem test_decode_refuses :
    decodeWords 0 0 = .error .unassignedMajor ∧ decodeWords (word [(0x3F, 26)]) 0 = .error .unassignedMajor ∧
    decodeWords (word [(0x01, 26), (1, 11)]) 0 = .error .reservedField ∧
    decodeWords (word [(0x02, 26), (0x009, 0)]) 0 = .error .unassignedSelector ∧
    decodeWords (word [(0x14, 26), (7, 13)]) 0 = .error .illegalCode ∧
    decodeWords (word [(0x32, 26), (1, 25)]) 0 ≠ .ok (.spawn 0) := by
  and_intros <;> first | rfl | (intro h; cases h)

/-- One term that WellFormed refuses for each of its checks: R40 and R42 to R44. -/
theorem test_wf_refuses :
    Instr.wf (.extr 1 2 false 63 1) = false ∧ Instr.wf (.ins 1 2 32 32) = false ∧ Instr.wf (.fadd 1 2 3 0 4) = false ∧
    Instr.wf (.fsub 1 2 3 0 5) = false ∧ Instr.wf (.fmul 1 2 3 0 6) = false ∧ Instr.wf (.fdiv 1 2 3 0 4) = false ∧
    Instr.wf (.fsqrt 1 2 0 4) = false ∧ Instr.wf (.fcmp 1 2 3 0 5) = false ∧ Instr.wf (.fcvt 1 2 0 4 5) = false ∧
    Instr.wf (.fcvt 1 2 4 0 1) = false ∧ Instr.wf (.ffma 1 2 3 4 0 5 false) = false ∧ Instr.wf (.fld 1 2 3 0) = false ∧
    Instr.wf (.ld 1 2 7 0) = false ∧ Instr.wf (.fst ⟨false, 0⟩ 1 2 3 0) = false ∧ Instr.wf (.ldc 1 2 3 false 7) = false ∧
    Instr.wf (.ldc 1 2 3 true 0) = false ∧ Instr.wf (.stc ⟨false, 0⟩ 1 2 3 true 0) = false ∧
    Instr.wf (.cmp 1 2 3 8) = false ∧ Instr.wf (.cmpi 1 2 3 8) = false ∧ Instr.wf (.loop 3 1 0) = false := by
  and_intros <;> rfl
/-- The scopes of R40 and the ordered instructions of R44. -/
theorem test_wf_refuses_ordered :
    Instr.wf (.orderedLoad 1 2 3 ⟨5, 0⟩ false) = false ∧ Instr.wf (.orderedLoad 1 2 7 ⟨0, 0⟩ false) = false ∧
    Instr.wf (.fence ⟨0, 3⟩ 1) = false ∧ Instr.wf (.fence ⟨0, 0⟩ 0) = false ∧
    Instr.wf (.orderedStore ⟨false, 0⟩ 1 2 0 ⟨7, 0⟩ false) = false ∧ Instr.wf (.amoSwap ⟨false, 0⟩ 1 2 true 0 ⟨0, 3⟩) = false ∧
    Instr.wf (.amoFadd ⟨false, 0⟩ 1 2 true 0 ⟨6, 0⟩) = false ∧ Instr.wf (.cas ⟨false, 0⟩ 1 2 true 0 false ⟨5, 0⟩) = false ∧
    Instr.wf (.rwait 1 2 3 ⟨5, 0⟩) = false ∧ Instr.wf (.rrel 1 2 ⟨5, 0⟩) = false ∧ Instr.wf (.cwait 1 2 ⟨0, 3⟩) = false ∧
    Instr.wf (.bara 1 2 3 ⟨5, 0⟩) = false ∧ Instr.wf (.barw 1 2 ⟨0, 3⟩) = false := by
  and_intros <;> rfl
/-- R45 to R47. -/
theorem test_wf_refuses_more :
    Instr.wf (.vcmp 1 2 3 false 7) = false ∧ Instr.wf (.vcvt 1 2 0 4) = false ∧ Instr.wf (.vcvtToE4m3 1 2 0 5) = false ∧
    Instr.wf (.vld 1 2 0 3) = false ∧ Instr.wf (.vst ⟨false, 0⟩ 1 2 0 2) = false ∧ Instr.wf (.vtunpk 1 2 5) = false ∧
    Instr.wf (.tcfg 0 6) = false ∧ Instr.wf (.tztest 0 1 2) = false ∧ Instr.wf (.twait 0) = false ∧
    Instr.wf (.fenter 0 0) = false ∧ Instr.wf (.csrw 1 0x004) = false ∧ Instr.wf (.csrw 1 0x0C8) = false ∧
    Instr.wf (.oseta 1 2 3) = false ∧ Instr.wf (.logrdRead 0 1 2) = false ∧ Instr.wf (.cpy ⟨false, 3⟩ 1 2 3 4 false) = false ∧
    Instr.wf (.wbind ⟨true, 3⟩ 0 1 2 3) = false ∧ Instr.wf (.gather ⟨true, 3⟩ 0 1 2 3 4 5) = false ∧
    Instr.wf (.tmma ⟨0, 0, 0, 1, 2, 3, 0, false, false, false, false, false, false, 1⟩) = false ∧
    Instr.wf (.tmmak ⟨0xB, 0, 0, 1, 2, 3, 0, false, false, false, false, false, false, 1⟩) = false ∧
    Instr.wf (.tmmak ⟨0, 0, 0, 1, 2, 3, 1, false, false, false, false, false, false, 1⟩) = false ∧
    Instr.wf (.tmmak ⟨0, 0, 0, 1, 2, 3, 0, false, false, false, true, false, false, 1⟩) = false ∧
    Instr.wf (.tmmak ⟨6, 0, 0, 1, 2, 3, 0, false, false, false, false, false, false, 1⟩) = false := by
  and_intros <;> rfl

/-- The rest of R47. -/
theorem test_wf_refuses_copies :
    Instr.wf (.cpyt ⟨false, 3⟩ 1 2 3 false) = false ∧ Instr.wf (.cpyr ⟨false, 3⟩ 1 2 3 4) = false ∧
    Instr.wf (.scatter ⟨true, 3⟩ 0 1 2 3 4 5) = false ∧ Instr.wf (.logrdReset 0 1 2) = false := by
  and_intros <;> rfl

/-! States for the witnesses. -/

/-- A core that runs a task right after reset, its strand as given. -/
def runs (t : Strand) : State :=
  { State.reset with
    core := { Core.vacant with mode := .running, strand := t }
    ckpt := { Checkpoint.start with powered := true }
    svc := { Service.start with phase := .running } }
/-- The same with register values. -/
def regs (l : List (Reg × Word)) : Strand := l.foldl (fun t x => t.writeG x.1 x.2) Strand.zero
/-- A ready machine whose next word is the one given. -/
def fetches (w : Nat) : State := (runs Strand.zero).withFetchWord 64 w

/-! Encoding and the step. -/

theorem test_hyp_DecodeOfEncode :
    Instr.isEvent (.tmmak ⟨8, 3, 7, 31, 30, 29, 3, true, true, true, false, false, false, 4095⟩) = false ∧
    Instr.wf (.tmmak ⟨8, 3, 7, 31, 30, 29, 3, true, true, true, false, false, false, 4095⟩) = true := by
  and_intros <;> rfl
theorem test_hyp_EncodeOfDecode :
    0xC4B90001 < 2 ^ 32 ∧ 0 < 2 ^ 32 ∧ (majorLong (majorOf 0xC4B90001) = false → 0 = 0) ∧
    decodeWords 0xC4B90001 0 = .ok (.ftile 1 1 25) := ⟨by decide, by decide, fun _ => rfl, rfl⟩

theorem test_hyp_Ready : Ready (fetches 0x04000000) := by
  unfold Ready; exact ⟨rfl, rfl, rfl, rfl, rfl, rfl, rfl, rfl, rfl⟩
/-- A ready machine whose next word is `w` whatever slot the word may stand in, its strand changed by `f`. -/
def patched (w : Nat) (f : Strand → Strand) : State :=
  let s := fetches 0x04000000
  strandSet { s with mem := memWrite s.mem codePlace (natBytes 8 w) } (f s.core.strand)

/-- StepRunsDecoded: a word of one and of two words at a ready state. -/
theorem test_hyp_StepRunsDecoded :
    Ready (fetches 0x04000000) ∧ FetchedWords (fetches 0x04000000) 0x04000000 0 ∧
    decodeWords 0x04000000 0 = .ok .nop ∧ badSlot 0x04000000 (slotOf (fetches 0x04000000).core.strand.pc) = false ∧
    (fetches 0x04000000).core.strand.evicted = none ∧ lostLine (fetches 0x04000000).core.strand .nop (idleLines (fetches 0x04000000) .nop) = none := by
  refine ⟨test_hyp_Ready, ⟨⟨rfl, _, rfl, rfl, rfl⟩, rfl⟩, rfl, rfl, rfl, rfl⟩
theorem test_hyp_StepRunsDecoded_long :
    FetchedWords (fetches 0xF4800800) 0xF4800800 0 ∧ decodeWords 0xF4800800 0 = .ok (.publish 1) ∧
    badSlot 0xF4800800 (slotOf (fetches 0xF4800800).core.strand.pc) = false ∧
    splitsBody (fetches 0xF4800800).core.strand = false := by
  refine ⟨⟨⟨rfl, _, rfl, rfl, rfl⟩, ⟨rfl, _, rfl, rfl, rfl⟩⟩, rfl, rfl, rfl⟩

/-- StepChecks, its clauses in order: each needs a ready state (test_hyp_Ready). -/
theorem test_hyp_StepChecks_evicted :
    let s := patched 0x04000000 fun t => { t with evicted := some 3 }
    Ready s ∧ s.core.strand.evicted = some 3 ∧ s.core.strand.begun = false ∧ s.core.strand.midCall = false :=
  ⟨⟨rfl, rfl, rfl, rfl, rfl, rfl, rfl, rfl, rfl⟩, rfl, rfl, rfl⟩
theorem test_hyp_StepChecks_fetch : ∃ c v, fetchWord (runs Strand.zero) (runs Strand.zero).core.strand.pc = .error (.trap c v) :=
  ⟨_, _, rfl⟩
theorem test_hyp_StepChecks_second :
    let s := patched 0 fun t => { t with pc := objAddr 1 4092 }
    let s := { s with mem := memWrite s.mem (codePlace + 4092) (natBytes 4 0xF4800800) }
    FetchedAt s s.core.strand.pc 0xF4800800 ∧ majorLong (majorOf 0xF4800800) = true ∧
    ∃ c v, fetchWord s (s.core.strand.pc + 4) = .error (.trap c v) := by
  refine ⟨⟨rfl, _, rfl, rfl, rfl⟩, rfl, _, _, rfl⟩
theorem test_hyp_StepChecks_major : FetchedWords (fetches 0) 0 0 ∧ majorBad (majorOf 0) = true :=
  ⟨⟨⟨rfl, _, rfl, rfl, rfl⟩, rfl⟩, rfl⟩
theorem test_hyp_StepChecks_slot :
    FetchedWords (patched 0xC8000000 id) 0xC8000000 0 ∧ majorBad (majorOf 0xC8000000) = false ∧
    badSlot 0xC8000000 (slotOf (patched 0xC8000000 id).core.strand.pc) = true :=
  ⟨⟨⟨rfl, _, rfl, rfl, rfl⟩, rfl⟩, rfl, rfl⟩
theorem test_hyp_StepChecks_word :
    FetchedWords (fetches 0x08000009) 0x08000009 0 ∧ badSlot 0x08000009 (slotOf (fetches 0x08000009).core.strand.pc) = false ∧
    decodeWords 0x08000009 0 = .error .unassignedSelector :=
  ⟨⟨⟨rfl, _, rfl, rfl, rfl⟩, rfl⟩, rfl, rfl⟩
theorem test_hyp_StepChecks_body :
    let s := patched 0xF4800800 fun t => { t with lact := 1, lbeg := t.lbeg.set 0 (objAddr 1 0), llen := t.llen.set 0 1 }
    FetchedWords s 0xF4800800 0 ∧ badSlot 0xF4800800 (slotOf s.core.strand.pc) = false ∧
    decodeWords 0xF4800800 0 = .ok (.publish 1) ∧ Instr.isLong (.publish 1) = true ∧ splitsBody s.core.strand = true :=
  ⟨⟨⟨rfl, _, rfl, rfl, rfl⟩, ⟨rfl, _, rfl, rfl, rfl⟩⟩, rfl, rfl, rfl, rfl⟩
theorem test_hyp_StepChecks_lost :
    let s := patched 0x08221800 fun t => { t with lost := lineG 1 }
    FetchedWords s 0x08221800 0 ∧ badSlot 0x08221800 (slotOf s.core.strand.pc) = false ∧
    decodeWords 0x08221800 0 = .ok (.add 1 2 3) ∧
    failsSix s.core.strand (rowSix s.cur s.core.strand (.add 1 2 3)) = false ∧
    ∃ l, lostLine s.core.strand (.add 1 2 3) (idleLines s (.add 1 2 3)) = some l :=
  ⟨⟨⟨rfl, _, rfl, rfl, rfl⟩, rfl⟩, rfl, rfl, rfl, _, rfl⟩
/-- A write of TVEC whose operand fails row 6 while the line of TVEC is lost. -/
theorem test_hyp_StepChecks_six :
    let s := patched 0xD0011004 fun t => { t.writeG 1 1 with lost := [0x2800] }
    FetchedWords s 0xD0011004 0 ∧ badSlot 0xD0011004 (slotOf s.core.strand.pc) = false ∧ decodeWords 0xD0011004 0 = .ok (.csrwTvec 1) ∧
    failsSix s.core.strand (rowSix s.cur s.core.strand (.csrwTvec 1)) = true ∧
    ∃ l, lostLine s.core.strand (.csrwTvec 1) (idleLines s (.csrwTvec 1)) = some l :=
  ⟨⟨⟨rfl, _, rfl, rfl, rfl⟩, rfl⟩, rfl, rfl, rfl, _, rfl⟩
theorem test_hyp_StepChecks_wait :
    let s := patched 0x04000000 id
    let s := { s with others := [(1, { s.core with strand := { s.core.strand with begun := true, changing := some 1 } })] }
    Ready s ∧ s.core.strand.evicted = none ∧ fetchWord s s.core.strand.pc = .error .wait :=
  ⟨by unfold Ready; exact ⟨rfl, rfl, rfl, rfl, rfl, rfl, rfl, rfl, rfl⟩, rfl, rfl⟩
/-- A ready state that is patched is ready. -/
theorem test_hyp_StepChecks_ready : Ready (patched 0xF4800800 id) := by
  unfold Ready; exact ⟨rfl, rfl, rfl, rfl, rfl, rfl, rfl, rfl, rfl⟩

/-! Traps, integer and control instructions. -/

/-- TrapsAndReturn: both ways a trap goes, each form that traps, and both kinds of EPC. -/
theorem test_hyp_TrapsAndReturn :
    StopFree (runs Strand.zero) ∧ Handled 0x04 { Strand.zero with tvec := 64 } ∧ ¬ Handled 0x10 { Strand.zero with tvec := 64 } ∧
    ¬ Handled 0x04 { Strand.zero with tvec := 64, status := 1 } ∧ ¬ Handled 0x04 Strand.zero ∧
    TrapForm (runs Strand.zero) (.trap 3) 0x04 false 0 ∧ TrapForm (runs Strand.zero) (.svc 3) 0x1A false 0 ∧
    TrapForm (runs Strand.zero) (.illegalInstruction false 9) 0x01 false 9 ∧
    TrapForm (runs Strand.zero) (.fetchFault 0x11 9) 0x11 true 9 ∧
    (runs Strand.zero).core.strand.epc.toNat % 4 = 0 ∧ (runs { Strand.zero with epc := 2 }).core.strand.epc.toNat % 4 ≠ 0 ∧
    StopFree (runs { Strand.zero with epc := 2 }) := by
  refine ⟨⟨rfl, rfl, rfl⟩, ⟨by decide, by decide, rfl⟩, by unfold Handled; decide, by unfold Handled; decide,
    by unfold Handled; decide, .trap 3, .svc 3, .short 9, .fetch _ _,
    rfl, by decide, ⟨rfl, rfl, rfl⟩⟩
/-- IntegerOperations: a form of each clause, with the register that is always zero among them. -/
theorem test_hyp_IntegerOperations : (∃ f, BinaryForm (.mulhu 0 1 2) 0 1 2 f) ∧ (∃ f, UnaryForm (.ins 1 2 32 31) 1 2 f) :=
  ⟨⟨_, .mulhu 0 1 2⟩, ⟨_, .ins 1 2 32 31 (by decide)⟩⟩
/-- CompareSelect and ControlTransfer: a guard that holds and one that does not; a target that starts a block or not. -/
theorem test_hyp_Guard :
    GuardOn ⟨false, 0⟩ (runs Strand.zero) ∧ ¬ GuardOn ⟨true, 0⟩ (runs Strand.zero) ∧
    ((runs (regs [(1, 64)])).core.strand.readG 1).toNat % 64 = 0 ∧ ((runs (regs [(1, 65)])).core.strand.readG 1).toNat % 64 ≠ 0 ∧
    StopFree (runs (regs [(1, 65)])) := by
  refine ⟨by unfold GuardOn; decide, by unfold GuardOn; decide, rfl, by decide, rfl, rfl, rfl⟩
/-- Loops: a count of zero or not; no active body; one active body that ends at the next word or not, at its last count
and before. -/
theorem test_hyp_Loops :
    (regs [(1, 2)]).readG 1 ≠ 0 ∧ (regs []).readG 1 = 0 ∧ Strand.zero.lact = 0 ∧
    (let t := { Strand.zero with lact := 4, llen := Strand.zero.llen.set 2 2, pc := 4, lcnt := Strand.zero.lcnt.set 2 1 }
     t.lact = 1#3 <<< (2 : Fin 3).val ∧ t.lbeg[2].toNat ≤ t.pc.toNat ∧
     t.pc.toNat < (t.lbeg[2] + W (4 * t.llen[2].toNat)).toNat ∧ t.pc + W 4 = t.lbeg[2] + W (4 * t.llen[2].toNat) ∧
     t.lcnt[2] = 1) ∧
    (let t := { Strand.zero with lact := 1, llen := Strand.zero.llen.set 0 2, pc := 0 }
     t.lact = 1#3 <<< (0 : Fin 3).val ∧ loopHits t 0 t.pc (t.pc + W 4) = false) ∧
    (let t := { Strand.zero with
        lact := 5
        pc := 64
        lbeg := #v[64, 0, 64]
        llen := #v[1, 0, 1]
        lcnt := #v[2, 0, 1] }
     t.lact = (1#3 <<< (2 : Fin 3).val) ||| (1#3 <<< (0 : Fin 3).val) ∧ t.lbeg[0] = t.lbeg[2] ∧ (0 : Fin 3) < 2 ∧
     loopHits t 2 t.pc (t.pc + W 4) = true ∧ loopHits t 0 t.pc (t.pc + W 4) = true ∧ t.lcnt[2] = 1 ∧ t.lcnt[0] ≠ 1) := by
  refine ⟨by decide, rfl, rfl, ⟨rfl, by decide, by decide, rfl, rfl⟩, ⟨rfl, rfl⟩, rfl, rfl, by decide, rfl, rfl, rfl, by decide⟩
/-- HintsAndEvents: the modes of the heartbeat, and WFE with the event, past its deadline and before both. -/
theorem test_hyp_HintsAndEvents :
    slice Strand.zero.wdmode 62 2 = 0 ∧ slice ({ Strand.zero with wdmode := W (2 ^ 63) }).wdmode 62 2 = 2 ∧
    slice ({ Strand.zero with wdmode := W (2 ^ 62) }).wdmode 62 2 = 1 ∧
    bitOf ({ Strand.zero with status := 4 }).status 2 = true ∧
    (let s := { runs (regs [(3, 7)]) with pkg := { Package.start with time := 7 } }
     s.core.strand.readG 3 ≠ 0 ∧ (s.core.strand.readG 3).toNat ≤ s.pkg.time) ∧
    bitOf (runs (regs [(3, 7)])).core.strand.status 2 = false ∧
    (runs (regs [(3, 7)])).pkg.time < ((runs (regs [(3, 7)])).core.strand.readG 3).toNat := by
  refine ⟨rfl, rfl, rfl, rfl, ⟨by decide, by decide⟩, rfl, by decide⟩

/-! Records for the witnesses, held by the record cache of cluster 0. -/

/-- A machine whose cluster 0 holds these records for the current context. -/
def withRecs (l : List (BitVec 18 × ORec)) (s : State) : State :=
  { s with clusters := [(0, { Cluster.zero with recs := l.map fun x => ⟨0, x.1, x.2⟩ })] }
/-- R334: a dense object of 4096 bytes at 0x200000 with every permission but execute, of a coherence attribute. -/
def dense (coh : Nat) : ORec :=
  [W (2 ^ 63 + 6 * 2 ^ 56 + coh * 2 ^ 52 + 15 * 2 ^ 43), W (4096 + 2 ^ 32), W (1 + 2 ^ 32), W 0x200000, 0, 0, 0, 0]
/-- R334, R356: a volume of 64 by 64 by 4 bytes whose tree has its root at 0x300000, with a background of 7. -/
def volume : ORec :=
  [W (2 ^ 63 + 2 * 2 ^ 60 + 6 * 2 ^ 56 + 2 * 2 ^ 54 + 15 * 2 ^ 43), W (64 + 64 * 2 ^ 32), W (4 + 2 ^ 32), W 0x300000, 0, 7, 0, 0]
/-- R256, R260: a mapped handle on this package, of 4096 bytes, with every permission. -/
def handleRec : ORec :=
  [W (2 ^ 63 + 5 * 2 ^ 60 + 15 * 2 ^ 43), 0, W (9 * 2 ^ 44), W 4096, 0, 0, 0, 0]
/-- A running core with object 1 dense, and G[1] at its offset `o`. -/
def holds (coh o : Nat) (t : Strand) : State := withRecs [(1, dense coh)] (runs (t.writeG 1 (objAddr 1 o)))

/-- FloatOperations: each kind of form quiet, and each with an enabled condition. -/
theorem test_hyp_FloatOperations :
    (∃ r, FloatForm Strand.zero (.fadd 1 2 3 0 0) 1 r ∧ Quiet false r.2 Strand.zero) ∧
    (∃ r, FloatForm Strand.zero (.fcvt 1 2 0 1 4) 1 r ∧ Quiet false r.2 Strand.zero) ∧
    (∃ r, FloatForm Strand.zero (.fcvt 1 2 0 1 2) 1 r ∧ Quiet false r.2 Strand.zero) ∧
    (∃ c f, FloatOut Strand.zero (.fcmp 3 2 1 0 1) c f ∧ Quiet false c Strand.zero) ∧
    (∃ c f, FloatOut Strand.zero (.fcvt 1 2 0 7 1) c f ∧ Quiet false c Strand.zero) ∧
    StopFree (runs { Strand.zero with fcsr := W (16 * 2 ^ 8) }) ∧
    (∃ r, FloatForm { Strand.zero with fcsr := W (16 * 2 ^ 8) } (.fdiv 1 2 3 0 0) 1 r ∧
      ¬ Quiet false r.2 { Strand.zero with fcsr := W (16 * 2 ^ 8) }) ∧
    (∃ c f, FloatOut { Strand.zero with fcsr := W (16 * 2 ^ 8), f := Strand.zero.f.set 2 (W (0x7FF * 2 ^ 52 + 1)) }
        (.fcmp 3 2 1 0 0) c f ∧
      ¬ Quiet false c { Strand.zero with fcsr := W (16 * 2 ^ 8) }) := by
  refine ⟨⟨_, .fadd .., rfl⟩, ⟨_, .narrow _ _ _ _ _ (by decide), rfl⟩, ⟨_, .convert _ _ _ _ _ (by decide) (by decide), rfl⟩,
    ⟨_, _, .fcmp .., rfl⟩, ⟨_, _, .toInt _ _ _ _ _ 0 (2 ^ 32 - 1) (by decide) (by decide) rfl rfl, rfl⟩, ⟨rfl, rfl, rfl⟩,
    ⟨_, .fdiv .., by unfold Quiet; decide⟩, ⟨_, _, .fcmp .., by unfold Quiet; decide⟩⟩
/-- Rounding: each mode's premise, a tie, and codes that are numbers. -/
theorem test_hyp_Rounding :
    2 * 3 = (2 * 1 + 1) * 2 ^ 1 ∧ fe4m3 ∈ [fp64, fp32, fp16, bf16, fe4m3, fe5m2] ∧ 0x7E < 2 ^ fe4m3.width ∧
    (decode fe4m3 0x7E).isNan = false ∧ (decode fp64 (0x7FF * 2 ^ 52)).isNan = false ∧ (decode fp16 1).isNan = false := by
  refine ⟨rfl, by simp, by decide, rfl, rfl, rfl⟩

/-- LoadResults: a byte, a doubleword and a float load, and a read of a software-coherent object. -/
theorem test_hyp_LoadResults :
    (∃ va f, LoadForm (holds 0 8 Strand.zero).core.strand (.ld 2 1 3 0) va 8 f ∧ va.toNat % 8 = 0 ∧
      ∃ ps, translate (holds 0 8 Strand.zero) (self (holds 0 8 Strand.zero)) va 8 .read = .ok ps ∧
        poisonAt (holds 0 8 Strand.zero) 0 ps = none) ∧
    (∃ va f, LoadForm (holds 1 4095 Strand.zero).core.strand (.ld 2 1 4 0) va 1 f ∧
      ∃ ps, translate (holds 1 4095 Strand.zero) (self (holds 1 4095 Strand.zero)) va 1 .read = .ok ps) ∧
    (∃ va f, LoadForm (holds 0 4 Strand.zero).core.strand (.fld 2 1 1 0x1FFC) va 4 f ∧ va = objAddr 1 0) := by
  refine ⟨⟨_, _, .signed _ _ _ _ (by decide), rfl, _, rfl, rfl⟩, ⟨_, _, .unsigned _ _ _ _ (by decide), _, rfl⟩,
    ⟨_, _, .fld _ _ _ _ (by decide), rfl⟩⟩
/-- StoreResults: a guard that is off, and a store to a hardware- and to a software-coherent object. -/
theorem test_hyp_StoreResults :
    (∃ va bs, StoreForm (holds 0 4088 Strand.zero).core.strand (.st ⟨false, 0⟩ 1 2 3 0) ⟨false, 0⟩ va bs ∧ bs.length = 8 ∧
      va.toNat % bs.length = 0 ∧ ∃ ps, translate (holds 0 4088 Strand.zero) (self (holds 0 4088 Strand.zero)) va 8 .write = .ok ps) ∧
    (∃ va bs, StoreForm (holds 1 2 Strand.zero).core.strand (.fst ⟨false, 0⟩ 1 2 2 0) ⟨false, 0⟩ va bs ∧ bs.length = 2 ∧
      va.toNat % bs.length = 0 ∧ ∃ ps, translate (holds 1 2 Strand.zero) (self (holds 1 2 Strand.zero)) va 2 .write = .ok ps) ∧
    MemoryOk (holds 0 8 Strand.zero) ∧ GuardOn ⟨false, 0⟩ (holds 0 8 Strand.zero) ∧
    ¬ GuardOn ⟨true, 0⟩ (holds 0 8 Strand.zero) := by
  refine ⟨⟨_, _, .st .., rfl, rfl, _, rfl⟩, ⟨_, _, .fst _ _ _ _ _ (by decide), rfl, rfl, _, rfl⟩, rfl,
    by unfold GuardOn; decide, by unfold GuardOn; decide⟩
/-- AccessTraps: an address that is not aligned, one past the object's end, and a poisoned one. -/
theorem test_hyp_AccessTraps :
    StopFree (holds 0 1 Strand.zero) ∧
    (∃ va f, LoadForm (holds 0 1 Strand.zero).core.strand (.ld 2 1 3 0) va 8 f ∧ va.toNat % 8 ≠ 0) ∧
    (∃ va f, LoadForm (holds 0 4096 Strand.zero).core.strand (.ld 2 1 3 0) va 8 f ∧ va.toNat % 8 = 0 ∧
      ∃ c v, translate (holds 0 4096 Strand.zero) (self (holds 0 4096 Strand.zero)) va 8 .read = .error (.trap c v)) ∧
    (let s := { holds 0 8 Strand.zero with poison := [0x200000] }
     ∃ va f, LoadForm s.core.strand (.ld 2 1 3 0) va 8 f ∧ va.toNat % 8 = 0 ∧
      ∃ ps o, translate s (self s) va 8 .read = .ok ps ∧ poisonAt s 0 ps = some o) ∧
    (∃ va bs, StoreForm (holds 0 1 Strand.zero).core.strand (.st ⟨false, 0⟩ 1 2 1 0) ⟨false, 0⟩ va bs ∧ va.toNat % bs.length ≠ 0) ∧
    (∃ va bs, StoreForm (holds 0 4096 Strand.zero).core.strand (.st ⟨false, 0⟩ 1 2 1 0) ⟨false, 0⟩ va bs ∧
      va.toNat % bs.length = 0 ∧
      ∃ c v, translate (holds 0 4096 Strand.zero) (self (holds 0 4096 Strand.zero)) va bs.length .write = .error (.trap c v)) := by
  refine ⟨⟨rfl, rfl, rfl⟩, ⟨_, _, .signed _ _ _ _ (by decide), by decide⟩, ⟨_, _, .signed _ _ _ _ (by decide), rfl, _, _, rfl⟩,
    ⟨_, _, .signed _ _ _ _ (by decide), rfl, _, _, rfl, rfl⟩, ⟨_, _, .st .., by decide⟩, ⟨_, _, .st .., rfl, _, _, rfl⟩⟩
/-! Coordinate and ordered accesses, atomics, the peer window, queues. -/

/-- Object 1 a volume, G[1] its address and G[2] coordinates; with the leaf of key 0 in the look-aside buffer or not. -/
def volumed (have_ : Bool) (gc : Word) : State :=
  let s := withRecs [(1, volume)] (runs ((Strand.zero.writeG 1 (objAddr 1 0)).writeG 2 gc))
  { s with core := { s.core with clb := if have_ then [⟨0, 1, 0, 0x400000⟩] else [] } }

/-- R359: a pool of four slots of 16 bytes at 0x500000. -/
def poolRec : ORec :=
  [W (2 ^ 63 + 3 * 2 ^ 60 + 6 * 2 ^ 56 + 15 * 2 ^ 43), W (64 + 16 * 4 + 2 ^ 32), W (1 + 2 ^ 32), W 0x500000, W 2, 0, 0, 0]
/-- R338: a mapped object of 4096 bytes whose map is at 0x200000. -/
def mapped : ORec := (dense 0).set 0 (W (2 ^ 63 + 2 ^ 60 + 6 * 2 ^ 56 + 15 * 2 ^ 43))
/-- R14: an offset of the core's own scratchpad. -/
def localSp0 (o : Nat) : Word := W (2 ^ 63 + o)
/-- CoordinateAccess: an element of a dense object, a leaf that the tree lacks and one that it has, read and written. -/
theorem test_hyp_CoordinateAccess :
    (∃ ps, ElementAt (holds 0 0 Strand.zero) (objAddr 1 0) 4095 1 .read (dense 0) ps ∧
      poisonAt (holds 0 0 Strand.zero) 0 ps = none) ∧
    LeafAt (volumed false 0) (objAddr 1 0) 0 1 .read volume none ∧
    LeafAt (volumed true 0) (objAddr 1 0) 0 1 .read volume (some 0x400000) ∧
    (∃ p, ElementAt (holds 1 0 Strand.zero) (objAddr 1 0) 4095 1 .write (dense 1) [p] ∧ p.len = 2 ^ (0 : BitVec 2).toNat) ∧
    LeafAt (volumed true 0) (objAddr 1 0) 0 1 .write volume (some 0x400000) ∧
    LeafAt (volumed false 0) (objAddr 1 0) 0 1 .write volume none ∧
    poolOf (volumed false 0) (self (volumed false 0)) volume = none ∧ StopFree (volumed false 0) := by
  refine ⟨⟨_, ⟨rfl, by decide, rfl, rfl, rfl⟩, rfl⟩, ⟨rfl, rfl, rfl, rfl, _, _, rfl⟩, ⟨rfl, rfl, rfl, rfl, _, _, rfl⟩,
    ⟨_, ⟨rfl, by decide, rfl, rfl, rfl⟩, rfl⟩, ⟨rfl, rfl, rfl, rfl, _, _, rfl⟩, ⟨rfl, rfl, rfl, rfl, _, _, rfl⟩, rfl, ⟨rfl, rfl, rfl⟩⟩
/-- CoordinateAccess: a volume without the leaf whose pool has a tile. -/
theorem test_hyp_CoordinateAccess_tile :
    let s := withRecs [(0, poolRec), (1, volume)] { volumed false 0 with mem := memSetWord (memSetWord [] 0x500000 1) 0x500040 0x400000 }
    MemoryOk s ∧ coordRecord s (objAddr 1 0) .write = .ok volume ∧ volume.kind = kSPARSE ∧ coordShape volume 0 = .ok () ∧
    2 * 2 ^ (0 : BitVec 2).toNat = volume.nib ∧ NextTile s volume poolRec 0x400000 ∧
    (∃ m, leafOf s (self s) (objOf (objAddr 1 0)) volume (objAddr 1 0) 0 (volume.keyAt 0) false false = .ok (none, volume.levels, m)) ∧
    leafEntry s (volume.keyAt 0) (volume.levels - 1) volume.place = 0x300000 ∧ Apart 0x300000 8 0x400000 volume.leafBytes ∧
    Apart 0x300000 8 (poolRec.place + 8) 8 ∧ Apart (poolRec.place + 8) 8 0x400000 volume.leafBytes := by
  refine ⟨rfl, rfl, rfl, rfl, rfl, ⟨rfl, by decide, rfl, by decide, by decide, rfl⟩, ⟨_, rfl⟩, by decide, .inl (by decide), .inl (by decide),
    .inr (by decide)⟩
/-- CoordinateAccess: a fault of each check. -/
theorem test_hyp_CoordinateAccess_faults :
    CoordFault (runs Strand.zero) (localSp0 8) 0 1 .read 0x02 (localSp0 8) ∧
    CoordFault (runs Strand.zero) (objAddr 0x3F001 0) 0 1 .read 0x11 (objAddr 0x3F001 0) ∧
    (∃ c v, CoordFault (runs Strand.zero) (objAddr 1 0) 0 1 .read c v) ∧
    (∃ c v, CoordFault (withRecs [(1, (dense 0).set 0 (W (2 ^ 63 + 6 * 2 ^ 56 + 2 ^ 43)))] (runs Strand.zero)) (objAddr 1 0) 0 1 .write c v) ∧
    CoordFault (withRecs [(1, poolRec)] (runs Strand.zero)) (objAddr 1 0) 0 1 .read 0x11 (objAddr 1 0) ∧
    CoordFault (holds 0 0 Strand.zero) (objAddr 1 0) 0 2 .read 0x02 (objAddr 1 0) ∧
    CoordFault (holds 0 0 Strand.zero) (objAddr 1 0) 0x10000 1 .read 0x12 0x10000 ∧
    (∃ c v, CoordFault (withRecs [(1, mapped)] (runs Strand.zero)) (objAddr 1 0) 0 1 .read c v) := by
  refine ⟨.space (by decide), .peer rfl rfl rfl, ⟨_, _, .object _ _ rfl rfl rfl rfl⟩, ⟨_, _, .record _ _ _ rfl rfl rfl rfl rfl⟩,
    .kind _ rfl rfl rfl rfl rfl (.inl rfl), .width _ rfl (by decide), .shape _ rfl rfl ⟨1, by decide, .inl (by decide)⟩,
    ⟨_, _, .place _ _ _ rfl rfl rfl (by decide) rfl⟩⟩
/-- OrderedAccess: its clauses, at the home of a software-coherent line and not, and with stores still posted. -/
theorem test_hyp_OrderedAccess :
    (∃ p, translate (holds 1 8 Strand.zero) (self (holds 1 8 Strand.zero)) (objAddr 1 8) 8 .read = .ok [p] ∧
      poisonAt (holds 1 8 Strand.zero) 0 [p] = none ∧ AtHome ⟨2, 0⟩ [p] ∧ ¬ AtHome ⟨1, 0⟩ [p]) ∧
    (∃ p, translate (holds 1 8 Strand.zero) (self (holds 1 8 Strand.zero)) (objAddr 1 8) 8 .write = .ok [p]) ∧
    MemoryOk (holds 1 8 Strand.zero) ∧ Settled (holds 1 8 Strand.zero) ∧
    (runs { Strand.zero with peer := ⟨none, none, [4], none⟩ }).core.strand.peer.posted ≠ [] := by
  refine ⟨⟨_, rfl, rfl, ⟨by decide, _, List.mem_singleton.2 rfl, rfl⟩, fun h => absurd h.1 (by decide)⟩, ⟨_, rfl⟩, rfl,
    ⟨rfl, rfl⟩, by decide⟩
/-- Atomics: both widths, the compare that succeeds and the one that fails. -/
theorem test_hyp_Atomics :
    (∃ f, AmoForm (.amoMaxu ⟨false, 0⟩ 2 1 true 3 ⟨3, 2⟩) ⟨false, 0⟩ 2 1 true 3 ⟨3, 2⟩ f) ∧
    (∃ f, AmoForm (.amoFadd ⟨false, 0⟩ 2 1 false 0 ⟨3, 2⟩) ⟨false, 0⟩ 2 1 false 0 ⟨3, 2⟩ f) ∧
    (∃ ps, translate (holds 0 4 Strand.zero) (self (holds 0 4 Strand.zero)) (objAddr 1 4) 4 .atomic = .ok ps ∧
      poisonAt (holds 0 4 Strand.zero) 0 ps = none ∧
      bytesNat (bytesAt (holds 0 4 Strand.zero) ps) = ((holds 0 4 Strand.zero).core.strand.readG 2).toNat % 2 ^ 32 ∧
      bytesNat (bytesAt (holds 0 4 Strand.zero) ps) ≠ ((holds 0 4 (regs [(2, 9)])).core.strand.readG 2).toNat % 2 ^ 32) := by
  refine ⟨⟨_, .maxu ..⟩, ⟨_, .fadd ..⟩, ⟨_, rfl, rfl, rfl, by decide⟩⟩

/-- A strand that names handle 1 in G[1], with a state of its requests. -/
def peers (p : PeerLink) : State :=
  withRecs [(0x3F001, handleRec)] (runs { (Strand.zero.writeG 1 (objAddr 0x3F001 8)) with peer := p })
/-- PeerOperations: a form, the answers, a request not yet sent, and one awaited. -/
theorem test_hyp_PeerOperations :
    (∃ va op f, PeerForm (peers .none) (.orderedLoad 2 1 3 ⟨4, 2⟩ false) va 8 [.read] op false 4 f ∧
      inPeerWindow va = true ∧ va.toNat % 8 = 0) ∧
    (peers ⟨some 0, some (.done 7 []), [], none⟩).core.strand.peer.answer = some (.done 7 []) ∧
    (peers ⟨some 0, some .poisoned, [], none⟩).core.strand.peer.answer = some .poisoned ∧
    (peers ⟨some 0, some .failed, [], none⟩).core.strand.peer.answer = some .failed ∧
    StopFree (peers ⟨some 0, some .poisoned, [], none⟩) ∧ StopFree (peers ⟨some 0, some .failed, [], none⟩) ∧
    lookup (peers .none) (self (peers .none)) 0x3F001 (objAddr 0x3F001 8) = .ok handleRec ∧
    peerChecks handleRec (objAddr 0x3F001 8) 8 [.read] = .ok () ∧ peerChecks handleRec (objAddr 0x3F001 8) 8 [.write] = .ok () ∧
    handleRec.handleState = 0 ∧ ORec.permits (handleRec.set 0 (W (2 ^ 63 + 5 * 2 ^ 60 + 13 * 2 ^ 43))) .write = false ∧ handleRec.grant < 4096 + 8 ∧
    Settled (peers .none) ∧ handleReachable (peers .none) handleRec = true ∧ (peers ⟨some 3, none, [], none⟩).core.strand.peer.wait = some 3 := by
  refine ⟨⟨_, _, _, .load .., rfl, rfl⟩, rfl, rfl, rfl, ⟨rfl, rfl, rfl⟩, ⟨rfl, rfl, rfl⟩, rfl, rfl, rfl, rfl, rfl, by decide, ⟨rfl, rfl⟩, rfl, rfl⟩

/-- A strand whose queue 0 sends to queue 1 of core 1, and core 1 with that queue open to it at a count. -/
def sends (n : BitVec 5) : State :=
  let t := { Strand.zero with q := Strand.zero.q.set 0 ⟨BitVec.ofNat 11 (1 + 1 * 16 + 1 * 256), 0, 0, Vector.replicate 16 0⟩ }
  let u := { Strand.zero with q := Strand.zero.q.set 1 ⟨BitVec.ofNat 11 (2 + 128), 0, n, Vector.replicate 16 0⟩ }
  { runs t with others := [(1, { Core.vacant with mode := .running, strand := u })] }
/-- Queues: bindings that are legal or not, a receiver with room and one without, a queue with an entry and an empty one. -/
theorem test_hyp_Queues :
    bindOk 0 (W (1 + 1 * 16)) = true ∧ bindOk 0 1 = false ∧ StopFree (runs Strand.zero) ∧
    ((sends 15).core.strand.readQ 0).kind = 1 ∧ sendTarget 0 ((sends 15).core.strand.readQ 0) = 1 ∧
    Room (sends 15) ((sends 15).core.strand.readQ 0) 1 ∧ Room (sends 16) ((sends 16).core.strand.readQ 0) 0 ∧
    2 ≤ ((coreGet (sends 15) 1).strand.readQ 1).kind ∧ 0 < ((coreGet (sends 15) 1).strand.readQ 1).count.toNat ∧
    ((coreGet (sends 0) 1).strand.readQ 1).count = 0 ∧ ((runs Strand.zero).core.strand.readQ 0).kind = 0 ∧
    sendTarget (sends 15).cur ((sends 15).core.strand.readQ 0) ≠ (sends 15).cur := by
  refine ⟨rfl, rfl, ⟨rfl, rfl, rfl⟩, rfl, rfl, ⟨fun _ => rfl, fun h => absurd ⟨by decide, by decide, by decide, by decide⟩ h⟩,
    ⟨fun _ => rfl, fun _ => rfl⟩, by decide, by decide, rfl, rfl, by decide⟩
/-! Vectors, tiles and matrices. -/

theorem quiet_zero (v : Bool) (c : Conds) : Quiet v c Strand.zero := by
  cases v <;> exact BitVec.and_zero
theorem rows_free (r w : List VReg) : RowsFree (runs Strand.zero) r w :=
  ⟨fun _ h => (nomatch h), fun _ _ => BitVec.getLsbD_zero⟩
/-- A strand whose four accumulators have these types (R154). -/
def typed (a b c d : BitVec 3) : Strand := { Strand.zero with ty := #v[a, b, c, d] }

/-- VectorArithmetic: a floating-point form that is typed, an integer one that saturates, and ones that are not typed. -/
theorem test_hyp_VectorArithmetic :
    ArithForm (.vfma 0 1 2 7) .fma 0 1 2 7 ∧ (∀ v ∈ VOp.fma.sources 0 1 2, Strand.zero.lane v = Strand.zero.lane 0) ∧
    VOp.fma.modeOk (Strand.zero.lane 0) 7 = true ∧ RowsFree (runs Strand.zero) (VOp.fma.sources 0 1 2) [0] ∧
    (∀ c, Quiet true c Strand.zero) ∧ VOp.add.modeOk ((typed 4 4 4 4).lane 0) 1 = true ∧
    (typed 0 1 0 0).lane 16 ≠ (typed 0 1 0 0).lane 0 ∧ VOp.add.modeOk ((typed 4 4 4 4).lane 0) 2 = false ∧
    StopFree (runs (typed 0 1 0 0)) := by
  refine ⟨.fma .., by decide, rfl, rows_free _ _, quiet_zero true, rfl, by decide, rfl, ⟨rfl, rfl, rfl⟩⟩
/-- VectorLogic. -/
theorem test_hyp_VectorLogic :
    (∃ f, LogicForm (.vxor 1 2 3) 1 2 3 f) ∧ (∃ n f, ShiftForm (typed 5 5 5 5) 8 (.vsra 1 2 3) 1 [2, 3] n f) ∧
    (∃ n f, ShiftForm (typed 4 4 4 4) 16 (.vslli 1 2 63) 1 [2] n f) ∧ (typed 5 5 5 5).lane 1 = .int 8 ∧
    (∀ v ∈ [(2 : VReg), 3], (typed 5 5 5 5).lane v = .int 8) ∧ (∃ f, MaskForm (.mnot 7 6) 7 6 6 f) ∧
    RowsFree (runs (typed 5 5 5 5)) [2, 3] [1] := by
  refine ⟨⟨_, .xor ..⟩, ⟨_, _, .sra ..⟩, ⟨_, _, .slli ..⟩, rfl, by decide, ⟨_, .not ..⟩,
    ⟨fun _ h => (nomatch h), fun _ _ => BitVec.getLsbD_zero⟩⟩
/-- VectorMasks: floating-point and unsigned integer compares. -/
theorem test_hyp_VectorMasks :
    Strand.zero.lane 3 = Strand.zero.lane 2 ∧ (Strand.zero.lane 2).isInt = false ∧ ((typed 1 1 1 1).lane 2).isInt = true ∧
    (2 : BitVec 3) ≠ 6 ∧ RowsFree (runs Strand.zero) [2, 3] [1] ∧ GuardOn ⟨true, 3⟩ (runs Strand.zero) ∧
    ¬ GuardOn ⟨false, 3⟩ (runs Strand.zero) := by
  refine ⟨rfl, rfl, rfl, by decide, rows_free _ _, by unfold GuardOn; decide, by unfold GuardOn; decide⟩
/-- VectorConversions: a narrowing at its last part, a widening at its last part, and between integers. -/
theorem test_hyp_VectorConversions :
    ConvertForm Strand.zero (.vcvtToE5m2 0 1 3 0) (.fp fp32) (.fp fe5m2) 0 1 3 0 ∧
    3 < Max.max (Lane.fp fp32).count (Lane.fp fe5m2).count / Min.min (Lane.fp fp32).count (Lane.fp fe5m2).count ∧
    ConvertForm (typed 1 5 0 0) (.vcvt 0 16 3 0) (.int 8) (.int 32) 0 16 3 0 ∧
    3 < Max.max (Lane.int 8).count (Lane.int 32).count / Min.min (Lane.int 8).count (Lane.int 32).count ∧
    RowsFree (runs Strand.zero) [1] [0] := by
  refine ⟨.toE5m2 .., by decide, .plain .., by decide, rows_free _ _⟩
/-- VectorReductions and VPERM, on floating-point and on integer lanes. -/
theorem test_hyp_VectorReductions :
    ReduceForm (.vredMax 0 1 0) .max 0 1 0 ∧ ReduceForm (.vredSum 0 1 1) .add 0 1 1 ∧ VOp.max.modeOk (Strand.zero.lane 0) 0 = true ∧
    VOp.add.modeOk ((typed 1 1 1 1).lane 0) 1 = true ∧ Strand.zero.lane 0 = .fp fp32 ∧ ((typed 1 1 1 1).lane 0).isInt = true ∧
    (typed 0 1 0 0).lane 1 = (typed 0 1 0 0).lane 0 ∧ (typed 0 1 0 0).lane 16 = .int ((typed 0 1 0 0).lane 0).width := by
  refine ⟨.max .., .sum .., rfl, rfl, rfl, rfl, rfl, rfl⟩
/-- VectorSpecial and VectorNarrow. -/
theorem test_hyp_VectorSpecial : (∃ g, SpecialForm Strand.zero (.vexp2 0 1) 0 1 g) ∧ (∃ g, SpecialForm Strand.zero (.vscl2 0 1 3) 0 1 g) ∧
    (typed 2 2 2 2).lane 0 = .fp bf16 := ⟨⟨_, .exp2 ..⟩, ⟨_, .scl2 ..⟩, rfl⟩
theorem test_hyp_VectorNarrow : (4 : BitVec 3).toNat ≤ 4 ∧ (typed 1 5 0 0).lane 16 = .int 8 ∧ (typed 1 5 0 0).lane 0 = .int 32 ∧
    ((typed 1 5 0 0).lane 0).isInt = true ∧ 4 < ((typed 1 5 0 0).lane 0).width ∧ (7 : BitVec 4).toNat < ((typed 1 5 0 0).lane 0).width / 4 := by
  decide

/-- A share of all of a scratchpad of 256 KiB, with an arena of 32 KiB and a carve-out at its end. -/
def layout0 : Layout := ⟨0, 0x8000, 0, 0x40000, 0x3F000, 0x40000⟩
/-- The context of tag 0 with all of the scratchpad of core 0 as its share, nothing spilled there. -/
def context : Context where
  tag := 0
  part := 0
  mode := 0
  limit := 0
  hold := false
  solo := false
  weight := 0
  ortBase := 0
  image := 0
  groups := 0
  images := 4
  layouts := [layout0]
  saveArea := 0
  ovf := []
  dring := 0
  args := 0
  pools := []
  launches := []
  areas := []
  cores := [0, 1]
  held := [⟨0, 0, layout0⟩, ⟨1, 0, layout0⟩]
  strands := 1
/-- A running core whose share is its context's. -/
def shares (t : Strand) : State :=
  let s := runs t
  { s with svc := { s.svc with contexts := [context] } }
/-- R14: an offset of the core's own scratchpad. -/
def localSp (o : Nat) : Word := W (2 ^ 63 + o)

/-- VectorMemory: rows in the scratchpad with full and with empty granules, a plain row of an object, lanes of VLDS. -/
theorem test_hyp_VectorMemory :
    (let s := shares (regs [(1, localSp 0x80)])
     (rowAt s.core.strand 1 63).toNat % 16 = 0 ∧ spaceOf (rowAt s.core.strand 1 63) = 2 ∧
     ∃ ps, translate s (self s) (rowAt s.core.strand 1 63) 128 .read = .ok ps ∧ poisonAt s 0 ps = none ∧
       translate s (self s) (rowAt s.core.strand 1 63) 128 .write = .ok ps ∧ ps.head?.map (·.key) = some (spBase 0) ∧ s.empty = []) ∧
    (let s := { shares (regs [(1, localSp 0x80)]) with empty := [spBase 0 + 0x90] }
     ∃ x ∈ s.empty, ¬ (x ∈ s.poison ∨ x + 16 ≤ spBase 0 + 0x80 ∨ spBase 0 + 0x80 + 128 ≤ x)) ∧
    (let s := shares (regs [(1, localSp 0x80)])
     ∃ ps, translate s (self s) (rowAt s.core.strand 1 0) 128 .write = .ok ps ∧ (∀ p ∈ ps, p.kind ≠ .sc) ∧
       ps.Pairwise (fun p q => p.key + p.len ≤ q.key ∨ q.key + q.len ≤ p.key) ∧ MemoryOk s) ∧
    (let s := holds 0 256 Strand.zero
     ∃ ps, translate s (self s) (rowAt s.core.strand 1 0) 128 .read = .ok ps) ∧
    (let s := holds 0 256 Strand.zero
     let t0 := s.core.strand
     ∃ q : Nat → List Piece, ∀ k < (t0.lane 5).count, (t0.readG 1 + W k * t0.readG 0).toNat % 4 = 0 ∧
       translate s (self s) (t0.readG 1 + W k * t0.readG 0) 4 .read = .ok (q k) ∧ poisonAt s 0 (q k) = none) ∧
    (let s := runs (regs [(1, localSp 0x80)])
     StopFree s ∧ spaceOf (rowAt s.core.strand 1 0) = 2 ∧ ∃ c v, translate s (self s) (rowAt s.core.strand 1 0) 128 .write = .error (.trap c v)) := by
  refine ⟨⟨rfl, rfl, _, rfl, rfl, rfl, rfl, rfl⟩, ⟨_, List.mem_singleton.2 rfl, by decide⟩, ⟨_, rfl, by decide, by decide, rfl⟩,
    ⟨_, rfl⟩, ⟨fun _ => [⟨0x200100, 4, .hc⟩], fun k h => ?_⟩, ⟨rfl, rfl, rfl⟩, rfl, _, _, rfl⟩
  have e : (W k * (holds 0 256 Strand.zero).core.strand.readG 0) = 0 := BitVec.mul_zero
  rw [e]; exact ⟨rfl, rfl, rfl⟩

/-- A matrix command of the current strand that names accumulator 1. -/
def command : MxCmd :=
  ⟨7, 0, 0, 0, false, 0, 6, 1, 0, 0, false, false, false, false, false, false, 0, 0, 0, 1, 16, true, 0, false⟩
/-- A machine whose cluster 0 has this matrix unit. -/
def unitOf (u : MxUnit) (s : State) : State := { s with clusters := [(0, { Cluster.zero with mx := u })] }
set_option maxRecDepth 20000 in
/-- TileRegisters and TileMemory: free and busy accumulators, predicates, a tile that can be read and stored. -/
theorem test_hyp_Tiles :
    AccsFree (runs Strand.zero) (· = 1) ∧ ¬ AccsFree (unitOf { MxUnit.zero with queue := [command] } (runs Strand.zero)) (· = 1) ∧
    ¬ AccsFree (unitOf { MxUnit.zero with queue := [command] } (runs Strand.zero)) (fun i => (2#4).getLsbD i.toNat = true) ∧
    Strand.zero.readZ 0 = true ∧ Strand.zero.readZ 1 = false ∧
    (let s := shares (regs [(1, localSp 0x1000)])
     (s.core.strand.readG 1).toNat % 2048 = 0 ∧ (∃ ps, translate s (self s) (s.core.strand.readG 1) 2048 .read = .ok ps) ∧
     (∃ ps, translate s (self s) (s.core.strand.readG 1) 32 .read = .ok ps ∧ poisonAt s 0 ps = none) ∧
     ∃ ps, translate s (self s) (s.core.strand.readG 1) 2048 .write = .ok ps ∧ MemoryOk s) := by
  refine ⟨fun _ h => (nomatch h), fun h => h command (List.mem_singleton.2 rfl) rfl rfl,
    fun h => h command (List.mem_singleton.2 rfl) rfl rfl, rfl, rfl, rfl, ⟨_, rfl⟩, ⟨_, rfl, rfl⟩, ⟨_, rfl, rfl⟩⟩

/-- The fields of an integer TMMA or TMMAK on accumulator 0, its tiles at G[1] and G[2]. -/
def matOp (steps : BitVec 12) : MatOp := ⟨6, 0, 0, 1, 2, 0, 0, false, false, false, false, false, false, steps⟩
/-- A strand ready for it, at a step. -/
def matStrand (k : Nat) : Strand :=
  { (regs [(1, localSp 0x2000), (2, localSp 0x4000)]) with ty := #v[1, 0, 0, 0], mstep := W k }
set_option maxRecDepth 20000 in
/-- MatrixEnqueue: room and no room; the only step, a step before the last and the last. -/
theorem test_hyp_MatrixEnqueue :
    (matStrand 0).readZ 0 = true ∧ (matStrand 0).readZ 1 = false ∧
    matrixChecks (shares (matStrand 0)) (.tmma (matOp 0)) (matOp 0) = .ok () ∧ QueueRoom (shares (matStrand 0)) ∧
    matrixChecks (shares (matStrand 1)) (.tmmak (matOp 1)) (matOp 1) = .ok () ∧
    slice (matStrand 1).mstep 0 12 = (matOp 1).steps.toNat ∧ slice (matStrand 0).mstep 0 12 < (matOp 1).steps.toNat ∧
    matrixChecks (shares (matStrand 2)) (.tmmak (matOp 1)) (matOp 1) = .ok () ∧ (matOp 1).steps.toNat < slice (matStrand 2).mstep 0 12 ∧
    (matOp 0).steps = 0 ∧
    matrixChecks (unitOf { MxUnit.zero with queue := List.replicate 8 command } (shares (matStrand 0))) (.tmma (matOp 0)) (matOp 0) = .ok () ∧
    ¬ QueueRoom (unitOf { MxUnit.zero with queue := List.replicate 8 command } (shares (matStrand 0))) := by
  refine ⟨rfl, rfl, rfl, ⟨by decide, by decide⟩, rfl, rfl, by decide, rfl, by decide, rfl, rfl, fun h => absurd h.1 (by decide)⟩
/-- MatrixInteger: an integer pair with and without saturation, a floating-point pair with a scale of 0xFF and without. -/
theorem test_hyp_MatrixInteger : pairIsInt command.pair = true ∧ command.sat = false ∧ ({ command with sat := true }).sat = true ∧
    (9 : BitVec 4).toNat ≤ 9 ∧ pairIsInt 9 = false ∧ ({ command with scA := 0xFF }).scA = 0xFF ∧ command.scA ≠ 0xFF ∧ command.scB ≠ 0xFF ∧ (List.replicate 2048 (0 : Byte)).length = 2048 ∧
    (List.replicate (pairBBytes command.pair) (0 : Byte)).length = pairBBytes command.pair ∧ (List.replicate 16 (0 : Row)).length = 16 := by
  refine ⟨rfl, rfl, rfl, by decide, rfl, rfl, by decide, by decide, List.length_replicate, List.length_replicate, List.length_replicate⟩
/-- Thatch: a command that a stop has withdrawn and one that none has, a unit that is stalled and one that is not. -/
theorem test_hyp_Thatch_alone : ({ command with alone := true }).alone = true ∧ command.alone = false ∧
    stalled (runs Strand.zero) 0 = false ∧
    stalled { runs Strand.zero with pkg := { (runs Strand.zero).pkg with power := [(0, { Power.start with stall := some 10 })] } } 0 = true := by
  decide
/-- Thatch: a group to join, room for a new group, four held groups, and a deadline. -/
theorem test_hyp_Thatch :
    (let u := { MxUnit.zero with queue := [command], groups := [⟨[{ command with id := 3, strand := 1 }], 4, false⟩] }
     u.queue.find? (fun d => d.core == 0) = some command ∧
     (∀ g ∈ u.groups, ∀ d ∈ g.members, ¬ (d.strand = command.strand ∧ d.acc = command.acc)) ∧
     ∃ g, u.groups = [] ++ g :: [] ∧ joins command g = true) ∧
    (let g := fun n => (⟨[{ command with id := 3, strand := 1, pair := 0 }], n, false⟩ : MxGroup)
     let u := { MxUnit.zero with queue := [command], groups := [g 9, g 4, g 4, g 5] }
     (∀ g ∈ u.groups, joins command g = false) ∧ (u.groups.filter fun g => !g.ready).length = 4 ∧
     u.groups = [g 9] ++ g 4 :: [g 4, g 5] ∧ (∀ h ∈ u.groups.filter fun g => !g.ready, (g 4).deadline ≤ h.deadline) ∧
     ∀ h ∈ [g 9], (g 4).deadline < h.deadline) := by
  refine ⟨⟨rfl, by decide, _, rfl, rfl⟩, by decide, rfl, rfl, by decide, by decide⟩
/-- MatrixIssue: a ready group of class 3 and of another class, after three issues of class 3 and not; an issue that ends. -/
theorem test_hyp_MatrixIssue :
    (let u := { MxUnit.zero with groups := [⟨[command], 0, true⟩, ⟨[{ command with cls := 3 }], 0, true⟩] }
     u.issued = [] ∧ (∀ g ∈ u.groups, g.members ≠ []) ∧ (∃ g ∈ u.groups, g.ready = true) ∧
     (∃ h ∈ u.groups, h.ready = true ∧ h.cls = 3) ∧ u.recent ≠ [true, true, true] ∧ (∃ h ∈ u.groups, h.ready = true ∧ h.cls ≠ 3)) ∧
    (let r : MxResult := ⟨{ command with token := false }, List.replicate 16 1, List.replicate 16 true⟩
     let q : MxResult := { r with cmd := { r.cmd with core := 1, strand := 0x3000 } }
     let s := unitOf { MxUnit.zero with issued := [r, q] } (runs Strand.zero)
     stalled s 0 = false ∧ (∀ x ∈ [r, q], x.rows.length = 16 ∧ x.poison.length = 16) ∧
     [r, q].Pairwise (fun x y => ¬ (x.cmd.strand = y.cmd.strand ∧ x.cmd.acc = y.cmd.acc)) ∧
     findStrand r.cmd.strand s = some Strand.zero ∧ ∀ x ∈ [r, q], x.cmd.strand ≠ 0x6000) := by
  refine ⟨⟨rfl, by decide, by decide, by decide, by decide, by decide⟩, rfl, by simp, by decide, rfl, by decide⟩
/-! Frames, tasks, join records, stealing, control registers. -/

/-- The address of the join record at the first offset of cluster 0's SRAM that records may have, and its place. -/
def joinA : Word := W (3 * 2 ^ 62 + 0x1000)
def joinK : Nat := sramBase 0 + 0x1000
/-- A core with an arena, its current frame at offset 0x100 naming record `j`, and the record with a first word. -/
def framed (j w : Word) (g1 : Word) (dq : List Cont) : State :=
  let s := shares ((regs [(1, g1), (2, W (2 ^ 62 + 0x100))]))
  { s with
    mem := memSetWord (memSetWord s.mem (spBase 0 + 0x110) j) joinK w
    core := { s.core with falimit := 0x8000, ftop := 0x200, dqcap := 8, deque := dq } }
/-- A continuation whose frame is the current one. -/
def cont (j : Word) : Cont := ⟨objAddr 1 64, 1, W (2 ^ 62 + 0x100), j, 0⟩

theorem first_poison_nil (a n : Nat) : firstPoison [] a n = none := by
  induction n generalizing a with
  | zero => rfl
  | succ n ih => exact ih (a + 1)
theorem test_hyp_FrameStarts : FrameStarts (framed 0 0 0 []) 0x100 ∧ FrameStarts (framed joinA 0 0 []) 0x100 :=
  ⟨⟨by decide, by decide, by decide⟩, by decide, by decide, by decide⟩
theorem test_hyp_FrameAt :
    FrameAt (framed 0 0 0 []) .read 0x100 ∧ FrameAt (framed 0 0 0 []) .write 0x100 ∧
    FrameAt (framed joinA 2 joinA [cont 0, cont joinA]) .read 0x100 :=
  ⟨⟨test_hyp_FrameStarts.1, ⟨_, rfl⟩, first_poison_nil _ _⟩, ⟨test_hyp_FrameStarts.1, ⟨_, rfl⟩, first_poison_nil _ _⟩,
    ⟨by decide, by decide, by decide⟩, ⟨_, rfl⟩, first_poison_nil _ _⟩
/-- Frames: a current frame below the arena and one at FTOP; a header beyond the share, and one that is poisoned; a poisoned
record. -/
theorem test_hyp_Frames_outside :
    (let s := framed 0 0 0 []
     let s := strandSet s (s.core.strand.writeG 2 0)
     (s.core.strand.readG 2).toNat < (globalAt s s.cur s.core.base).toNat ∧ StopFree s) ∧
    (let s := framed 0 0 0 []
     let s := strandSet s (s.core.strand.writeG 2 (W (2 ^ 62 + 0x200)))
     (globalAt s s.cur s.core.top).toNat ≤ (s.core.strand.readG 2).toNat) :=
  ⟨⟨by decide, rfl, rfl, rfl⟩, by decide⟩
theorem test_hyp_Frames_share :
    let s := framed 0 0 0 []
    let s := { s with core := { s.core with ftop := 0x50000, falimit := 0x60000 } }
    let s := strandSet s (s.core.strand.writeG 2 (W (2 ^ 62 + 0x48000)))
    FrameStarts s 0x48000 ∧ ∃ c v, spSpan s (self s) (s.core.strand.readG 2) 64 .read = .error (.trap c v) :=
  ⟨⟨by decide, by decide, by decide⟩, _, _, rfl⟩
theorem test_hyp_Frames_poison :
    let s := { framed joinA 0 0 [] with poison := [spBase 0 + 0x100, joinK] }
    FrameStarts s 0x100 ∧ (∃ ps, spSpan s (self s) (s.core.strand.readG 2) 64 .read = .ok ps) ∧
    firstPoison s.poison (spBase s.cur + 0x100) 64 = some (spBase 0 + 0x100) ∧
    JoinAt s joinA joinK ∧ firstPoison s.poison joinK 16 = some joinK :=
  ⟨⟨by decide, by decide, by decide⟩, ⟨_, rfl⟩, by decide, rfl, by decide⟩
/-- Frames: a frame that fits, one that fits nowhere, and a current frame without a record and with one in each state. -/
theorem test_hyp_Frames :
    MemoryOk (framed 0 0 0 []) ∧ FrameFits (framed 0 0 0 []) 1 480 2048 ∧ (480 : BitVec 14) ≠ 0 ∧
    (∀ b, ¬ FrameFits (framed 0 0 0 []) 0 0x3FFF b) ∧ StopFree (framed 0 0 0 []) ∧
    FrameAt (framed 0 0 0 []) .read 0x100 ∧ headAt (framed 0 0 0 []) 0x100 2 = 0 ∧
    headAt (framed joinA 0 0 []) 0x100 2 = joinA ∧ joinA ≠ 0 ∧ SoundJoin (framed joinA 0 0 []) joinA joinK ∧
    countAt (framed joinA 0 0 []) joinK = 0 ∧ parkedAt (framed joinA 0 0 []) joinK = false ∧
    countAt (framed joinA 1 0 []) joinK ≠ 0 ∧ parkedAt (framed joinA (W (2 ^ 63)) 0 []) joinK = true := by
  refine ⟨rfl, ⟨by decide, by decide, by decide, by decide, by decide⟩, by decide, fun b h => ?_, ⟨rfl, rfl, rfl⟩,
    test_hyp_FrameAt.1, by decide, by decide, by decide, ⟨rfl, first_poison_nil _ _⟩, by decide, by decide, by decide, by decide⟩
  have h1 : (b + 64 * 0x3FFF : Nat) ≤ 0x8000 := h.2.2.2.2
  omega
/-- FTILE: a header that names a frame of 2 KiB alignment, and a tile in it at its last place; no tile. -/
theorem test_hyp_Frames_tile :
    let imm := 2 ^ 14 + 128
    let x := 6144
    x % 2048 = 0 ∧ 2048 ≤ frameAlign imm ∧ 64 ≤ x ∧ x + 2048 ≤ frameSize imm := by decide

theorem no_lines (s : State) (h : s.clusters = []) : LinesOk s := by
  intro c
  have e : clusterGet s c = Cluster.zero := by unfold clusterGet; rw [h]; rfl
  rw [e]; exact ⟨List.Pairwise.nil, fun l hl => nomatch hl⟩
/-- Tasks: SPAWN with room and without, TRET with the tail of the deque and with a count above one and at zero, SYNC
that goes on and that parks. -/
theorem test_hyp_Tasks :
    (framed joinA 0 0 []).core.deque.length < slice (framed joinA 0 0 []).core.dqcap 0 16 ∧
    slice (framed joinA 0 0 []).core.dqcap 0 16 ≤ (framed joinA 0 0 (List.replicate 8 (cont 0))).core.deque.length ∧
    Settled (framed joinA 0 0 []) ∧ bitOf (framed joinA 0 0 []).core.strand.status 1 = false ∧
    (framed joinA 0 0 []).core.strand.decDone = false ∧
    (framed joinA 2 joinA [cont 0, cont joinA]).core.deque = [cont 0] ++ [cont joinA] ∧ (cont joinA).jrec = joinA ∧
    (cont 0).jrec ≠ joinA ∧
    JoinAt (framed joinA 2 joinA []) ((framed joinA 2 joinA []).core.strand.readG 1) joinK ∧
    (framed joinA 2 joinA []).core.strand.readG 1 ≠ 0 ∧ 1 < countAt (framed joinA 2 joinA []) joinK ∧
    NoLineAt (framed joinA 2 joinA []) joinK ∧ countAt (framed joinA 0 joinA []) joinK = 0 ∧
    StopFree (framed joinA 0 joinA []) ∧ (strandSet (framed 0 0 0 []) { Strand.zero with decDone := true }).core.strand.decDone = true ∧
    (countAt (framed joinA (W (2 ^ 63 + 0x100 * 2 ^ 32 + 1)) joinA []) joinK = 1 ∧
      parkedAt (framed joinA (W (2 ^ 63 + 0x100 * 2 ^ 32 + 1)) joinA []) joinK = true) ∧
    bitOf ({ Strand.zero with status := 2 }).status 1 = true := by
  refine ⟨by decide, by decide, ⟨rfl, rfl⟩, rfl, rfl, rfl, rfl, by decide, rfl, by decide, by decide,
    ⟨no_lines _ rfl, fun l hl => nomatch hl⟩, by decide, ⟨rfl, rfl, rfl⟩, rfl, ⟨by decide, by decide⟩, rfl⟩
/-- Tasks, StealingAndDonation: a frame of the core's own, one of another core that fits and one that does not. -/
theorem test_hyp_Transfer :
    (∃ m, transferFrame (framed 0 0 0 []).cur (cont 0) (framed 0 0 0 []) = .ok (cont 0, m)) ∧
    frameAt (framed 0 0 0 []) 0 (cont 0).frame = some (0, 0x100) ∧ frameAt (framed 0 0 0 []) 0 (W (2 ^ 62 + 0x100100)) = some (1, 0x100) ∧
    (let s := framed 0 0 0 []
     (1 : CoreId) ≠ s.cur ∧ 512 % alignAt s (spBase 1 + 0x100) = 0 ∧ s.core.top ≤ 512 ∧ 512 < s.core.top + alignAt s (spBase 1 + 0x100) ∧
     512 + sizeAt s (spBase 1 + 0x100) ≤ s.core.limit ∧ s.core.limit ≤ 2 ^ 20) ∧
    (let s := framed 0 0 0 []
     let s := { s with mem := memSetWord s.mem (spBase 1 + 0x118) 0x3FFF }
     s.core.limit < 512 + sizeAt s (spBase 1 + 0x100) ∧
     ∃ n, transferFrame s.cur { cont 0 with frame := W (2 ^ 62 + 0x100100) } s = .error n) := by
  refine ⟨⟨_, rfl⟩, rfl, rfl, by decide, by decide, ⟨_, rfl⟩⟩
/-- JoinRecords: a pool with a record and an empty one, a record with nothing to count, one whose continuation is parked. -/
theorem test_hyp_JoinRecords :
    (let s := framed 0 0 0 []
     let s := { s with svc := { s.svc with contexts := [{ context with pools := [(0, [0x2000])] }] } }
     ∃ x, contextGet s (tagOf s.core.strand) = some x ∧ poolAt x (clusterOf s.cur) = [0x2000]) ∧
    (∃ x, contextGet (framed 0 0 0 []) (tagOf (framed 0 0 0 []).core.strand) = some x ∧ poolAt x (clusterOf 0) = []) ∧
    (let s := framed joinA 0 joinA []
     JoinAt s (s.core.strand.readG 1) joinK ∧ countAt s joinK = 0 ∧ parkedAt s joinK = false) ∧
    (let s := framed joinA (W (2 ^ 63 + 1)) joinA []
     JoinAt s (s.core.strand.readG 1) joinK ∧ countAt s joinK = 1 ∧ parkedAt s joinK = true ∧ NoLineAt s joinK ∧
     s.core.deque.length < slice s.core.dqcap 0 16) ∧
    (let s := framed joinA (W (2 ^ 63 + 1)) joinA (List.replicate 8 (cont 0))
     slice s.core.dqcap 0 16 ≤ s.core.deque.length) ∧
    (let s := { framed joinA 2 joinA [] with clusters := [] }
     LinesOk s) := by
  refine ⟨⟨_, rfl, rfl⟩, ⟨_, rfl, rfl⟩, ⟨rfl, by decide, by decide⟩,
    ⟨rfl, by decide, by decide, ⟨no_lines _ rfl, fun l hl => nomatch hl⟩, by decide⟩, by decide, no_lines _ rfl⟩

/-- R244: a ring of four slots of 64 bytes at 0x500000. -/
def ringRec (perms : Nat) : ORec :=
  [W (2 ^ 63 + 3 * 2 ^ 60 + 6 * 2 ^ 56 + perms * 2 ^ 43), W (64 + 64 * 4 + 2 ^ 32), W (1 + 2 ^ 32), W 0x500000,
    W (2 + 3 * 2 ^ 20), 0, 0, 0]
/-- StealingAndDonation: a strand that is idle, one that is not, one with a continuation arriving; DONATE on its first
turn, while it waits and answered; ACCEPT without a ring, with an empty one and with
a descriptor. -/
theorem test_hyp_Stealing :
    (let s := framed joinA 0 0 [cont 0]
     let s := { s with core := { s.core with mode := .idle } }
     s.core.mode = .idle ∧ s.core.deque = [] ++ [cont 0] ∧ ∃ c m, transferFrame s.cur (cont 0) { s with core := { s.core with deque := [] } } = .ok (c, m)) ∧ (runs Strand.zero).core.mode ≠ .idle ∧
    (let s := { runs Strand.zero with core := { Core.vacant with mode := .arriving (cont 0) } }
     s.core.mode = .arriving (cont 0)) ∧ ∀ e, (runs Strand.zero).core.mode ≠ .arriving e := by
  refine ⟨⟨rfl, rfl, _, _, rfl⟩, by decide, rfl, fun e h => by cases h⟩
theorem test_hyp_Donate :
    let s := withRecs [(0x3F001, handleRec), (1, dense 0)]
      (runs (regs [(1, objAddr 1 64), (2, objAddr 0x3F001 0)]))
    ∃ ps m q, s.core.strand.peer.answer = none ∧ s.core.strand.peer.wait = none ∧ (s.core.strand.readG 1).toNat % 64 = 0 ∧
      translate s (self s) (s.core.strand.readG 1) 64 .read = .ok ps ∧ poisonAt s 0 ps = none ∧
      bytesNat ((bytesAt s ps).take 8) % 64 = 0 ∧ inPeerWindow (s.core.strand.readG 2) = true ∧ offOf (s.core.strand.readG 2) = 0 ∧
      loadBytes s (s.core.strand.readG 1) 64 = .ok (bytesAt s ps, m) ∧
      lookup m (self m) (objOf (s.core.strand.readG 2)) (s.core.strand.readG 2) = .ok q ∧
      peerChecks q (s.core.strand.readG 2) 64 [.ewrite, .atomic] = .ok () ∧ handleReachable m q = true ∧ Settled s := by
  refine ⟨_, _, _, rfl, rfl, rfl, rfl, rfl, rfl, rfl, rfl, rfl, rfl, rfl, rfl, ⟨rfl, rfl⟩⟩
theorem test_hyp_Accept :
    (runs Strand.zero).core.dring = 0 ∧
    (let s := withRecs [(2, ringRec 15)] (runs Strand.zero)
     let s := { s with core := { s.core with dring := objAddr 2 0 } }
     RingAt s (ringRec 15) ∧ ringAt s (ringRec 15) 0 = ringAt s (ringRec 15) 1) ∧
    (let s := withRecs [(2, ringRec 15), (1, dense 0)] (runs (regs [(1, objAddr 1 64)]))
     let s := { s with mem := memSetWord [] 0x500000 1, core := { s.core with dring := objAddr 2 0 } }
     RingAt s (ringRec 15) ∧ ringAt s (ringRec 15) 0 ≠ ringAt s (ringRec 15) 1 ∧ firstPoison s.poison (oldestAt s (ringRec 15)) 64 = none ∧ (s.core.strand.readG 1).toNat % 64 = 0 ∧
     (∃ p, translate s (self s) (s.core.strand.readG 1) 64 .write = .ok p) ∧
     let u := { s with mem := memSetWord s.mem 0x500008 1 }
     ∃ p, translate u (self u) (s.core.strand.readG 1) 64 .write = .ok p ∧ (∀ x ∈ p, x.kind ≠ .sc) ∧
       p.Pairwise (fun x y => x.key + x.len ≤ y.key ∨ y.key + y.len ≤ x.key)) := by
  refine ⟨rfl, ⟨⟨by decide, rfl⟩, rfl⟩, ⟨by decide, rfl⟩, by decide, first_poison_nil _ _, rfl, ⟨_, rfl⟩, _, rfl, by decide, by decide⟩

theorem no_entry (s : State) (h : s.others = []) (f : s.svc.off = []) (d : s.core.deque = []) (w : CoreId) : probe s w = none := by
  have e : headEntry s w (tagOf s.core.strand) = none := by
    unfold headEntry coreGet
    rw [h, f]
    by_cases k : w = s.cur
    · simp [k, d]
    · simp [k, Core.vacant]
  unfold probe
  simp only [e, ite_self]
/-- StealingAndDonation: the head of a core's deque and of a parked one, with a record that counts it; no entry anywhere. -/
theorem test_hyp_Probe :
    (let s := framed joinA 1 joinA []
     let s := { s with core := { s.core with mode := .idle }, others := [(1, { Core.vacant with mode := .running, deque := [cont joinA] })] }
     ∃ c u, Head s 1 c u ∧ fenced s (clusterOf 1) = false ∧ JoinAt u c.jrec joinK ∧ countAt u joinK < 2 ^ 32 - 1) ∧
    (let o : Off := ⟨0, 1, Strand.zero, contBytes [cont joinA], 0, 0, false, .preempted, false, none, 0⟩
     let s := framed joinA 1 joinA []
     let s := { s with svc := { s.svc with off := [o] } }
     ∃ c u, Head s 1 c u ∧ JoinAt u c.jrec joinK) ∧
    (let s := runs Strand.zero
     let s := { s with core := { s.core with mode := .idle } }
     s.core.deque = [] ∧ s.core.dring = 0 ∧
       NoneTaken (roundOrder s 0 (terrierStep s.core.lfsr)) (withTerrier s (terrierStep s.core.lfsr))) := by
  refine ⟨⟨_, _, .own (cont joinA) [] (by decide) rfl rfl, rfl, rfl, by decide⟩,
    ⟨_, _, .parked (cont joinA) [] [] [] _ (fun h => h.1 rfl) rfl (fun _ h => nomatch h) rfl rfl rfl, rfl⟩, rfl, rfl, ?_⟩
  exact fun w _ => no_entry _ rfl rfl rfl w
/-- ControlRegisters: one register of each kind, values with and without reserved bits, loop lengths at their limits. -/
theorem test_hyp_ControlRegisters :
    (∃ m x, ReadOnly (runs Strand.zero) (0x030 : BitVec 12).toNat m x ∧ (7 : Word) &&& W m = 0) ∧
    (∃ m x, ReadOnly (runs Strand.zero) (0x0DA : BitVec 12).toNat m x ∧ W (2 ^ 32) &&& W m ≠ 0) ∧
    (0x0DB : BitVec 12).toNat ∉ assigned ∧ (0xFFF : BitVec 12).toNat ∉ assigned ∧ (∃ m x u, Writable Strand.zero 1 (0x000 : BitVec 12).toNat m x u ∧ (1 : Word) &&& W m = 0) ∧
    (∃ m x u, Writable Strand.zero 8 (0x000 : BitVec 12).toNat m x u ∧ (8 : Word) &&& W m ≠ 0) ∧
    (∃ m x u, Writable Strand.zero 64 (0x0C6 : BitVec 12).toNat m x u ∧ (64 : Word) &&& W m = 0) ∧
    StopFree (runs Strand.zero) ∧ (64 : Word).toNat % 64 = 0 ∧ (63 : Word).toNat % 64 ≠ 0 ∧
    (let v := W (256 + 2 ^ 16 + 2 ^ 48 + 2 ^ 49)
     (∀ k < 3, ¬ (bitOf v (48 + k) = true ∧ (slice v (16 * k) 16 = 0 ∨ 256 < slice v (16 * k) 16))) ∧ v.toNat < 2 ^ 51) ∧
    (let v := W (257 + 2 ^ 48)
     ∃ k < 3, bitOf v (48 + k) = true ∧ (slice v (16 * k) 16 = 0 ∨ 256 < slice v (16 * k) 16)) ∧
    2 ^ 51 ≤ (W (2 ^ 51)).toNat := by
  refine ⟨⟨_, _, .time, by decide⟩, ⟨_, _, .spgrp, by decide⟩, by decide, by decide, ⟨_, _, _, .status, by decide⟩, ⟨_, _, _, .status, by decide⟩, ⟨_, _, _, .lbeg2, by decide⟩,
    ⟨rfl, rfl, rfl⟩, rfl, by decide, ⟨by decide, by decide⟩, by decide, by decide⟩
/-! Coherence, logs, removed versions, rings and barriers, copies. -/

/-- A running core in cluster 0, which holds these records and lines, with a table of 64 records at 0. -/
def coherent (rs : List (BitVec 18 × ORec)) (l : List L1Line) (t : Strand) : State :=
  { runs { t with ortbase := W (6 * 2 ^ 52) } with
    clusters := [(0, { Cluster.zero with recs := rs.map fun x => ⟨0, x.1, x.2⟩, l1 := l })] }
/-- A line of object 1 with its first byte dirty, written by another core. -/
def dirtyLine : L1Line := ⟨0x200000, List.replicate 64 5, 1, 0, 1, false⟩
theorem lines_ok (rs : List (BitVec 18 × ORec)) (t : Strand) : LinesOk (coherent rs [dirtyLine] t) := by
  intro c
  by_cases h : c = 0
  · subst h; exact ⟨List.pairwise_singleton _ _, fun l hl => by rw [List.mem_singleton.1 hl]; rfl⟩
  · have e : clusterGet (coherent rs [dirtyLine] t) c = Cluster.zero := by
      unfold clusterGet coherent
      simp only [List.find?_cons, List.find?_nil]
      have : ((0 : ClusterId) == c) = false := by simpa using fun x => h x.symm
      rw [this]; rfl
    rw [e]; exact ⟨List.Pairwise.nil, fun l hl => nomatch hl⟩

/-- Reconcile: a range, a log and an object of a software-coherent object with a dirty line. -/
theorem test_hyp_Reconcile :
    let s := coherent [(1, dense 1)] [dirtyLine] (regs [(1, objAddr 1 0), (2, 4096)])
    MemoryOk s ∧ LinesOk s ∧ (∃ rs, ReconcileForm s (dense 1) (.rinv 1 2) true (objAddr 1 0) rs) ∧
    (∃ rs, ReconcileForm s (dense 1) (.rwbLog 1) false (objAddr 1 0) rs) ∧
    (∃ rs, ReconcileForm s (dense 1) (.rwbObj 1) false (objAddr 1 0) rs ∧ ActsOn s (dense 1) rs 0x200000) ∧
    spaceOf (objAddr 1 0) = 0 ∧ inPeerWindow (objAddr 1 0) = false ∧ lookup s (self s) 1 (objAddr 1 0) = .ok (dense 1) ∧
    recordChecks s (self s) (dense 1) .read (objAddr 1 0) = .ok () ∧ (dense 1).coh = cohSC := by
  refine ⟨rfl, lines_ok _ _, ⟨_, .rinv 1 2 (by decide) (by decide) (by decide)⟩, ⟨_, .rwbLog 1 fun _ _ h => nomatch (show none = some _ from h)⟩, ⟨_, .rwbObj 1, _, rfl, rfl⟩, rfl, rfl, rfl,
    rfl, rfl⟩
/-- Reconcile: an empty range, storage outside the objects, a peer's, a volume and a range beyond the object. -/
theorem test_hyp_Reconcile_forms :
    (regs [(2, 0)]).readG 2 = 0 ∧ spaceOf (localSp 0) ≠ 0 ∧ (regs [(2, 1)]).readG 2 ≠ 0 ∧ inPeerWindow (objAddr 0x3F001 0) = true ∧
    StopFree (runs Strand.zero) ∧ lookup (volumed true 0) (self (volumed true 0)) 1 (objAddr 1 0) = .ok volume ∧
    recordChecks (volumed true 0) (self (volumed true 0)) volume .read (objAddr 1 0) = .ok () ∧ volume.kind = kSPARSE ∧
    (dense 0).kind ≠ kSPARSE ∧ (dense 0).bytes < 4096 + 1 := by
  refine ⟨rfl, by decide, by decide, rfl, ⟨rfl, rfl, rfl⟩, rfl, rfl, rfl, by decide, by decide⟩
/-- ChangeAttribute: the same attribute, CP with another core in the way, another attribute with nothing in the way, and
each trap. -/
theorem test_hyp_ChangeAttribute :
    (let s := coherent [(1, dense 1)] [dirtyLine] (regs [(1, objAddr 1 0)])
     MemoryOk s ∧ LinesOk s ∧ DirtyOk s ∧ AttrAt s (objAddr 1 0) .write (dense 1) ∧ (dense 1).kind ≠ kRING ∧ (dense 1).kind ≠ kBARRIER ∧
     recordAddr s.core.strand.ortbase 1 = some 64 ∧ (dense 1).coh = (1 : BitVec 2).toNat ∧ (dense 1).coh ≠ (2 : BitVec 2).toNat ∧
     Taken s 1 (dense 1) ∧ (dense 1).coh ≠ (0 : BitVec 2).toNat ∧ StopFree s ∧ s.cmds = [] ∧
     (newCmd s false false 0 [] .none [1] []).ctx = tagOf s.core.strand) ∧ (dense 0).coh = cohHC ∧
    spaceOf (localSp 0) ≠ 0 ∧ inPeerWindow (objAddr 0x3F001 0) = true ∧
    (let s := coherent [(1, dense 1)] [] (regs [(1, objAddr 1 0)])
     ∃ c, lookup s (self s) 2 (objAddr 2 0) = .error (.trap c (objAddr 2 0))) ∧
    (ORec.part (dense 0 |>.set 0 (W (2 ^ 63 + 6 * 2 ^ 56 + 15 * 2 ^ 43 + 2 ^ 37)))) ≠ partOfCore (runs Strand.zero) 0 ∧
    (ringRec 15).kind = kRING ∧ (ringRec 15).permW = true ∧ (ringRec 1).permW = false ∧
    (let r : ORec := dense 0 |>.set 0 (W (2 ^ 63 + 6 * 2 ^ 56 + 2 * 2 ^ 52 + 15 * 2 ^ 43 + 2 ^ 26))
     r.coh = cohCP ∧ r.owner (runs Strand.zero) ≠ some 0) := by
  refine ⟨⟨rfl, lines_ok _ _, ⟨List.Pairwise.nil, fun _ h => nomatch h⟩, ⟨rfl, rfl, rfl, rfl, rfl, fun h => absurd h (by decide)⟩, by decide, by decide, rfl, rfl, by decide,
    .inl ⟨0, dirtyLine, List.mem_singleton.2 rfl, rfl, by decide, fun h => absurd h.2 (by decide)⟩, by decide, ⟨rfl, rfl, rfl⟩, rfl, rfl⟩, rfl,
    by decide, rfl, ⟨_, rfl⟩, by decide, rfl, rfl, rfl, rfl, by decide⟩
/-- ReadLog: an object whose log is object 2, with a record, and one without a log; its illegal forms. -/
theorem test_hyp_ReadLog :
    (let r := (dense 1).set 7 (W (2 ^ 63 + 2 * 2 ^ 44))
     let l : ORec := (ringRec 15).set 4 (W 2)
     let s := coherent [(1, r), (2, l)] [dirtyLine] (regs [(1, objAddr 1 0)])
     MemoryOk s ∧ LinesOk s ∧ StopFree s ∧ AttrAt s (objAddr 1 0) .read r ∧ AttrAt s (objAddr 1 0) .write r ∧
     LogAtRing s r (some l)) ∧
    (let s := coherent [(1, dense 1)] [dirtyLine] (regs [(1, objAddr 1 0)])
     AttrAt s (objAddr 1 0) .write (dense 1) ∧ LogAtRing s (dense 1) none) ∧
    LogAtRing (runs Strand.zero) (dense 0) none ∧ (1 : BitVec 4) ≠ 0 ∧ (5 : Word).toNat / 2 ^ 32 % 2 ^ 30 = 0 ∧
    ¬ (W (2 ^ 61)).toNat / 2 ^ 32 % 2 ^ 30 = 0 := by
  refine ⟨⟨rfl, lines_ok _ _, ⟨rfl, rfl, rfl⟩, ⟨rfl, rfl, rfl, rfl, rfl, fun h => absurd h (by decide)⟩,
    ⟨rfl, rfl, rfl, rfl, rfl, fun h => absurd h (by decide)⟩, ⟨fun _ => rfl, fun h => absurd rfl h⟩⟩,
    ⟨⟨rfl, rfl, rfl, rfl, rfl, fun h => absurd h (by decide)⟩, ⟨fun _ => rfl, fun h => absurd rfl h⟩⟩,
    ⟨fun h => absurd h (by decide), fun _ => rfl⟩, by decide, rfl, by decide⟩
/-- Reconcile, ReadLog: a log with a record that is sound, one whose control line is poisoned, one whose record is. -/
theorem test_hyp_LogPoisoned :
    let l : ORec := (ringRec 15).set 4 (W 2)
    let s := { runs Strand.zero with mem := memSetWord [] 0x500000 1 }
    LogSound s l 0 1 ∧ unretired s l = 1 ∧ logUsed s l = 1 ∧
    LogPoisoned { s with poison := [0x500000] } 2 l 0 0 (W (2 * 2 ^ 44)) ∧
    LogPoisoned { s with poison := [0x500040] } 2 l 0 1 (W (2 * 2 ^ 44 + 64)) :=
  ⟨⟨first_poison_nil _ _, fun _ _ => first_poison_nil _ _⟩, by decide, by decide, .inl ⟨by decide, rfl⟩,
    .inr ⟨0, by decide, ⟨by decide, fun _ h => absurd h (Nat.not_lt_zero _)⟩, by decide, by decide⟩⟩
/-- ChangeAttribute: a command that names the object, under way in the queue and in a touched window that waits for room; an
OSETA of another core that changes it. -/
theorem test_hyp_ChangeAttribute_named :
    (let s := runs Strand.zero
     let c := newCmd s false false 0 [] .none [1] []
     CmdUnderWay { s with cmds := [c] } c ∧
     CmdUnderWay { s with core := { s.core with win := s.core.win.set 3 ⟨.copying, 0, 0, some c, []⟩ } } c ∧
     c.ctx = tagOf s.core.strand ∧ 1 ∈ c.objs) ∧
    (let s := { runs Strand.zero with others := [(1, { Core.vacant with strand := { Strand.zero with begun := true, changing := some 1 } })] }
     ∃ e ∈ allCores s, e.1 ≠ (self s).core ∧ e.2.strand.begun = true ∧ e.2.strand.changing = some 1 ∧
       tagOf e.2.strand = (self s).tag) :=
  ⟨⟨.inl (List.mem_singleton.2 rfl), .inr ⟨_, List.mem_cons_self, _, List.mem_of_getElem? (i := 3) rfl, rfl, rfl⟩, rfl,
    List.mem_singleton.2 rfl⟩, _, List.mem_cons_of_mem _ List.mem_cons_self, by decide, rfl, rfl, rfl⟩
/-- Publish: an object with a shadow, while a command writes it and not, and an object without one. -/
theorem test_hyp_Publish :
    let r : ORec := [W (2 ^ 63 + 6 * 2 ^ 56 + 15 * 2 ^ 43 + 2 ^ 41), W (4096 + 2 ^ 32), W (1 + 2 ^ 32), W 0x200000, W 0x300000, 0, 0, 0]
    let s := coherent [(1, r)] [dirtyLine] (regs [(1, objAddr 1 0)])
    MemoryOk s ∧ LinesOk s ∧ StopFree s ∧ AttrAt s (objAddr 1 0) .write r ∧ recordAddr s.core.strand.ortbase 1 = some 64 ∧
    (r.kind = kDENSE ∧ r.sh = true) ∧ (dense 0).sh = false ∧ s.cmds = [] ∧
    (let c := { newCmd s false false 0 [] .none [] [] with shadowOf := some 1 }
     c.strand = s.core.strand.spillovf ∧ c.shadowOf = some 1) := by
  refine ⟨rfl, lines_ok _ _, ⟨rfl, rfl, rfl⟩, ⟨rfl, rfl, rfl, rfl, rfl, fun h => absurd h (by decide)⟩, rfl, ⟨rfl, rfl⟩, rfl, rfl, rfl, rfl⟩
/-- RemovedVersions: an address outside object space and one inside; a command under a removed version and none; a record
and none; a volume with the leaf and without it, and an object that is no volume. -/
theorem test_hyp_RemovedVersions :
    (let s := { volumed true 0 with pkg := (volumed true 0).pkg }
     ∃ k ∈ allCores s, partOfCore s k.1 = partOfCore s s.cur ∧ ∃ e ∈ k.2.clb, e.ctx = tagOf s.core.strand ∧ e.obj = 1) ∧
    (∀ k ∈ allCores (runs Strand.zero), k.2.clb = []) ∧
    spaceOf (localSp 0) ≠ 0 ∧ spaceOf (objAddr 1 0) = 0 ∧ StopFree (holds 0 0 Strand.zero) ∧
    (let s := { runs Strand.zero with
        removals := [⟨0, some 1, none, 5⟩]
        cmds := [{ newCmd (runs Strand.zero) false false 0 [] .none [1] [] with id := 3 }] }
     UnderRemoved s 0 (some 1) ∧ UnderRemoved s 0 none) ∧ (runs Strand.zero).cmds = [] ∧
    (∃ r, lookup (volumed true 0) (self (volumed true 0)) 1 (objAddr 1 0) = .ok r) ∧
    (∃ x, lookup (runs Strand.zero) (self (runs Strand.zero)) 1 (objAddr 1 0) = .error x) ∧
    (∃ b k, coordRecord (volumed true 0) (objAddr 1 0) .read = .ok volume ∧ coordShape volume 0 = .ok () ∧ volume.kind = kSPARSE ∧
      leafOf (volumed true 0) (self (volumed true 0)) 1 volume (objAddr 1 0) 0 (volume.keyAt 0) false false
        = .ok (some b, k, volumed true 0)) ∧
    (∃ k, leafOf (volumed false 0) (self (volumed false 0)) 1 volume (objAddr 1 0) 0 (volume.keyAt 0) false false
        = .ok (none, k, volumed false 0)) ∧
    coordRecord (holds 0 0 Strand.zero) (objAddr 1 0) .read = .ok (dense 0) ∧ coordShape (dense 0) 0 = .ok () ∧
    (dense 0).kind ≠ kSPARSE := by
  refine ⟨⟨_, List.mem_cons_self, rfl, _, List.mem_singleton.2 rfl, rfl, rfl⟩, fun k h => by rw [List.mem_singleton.1 h]; rfl,
    by decide, rfl, ⟨rfl, rfl, rfl⟩, ⟨?_, ?_⟩, rfl, ⟨_, rfl⟩, ⟨_, rfl⟩, ⟨_, _, rfl, rfl, rfl, rfl⟩, ⟨_, rfl⟩, rfl, rfl, by decide⟩
  · exact .inl ⟨_, List.mem_singleton.2 rfl, rfl, _, List.mem_singleton.2 rfl, rfl, .inr (.inr rfl), by decide,
      ⟨1, List.mem_singleton.2 rfl, .inr rfl, .inr rfl⟩, fun _ h => nomatch h⟩
  · exact .inl ⟨_, List.mem_singleton.2 rfl, rfl, _, List.mem_singleton.2 rfl, rfl, .inl rfl, by decide,
      ⟨1, List.mem_singleton.2 rfl, .inl rfl, .inr rfl⟩, fun _ h => nomatch h⟩

/-- R253: a barrier at 0x600000. -/
def barrierRec : ORec := [W (2 ^ 63 + 4 * 2 ^ 60 + 6 * 2 ^ 56 + 15 * 2 ^ 43), W (32 + 2 ^ 32), W (1 + 2 ^ 32), W 0x600000, 0, 0, 0, 0]
/-- RingsAndBarriers: a ring with a slot written and none, a flag at and below a value, a barrier in each phase; a release
at SYSTEM scope with and without posted stores. -/
theorem test_hyp_RingsAndBarriers :
    (let s := withRecs [(2, ringRec 15)] (runs (regs [(1, objAddr 2 0)]))
     let s1 := { s with mem := memSetWord [] 0x500000 1 }
     inPeerWindow (objAddr 2 0) = false ∧ kindRecord s (self s) (objAddr 2 0) kRING [.read] = .ok (ringRec 15) ∧
     kindRecord s (self s) (objAddr 2 0) kRING [.read, .write] = .ok (ringRec 15) ∧ 0 < ringAt s1 (ringRec 15) 0 ∧
     ringAt s (ringRec 15) 0 ≤ 0 ∧ MemoryOk s1) ∧
    (∃ p, translate (holds 0 8 Strand.zero) (self (holds 0 8 Strand.zero)) (objAddr 1 8) 8 .read = .ok [p] ∧
      poisonAt (holds 0 8 Strand.zero) 0 [p] = none ∧
      ∀ q, lookup (holds 0 8 Strand.zero) (self (holds 0 8 Strand.zero)) 1 (objAddr 1 8) = .ok q → q.kind ≠ kBARRIER) ∧
    (let s := withRecs [(3, barrierRec)] (runs (regs [(1, objAddr 3 0), (2, 1)]))
     kindRecord s (self s) (objAddr 3 0) kBARRIER [.atomic] = .ok barrierRec ∧ offOf (objAddr 3 0) = 0 ∧
     (objAddr 3 0).toNat % 32 = 0 ∧ phaseAt s barrierRec.place ≠ (s.core.strand.readG 2).toNat % 2 ∧
     phaseAt s barrierRec.place = (s.core.strand.readG 3).toNat % 2) ∧ Settled (runs Strand.zero) := by
  refine ⟨⟨rfl, rfl, rfl, by decide, by decide, by unfold MemoryOk; decide⟩, ⟨_, rfl, rfl, fun q h => ?_⟩,
    ⟨rfl, rfl, rfl, by decide, by decide⟩, rfl, rfl⟩
  have e : dense 0 = q := Except.ok.inj h
  subst e; decide

/-- Copies: a copy between dense objects with a flag, of no bytes, into a shadow; an append to a ring with room and to a
full one; to and from a peer; room for the command and none. -/
theorem test_hyp_Copies :
    (let s := withRecs [(1, dense 0), (4, (dense 0).set 3 (W 0x700000))] (runs (regs [(1, objAddr 1 0), (4, objAddr 4 0), (3, 32), (5, objAddr 4 64)]))
     CopyOk s 4 1 3 5 ∧ inPeerWindow (objAddr 4 0) = false ∧ ringDest s (objAddr 4 0) 32 = .ok none ∧
     (∃ ps, span s (objAddr 1 0) 32 .read = .ok ps) ∧ (∃ qs, span s (objAddr 4 0) 32 .ewrite = .ok qs) ∧
     (∃ fl, planFlag s (some (objAddr 4 64)) false = .ok fl) ∧ Room1 s true false ∧
     Full1 { s with cmds := List.replicate 8 (newCmd s false false 0 [] .none [] []) } true false) ∧
    (let r : ORec := [W (2 ^ 63 + 6 * 2 ^ 56 + 15 * 2 ^ 43 + 2 ^ 41), W (4096 + 2 ^ 32), W (1 + 2 ^ 32), W 0x200000, W 0x300000, 0, 0, 0]
     let s := withRecs [(1, r)] (runs Strand.zero)
     ∃ qs, shadowSpan s (objAddr 1 0) 32 = .ok qs) ∧
    (let s := withRecs [(1, dense 0), (2, ringRec 15)] (runs (regs [(1, objAddr 1 0), (2, objAddr 2 0), (3, 64)]))
     CopyOk s 2 1 3 0 ∧ ringDest s (objAddr 2 0) 64 = .ok (some (ringRec 15)) ∧ planFlag s none false = .ok .none ∧
     ringAt s (ringRec 15) 2 - ringAt s (ringRec 15) 1 < (ringRec 15).ringN ∧
     (let s := { s with mem := memSetWord [] 0x500010 4 }
      (ringRec 15).ringN ≤ ringAt s (ringRec 15) 2 - ringAt s (ringRec 15) 1)) := by
  refine ⟨⟨⟨rfl, rfl, rfl, by decide, .inr rfl⟩, rfl, rfl, ⟨_, rfl⟩, ⟨_, rfl⟩, ⟨_, rfl⟩, rfl, rfl⟩, ⟨_, rfl⟩,
    ⟨rfl, rfl, rfl, by decide, .inl rfl⟩, rfl, rfl, by decide, by decide⟩
theorem test_hyp_Copies_peer :
    let s := withRecs [(1, dense 0), (0x3F001, handleRec)] (runs (regs [(1, objAddr 1 0), (2, objAddr 0x3F001 0), (3, 32)]))
    CopyOk s 2 1 3 0 ∧ CopyOk s 1 2 3 0 ∧ CopyOk s 2 1 4 0 ∧ inPeerWindow (objAddr 0x3F001 0) = true ∧ inPeerWindow (objAddr 1 0) = false ∧
    lookup s (self s) 0x3F001 (objAddr 0x3F001 0) = .ok handleRec ∧ peerChecks handleRec (objAddr 0x3F001 0) 32 [.ewrite] = .ok () ∧
    peerChecks handleRec (objAddr 0x3F001 0) 32 [.read] = .ok () ∧ handleReachable s handleRec = true ∧ IdsOk s ∧
    planFlag s none true = .ok .none ∧ ringDest s (objAddr 1 0) 32 = .ok none ∧ (∃ qs, span s (objAddr 1 0) 32 .ewrite = .ok qs) ∧
    Room1 s false false := by
  refine ⟨⟨rfl, rfl, rfl, by decide, .inl rfl⟩, ⟨rfl, rfl, rfl, by decide, .inl rfl⟩, ⟨rfl, rfl, rfl, by decide, .inl rfl⟩, rfl, rfl, rfl,
    rfl, rfl, rfl, ⟨fun _ h => (nomatch h), fun _ h => (nomatch h)⟩, rfl, rfl, ⟨_, rfl⟩, rfl⟩
/-! Tiles, rows, windows, and the engines' own steps. -/

/-- A volume of two dimensions. -/
def plane : ORec :=
  [W (2 ^ 63 + 2 * 2 ^ 60 + 6 * 2 ^ 56 + 2 ^ 54 + 15 * 2 ^ 43), W (64 + 64 * 2 ^ 32), W (1 + 2 ^ 32), W 0x300000, 0, 7, 0, 0]
/-- A tile of sixteen bytes of object 4, whose descriptor is at the start of object 1; G[2] a place in the scratchpad, G[3]
the descriptor and the indices of one row, G[4] object 4. The leaf of key 0 of object 4 is in the look-aside buffer. -/
def tiled (r : ORec) (dir : Byte) : State :=
  let s := shares (regs [(2, localSp 0x100), (3, objAddr 1 0), (4, objAddr 4 0), (5, objAddr 1 64)])
  { withRecs [(1, dense 0), (4, r)] s with
    mem := memWrite [] 0x200000 (natBytes 8 (4 * 2 ^ 44) ++ List.replicate 16 0 ++ [16, 0, 1, 0, 1, 0, 1, 0] ++ List.replicate 5 0 ++ [dir])
    core := { s.core with clb := [⟨0, 4, 0, 0x400000⟩] } }

theorem in_sixteens (p : Nat) (k : PlaceKind) (hp : p % 16 = 0) : InSixteens ((List.range 16).map fun i => EDst.mem (p + i) k) := by
  intro i j hj x hx
  match i with
  | 0 =>
    have hx : x = .mem p k := by simpa using hx.symm
    subst hx
    exact ⟨hp, by simp [hj, EDst.after]⟩
  | n + 1 =>
    rw [List.getElem?_eq_none (by simp)] at hx
    cases hx

/-- TilesRowsWindows, CPYT and WBIND: a tile read and written, of a dense object and of a volume. -/
theorem test_hyp_Tiles_copy :
    (let s := tiled ((dense 0).set 3 (W 0x700000)) 0
     ∃ e r m ps src y, readDesc s (localSp 0x100) (objAddr 1 0) (some (objAddr 1 64)) false = .ok (e, r, m) ∧
       planFlag m (some (objAddr 1 64)) false = .ok (.add 0x200040 .hc) ∧
       e.dir = 0 ∧ tileRead e r (objAddr 1 0) m = .ok (src, y) ∧ packedSpan m (localSp 0x100) e r .ewrite = .ok ps ∧
       (∀ j < e.rows, ownSp m (localSp 0x100 + W (e.stride r * j)) (e.rowLen r) = true) ∧
       windowTaken m 3 (windowGranules m (localSp 0x100) e r) = false ∧ (y.core.win[3]).st ≠ .copying ∧
       ¬ ((s.core.win[3]).st ≠ .free ∧ (s.core.win[3]).ctx ≠ tagOf s.core.strand) ∧ Room1 y true false) ∧
    (let s := tiled ((dense 0).set 3 (W 0x700000)) 1
     ∃ e r m ps dst, readDesc s (localSp 0x100) (objAddr 1 0) none false = .ok (e, r, m) ∧ e.dir = 1 ∧
       packedSpan m (localSp 0x100) e r .read = .ok ps ∧ tileWrite e r (objAddr 1 0) false m = .ok (dst, m) ∧ r.kind ≠ kSPARSE) := by
  refine ⟨⟨_, _, _, _, _, _, rfl, rfl, rfl, rfl, rfl, by decide, by decide, by decide, by decide, rfl⟩,
    ⟨_, _, _, _, _, rfl, rfl, rfl, rfl, by decide⟩⟩
theorem test_hyp_Tiles_sparse :
    (let s := tiled volume 1
     ∃ e r m ps y u l v, readDesc s (localSp 0x100) (objAddr 1 0) none false = .ok (e, r, m) ∧ e.dir = 1 ∧
       packedSpan m (localSp 0x100) e r .read = .ok ps ∧ tileWrite e r (objAddr 1 0) false m = .ok ([], y) ∧ r.kind = kSPARSE ∧
       allocTiles e.obj r ((e.coords r).map dropLast3) y = .ok u ∧
       mapState (sparsePlaces e.obj r) ((e.coords r).map dropLast3) u = .ok (l, v)) := by
  refine ⟨_, _, _, _, _, _, _, _, rfl, rfl, rfl, rfl, rfl, rfl, rfl⟩
/-- A window that another context holds, one that copies, and each other state. -/
theorem test_hyp_Windows :
    (let x : Window := ⟨.bound, 5, 0, none, []⟩
     x.st ≠ .free ∧ x.ctx ≠ tagOf Strand.zero) ∧ (let x : Window := ⟨.copying, 0, 0, none, []⟩
     ¬ (x.st ≠ .free ∧ x.ctx ≠ tagOf Strand.zero) ∧ x.st = .copying) ∧
    (let x : Window := ⟨.done, 0, 0, none, []⟩
     ¬ (x.st ≠ .free ∧ x.ctx ≠ tagOf Strand.zero) ∧ x.st = .done) ∧ StopFree (runs Strand.zero) := by
  refine ⟨by decide, by decide, by decide, rfl, rfl, rfl⟩
/-- GATHER and SCATTER: a base that is dense, and one that is a volume of two dimensions. -/
theorem test_hyp_Rows :
    (let s := { tiled ((dense 0).set 3 (W 0x700000)) 0 with mem := [] }
     ∃ m ps qs ps' qs', (localSp 0x100).toNat % 16 = 0 ∧ (objAddr 1 0).toNat % 16 = 0 ∧ readIndices (objAddr 1 0) 1 s = .ok ([0], m) ∧
       sparseBase s (objAddr 4 0) = none ∧ (objAddr 4 0).toNat % 16 = 0 ∧ remoteRows m (objAddr 4 0) [0] 16 .read = .ok ps ∧
       packedRows m (localSp 0x100) 1 16 .ewrite = .ok qs ∧ packedRows m (localSp 0x100) 1 16 .read = .ok ps' ∧
       remoteRows m (objAddr 4 0) [0] 16 .ewrite = .ok qs' ∧ InSixteens (placesOf qs')) ∧
    (let s := { tiled plane 0 with mem := [] }
     ∃ m l k l' y y' u v, readIndices (objAddr 1 0) 1 s = .ok ([0], m) ∧ sparseBase s (objAddr 4 0) = some plane ∧ plane.rank = 2 ∧
       16 / plane.elem ≤ plane.ext 0 ∧ volumeRows (objAddr 4 0) plane [0] 16 .read (sparseBytes (objAddr 4 0) plane) m = .ok (l, y) ∧
       volumeRows (objAddr 4 0) plane [0] 16 .ewrite (leafWalk (objAddr 4 0) plane false) m = .ok (k, y') ∧
       allocTiles (objAddr 4 0) plane ([0].flatMap (rowCoords plane 16)) y' = .ok u ∧
       mapState (sparsePlaces (objAddr 4 0) plane) ([0].flatMap (rowCoords plane 16)) u = .ok (l', v) ∧ InSixteens l'.flatten) := by
  refine ⟨⟨_, _, _, _, _, rfl, rfl, rfl, rfl, rfl, rfl, rfl, rfl, rfl, in_sixteens 0x700000 .hc rfl⟩,
    ⟨_, _, _, _, _, _, _, _, rfl, rfl, rfl, by decide, rfl, rfl, rfl, rfl, in_sixteens 0x400000 .hc rfl⟩⟩

/-- A command of core 0 with these units and a flag. -/
def cmdOf (us : List EUnit) (f : EFlag) : Cmd := { newCmd (runs Strand.zero) true false 16 us f [] [] with id := 3 }
/-- A unit of sixteen bytes for a place. -/
def unit16 (d : EDst) : EUnit := ⟨d, List.replicate 16 { src := some 0x700000, val := 9 }, false⟩
/-- R259: a request of one unit to device 0, this package. -/
def bulkReq : PeerReq := ⟨0, true, 0, 0, 0, 9, 0, .bulk [] false 0 0 16⟩
/-- EngineSteps: a unit for memory, as captured and read again, and one for a peer; a unit that an earlier command still
has to write, and a unit's stall; a command that is complete with each flag, and one that is not. -/
theorem test_hyp_EngineSteps :
    (let c := cmdOf [unit16 (.mem 0x200000 .sc)] .none
     let s := { runs Strand.zero with cmds := [c] }
     MemoryOk s ∧ LinesOk s ∧ CmdAt s 3 c ∧ c.units[0]? = some (unit16 (.mem 0x200000 .sc)) ∧
     mayWrite s c (unit16 (.mem 0x200000 .sc)) = true ∧ stalled s 0 = false ∧
     Sourced s c false (unit16 (.mem 0x200000 .sc)) (unit16 (.mem 0x200000 .sc)) ∧
     (∀ j < 16, lineOf (0x200000 + j) = lineOf 0x200000) ∧ c.units[1]? = none ∧ mayComplete s c = false) ∧
    (let c := cmdOf [unit16 (.peer 1 bulkReq)] (.peer 1 bulkReq)
     let s := { runs Strand.zero with cmds := [c] }
     CmdAt s 3 c ∧ mayWrite s c (unit16 (.peer 1 bulkReq)) = true ∧ reachableReq s bulkReq = true ∧ c.flagSent = false) ∧
    (let c := cmdOf [unit16 (.mem 0x200000 .hc)] .none
     let s := { runs Strand.zero with cmds := [{ c with id := 2 }, c] }
     mayWrite s c (unit16 (.mem 0x200000 .hc)) = false) ∧
    (let c := cmdOf [] (.barrier 0x600000)
     let s := { runs Strand.zero with cmds := [c] }
     CmdAt s 3 c ∧ mayComplete s c = true ∧ c.failed = false ∧ (∀ h q, c.flag ≠ .peer h q)) := by
  refine ⟨⟨rfl, fun c => ⟨List.Pairwise.nil, fun l hl => (nomatch hl)⟩, rfl, rfl, by decide, rfl,
    ⟨rfl, rfl, fun _ => rfl, fun h => (nomatch h), fun h => (nomatch h)⟩, by decide, rfl, by decide⟩,
    ⟨rfl, by decide, rfl, rfl⟩, by decide, rfl, by decide, rfl, fun h q e => ?_⟩
  cases e
/-- EngineSteps: a peer that cannot be reached, which R267 leaves to the ports. -/
theorem test_hyp_EngineSteps_unreachable (h : Config.reachable 5 0 = false) :
    reachableReq (runs Strand.zero) { bulkReq with own := false, dev := 5 } = false := h
/-- EngineSteps: a logical device of this package that no die holds, and one that has dies. -/
theorem test_hyp_EngineSteps_noDevice :
    reachableReq (runs Strand.zero) { bulkReq with ldev := 5 } = false ∧ reachableReq (runs Strand.zero) bulkReq = true := by decide
/-- WBIND: a descriptor whose DIR is 1, of a slot that no other context holds. -/
theorem test_hyp_Windows_dir :
    let s := tiled (dense 0x700000) 1
    (∃ e r m, readDesc s (localSp 0x100) (objAddr 1 0) none false = .ok (e, r, m) ∧ e.dir = 1) ∧
      (s.core.win[3]).st = .free ∧ StopFree s := ⟨⟨_, _, _, rfl, rfl⟩, rfl, rfl, rfl, rfl⟩
/-! Time and power, moves of strands, traffic, recovery, flashing and the service. -/

/-- A machine with this strand off its core 0. -/
def offs (o : Off) : State :=
  let s := shares Strand.zero
  { s with core := Core.vacant, svc := { s.svc with off := [o] } }
/-- A strand that was pre-empted, or stopped for another reason. -/
def offFor (w : OffWhy) (t : Strand) : Off := ⟨0, 0, t, [], 0, 0, false, w, false, none, 0⟩

/-- The image of the strand of State.reset's cores, which may be loaded, and one with a reserved byte set. -/
theorem flat_zero (n m : Nat) {α : Type} (x : α) (f : α → List Byte) (h : f x = List.replicate m 0) :
    (List.replicate n x).flatMap f = List.replicate (n * m) 0 := by
  rw [List.flatMap_replicate, h, List.flatten_replicate_replicate]
theorem image_zero : Strand.zero.image = List.replicate 0x2300 0 ++ ([1, 1] ++ List.replicate 0xCFE 0) := by
  have hw : wordBytes 0 = List.replicate 8 0 := rfl
  have hq : (Queue.zero.slots.toList.flatMap wordBytes) = List.replicate 128 0 := by decide +kernel
  have hr : rowBytes 0 = List.replicate 128 0 := by decide +kernel
  have hc : Strand.zero.controls = List.replicate 18 0 := rfl
  have hg : Strand.zero.g.toList.drop 1 = List.replicate 31 0 := rfl
  have hy : Strand.zero.ty.toList.map (fun x => x.zeroExtend 8) = List.replicate 4 (0 : Byte) := rfl
  have hp : (Strand.zero.p ||| 1) = 1 ∧ (Strand.zero.z ||| 1) = 1 := ⟨rfl, rfl⟩
  have hl : Strand.zero.lact.zeroExtend 8 = (0 : Byte) := rfl
  unfold Strand.image
  rw [hc, hg, hy, hp.1, hp.2, hl, flat_zero 18 8 _ _ hw, flat_zero 31 8 _ _ hw,
    show Strand.zero.v.toList = List.replicate 64 0 from rfl, flat_zero 64 128 _ _ hr,
    show Strand.zero.f.toList = List.replicate 32 0 from rfl, flat_zero 32 8 _ _ hw,
    show Strand.zero.m.toList = List.replicate 8 0 from rfl, flat_zero 8 16 _ (fun x : BitVec 128 => natBytes 16 x.toNat) rfl,
    show Strand.zero.cb.toList = List.replicate 4 0 from rfl, flat_zero 4 32 _ (fun x : BitVec 256 => natBytes 32 x.toNat) rfl,
    show Strand.zero.lcnt.toList = List.replicate 3 0 from rfl, flat_zero 3 8 _ _ hw,
    show Strand.zero.lbeg.toList = List.replicate 3 0 from rfl, flat_zero 3 8 _ _ hw,
    show Strand.zero.llen.toList = List.replicate 3 0 from rfl, flat_zero 3 2 _ (fun x : BitVec 16 => natBytes 2 x.toNat) rfl,
    show Strand.zero.q.toList = List.replicate 8 Queue.zero from rfl, flat_zero 8 8 _ (fun q : Queue => wordBytes q.word) rfl,
    flat_zero 8 128 _ (fun q : Queue => q.slots.toList.flatMap wordBytes) hq, show Strand.zero.pc = 0 from rfl,
    show Strand.zero.mxseq = 0 from rfl, hw]
  simp only [zeros, List.append_assoc, show ([0] : List Byte) = List.replicate 1 0 from rfl]
  simp only [← List.append_assoc, List.replicate_append_replicate]
theorem image_ok_zero : imageOk Strand.zero.image = true := by
  rw [image_zero]
  simp [-List.reduceReplicate, imageOk, allZero, imgWord, imgNat, imgCtl, List.drop_append, List.take_append, List.range_succ]
  decide
theorem image_bad_zero : imageOk (editImage Strand.zero.image [(0x2306, 1)]) = false := by
  have h : (List.replicate 3326 0#8).set 4 1#8 = List.replicate 4 0#8 ++ 1#8 :: List.replicate 3321 0#8 := by
    simp [-List.reduceReplicate, List.set_eq_take_append_cons_drop]
  rw [image_zero]
  simp [-List.reduceReplicate, imageOk, editImage, allZero, List.drop_append, h]

theorem image_off (w : OffWhy) (t : Strand) : editImage (offFor w t).strand.image [] = t.image := rfl
theorem image_back : imageOk (editImage (offFor .preempted Strand.zero).strand.image []) = true := by
  rw [image_off]; exact image_ok_zero

/-- TimeAndPower: an injection due and one made, a stall that ends and one that goes on, a count that reaches the limit. -/
theorem test_hyp_TimeAndPower :
    (let s := runs Strand.zero
     s.pkg.time % 100 = 0 ∧ s.pkg.injected = false ∧ ∀ d : DieId, (s.pkg.mesh[d.toNat]).length ≤ 32) ∧
    (let s := { runs Strand.zero with pkg := { (runs Strand.zero).pkg with time := 1 } }
     s.pkg.time % 100 ≠ 0) ∧
    (let s := { runs Strand.zero with pkg := { (runs Strand.zero).pkg with time := 10, power := [(0, { Power.start with stall := some 10 })] } }
     (powerGet s 0).stall = some 10 ∧ 10 ≤ s.pkg.time) ∧
    (let s := { runs Strand.zero with pkg := { (runs Strand.zero).pkg with time := 9, power := [(0, { Power.start with stall := some 10 })] } }
     (powerGet s 0).stall = some 10 ∧ s.pkg.time < 10) ∧ (powerGet (runs Strand.zero) 0).stall = none ∧
    (let s := runs { Strand.zero with wdmode := W (2 ^ 62 + 5), hbeat := 4 }
     Accountable s 0 ∧ slice s.core.strand.wdmode 62 2 = 1 ∧ s.core.strand.hbeat.toNat % 2 ^ 48 < s.core.strand.wdmode.toNat % 2 ^ 48) := by
  refine ⟨⟨rfl, rfl, by decide⟩, by decide, ⟨rfl, by decide⟩, ⟨rfl, by decide⟩, rfl, ⟨.inl rfl, by decide, rfl⟩, by decide, by decide⟩

theorem vacant_others (s : State) (h : s.others = []) (j : CoreId) (e : j ≠ s.cur) : (coreGet s j).mode = .vacant := by
  unfold coreGet; rw [if_neg e, h]; rfl
theorem image_watchdog : imgCtl Strand.zero.image 17 = 0 := by
  rw [image_zero]
  simp [-List.reduceReplicate, imgCtl, imgWord, imgNat, List.drop_append]
  decide
/-- A strand off its core 0 whose share is `layout0`, and the machine that has it, its context holding that share there. -/
def movable : Off := offFor .preempted { Strand.zero with share := layout0 }
def movableAt : State := { offs movable with svc := { (offs movable).svc with contexts := [{ context with held := [⟨0, 0, layout0⟩] }] } }
theorem image_unshared (t : Strand) (l : Layout) : ({ t with share := l } : Strand).image = t.image := by cases t; rfl
theorem image_with (w : OffWhy) (t : Strand) (e : List (Nat × Byte)) : imageWith (offFor w t) e = editImage t.image e := rfl
theorem edit_nil (b : List Byte) : editImage b [] = b := rfl
theorem image_share : imageWith movable [] = Strand.zero.image := by
  rw [movable, image_with, edit_nil]; exact image_unshared _ _
/-- ContextMoves: strands that may be stopped and ones that may not yet; a core without one. -/
theorem test_hyp_ContextMoves_stop :
    (let s := runs Strand.zero
     (coreGet s 0).mode = .running ∧ Stoppable s 0) ∧ (coreGet (runs Strand.zero) 1).mode = .vacant ∧
    (let s := { runs Strand.zero with core := { Core.vacant with mode := .arriving (cont 0) } }
     (coreGet s 0).mode = .arriving (cont 0) ∧ Stoppable s 0) ∧
    (let s := runs { Strand.zero with begun := true }
     (coreGet s 0).strand.peer.wait = none ∧ (coreGet s 0).strand.begun = true) ∧
    (let s := { runs Strand.zero with core := { (runs Strand.zero).core with wdReq := true } }
     (coreGet s 0).wdReq = true ∧ (coreGet s 0).mode = .running ∧ Stoppable s 0) ∧
    (coreGet (runs Strand.zero) 0).wdReq = false := by
  refine ⟨⟨rfl, rfl, rfl, rfl⟩, rfl, ⟨rfl, rfl, rfl, rfl⟩, ⟨rfl, rfl⟩, ⟨rfl, rfl, rfl, rfl, rfl⟩, rfl⟩
/-- ContextMoves: a lost line of a strand on a core and of one off it, an evicted sound one. -/
theorem test_hyp_ContextMoves_lines :
    ((0x1000 : Nat) % 64 = 0 ∧ 0x1000 < 0x3000) ∧ OnCore (runs Strand.zero) 0 0 ∧ OffCore (offs (offFor .preempted Strand.zero)) 0 ∧
    findStrand 0 (runs Strand.zero) = some Strand.zero ∧ EccKind.corrected ≠ .uncorrectable := by
  refine ⟨by decide, ⟨by decide, rfl, fun j h _ => ?_, fun _ h => nomatch h⟩, fun j h _ => h ?_, rfl, by decide⟩
  · by_cases e : j = 0
    · exact e
    · exact absurd (vacant_others _ rfl j e) h
  · by_cases e : j = 0
    · subst e; rfl
    · exact vacant_others _ rfl j e
/-- ContextMoves: a resumption with its image sound. -/
theorem test_hyp_ContextMoves_back :
    movableAt.svc.off[0]? = some movable ∧ Resumable movableAt movable [] ∧ Vacant movableAt 0 ∧ imageOk (imageWith movable []) = true ∧
      (strandWith movable []).spillovf = movable.strand.spillovf := by
  have h : Resumable movableAt movable [] := by
    unfold Resumable
    rw [image_share, image_watchdog]
    exact ⟨by decide, by decide, List.not_mem_nil, rfl, .inl rfl, fun h => absurd h (by decide)⟩
  refine ⟨rfl, h, ⟨rfl, rfl⟩, ?_, rfl⟩
  rw [image_share]; exact image_ok_zero
/-- ContextMoves: a move to another core, with no frame in the arena and with one. -/
theorem test_hyp_ContextMoves_move :
    Movable movableAt movable 1 ∧ MemoryOk movableAt ∧ LinesOk movableAt ∧ HomeLines movableAt ∧
    layoutOk layout0 = true ∧ ¬ InArena movableAt layout0 0 0 ∧
    InArena movableAt layout0 0 (W (2 ^ 62 + 0x100)) ∧
    ∀ g, Linked movableAt layout0 0 (W (2 ^ 62 + 0x100)) g → offsetOn movableAt 0 g % 64 = 0 := by
  have w : ∀ i : BitVec 2, ¬ ((windowGet movableAt movable.core i).strand = movable.strand.spillovf ∧ (windowGet movableAt movable.core i).st = .copying) := by decide
  have c : ∀ c, clusterGet movableAt c = Cluster.zero := fun c => rfl
  have m : ∀ b, memGet movableAt.mem b = 0 := fun b => rfl
  refine ⟨⟨⟨vacant_others _ rfl 1 (by decide), rfl⟩, by decide, by decide, rfl, fun c h => absurd h List.not_mem_nil, w, by decide⟩, rfl, no_lines _ rfl,
    fun k l h => ?_, by decide, fun h => absurd h.1 (by decide), ⟨by decide, by decide⟩, fun g h => ?_⟩
  · rw [c] at h; exact absurd h List.not_mem_nil
  · have e : g = W (2 ^ 62 + 0x100) := by
      induction h with
      | here => rfl
      | prev g h k e =>
        subst e
        exact absurd k.1 (by decide)
    subst e; decide
theorem image_bad_watchdog : imgCtl (editImage Strand.zero.image [(0x2306, 1)]) 17 = 0 := by
  have h : (List.replicate 3326 0#8).set 4 1#8 = List.replicate 4 0#8 ++ 1#8 :: List.replicate 3321 0#8 := by
    simp [-List.reduceReplicate, List.set_eq_take_append_cons_drop]
  rw [image_zero]
  simp [-List.reduceReplicate, imgCtl, imgWord, imgNat, editImage, List.drop_append, h]
  decide
/-- ContextMoves: a resumption and a move whose image is refused, and a strand that is held. -/
theorem test_hyp_ContextMoves_refused :
    movableAt.svc.off[0]? = some movable ∧ Resumable movableAt movable [(0x2306, 1)] ∧ Vacant movableAt 0 ∧
      imageOk (imageWith movable [(0x2306, 1)]) = false ∧
    ¬ Resumable (offs (offFor .held Strand.zero)) (offFor .held Strand.zero) [] := by
  have e : imageWith movable [(0x2306, 1)] = editImage Strand.zero.image [(0x2306, 1)] := by
    rw [movable, image_with, image_unshared]
  have h : Resumable movableAt movable [(0x2306, 1)] := by
    unfold Resumable
    rw [e, image_bad_watchdog]
    exact ⟨by decide, by decide, List.not_mem_nil, rfl, .inl rfl, fun h => absurd h (by decide)⟩
  refine ⟨rfl, h, ⟨rfl, rfl⟩, ?_, fun h => h.1 rfl⟩
  rw [e]; exact image_bad_zero
/-- ContextMoves: a pending slot that another core of the context takes. -/
theorem test_hyp_ContextMoves_slot :
    let p := (cont 0).bytes
    let o := { offFor .trapped { Strand.zero with slot := some p } with core := 1 }
    let s := { framed 0 0 0 [] with svc := { (framed 0 0 0 []).svc with off := [o] } }
    s.svc.off[0]? = some o ∧ o.strand.slot = some p ∧ o.why = .trapped ∧ (coreGet s 0).mode ≠ .vacant ∧ tagOf (coreGet s 0).strand = o.ctx ∧
      (coreGet s 0).deque.length < slice (coreGet s 0).dqcap 0 16 ∧ RoomFor s 0 (Cont.ofBytes p) ∧
      Vacant s 1 ∧ mayResume s o [] = true ∧ ∀ y, (o.poke 0x2800 (· &&& ~~~(2 : Word))).edited = some y → imageOk y = true := by
  refine ⟨rfl, rfl, rfl, by decide, rfl, by decide, ⟨0, 0x100, _, rfl, fun h => absurd rfl h⟩,
    ⟨vacant_others _ rfl 1 (by decide), rfl⟩, rfl, fun y h => nomatch h⟩
/-- ContextMoves: a watchdog's record in both modes. -/
theorem test_hyp_ContextMoves_record :
    (let o := offFor .trapped { Strand.zero with cause := 0x18 }
     o.why = .trapped ∧ slice o.strand.cause 0 8 = 0x18 ∧ contextGet (offs o) o.ctx = some context ∧ context.hold = false) ∧
    (let s := { offs (offFor .trapped { Strand.zero with cause := 0x18 }) with
       svc := { (offs (offFor .trapped Strand.zero)).svc with contexts := [{ context with hold := true }] } }
     ∃ x, contextGet s 0 = some x ∧ x.hold = true) := ⟨⟨rfl, by decide, rfl, rfl⟩, _, rfl, rfl⟩
/-- ContextMoves: a register line that leaves for the image, and one that leaves for a place in the carve-out; one that is
loaded. -/
theorem test_hyp_ContextMoves_evicted :
    (let s := runs { Strand.zero with spilltop := 0x40 }
     MemoryOk s ∧ strandPlace 0 s = some (0, { Strand.zero with spilltop := 0x40 }) ∧
       carvePlace { Strand.zero with spilltop := 0x40 } 0x1000 = some 0) ∧ carvePlace Strand.zero 0x1000 = none := by
  refine ⟨⟨rfl, rfl, rfl⟩, rfl⟩
theorem edit_past (es : List (Nat × Byte)) : (∀ e ∈ es, 0x2307 ≤ e.1) →
    editImage (List.replicate 0x2306 0 ++ [1]) es = List.replicate 0x2306 0 ++ [1] := by
  induction es with
  | nil => exact fun _ => rfl
  | cons e es ih =>
    intro he
    have he' := he e List.mem_cons_self
    rw [editImage, List.foldl_cons, List.set_eq_of_length_le (by simpa [-List.reduceReplicate] using he')]
    exact ih fun x hx => he x (List.mem_cons_of_mem _ hx)
/-- ContextMoves: a pending continuation whose strand has an image that the device has refused. -/
theorem test_hyp_ContextMoves_slotRefused :
    let o := { offFor .trapped { Strand.zero with slot := some (cont 0).bytes } with core := 1, edited := some (List.replicate 0x2306 0 ++ [1]) }
    mayResume (framed 0 0 0 []) o [] = true ∧ ∃ y, (o.poke 0x2800 (· &&& ~~~(2 : Word))).edited = some y ∧ imageOk y = false := by
  have w : imgCtl (List.replicate 0x2306 0 ++ [1]) 17 = 0 := by
    simp [-List.reduceReplicate, imgCtl, imgWord, imgNat, List.drop_append]
    decide
  have g : ∀ b, imgCtl b 17 = 0 → mayResume (framed 0 0 0 [])
      { offFor .trapped { Strand.zero with slot := some (cont 0).bytes } with core := 1, edited := some b } [] = true := by
    intro b hb
    simp [mayResume, Off.write, offFor, relocHeld, wdEditOk, hb]
    exact ⟨⟨.inl (by decide), .inl rfl, .inr rfl⟩, by decide⟩
  refine ⟨?_, List.replicate 0x2306 0 ++ [1], congrArg some (edit_past _ ?_), ?_⟩
  · exact g _ w
  · intro e he
    obtain ⟨x, _, rfl⟩ := List.mem_map.mp he
    exact Nat.le_trans (by decide) (Nat.le_add_right _ _)
  · simp [-List.reduceReplicate, imageOk, allZero, List.drop_append]

/-- The exporting context 0 with a dense object, a ring and a barrier. -/
def target (mem : List Host.Cell) : State := { withRecs [(1, dense 0), (2, ringRec 15), (3, barrierRec)] (shares Strand.zero) with mem := mem }
theorem target_mem (m : List Host.Cell) : (target m).mem = m := rfl
/-- A request of device 5 for an object of context 0. -/
def asks (o : BitVec 18) (op : PeerOp) : PeerReq := ⟨7, false, 5, 0, 0, o, 0, op⟩
theorem home_stored (s : State) (h : MemoryOk s) (k : Nat) (p : PlaceKind) (bs : List Byte) :
    HomeStored s [⟨k, bs.length, p⟩] bs { s with mem := memWrite s.mem k bs } := by
  refine ⟨rfl, fun x hx => ?_, fun _ => ?_⟩
  · refine memGet_memWrite_other bs h ?_
    by_cases c : x < k
    · exact .inl c
    · refine .inr (Nat.le_of_not_lt fun hl => hx ?_)
      exact ⟨_, List.mem_singleton.2 rfl, by simpa using c, hl⟩
  · simpa using memRead_memWrite bs k h
/-- R395: a read of two units of a peer, of which the second is poisoned, and the packet that arrives. -/
theorem test_poison_of_one_unit :
    (match exec (.bulkRd (asks 1 (.read 128))) { target [] with poison := [0x200040] } with
      | .next t => t.svc.messages.head?.bind fun m => match m with
        | .peer _ (.done v _) => some v
        | _ => none
      | _ => none) = some 0xF0 ∧
    (fillUnits 2 0 [unit16 (.mem 0x700000 .hc), unit16 (.mem 0x700040 .hc)] []).map (·.poisoned) = [false, true] := by
  decide
/-- PeerTraffic: a request of each kind that is served. -/
theorem test_hyp_PeerTraffic_served :
    MemoryOk (target []) ∧ (target []).ckpt.flashing = false ∧ (target []).ckpt.powered = true ∧
    (∃ e m, PeerServes (target []) (asks 1 (.bulk (List.replicate 8 1) false 3 0 8)) (.bulkWr (asks 1 (.bulk (List.replicate 8 1) false 3 0 8))) e m) ∧
    (∃ e m, PeerServes (target []) (asks 1 (.read 16)) (.bulkRd (asks 1 (.read 16))) e m) ∧
    (∃ e m, PeerServes (target []) (asks 1 (.flag 8)) (.flag (asks 1 (.flag 8))) e m) ∧
    (∃ e m, PeerServes (target []) (asks 1 (.load 8)) (.ord (asks 1 (.load 8))) e m) ∧
    (∃ e m, PeerServes (target []) (asks 1 (.store 8 5)) (.ord (asks 1 (.store 8 5))) e m) ∧
    (∃ e m, PeerServes (target []) (asks 1 (.amo 1 8 5)) (.ord (asks 1 (.amo 1 8 5))) e m) ∧
    (∃ e m, PeerServes (target []) (asks 1 (.cas 8 1 5)) (.ord (asks 1 (.cas 8 1 5))) e m) ∧
    (∃ e m, PeerServes (target (memSetWord [] 0x500000 1)) (asks 2 (.rwait 0)) (.syncClass (asks 2 (.rwait 0))) e m) ∧
    (∃ e m, PeerServes (target []) (asks 2 (.rrel 0)) (.syncClass (asks 2 (.rrel 0))) e m) ∧
    (∃ e m, PeerServes (target []) (asks 1 (.cwait 0)) (.syncClass (asks 1 (.cwait 0))) e m) ∧
    (∃ e m, PeerServes (target []) (asks 3 (.barw 1)) (.syncClass (asks 3 (.barw 1))) e m) ∧
    (∃ e m, PeerServes (target (memSetWord [] 0x500010 4)) (asks 2 (.donate (List.replicate 8 1))) (.don (asks 2 (.donate (List.replicate 8 1)))) e m) := by
  refine ⟨rfl, rfl, rfl, ⟨_, _, .bulk _ _ _ _ _ _ _ _ rfl rfl (by decide) (home_stored (target []) rfl _ _ (List.replicate 8 1))
      ⟨fun h => (nomatch h), fun _ u => ⟨fun h => (nomatch h), fun h => (nomatch h.1)⟩⟩⟩,
    ⟨_, _, .read _ _ _ 0 rfl rfl fun i _ => ⟨fun h => by simp [bitOf] at h, fun ⟨_, _, h⟩ => nomatch h⟩⟩, ⟨_, _, .flag _ _ _ _ rfl rfl (by decide) (home_stored (target []) rfl _ _ (natBytes 8 1))⟩,
    ⟨_, _, .load _ _ _ rfl rfl rfl⟩, ⟨_, _, .store _ _ _ _ _ rfl rfl (home_stored (target []) rfl _ _ (natBytes 8 5))⟩,
    ⟨_, _, .amo _ _ _ _ _ _ rfl (.inr rfl) rfl rfl (home_stored (target []) rfl _ _ (natBytes 8 5))⟩,
    ⟨_, _, .cas _ _ _ _ _ _ rfl rfl rfl (fun h => absurd h (by decide)) (fun _ => rfl)⟩, ⟨_, _, .rwait 0 (ringRec 15) _ rfl rfl rfl rfl (by decide)⟩,
    ⟨_, _, .rrel 0 (ringRec 15) _ rfl rfl rfl rfl rfl⟩, ⟨_, _, .cwait _ _ _ rfl rfl rfl (by decide) (by decide)⟩,
    ⟨_, _, .barw 1 barrierRec _ rfl rfl rfl rfl (by decide)⟩, ⟨_, _, .full _ _ rfl (show targetRecord _ _ .ewrite = .ok (ringRec 15) by rfl) rfl rfl rfl rfl rfl rfl (by decide)⟩⟩
/-- The arrivals of a peer at a barrier. -/
theorem test_hyp_PeerTraffic_barrier :
    let s := target (memSetWord [] 0x600000 (W (2 * 2 ^ 32 + 2)))
    (∃ m, BarrierAfter s barrierRec.place (arrivalsAt s barrierRec.place) (expectedAt s barrierRec.place - W 0) m) ∧
    (∃ m, BarrierAfter s barrierRec.place (arrivalsAt s barrierRec.place - 1) (expectedAt s barrierRec.place + 0) m) ∧
    (∃ r ps, targetSpan s (asks 3 (.bara 0)) 32 .atomic = .ok (r, ps) ∧ r.kind = kBARRIER ∧ r.place = barrierRec.place) ∧
    (∃ r ps, targetSpan s (asks 3 (.flag 8)) 8 .atomic = .ok (r, ps) ∧ r.kind = kBARRIER ∧ r.place = barrierRec.place) := by
  have h : Memory.wf (memSetWord [] 0x600000 (W (2 * 2 ^ 32 + 2))) = true := by decide
  refine ⟨⟨target (memSetWord [] 0x600000 (W (2 * 2 ^ 32 + 2))), rfl, fun _ _ => rfl, by decide, rfl, by decide, by decide⟩,
    ⟨{ target (memSetWord [] 0x600000 (W (2 * 2 ^ 32 + 2))) with
        mem := memSetWord (memSetWord [] 0x600000 (W (2 * 2 ^ 32 + 2))) 0x600000 (W (2 * 2 ^ 32 + 1)) }, rfl,
      ?_, by decide, by decide, by decide, by decide⟩,
    ⟨_, _, rfl, rfl, rfl⟩, ⟨_, _, rfl, rfl, rfl⟩⟩
  intro b hb
  rw [target_mem]
  have e : barrierRec.place = 0x600000 := by decide
  rw [e] at hb
  exact memGet_memSetWord_other h _ _ (by omega)

/-- PeerTraffic: a request that is refused and one that waits; an answer for a strand that waits, for a posted store and for a
command, one that fails a command, and one that nothing asked for. -/
theorem test_hyp_PeerTraffic_answers :
    (∃ c v, targetSpan (target []) (asks 9 (.read 16)) 16 .read = .error (.trap c v) ∧ c ≠ 0x17) ∧
    (∃ r ps, targetSpan (target []) (asks 2 (.rwait 0)) 1 .read = .ok (r, ps) ∧ r.kind = kRING ∧ ringAt (target []) r 0 ≤ 0) ∧
    (let q := asks 9 (.load 8)
     let s := { runs { Strand.zero with peer := ⟨some 7, none, [7], none⟩ } with out := [⟨q, .wait 0, 0, 0, 1, 0, 0⟩] }
     ∃ x, s.out.find? (fun y => y.req.id == q.id) = some x ∧ x.use = .wait 0 ∧ (coreGet s 0).mode ≠ .vacant ∧
       (coreGet s 0).strand.spillovf = 0 ∧ (coreGet s 0).strand.peer.wait = some q.id ∧
       ∀ j, (coreGet s j).mode ≠ .vacant → (coreGet s j).strand.spillovf = 0 → j = 0) ∧
    (let q := asks 9 (.read 16)
     let c := cmdOf [] .none
     let us := [unit16 (.mem 0x200000 .sc)]
     let s := { shares Strand.zero with cmds := [c], out := [⟨q, .cmdRead 3 us, 0, 0, 1, 0, 0⟩] }
     CmdAt s 3 c ∧ c.failed = false ∧ (List.replicate 16 (0 : Byte)).length = (us.map (·.bytes.length)).sum ∧
       contextGet s c.ctx = some context ∧ ∃ b, recordAddr context.ortBase (BitVec.ofNat 18 (0x3F000 + 1)) = some b) ∧
    (runs Strand.zero).out.find? (fun y => y.req.id == 7) = none := by
  refine ⟨⟨_, _, rfl, by decide⟩, ⟨_, _, rfl, rfl, by decide⟩, ⟨_, rfl, rfl, by decide, rfl, rfl, ?_⟩, ⟨rfl, rfl, rfl, rfl, _, rfl⟩, rfl⟩
  intro j hj _
  by_cases e : j = 0
  · exact e
  · exact absurd (vacant_others _ rfl j e) hj

/-- PeerTraffic: a descriptor donated to a ring with room, a packet appended to it, and packets that wait or fail. -/
theorem test_hyp_PeerTraffic_append :
    (∃ e m, PeerServes (target []) (asks 2 (.donate (List.replicate 8 1))) (.don (asks 2 (.donate (List.replicate 8 1)))) e m ∧ e = .done 0 []) ∧
    (∃ e m, PeerServes (target []) (asks 2 (.bulk (List.replicate 8 1) false 3 0 8)) (.bulkWr (asks 2 (.bulk (List.replicate 8 1) false 3 0 8))) e m) ∧
    PeerWaits (target (memSetWord [] 0x500010 4)) (asks 2 (.bulk (List.replicate 8 1) false 3 0 8))
      (.bulkWr (asks 2 (.bulk (List.replicate 8 1) false 3 0 8))) ∧
    PeerWaits (target []) (asks 2 (.rwait 0)) (.syncClass (asks 2 (.rwait 0))) ∧
    PeerWaits (target []) (asks 1 (.cwait 1)) (.syncClass (asks 1 (.cwait 1))) ∧
    PeerWaits (target []) (asks 3 (.barw 0)) (.syncClass (asks 3 (.barw 0))) := by
  have w : Memory.wf (memSetWord [] 0x500010 1) = true := by decide
  refine ⟨⟨_, _, .donate _ _ 0x500040 { target [] with
        mem := memWrite (memSetWord [] 0x500010 1) 0x500040 ((List.replicate 8 (1 : Word)).flatMap fun x => natBytes 8 x.toNat)
        appends := [⟨false, 7, 0x500000, 0, 0⟩] } _ rfl rfl (show targetRecord _ _ .ewrite = .ok (ringRec 15) by rfl) rfl rfl rfl rfl rfl rfl (by decide) (by decide) rfl rfl
      ?_ (by decide) (by decide) (by decide) ?_ (fun x => ⟨fun h => (nomatch h), fun h => (nomatch h.1)⟩)
      (.pass _ _ ⟨false, 7, 0x500000, 0, 0⟩ (by decide) rfl (by decide) (.rest _ fun a h => (nomatch h))), rfl⟩,
    ⟨_, _, .append _ _ _ _ _ _ ⟨false, 3, 0x500000, 0, 8⟩ _ _ _ _ rfl (show targetRecord _ _ .ewrite = .ok (ringRec 15) by rfl) rfl rfl rfl
      (.claim rfl rfl (by decide) (by decide)) (by decide) rfl
      (home_stored { target [] with mem := memSetWord [] 0x500010 1, appends := [⟨false, 3, 0x500000, 0, 8⟩] } w 0x500040 .home
        (List.replicate 8 1)) ⟨fun h => (nomatch h), fun _ u => ⟨fun h => (nomatch h), fun h => (nomatch h.1)⟩⟩
      (.pass _ _ ⟨false, 3, 0x500000, 0, 0⟩ (by decide) rfl (by decide) (.rest _ fun a h => (nomatch h)))⟩,
    .append _ _ _ _ _ _ rfl (show targetRecord _ _ .ewrite = .ok (ringRec 15) by rfl) rfl rfl rfl rfl rfl (by decide) (by decide),
    .rwait 0 (ringRec 15) _ rfl rfl rfl rfl (by decide), .cwait _ _ _ rfl rfl rfl (by decide) (by decide), .barw 0 barrierRec _ rfl rfl rfl rfl (by decide)⟩
  · exact (memRead_memWrite _ _ w).trans rfl
  · intro x h1 h2
    exact (memGet_memWrite_other _ w h2).trans (memGet_memSetWord_other rfl _ _ h1)
/-- PeerTraffic: what turns a request back. -/
theorem test_hyp_PeerTraffic_fails :
    PeerFails (target []) (asks 9 (.read 16)) (.bulkRd (asks 9 (.read 16))) .failed ∧
    PeerFails (target []) (asks 9 (.bulk [] false 3 0 8)) (.bulkWr (asks 9 (.bulk [] false 3 0 8))) .failed ∧
    PeerFails (target []) { asks 1 (.bulk (List.replicate 64 0) false 3 0 8) with off := 0x1000000 }
      (.bulkWr { asks 1 (.bulk (List.replicate 64 0) false 3 0 8) with off := 0x1000000 }) .failed ∧
    PeerFails (target []) (asks 9 (.donate [])) (.don (asks 9 (.donate []))) .failed ∧
    PeerFails (target []) (asks 1 (.rrel 0)) (.syncClass (asks 1 (.rrel 0))) .failed ∧
    PeerFails { target [] with poison := [0x200000] } (asks 1 (.load 8)) (.ord (asks 1 (.load 8))) .poisoned :=
  ⟨.span _ _ _ _ _ (.read _ rfl) rfl, .bulk _ _ _ _ _ _ _ rfl rfl,
    .bytes _ _ _ _ _ (dense 0) _ _ rfl rfl (by decide) rfl, .donate _ _ _ rfl rfl,
    .rrel _ _ _ rfl rfl (.inr (by decide)), .poisoned _ _ _ _ _ _ (.load _ rfl) (.inl ⟨_, rfl⟩) rfl rfl⟩
/-- PeerTraffic: a ring whose control is poisoned turns packets and descriptors back, and a strand's wait. -/
theorem test_hyp_PeerTraffic_control :
    let s := { target [] with poison := [0x500000] }
    PeerFails s (asks 2 (.bulk [] false 3 0 8)) (.bulkWr (asks 2 (.bulk [] false 3 0 8))) .failed ∧
    PeerFails s (asks 2 (.donate [])) (.don (asks 2 (.donate []))) .failed ∧
    PeerFails s (asks 2 (.rwait 0)) (.syncClass (asks 2 (.rwait 0))) .poisoned :=
  ⟨.moved _ _ _ _ _ (ringRec 15) rfl rfl rfl (.inr (by unfold RingSound; decide)),
    .ring _ (ringRec 15) rfl rfl (.inr (.inr (.inr (.inr (.inr (by unfold RingSound; decide)))))),
    .control kRING _ (ringRec 15) _ (.inl ⟨rfl, .inl ⟨_, rfl⟩, rfl⟩) rfl rfl rfl (by unfold RingSound; decide)⟩

/-! Recovery, flashing and the supply. -/

/-- A context that holds a share which reaches past the memory of the C-die. -/
def stacked : Context := { context with held := [⟨0, 0, { layout0 with shareLimit := 0x90000 }⟩] }
/-- Recovery: a line held, one only marked dirty and one not held; a line of HBM and one of a scratchpad; units with and
without contexts that need them, and a restore while the device is flashing. -/
theorem test_hyp_Recovery :
    (let s := coherent [(1, dense 1)] [dirtyLine] Strand.zero
     MemoryOk s ∧ LinesOk s ∧ DirtyOk s ∧ ((clusterGet s 0).line (lineOf 0x200000)).isSome) ∧
    (let s := { runs Strand.zero with dirty := [⟨0x200000, 0, 1, 0⟩] }
     (clusterGet s 0).line (lineOf 0x200000) = none ∧ DirtyOk s ∧ ∃ x ∈ s.dirty, x.addr = lineOf 0x200000 ∧ clusterOf x.core = 0) ∧
    (let s := runs Strand.zero
     (∀ k, dieOfCluster k = dieOfCluster 0 → (clusterGet s k).line (lineOf 0x200000) = none) ∧
     (∀ x ∈ s.dirty, ¬ (x.addr = lineOf 0x200000 ∧ clusterOf x.core = 0)) ∧
      ∀ e, l2Get s (dieOfCluster 0) (lineOf 0x200000) = some e → e.mask = 0) ∧
    isSp (lineOf 0x200000) = false ∧ isSram (lineOf 0x200000) = false ∧ isSp (lineOf (spBase 0)) = true ∧
    (let s := { shares Strand.zero with svc := { (shares Strand.zero).svc with contexts := [stacked] } }
     ∃ x ∈ s.svc.contexts, ∃ h ∈ x.held, 0x80000 < h.lay.shareLimit ∧ dieOf h.core = 0) ∧
    (∀ x ∈ (shares Strand.zero).svc.contexts, ¬ ∃ h ∈ x.held, 0x80000 < h.lay.shareLimit ∧ dieOf h.core = 0) ∧
    (let s := { shares Strand.zero with svc := { (shares Strand.zero).svc with contexts := [{ context with images := 0x200000000 }] } }
     ∃ x ∈ s.svc.contexts, hbmUsed s x (0 * 2 ^ 36 + 1 % 32 * 2 ^ 31, 2 ^ 31) = true) ∧
    (¬ ∃ x ∈ (shares Strand.zero).svc.contexts, hbmUsed (shares Strand.zero) x (7 * 2 ^ 36 + 1 % 32 * 2 ^ 31, 2 ^ 31) = true) ∧
    (∀ x ∈ (runs Strand.zero).svc.contexts, holdsIn (runs Strand.zero) (.cluster 5) x = false ∧
      holdsIn (runs Strand.zero) (.cluster 19) x = false) ∧
    (¬ ∀ x ∈ (shares Strand.zero).svc.contexts, holdsIn (shares Strand.zero) (.cluster 0) x = false ∧
      holdsIn (shares Strand.zero) (.cluster 19) x = false) ∧
    (let mesh := (runs Strand.zero).pkg.mesh[(dieOfCluster 5).toNat]
     (5 : ClusterId).toNat % 32 < mesh.length ∧ mesh.length ≤ 32) ∧
    (let s := { runs Strand.zero with pkg := { (runs Strand.zero).pkg with mesh := Vector.replicate 8 [0, 1] } }
     (s.pkg.mesh[(dieOfCluster 5).toNat]).length ≤ (5 : ClusterId).toNat % 32) ∧
    ({ runs Strand.zero with ckpt := { Checkpoint.start with flashing := true } }).ckpt.flashing = true := by
  refine ⟨⟨rfl, lines_ok _ _, ⟨List.Pairwise.nil, fun e h => (nomatch h)⟩, rfl⟩, ⟨rfl, ⟨List.pairwise_singleton _ _, by decide⟩, by decide⟩,
    ⟨fun k _ => rfl, fun x h => (nomatch h), fun e h => (nomatch h)⟩, by decide, by decide, by decide, by decide, by decide, by decide,
    by decide, by decide, by decide, by decide, by decide, rfl⟩

/-- A device whose supply is on or lost, in a phase of its sequence. -/
def flashes (p f : Bool) (n : Nat) (s : State) : State := { s with ckpt := { s.ckpt with powered := p, flashing := f, phases := n } }
/-- R408: a key pair and its signature (worked out outside from GB/T 32918: private key 2, ephemeral number 1) over the digest of
an empty image. -/
def slot0 : BootSlot := ⟨[], 0,
  0xC3230A973A0D786F718E6C2F184CE86DBDF1EAF8E05C5368F68981CCE6E7B73152BDF2A31D2E5C4931738AC008FA0D9C4DBA73FA57EF580D007CC8D760FDCE56,
  0x6613B6CF5271D1317331D7D8A6938DBEA0E948EB146CA63ABCD6F1A01454ED969CC42E9F11C4DF32943D666DA671310D8EA1129FE05D06A8E53D958EDF019C9D⟩
def vendor : BitVec 256 := BitVec.ofNat 256 (bytesNat (Sm3.digest (natBytes 64 slot0.key.toNat)))
theorem test_signature : Sm2.slotVerifies (Sm3.digest []) (natBytes 64 slot0.key.toNat) (natBytes 64 slot0.sig.toNat) = true := by
  decide +kernel
theorem slot_ok (s : State) (h : s.svc.vendorKey = vendor) (f : s.svc.fusedRollback = 0) : slotOk s slot0 = true := by
  have e : slot0.image = [] := rfl
  have r : slot0.rollback = 0 := rfl
  simp only [slotOk, e, r, h, f, test_signature, vendor, beq_self_eq_true, Bool.and_true, Nat.le_refl, decide_true]
/-- Flashing: each phase, a strand saved that returns to its core, a supply that returns with and without a slot. -/
theorem test_hyp_Flashing :
    (let s := flashes true false 0 (runs Strand.zero)
     MemoryOk s ∧ LinesOk s ∧ DirtyOk s ∧ s.ckpt.powered = true ∧ s.ckpt.flashing = false) ∧
    (∀ n, (flashes true true n (runs Strand.zero)).ckpt.phases = n ∧ (flashes true true n (runs Strand.zero)).ckpt.powered = true ∧
      (flashes true true n (runs Strand.zero)).ckpt.flashing = true ∧ (flashes true true n (runs Strand.zero)).ckpt.manifest.length < 2 ^ 23 ∧
      (flashes true true n (runs Strand.zero)).svc.phase ≠ .stopped) ∧
    (let o := offFor .preempted Strand.zero
     let s := flashes true true 2 (offs o)
     o ∈ s.svc.off) ∧
    PartsApart { flashes true true 1 (runs Strand.zero) with svc := { Service.start with contexts := [{ context with saveArea := 0x100000, areas := [], held := [] }] } } ∧
    (let s := coherent [(1, dense 1)] [dirtyLine] Strand.zero
     FullLines s ∧ dirtyLine ∈ (clusterGet s 0).l1 ∧ dirtyLine.mask ≠ 0) ∧
    L2Dirty (0, ⟨0x200000, List.replicate 64 5, 1, false⟩) 0x200000 5 ∧
    (let o := offFor .preempted Strand.zero
     let s := { flashes true true 5 (offs o) with ckpt := { Checkpoint.start with powered := true, flashing := true, phases := 5, saved := [0] } }
     5 ≤ s.ckpt.phases ∧ s.svc.phase = .running ∧ s.ckpt.saved = [o.strand.spillovf] ∧
     s.svc.off.find? (fun p => p.strand.spillovf == o.strand.spillovf) = some o ∧ CanReturn s o) ∧
    (let s := { flashes true true 5 (runs Strand.zero) with svc := { Service.start with phase := .recovery } }
     s.svc.phase ≠ .running ∧ s.svc.phase ≠ .stopped) ∧
    (let s := flashes false false 0 (runs Strand.zero)
     s.ckpt.powered = false ∧ (∀ b ∈ s.svc.flash.take 2, slotOk s b = false) ∧ markerSealed s (latestMarker s) = false) := by
  refine ⟨⟨rfl, fun c => ⟨List.Pairwise.nil, fun l hl => (nomatch hl)⟩, ⟨List.Pairwise.nil, fun e h => (nomatch h)⟩, rfl, rfl⟩,
    fun n => ⟨rfl, rfl, rfl, Nat.two_pow_pos _, Phase.noConfusion⟩, List.mem_singleton.2 rfl, ⟨List.pairwise_singleton _ _, ?_⟩,
    ⟨⟨?_, fun e h => (nomatch h)⟩, List.mem_singleton.2 rfl, by decide⟩, ⟨0, by decide, rfl, by decide, rfl⟩,
    ⟨by decide, rfl, rfl, rfl, ⟨rfl, rfl⟩, fun b h => nomatch h⟩, ⟨by decide, by decide⟩, rfl, fun b h => (nomatch h), by decide⟩
  · intro x h
    rw [List.mem_singleton.1 h]
    unfold OffMarker Separate
    decide +kernel
  · intro c h l hl
    rw [List.mem_singleton.1 h] at hl
    rw [List.mem_singleton.1 hl]
    rfl
/-- Flashing: a return of the supply with a slot whose signature verifies. -/
theorem test_hyp_Flashing_return :
    let s := { flashes false false 0 (runs Strand.zero) with svc := { Service.start with flash := [slot0], vendorKey := vendor } }
    s.ckpt.powered = false ∧ (s.svc.flash.take 2).find? (slotOk s) = some slot0 := by
  refine ⟨rfl, ?_⟩
  exact List.find?_cons_of_pos (slot_ok _ rfl rfl)
/-- Flashing: a sealed marker over an empty manifest. -/
theorem test_hyp_Flashing_sealed :
    let m := memWrite [] Config.ridgeCap (natBytes 4 0x4D425A43 ++ natBytes 2 15 ++ natBytes 18 1 ++ natBytes 8 Config.manifestBase ++ Sm3.digest [])
    markerSealed { runs Strand.zero with mem := m } (latestMarker { runs Strand.zero with mem := m }) = true := by
  decide +kernel
/-- Flashing: a command of the matrix unit that a stall holds back, and none. -/
theorem test_hyp_Flashing_stalled :
    (let s := flashes true true 0 (runs Strand.zero)
     mxStalled { s with
       clusters := [(0, { Cluster.zero with mx := { Cluster.zero.mx with queue := [command] } })]
       pkg := { s.pkg with power := [(0, { Power.start with stall := some 10 })] } } = true) ∧
    mxStalled (flashes true true 0 (runs Strand.zero)) = false := ⟨by decide, rfl⟩
/-- Flashing: the two ways that a saved strand cannot return. -/
theorem test_hyp_Flashing_cannot :
    ¬ CanReturn (runs Strand.zero) (offFor .preempted Strand.zero) ∧
    ¬ CanReturn (offs (offFor .preempted Strand.zero)) { offFor .preempted Strand.zero with edited := some (editImage Strand.zero.image [(0x2306, 1)]) } := by
  refine ⟨fun h => absurd h.1.1 (by decide), fun h => ?_⟩
  exact absurd (h.2 _ rfl) (by rw [image_bad_zero]; decide)
/-- Recovery: copies in an L1D and in an L2, and a line in neither. -/
theorem test_hyp_Recovery_copies :
    ((clusterGet (coherent [(1, dense 1)] [dirtyLine] Strand.zero) 0).line (lineOf 0x200000) = some dirtyLine) ∧
    (clusterGet (runs Strand.zero) 0).line (lineOf 0x200000) = none ∧ l2Get (runs Strand.zero) 0 (lineOf 0x200000) = none ∧
    (let e : L2Line := ⟨0x200000, List.replicate 64 5, 0, false⟩
     l2Get { runs Strand.zero with l2 := [(0, e)] } 0 (lineOf 0x200000) = some e) := ⟨rfl, rfl, rfl, rfl⟩
/-- Recovery: the last cluster of a die, and another. -/
theorem test_hyp_Recovery_last :
    (let s := runs Strand.zero
     mkCluster (dieOfCluster 5) (clusterCount s (dieOfCluster 5) - 1) ≠ 5 ∧ mkCluster 0 (clusterCount s 0 - 1) = 19) := by decide

/-! Requests to the service, and its work. -/

def heads (e : Endpoint) (kind : BitVec 8) : ReqHead := ⟨e, kind, 77, 0, 0, none⟩
/-- R411: a legal CREATE, with a table of 64 records at 0x10000. -/
def createReq : CreateReq :=
  ⟨0, 1, 100, false, false, 1, W (6 * 2 ^ 52 + 0x10000), 0x400000, 4, 0, [layout0], [], 0x500000, [], []⟩
/-- The context 0 with such a table and a record of cluster 0 that it may use. -/
def serves (c : Core) : State :=
  let s := withRecs [(1, dense 0)] (runs Strand.zero)
  { s with core := c, svc := { s.svc with contexts := [{ context with ortBase := W (6 * 2 ^ 52 + 0x10000), pools := [(0, [0x1000])] }] } }
/-- ContextRequests: a CREATE that is legal and ones that are not; a context that is not there. -/
theorem test_hyp_ContextRequests_create :
    (let s := runs Strand.zero
     MemoryOk s ∧ Serving s (heads .listed 1) 1 ∧ (createReq.mode = 1 ∨ createReq.mode = 2) ∧ 100 ≤ createReq.limit.toNat ∧
     diesOf s createReq.part ≠ [] ∧ layoutFits createReq s = true ∧ contextGet s 0 = none ∧
     (∀ u : Tag, u.toNat < (0 : Tag).toNat → contextGet s u ≠ none)) ∧
    layoutFits { createReq with layouts := [{ layout0 with arenaBase := 0x100000 }] } (runs Strand.zero) = false ∧
    ¬ ((0 : BitVec 2) = 1 ∨ (0 : BitVec 2) = 2) ∧ contextGet (runs Strand.zero) (heads .listed 2).ctx = none := by
  refine ⟨⟨rfl, ⟨rfl, rfl, by decide, rfl, rfl⟩, .inl rfl, by decide, by decide, by decide, rfl, fun u h => absurd h (Nat.not_lt_zero _)⟩,
    by decide, by decide, rfl⟩
/-- ContextRequests: DEFINE and LOAD in their forms. -/
theorem test_hyp_ContextRequests_forms :
    let s := serves Core.vacant
    let x : Context := { context with ortBase := W (6 * 2 ^ 52 + 0x10000), pools := [(0, [0x1000])] }
    contextGet s (heads .listed 2).ctx = some x ∧ Serving s (heads .listed 2) 2 ∧ NoneAhead s (heads .listed 2) ∧ MemoryOk s ∧
    (dense 0).length = 8 ∧ (1 : BitVec 18).toNat < 0x3F000 ∧ (recordAddr x.ortBase 1).isSome ∧ (dense 0).ok s 1 = true ∧
    (dense 0).part = x.part ∧ ¬ (([] : ORec).length = 8) ∧ besideOk s x (dense 0) [] [7] = true ∧
    ((placeImage (dense 0) [7] [] (placeObject s (dense 0) [])).isSome ∧
      ∀ y ∈ objectRanges (placeObject s (dense 0) []) (dense 0), placeOk s x.part y = true) ∧
    lookup s (serviceAgent s x) 1 (W ((1 : BitVec 18).toNat * 2 ^ 44 + 64)) = .ok (dense 0) ∧
    (∃ ps, objectSpan s (serviceAgent s x) (W ((1 : BitVec 18).toNat * 2 ^ 44 + 64)) (dense 0) 3 .ewrite = .ok ps) ∧
    coreServes s x 0 = true ∧ (∃ e ∈ x.held, e.core = 0 ∧ layHolds e.lay 0x100 3 = true) ∧ coreServes s x 2047 = false ∧
    (let y := { x with held := [] }
     let u := { s with svc := { s.svc with contexts := [y] } }
     coreServes u y 0 = true ∧ inRegion u 0 0x100 3 = false ∧
     y.layouts.find? (fun l => layHolds l 0x100 3 && layoutFree u 0 l) = some layout0) ∧
    contextGet s 1 = none := by
  refine ⟨rfl, ⟨rfl, rfl, by decide, rfl, rfl⟩, fun j h => (nomatch h), rfl, rfl, by decide, by decide, by decide, rfl, by decide, by decide,
    by decide, rfl, ⟨_, rfl⟩, by decide, by decide, by decide, ⟨by decide, by decide, by decide⟩, rfl⟩
/-- ContextRequests: LAUNCH, IMPORT, DONSETUP and END in their forms; a request that waits behind another. -/
theorem test_hyp_ContextRequests_launch :
    let s := serves Core.vacant
    let x : Context := { context with ortBase := W (6 * 2 ^ 52 + 0x10000), pools := [(0, [0x1000])] }
    let idle := serves { Core.vacant with mode := .idle }
    let q : LaunchReq := ⟨0x400, 0, some 0, 1, 0, []⟩
    let d : DonReq := ⟨2, 0x600000, 5, 1, 1, 5, 0⟩
    contextGet s (heads .listed 4).ctx = some x ∧ contextGet idle 0 = some x ∧
    q.entry.toNat % 64 = 0 ∧ launchCore s x q = some 0 ∧ coreServes s x 0 = true ∧ coreServes s x 2047 = false ∧ TakesRoot s x 0 ∧ TakesRoot idle x 0 ∧ Machine.poolAt s x.tag (clusterOf 0) = [0x1000] ∧
    Machine.poolAt s x.tag (clusterOf 8) = [] ∧ (0x401 : Word).toNat % 64 ≠ 0 ∧
    (coreGet s 0).mode = .vacant ∧ hasOff s x.tag 0 = false ∧ ¬ CanPlace s { x with strands := 4 } 0 ∧
    (let r := serves { Core.vacant with mode := .running }
     (coreGet r 0).mode ≠ .vacant ∧ tagOf (coreGet r 0).strand = x.tag ∧
       ¬ ((coreGet r 0).mode = .idle ∧ (coreGet r 0).deque = [])) ∧
    (recordAddr x.ortBase (BitVec.ofNat 18 (0x3F000 + (1 : BitVec 12).toNat))).isSome ∧
    (donationRing d x.part).ok s 5 = true ∧ (recordAddr x.ortBase 5).isSome ∧
    placeOk s x.part ((donationRing d x.part).place, (donationRing d x.part).bytes) = true ∧ contextGet s d.donor = none ∧
    (∀ c ∈ s.cmds, c.ctx ≠ x.tag) ∧ (∀ y ∈ s.out, y.ctx ≠ x.tag) ∧
    (let w := { s with svc := { s.svc with waiting := [.launch (heads .listed 4) q] } }
     .endCtx (heads .listed 10) ∉ w.svc.waiting ∧
     w.svc.waiting.find? (fun i => decide (ctxOf i = some (heads .listed 10).ctx)) = some (.launch (heads .listed 4) q) ∧
     ¬ NoneAhead w (heads .listed 4) ∧ headOf (.endCtx (heads .listed 10)) = some (10, heads .listed 10)) := by
  refine ⟨rfl, rfl, rfl, rfl, by decide, by decide, .vacant rfl ⟨by decide, .inl ⟨_, List.mem_cons_self, rfl, rfl⟩⟩, .idle rfl rfl rfl, rfl, rfl, by decide, rfl, rfl,
    fun h => absurd h.1 (by decide), by decide, by decide, by decide, by decide, by decide, rfl, fun c h => (nomatch h), fun c h => (nomatch h),
    by decide, rfl, ?_, rfl⟩
  exact fun h => h _ (List.mem_singleton.2 rfl) rfl
/-- ContextRequests: a held strand in each watchdog mode, and one that is not held. -/
theorem test_hyp_ContextRequests_resume :
    (let e := offFor .held { Strand.zero with wdmode := W (2 * 2 ^ 62) }
     let s := offs e
     s.svc.off.find? (fun y => y.strand.spillovf == 0) = some e ∧ e.why = .held ∧ e.ctx = (heads .listed 9).ctx ∧ Vacant s e.core ∧ slice e.strand.wdmode 62 2 = 2) ∧
    (let e := offFor .held { Strand.zero with wdmode := W (2 ^ 62 + 5) }
     slice e.strand.wdmode 62 2 = 1 ∧ e.strand.wdmode.toNat % 2 ^ 48 < (6 : BitVec 48).toNat) ∧
    (∀ e, (runs Strand.zero).svc.off.find? (fun y => y.strand.spillovf == 5) = some e → e.why ≠ .held) := by
  refine ⟨⟨rfl, rfl, rfl, ⟨rfl, rfl⟩, by decide⟩, ⟨by decide, by decide⟩, fun e h => (nomatch h)⟩


/-- OperatorRequests: the boot in each case, each phase in which a request comes, and each limit of the settings. -/
theorem test_hyp_OperatorRequests :
    (let s := { runs Strand.zero with svc := Service.start }
     MemoryOk s ∧ s.svc.phase = .unbooted ∧ ∀ b ∈ s.svc.flash.take 2, slotOk s b = false) ∧ (runs Strand.zero).svc.phase ≠ .unbooted ∧
    RequestForm (.query (heads .listed 7) .checkpoint) (heads .listed 7) 0x07 false ∧
    RequestForm (.port (heads .operator 11) 0 true) (heads .operator 11) 0x0B true ∧
    (let s := { runs Strand.zero with svc := { Service.start with phase := .recovery } }
     s.svc.phase = .recovery ∧ ¬ ((heads .operator 11).kind = 0x0B ∧ ((0x0B : BitVec 8) = 0x07 ∨ (0x0B : BitVec 8) = 0x08)) ∧
     (heads .listed 7).kind = 0x07 ∧ (heads .listed 8).kind = 0x08) ∧
    (let s := { runs Strand.zero with ckpt := { Checkpoint.start with flashing := true } }
     s.svc.phase = .running ∧ s.ckpt.flashing = true) ∧
    (runs Strand.zero).ckpt.flashing = false ∧ (heads .unlisted 7).ep = .unlisted ∧ (heads .listed 7).ep ≠ .unlisted ∧
    (heads .listed 11).ep ≠ .operator ∧ ({ heads .listed 7 with needs := some .uud }).needs = some .uud ∧ 0x0B < (heads .listed 12).kind.toNat ∧
    Serving (runs Strand.zero) (heads .operator 11) 0x0B ∧ (heads .operator 11).ep = .operator ∧ NoneAhead (runs Strand.zero) (heads .listed 7) ∧
    (let s := { runs Strand.zero with svc := { Service.start with accounts := [⟨0, 1, 2, 3⟩] } }
     s.svc.accounts.find? (fun x => x.tag == (heads .listed 7).ctx) = some ⟨0, 1, 2, 3⟩) ∧
    ClockOk 0 40 ∧ ¬ ClockOk 3 40 ∧ (∀ d : DieId, ((runs Strand.zero).pkg.mesh[d.toNat]).length ≤ 32) ∧
    Standing (runs Strand.zero) 0 ∧ Occupied (shares Strand.zero) 0 ∧ ¬ Occupied (runs Strand.zero) 1 := by
  refine ⟨⟨rfl, rfl, fun b h => (nomatch h)⟩, by decide, .query .., .port .., ⟨rfl, by decide, rfl, rfl⟩, ⟨rfl, rfl⟩, rfl, rfl, by decide,
    by decide, rfl, by decide, ⟨rfl, rfl, by decide, rfl, rfl⟩, rfl, fun j h => (nomatch h), rfl,
    .inl ⟨rfl, .inl rfl⟩, ?_, by decide, ⟨0, rfl, by decide⟩, ⟨_, List.mem_singleton.2 rfl, .inl ⟨0, by decide, rfl⟩⟩, ?_⟩
  · unfold ClockOk; decide
  · rintro ⟨x, h, _⟩; nomatch h
/-- OperatorRequests: a partition of dies that are free and one of a die that is not; a die on which nothing stands. -/
theorem test_hyp_OperatorRequests_partition :
    (∀ d : DieId, ((runs Strand.zero).pkg.part[d.toNat] = partOfDie (runs Strand.zero) d ∧ (runs Strand.zero).pkg.mapOutNext[d.toNat] = false) ∨
      ¬ Inhabited (runs Strand.zero) d) ∧
    ¬ ((1 : BitVec 3) = partOfDie (shares Strand.zero) 0 ∧ (shares Strand.zero).pkg.mapOutNext[0] = false ∨ ¬ Inhabited (shares Strand.zero) 0) ∧
    (let s := { runs Strand.zero with core := Core.vacant }
     ¬ Standing s 1 ∧ ¬ Occupied s 1) := by
  refine ⟨fun d => .inr ?_, fun h => ?_, fun h => ?_, fun h => ?_⟩
  · rintro ⟨x, h, _⟩; nomatch h
  · rcases h with h | h
    · exact absurd h.1 (by decide)
    · exact h ⟨_, List.mem_singleton.2 rfl, .inl ⟨0, by decide, rfl⟩⟩
  · obtain ⟨k, _, h⟩ := h
    by_cases e : k = 0
    · subst e; exact h rfl
    · exact h (vacant_others _ rfl k e)
  · obtain ⟨x, h, _⟩ := h; nomatch h
/-- OperatorRequests: a slot that the boot accepts, and one of another key. -/
theorem test_hyp_OperatorRequests_slot :
    slotOk { runs Strand.zero with svc := { Service.start with vendorKey := vendor } } slot0 = true :=
  slot_ok _ rfl rfl

/-- ContextRequests: a LAUNCH that names no core, where one has a join record and where none has; an END behind a RESUME and a LAUNCH. -/
theorem test_hyp_ContextRequests_unnamed :
    let s := serves Core.vacant
    let x : Context := { context with ortBase := W (6 * 2 ^ 52 + 0x10000), pools := [(0, [0x1000])] }
    let q : LaunchReq := ⟨0x400, 0, none, 1, 0, []⟩
    let w := { s with svc := { s.svc with waiting := [.resume (heads .listed 9) 0 0, .launch (heads .listed 4) q] } }
    launchCore s x q = some 0 ∧ launchCore { s with svc := { s.svc with contexts := [context] } } context q = none ∧
    (∃ h r, .launch h r ∈ w.svc.waiting ∧ h.ctx = (heads .listed 10).ctx) ∧ NothingStalled s ∧ .endCtx (heads .listed 10) ∉ w.svc.waiting := by
  refine ⟨by decide +kernel, by decide +kernel, ⟨_, _, List.mem_cons_of_mem _ (List.mem_singleton.2 rfl), rfl⟩, fun _ => rfl, by decide⟩
theorem slice_held : slice (W (2 * 2 ^ 62)) 62 2 = 2 := by decide
/-- ContextRequests: a held strand whose image the device has refused. -/
theorem test_hyp_ContextRequests_refused :
    let e := { offFor .held { Strand.zero with wdmode := W (2 * 2 ^ 62) } with edited := some (List.replicate 0x2306 0 ++ [1]) }
    e.why = .held ∧ slice e.strand.wdmode 62 2 = 2 ∧ (e.poke 0x2880 fun z => z &&& 0xFFFF000000000000).edited = some (List.replicate 0x2306 0 ++ [1]) ∧
      imageOk (List.replicate 0x2306 0 ++ [1]) = false := by
  refine ⟨rfl, slice_held, congrArg some (edit_past _ ?_), ?_⟩
  · intro e he
    obtain ⟨x, _, rfl⟩ := List.mem_map.mp he
    exact Nat.le_trans (by decide) (Nat.le_add_right _ _)
  · simp [-List.reduceReplicate, imageOk, allZero, List.drop_append]
/-- ContextRequests: a CREATE with a shared read region, and a DEFINE of a volume whose one leaf is given. -/
theorem test_hyp_ContextRequests_parts :
    (layoutFits { createReq with regions := [(8, 0, W (2 ^ 56 + 0x80000 + 0x81000 * 2 ^ 32))] } (runs Strand.zero) = true) ∧
    (let s := serves Core.vacant
     let x : Context := { context with ortBase := W (6 * 2 ^ 52 + 0x10000), pools := [(0, [0x1000])] }
     volume.kind = kSPARSE ∧ besideOk s x volume [0x700000, 0x704000] [7] = true) := by decide
/-- OperatorRequests: when the boot acts and when not; a die on which a strand runs, and one whose only strand is idle. -/
theorem test_hyp_OperatorRequests_running :
    ((runs Strand.zero).ckpt.powered = true ∧ (runs Strand.zero).ckpt.flashing = false ∧ (runs Strand.zero).svc.phase ≠ .stopped) ∧
    ({ runs Strand.zero with svc := { Service.start with phase := .stopped } }).svc.phase = .stopped ∧
    Running (runs Strand.zero) 0 ∧
    (let s := { runs Strand.zero with core := { Core.vacant with mode := .idle } }
     Standing s 0 ∧ ¬ Running s 0) := by
  refine ⟨⟨rfl, rfl, Phase.noConfusion⟩, rfl, ⟨0, rfl, by decide, by decide⟩, ⟨0, rfl, by decide⟩, fun h => ?_⟩
  obtain ⟨k, _, h, i⟩ := h
  by_cases e : k = 0
  · subst e; exact i rfl
  · exact h (vacant_others _ rfl k e)

/-- A machine whose strand has called the service with a number. -/
def calls (num : Nat) (l : List (Reg × Word)) : State := offs (offFor .trapped { regs l with cause := 0x1A, tval := W num })
/-- A machine that holds the pool as object 0 and a volume as object 1. -/
def pooled (s : State) : State := { s with clusters := [(0, { Cluster.zero with recs := [⟨0, 0, poolRec⟩, ⟨0, 1, volume⟩] })] }
/-- The context 0 with one record in its table. -/
def records (r : ORec) : State :=
  let s := runs Strand.zero
  { s with
    mem := memWrite [] 0x10040 (r.flatMap fun x => natBytes 8 x.toNat)
    clusters := [(0, { Cluster.zero with recs := [⟨0, 0, poolRec⟩] })]
    svc := { s.svc with contexts := [{ context with ortBase := W (6 * 2 ^ 52 + 0x10000) }] } }
/-- ServiceWork: each call. -/
theorem test_hyp_ServiceWork_calls :
    (let o := offFor .trapped { Strand.zero with cause := 0x1A, tval := W 1 }
     let s := calls 1 []
     MemoryOk s ∧ LinesOk s ∧ CallAt s 0 1 o ∧ contextGet s o.ctx = some context ∧ context.tag = o.ctx ∧ (∀ c ∈ s.cmds, c.ctx ≠ o.ctx) ∧
       (∀ y ∈ s.out, y.ctx ≠ o.ctx) ∧ NothingStalled s ∧
       ∃ y ∈ ({ s with out := [⟨asks 9 (.load 8), .wait 0, 0, 0, 1, 0, 0⟩] }).out, y.ctx = o.ctx) ∧
    (let o := offFor .trapped { regs [(5, localSp 0x100)] with cause := 0x1A, tval := W 2 }
     let s := calls 2 [(5, localSp 0x100)]
     CallAt s 0 2 o ∧ (∃ bs, callBytes o s = .ok bs) ∧ Vacant s o.core ∧ o.idle = false ∧
       let e := offFor .trapped { regs [(5, objAddr 9 0), (6, 8)] with cause := 0x1A, tval := W 2 }
       CallAt (calls 2 [(5, objAddr 9 0), (6, 8)]) 0 2 e ∧ ∃ x, callBytes e (calls 2 [(5, objAddr 9 0), (6, 8)]) = .error x) ∧
    (let o := offFor .trapped { Strand.zero with cause := 0x1A, tval := W 4 }
     CallAt (calls 4 []) 0 4 o ∧ Vacant (calls 4 []) o.core ∧ (4 < 2 ^ 64)) ∧
    (let o := offFor .trapped { regs [(5, objAddr 1 0), (6, 1)] with cause := 0x1A, tval := W 3 }
     let s := pooled (calls 3 [(5, objAddr 1 0), (6, 1)])
     CallAt s 0 3 o ∧ Vacant s o.core ∧ RefillOf s o volume poolRec ∧ 0x400000 % volume.leafBytes = 0 ∧
       placeOk s 0 (0x400000, volume.leafBytes) = true ∧ (o.strand.readG 6).toNat - o.pushed = 1 ∧ RoomIn s poolRec) ∧
    (let o := offFor .trapped { Strand.zero with cause := 0x1A, tval := W 3 }
     CallAt (calls 3 []) 0 3 o ∧ ∀ r q, ¬ RefillOf (calls 3 []) o r q) ∧
    (∀ num o, ¬ CallAt (runs Strand.zero) 0 num o) := by
  refine ⟨⟨rfl, fun c => ⟨List.Pairwise.nil, fun l hl => (nomatch hl)⟩, ⟨rfl, rfl, rfl, rfl⟩, rfl, rfl, fun c h => (nomatch h), fun c h => (nomatch h), fun _ => rfl,
      _, List.mem_singleton.2 rfl, rfl⟩,
    ⟨⟨rfl, rfl, rfl, rfl⟩, ⟨_, rfl⟩, ⟨rfl, rfl⟩, rfl, ⟨rfl, rfl, rfl, rfl⟩, _, rfl⟩, ⟨⟨rfl, rfl, rfl, rfl⟩, ⟨rfl, rfl⟩, by decide⟩,
    ⟨⟨rfl, rfl, rfl, rfl⟩, ⟨rfl, rfl⟩, ⟨by decide, by decide, rfl, by decide, rfl⟩, by decide, by decide, by decide, by decide, by decide⟩,
    ⟨⟨rfl, rfl, rfl, rfl⟩, fun r q h => nomatch h.2.2.1⟩, fun num o h => nomatch h.1⟩
/-- R347: a dense object with a shadow under relocation. -/
def shadowed : ORec := (dense 0).set 0 (W (2 ^ 63 + 6 * 2 ^ 56 + 15 * 2 ^ 43 + 3 * 2 ^ 41)) |>.set 4 (W 0x300000)
/-- A record with a relocation of its object at a step. -/
def moving (k : Nat) (r : ORec) : State := { records r with svc := { (records r).svc with relocs := [⟨0, 1, k⟩] } }
/-- ServiceWork: objects whose records stand in their table, at each step of a relocation. -/
theorem test_hyp_ServiceWork_objects :
    (∃ x, ObjectAt (records (dense 0)) 0 1 x (dense 0) ∧ (dense 0).kind = kDENSE ∧ relocStage (records (dense 0)) 0 1 = 0 ∧
      (let r : ORec := ((dense 0).set 0 ((dense 0).dw 0 ||| W (3 * 2 ^ 41))).set 4 (W 0x300000)
       r.ok (records (dense 0)) 1 = true ∧ ∀ y ∈ objectRanges (records (dense 0)) r, placeOk (records (dense 0)) x.part y = true) ∧
      (let r : ORec := ((dense 0).set 0 ((dense 0).dw 0 ||| W (3 * 2 ^ 41))).set 4 (W 1)
       ¬ r.ok (records (dense 0)) 1 = true)) ∧
    (∀ k, 0 < k → relocStage (moving k shadowed) 0 1 = k) ∧
    (∃ x, ObjectAt (moving 2 shadowed) 0 1 x shadowed ∧ shadowed.kind = kDENSE ∧ DirtyOk (moving 2 shadowed) ∧
      shadowed.shadow + shadowed.bytes ≤ 2 ^ 62 ∧ recordAddr x.ortBase 1 = some 0x10040) ∧
    (stepNumber .drain ≠ relocStage (records (dense 0)) 0 1) ∧
    (∃ x, ObjectAt (records mapped) 0 1 x mapped) ∧ mapped.kind = kMAPPED ∧ 0 < (mapped.bytes + mapped.subTile - 1) / mapped.subTile ∧
    mapEntry (records mapped) mapped mapped.place 0 = none ∧
    mapEntry { records mapped with mem := memSetWord [] 0x200000 (W (2 ^ 63 + 0x300000)) } mapped mapped.place 0 ≠ none := by
  refine ⟨⟨_, ⟨rfl, rfl, _, rfl, rfl, by decide⟩, by decide, rfl, ⟨by decide, by decide⟩, by decide⟩, fun k h => rfl,
    ⟨_, ⟨rfl, rfl, _, rfl, rfl, by decide⟩, by decide, ⟨List.Pairwise.nil, fun e h => (nomatch h)⟩, by decide, rfl⟩, by decide,
    ⟨_, rfl, rfl, _, rfl, rfl, by decide⟩, by decide, by decide, by decide, by decide⟩
/-- A volume's tree with one leaf, at key 0. -/
def planted (l : List TileFreeing) : State :=
  let s := records volume
  { s with mem := memSetWord s.mem 0x300000 (W (2 ^ 63 + 0x400000)), svc := { s.svc with frees := l } }
/-- ServiceWork: a leaf that may be freed, and each stage of its freeing. -/
theorem test_hyp_ServiceWork_frees :
    (∃ x, ObjectAt (planted []) 0 1 x volume ∧ volume.kind = kSPARSE ∧
      poolOf (planted []) (serviceAgent (planted []) x) volume = some poolRec) ∧
    freeing (planted []) 0 1 0 1 = none ∧ freeing (planted []) 0 1 0 2 = none ∧
    EntryOnPath (planted []) volume 0 0x300000 volume.levels volume.place (W (2 ^ 63 + 0x400000)) true ∧
    MayFree (planted []) (W (2 ^ 63 + 0x400000)) true ∧
    freeing (planted [⟨0, 1, 0, 0x400000, 1⟩]) 0 1 0 1 = some ⟨0, 1, 0, 0x400000, 1⟩ ∧
    freeing (planted [⟨0, 1, 0, 0x400000, 2⟩]) 0 1 0 2 = some ⟨0, 1, 0, 0x400000, 2⟩ ∧
    FreedTile (planted [⟨0, 1, 0, 0x400000, 3⟩]) 0 1 0 0x400000 ⟨0, 1, 0, 0x400000, 3⟩ ∧ (∀ f, ¬ FreedTile (planted []) 0 1 0 0x400000 f) ∧
    RoomIn (planted []) poolRec ∧
    (let s := { planted [] with mem := memSetWord [] 0x500010 4 }
     ¬ RoomIn s poolRec) := by
  have l : volume.levels = 1 := by decide
  have p : volume.place = 0x300000 := by decide
  refine ⟨⟨_, ⟨rfl, rfl, _, rfl, rfl, by decide⟩, by decide, rfl⟩, rfl, rfl, ?_, .inl rfl, rfl, rfl, rfl, fun f h => (nomatch h), ⟨by decide, by decide⟩, fun h => absurd h.1 (by decide)⟩
  rw [l, p]
  have e : memWord (planted []).mem 0x300000 = W (2 ^ 63 + 0x400000) := by decide
  exact e ▸ .here 0 0x300000 rfl (by decide) (by decide)
/-- A version that a command was checked under, and none. -/
theorem test_hyp_ServiceWork_drains :
    UnderRemoved { runs Strand.zero with cmds := [{ cmdOf [] .none with objs := [1] }], removals := [⟨0, some 1, none, 4⟩] } 0 (some 1) ∧
    ¬ UnderRemoved (runs Strand.zero) 0 (some 1) := by
  refine ⟨.inl ⟨_, List.mem_singleton.2 rfl, rfl, _, List.mem_singleton.2 rfl, rfl, .inr (.inr rfl), by decide,
    ⟨1, List.mem_singleton.2 rfl, .inr rfl, .inr rfl⟩, fun _ h => nomatch h⟩, ?_⟩
  rintro (⟨c, h, _⟩ | ⟨e, h, w, m, c, k, _⟩ | ⟨x, h, _⟩)
  · nomatch h
  · rw [List.mem_singleton.1 h] at m
    have a : ∀ w ∈ (runs Strand.zero).core.win.toList, w.cmd = none := by decide
    rw [a w m] at k
    nomatch k
  · nomatch h

/-- MemoryInvariant and CachesInvariant: they hold at reset, and reset takes a step. -/
theorem test_hyp_MemoryInvariant : MemoryOk State.reset ∧ ∃ t, step State.reset = .next t := ⟨rfl, _, rfl⟩
theorem test_hyp_CachesInvariant : LinesOk State.reset ∧ DirtyOk State.reset ∧ IdsOk State.reset :=
  ⟨fun _ => ⟨List.Pairwise.nil, fun _ hl => (nomatch hl)⟩, ⟨List.Pairwise.nil, fun _ h => (nomatch h)⟩, fun _ h => (nomatch h), fun _ h => (nomatch h)⟩
theorem empty_l1 (s : State) (h : s.clusters = (records mapped).clusters) : ∀ c b, (clusterGet s c).line b = none := by
  intro c b
  have e : ∀ z ∈ (records mapped).clusters, z.2.l1 = [] := by decide
  unfold clusterGet
  rw [h]
  cases k : (records mapped).clusters.find? (fun e => e.1 == c) with
  | none => rfl
  | some z => simp [Cluster.line, e z (List.mem_of_find?_eq_some k)]
/-- ServiceWork: the copy of a mapped object to its shadow, with one sub-tile resident in both. -/
theorem test_hyp_ServiceWork_copy :
    let r : ORec := (mapped.set 0 (mapped.dw 0 ||| W (3 * 2 ^ 41))).set 4 (W 0x300000)
    let s := moving 2 r
    let s := { s with mem := memSetWord (memSetWord s.mem 0x200000 (W (2 ^ 63 + 0x400000))) 0x300000 (W (2 ^ 63 + 0x500000)) }
    let tiles := (r.bytes + r.subTile - 1) / r.subTile
    let moves := (List.range tiles).filterMap fun i => match mapEntry s r r.place i, mapEntry s r r.shadow i with
      | some b, some d => some (i, b, d)
      | _, _ => none
    (∃ x, ObjectAt s 0 1 x r) ∧ r.kind = kMAPPED ∧ relocStage s 0 1 = 2 ∧ (∀ c b, (clusterGet s c).line b = none) ∧
    moves = [(0, 0x400000, 0x500000)] ∧
    ((r.place, 8 * tiles) :: (r.shadow, 8 * tiles) :: moves.flatMap fun e =>
        [(e.2.1, tileLength r e.1), (e.2.2, tileLength r e.1)]).Pairwise (fun y z => y.1 + y.2 ≤ z.1 ∨ z.1 + z.2 ≤ y.1) := by
  refine ⟨⟨_, rfl, rfl, _, rfl, rfl, by decide⟩, by decide, rfl, empty_l1 _ rfl, by decide, by decide⟩
/-- ServiceWork: storage for a tile that nothing uses, and a tile that the volume holds; a second pool of the context. -/
theorem test_hyp_ServiceWork_tiles :
    (∃ x, contextGet (planted []) 0 = some x ∧ Unused (planted []) x volume 0x704000 ∧ ¬ Unused (planted []) x volume 0x400000) ∧
    (let m := (planted []).mem
     let s := { planted [] with mem := memWrite m 0x10080 (poolRec.flatMap fun x => natBytes 8 x.toNat) }
     ∃ x, contextGet s 0 = some x ∧ poolNamed s x volume 2 = some poolRec) := by
  refine ⟨⟨_, rfl, ⟨by decide, by decide, by decide +kernel, by decide⟩, fun h => ?_⟩, _, rfl, by decide +kernel⟩
  exact absurd (h.2.2.1 _ (List.mem_singleton.2 rfl)) (by decide +kernel)
/-- ServiceWork: a shadow with a place for what the placement holds, and one without. -/
theorem test_hyp_ServiceWork_shadow :
    let r : ORec := (mapped.set 0 (mapped.dw 0 ||| W (3 * 2 ^ 41))).set 4 (W 0x300000)
    let s := records r
    HeldByShadow s r ∧ ¬ HeldByShadow { s with mem := memSetWord s.mem 0x200000 (W (2 ^ 63 + 0x400000)) } r := by
  have n : ∀ i < 8, mapEntry (records ((mapped.set 0 (mapped.dw 0 ||| W (3 * 2 ^ 41))).set 4 (W 0x300000)))
      ((mapped.set 0 (mapped.dw 0 ||| W (3 * 2 ^ 41))).set 4 (W 0x300000)) 0x200000 i = none := by decide
  refine ⟨fun _ i hi h => absurd (n i (Nat.lt_of_lt_of_le hi (by decide))) h, fun h => ?_⟩
  exact absurd (h (by decide) 0 (by decide) (by decide)) (by decide)

/-! The results of the spec's own worked examples. -/

/-- The core after an instruction, if it answers a next state. -/
def after (i : Instr) (s : State) : Option Core := match exec i s with | .next t => some t.core | _ => none
/-- R94: the example of one value in four modes, with 500 in both narrow formats. -/
theorem test_result_rounding :
    ([Rnd.rne, .rtz, .rdn, .rup].map fun r => fpConvert bf16 r (decode fp32 0x3F808000)) = [(0x3F80, 1), (0x3F80, 1), (0x3F80, 1), (0x3F81, 1)] ∧
    ([Rnd.rne, .rtz, .rdn, .rup].map fun r => fpConvert bf16 r (decode fp32 0xBF808000)) = [(0xBF80, 1), (0xBF80, 1), (0xBF81, 1), (0xBF80, 1)] ∧
    ([Rnd.rne, .rtz, .rdn, .rup].map fun r => fpConvert fe4m3 r (decode fp32 0x3F808000)) = [(0x38, 1), (0x38, 1), (0x38, 1), (0x39, 1)] ∧
    ([Rnd.rne, .rtz, .rdn, .rup].map fun r => fpConvert fe4m3 r (decode fp32 0x43FA0000)) = [(0x7E, 5), (0x7E, 5), (0x7E, 5), (0x7E, 5)] ∧
    ([Rnd.rne, .rtz, .rdn, .rup].map fun r => fpConvert fe5m2 r (decode fp32 0x43FA0000)) = [(0x60, 1), (0x5F, 1), (0x5F, 1), (0x60, 1)] ∧
    ([Rnd.rne, .rtz, .rdn, .rup].map fun r => fpConvert fe4m3 r (decode fp32 0x3A800000)) = [(0, 3), (0, 3), (0, 3), (1, 3)] := by decide +kernel
/-- R108: FMIN of a signalling NaN and 1. -/
theorem test_result_fmin : fpMinMax fp32 false 0x7FA00000 0x3F800000 = (0x3F800000, cNV) := by decide +kernel
/-- R111: `fcvt.int32.fp32.rtz` of −2.5. -/
theorem test_result_fcvt :
    (after (.fcvt 5 2 1 6 1) (runs { Strand.zero with f := Strand.zero.f.set 2 0xC0200000 })).map
      (fun c => (c.strand.readG 5, slice c.strand.fcsr 0 5)) = some (0xFFFFFFFFFFFFFFFE, 1) := by decide +kernel
/-- R130: VEXP2 of −3, −149, −150 and 128. -/
theorem test_result_vexp2 :
    fpExp2 fp32 (decode fp32 0xC0400000) = (0x3E000000, 0) ∧ fpExp2 fp32 (decode fp32 0xC3150000) = (1, 0) ∧
    fpExp2 fp32 (decode fp32 0xC3160000) = (0, cUF ||| cNX) ∧ fpExp2 fp32 (decode fp32 0x43000000) = (0x7F800000, cOF ||| cNX) := by
  decide +kernel
/-- R87, R160: the digits of 242 and of 90. -/
theorem test_result_trits : (List.range 5).map (fun i => (t5Trit i 0xF2).1) = [255, 255, 255, 255, 255] ∧
    (List.range 5).map (fun i => (t5Trit i 0x5A).1) = [0, 0, 1, 0, 1] := by decide +kernel
/-- R140, R142: one group, one rounding: element (0, 0) of the example, and with NA. -/
theorem test_result_matrix :
    (let p := (List.replicate 18 ((decode bf16 0x3F80).scaled 0x7E) ++ List.replicate 46 (Fp.fin false 0 0)).map
       fun x => (mulFp x ((decode bf16 0x3F80).scaled 0x7F)).1
     fpDot 0x4B800000 p = 0x4B800004 ∧ fpDot 0x4B800000 (p.map Fp.neg) = 0x4B7FFFF7) := by decide +kernel
/-- The signed byte sum of "Scalar, Control and Plain Memory Instructions": LUI and EXTR. -/
theorem test_result_lui : (after (.lui 6 3 0x03FF) (runs (regs [(6, 0x0000017F8010FE05)]))).map (fun c => c.strand.readG 6) =
    some 0x03FF017F8010FE05 := by decide +kernel
theorem test_result_extr : (after (.extr 26 6 true 0 7) (runs (regs [(6, 0x03FF017F8010FE)]))).map (fun c => c.strand.readG 26) =
    some (-2) := by decide +kernel
/-- R346: the coordinate load through a sub-tile map, and its RESIDENCY and SHAPE faults. -/
def tileMap (c : Word) : State :=
  let s := withRecs [(0x300, [0x9342180000000000, 0x0000003000000080, 0x0000000100000001, 0x0000000800100000, 0, 0, 0, 0])]
    (runs (regs [(6, 0x0030000000000000), (8, c), (7, 5)]))
  { s with mem := memWrite (memSetWord (memSetWord [] 0x800100000 0x8000000800401000) 0x800100008 0x8000000800402000) 0x800402A0C [0x34, 0x92] }
/-- Of the strands that an instruction hands to the service: the cause, TVAL and G[7]. -/
def stopped (i : Instr) (s : State) : List (BitVec 8 × Word × Word) := match exec i s with
  | .next t => t.svc.off.map fun o => (BitVec.ofNat 8 (slice o.strand.cause 0 8), o.strand.tval, o.strand.readG 7)
  | _ => []
theorem test_result_ldc : (after (.ldc 7 6 8 false 1) (tileMap 0x140046)).map (fun c => c.strand.readG 7) = some 0xFFFFFFFFFFFF9234 ∧
    stopped (.ldc 7 6 8 false 1) (tileMap 0x280000) = [(cRESIDENCY, 0x0030000000002400, 5)] ∧
    stopped (.ldc 7 6 8 false 1) (tileMap 0x300000) = [(cSHAPE, 0x300000, 5)] := by decide +kernel
/-- R325: the example of the exchange of tokens. -/
theorem test_result_injection :
    (let s := runs Strand.zero
     let s := { s with pkg := { s.pkg with
       mesh := s.pkg.mesh.set 0 [6, 1, 5, 18, 14]
       budget := s.pkg.budget.set 0 ⟨320, 8000, 1000⟩
       power := [(0, { Power.start with store := 9000, asleep := false }), (1, { Power.start with store := 0, asleep := true }), (2, { Power.start with store := 500, asleep := false }), (3, { Power.start with store := 3000, asleep := false }),
         (4, { Power.start with store := 7000, asleep := false })] } }
     match exec .tokenInjection s with
     | .next t => [0, 1, 2, 3, 4].map fun c => ((powerGet t c).store.toNat, (powerGet t c).asleep)
     | _ => []) = [(8000, false), (596, false), (1096, false), (3064, false), (7064, false)] := by decide +kernel
end Sys2Proof.Tests
end

section
/-! Proofs for the integer instructions (R52 to R61): what retirement does to the registers, the value of each
operation said over exact integers, and the two statements O8 and O9. -/

open Sys2Proof Sys2Proof.Machine Sys2Proof.Claims

namespace Sys2Proof.Proofs.Integer

/-! Retirement: the registers stay, and the state around the strand pays alone. -/

/-- R67: the end check at a retirement changes the pc and the loop counters alone. -/
theorem advance_frame (u : Strand) (n : Nat) :
    ∃ pc lcnt lact, u.advance n = { u with pc := pc, lcnt := lcnt, lact := lact } :=
  endCheck_frame _ _ _ _

@[simp] theorem readG_advance (u : Strand) (n : Nat) (r : Reg) : (u.advance n).readG r = u.readG r := by
  obtain ⟨pc, lcnt, lact, h⟩ := advance_frame u n
  rw [h]; rfl

@[simp] theorem readP_advance (u : Strand) (n : Nat) (q : BitVec 3) : (u.advance n).readP q = u.readP q := by
  obtain ⟨pc, lcnt, lact, h⟩ := advance_frame u n
  rw [h]; rfl

theorem retires_retireWith (c : Cost) (s : State) (u : Strand) : Retires s u 4 (retireWith c s u) := by
  obtain ⟨b, p, a, h⟩ := retireWith_frame c s u
  exact ⟨⟨u.advance 4, b, p, a, h⟩, by rw [h]⟩

theorem retires_retire (c : Cost) (s : State) : Retires s s.core.strand 4 (retire c s) :=
  retires_retireWith c s s.core.strand

theorem readG_of_retires {s t : State} {u : Strand} {n : Nat} (h : Retires s u n t) (r : Reg) :
    t.core.strand.readG r = u.readG r := by
  rw [h.2, readG_advance]

theorem readP_of_retires {s t : State} {u : Strand} {n : Nat} (h : Retires s u n t) (q : BitVec 3) :
    t.core.strand.readP q = u.readP q := by
  rw [h.2, readP_advance]

/-- R52, R25: an integer result retires into its register, g0 reads zero, and the other registers stay. -/
theorem retireG_spec (s : State) (d : Reg) (x : Word) :
    ∃ t, retireG s d x = .next t ∧ Retires s (s.core.strand.writeG d x) 4 t ∧
      ∀ r, t.core.strand.readG r = if r = 0 then 0 else if r = d then x else s.core.strand.readG r := by
  have h := retires_retireWith .scalar s (s.core.strand.writeG d x)
  exact ⟨_, rfl, h, fun r => (readG_of_retires h r).trans (readG_writeG _ _ _ _)⟩

/-! R53, R54: the register-register operations over exact integers. -/

theorem add_eq_ofInt (x y : Word) : x + y = BitVec.ofInt 64 (x.toInt + y.toInt) := by
  rw [BitVec.ofInt_add, BitVec.ofInt_toInt, BitVec.ofInt_toInt]

theorem sub_eq_ofInt (x y : Word) : x - y = BitVec.ofInt 64 (x.toInt - y.toInt) := by
  rw [Int.sub_eq_add_neg, BitVec.ofInt_add, BitVec.ofInt_neg, BitVec.ofInt_toInt, BitVec.ofInt_toInt, BitVec.sub_eq_add_neg]

theorem mul_eq_ofInt (x y : Word) : x * y = BitVec.ofInt 64 (x.toInt * y.toInt) := by
  rw [BitVec.ofInt_mul, BitVec.ofInt_toInt, BitVec.ofInt_toInt]

/-- Bits 127:64 of an integer's 128 bits are those of its quotient by 2⁶⁴. -/
theorem ofInt_div_eq_extract (p : Int) :
    BitVec.ofInt 64 (p / 2 ^ 64) = BitVec.extractLsb' 64 64 (BitVec.ofInt 128 p) := by
  apply BitVec.eq_of_toNat_eq
  rw [BitVec.extractLsb'_toNat, BitVec.toNat_ofInt, BitVec.toNat_ofInt, Nat.shiftRight_eq_div_pow]
  omega

theorem opMulh_eq (x y : Word) : opMulh x y = BitVec.extractLsb' 64 64 (BitVec.ofInt 128 (x.toInt * y.toInt)) :=
  ofInt_div_eq_extract _

theorem opMulhu_eq (x y : Word) : opMulhu x y = BitVec.extractLsb' 64 64 (BitVec.ofNat 128 (x.toNat * y.toNat)) := by
  rw [← BitVec.ofInt_natCast, ← ofInt_div_eq_extract, opMulhu, W, ← BitVec.ofInt_natCast]
  norm_cast

/-- R54: the one quotient that overflows, of −2⁶³ by −1, wraps to −2⁶³. -/
theorem opDiv_eq (x y : Word) : opDiv x y = if y = 0 then W (2 ^ 64 - 1)
    else if x = W (2 ^ 63) ∧ y = W (2 ^ 64 - 1) then W (2 ^ 63) else BitVec.ofInt 64 (x.toInt.tdiv y.toInt) := by
  unfold opDiv
  split_ifs with h0 h
  · rfl
  · obtain ⟨rfl, rfl⟩ := h; decide
  · rfl

theorem opRem_eq (x y : Word) : opRem x y = if y = 0 then x
    else if x = W (2 ^ 63) ∧ y = W (2 ^ 64 - 1) then 0 else BitVec.ofInt 64 (x.toInt.tmod y.toInt) := by
  unfold opRem
  split_ifs with h0 h
  · rfl
  · obtain ⟨rfl, rfl⟩ := h; decide
  · rfl

theorem shiftLeft_eq_mul (x : Word) (n : Nat) : x <<< n = W (x.toNat * 2 ^ n) := by
  apply BitVec.eq_of_toNat_eq
  rw [BitVec.toNat_shiftLeft, Nat.shiftLeft_eq, W, BitVec.toNat_ofNat]

theorem ushiftRight_eq_div (x : Word) (n : Nat) : x >>> n = W (x.toNat / 2 ^ n) := by
  rw [W, ← Nat.shiftRight_eq_div_pow, ← BitVec.toNat_ushiftRight, BitVec.ofNat_toNat, BitVec.setWidth_eq]

theorem sshiftRight_eq_ofInt_div (x : Word) (n : Nat) : x.sshiftRight n = BitVec.ofInt 64 (x.toInt / 2 ^ n) := by
  rw [BitVec.sshiftRight_eq, Int.shiftRight_eq_div_pow]
  norm_cast

theorem opMin_eq (x y : Word) : opMin x y = BitVec.ofInt 64 (Min.min x.toInt y.toInt) := by
  rw [min_def, apply_ite (BitVec.ofInt 64), BitVec.ofInt_toInt, BitVec.ofInt_toInt, opMin]

theorem opMax_eq (x y : Word) : opMax x y = BitVec.ofInt 64 (Max.max x.toInt y.toInt) := by
  rw [max_def, apply_ite (BitVec.ofInt 64), BitVec.ofInt_toInt, BitVec.ofInt_toInt, opMax]

theorem W_toNat (x : Word) : W x.toNat = x := BitVec.eq_of_toNat_eq (by simp [W])

theorem opMinu_eq (x y : Word) : opMinu x y = W (Min.min x.toNat y.toNat) := by
  rw [min_def, apply_ite W, W_toNat, W_toNat, opMinu]

theorem opMaxu_eq (x y : Word) : opMaxu x y = W (Max.max x.toNat y.toNat) := by
  rw [max_def, apply_ite W, W_toNat, W_toNat, opMaxu]

/-- R53: each register-register instruction retires the value of its rule. -/
theorem exec_binaryForm {i : Instr} {d a b : Reg} {f : Word → Word → Word} (h : BinaryForm i d a b f) (s : State) :
    exec i s = retireG s d (f (s.core.strand.readG a) (s.core.strand.readG b)) := by
  cases h with
  | add => exact congrArg (retireG s d) (add_eq_ofInt _ _)
  | sub => exact congrArg (retireG s d) (sub_eq_ofInt _ _)
  | mul => exact congrArg (retireG s d) (mul_eq_ofInt _ _)
  | mulh => exact congrArg (retireG s d) (opMulh_eq _ _)
  | mulhu => exact congrArg (retireG s d) (opMulhu_eq _ _)
  | div => exact congrArg (retireG s d) (opDiv_eq _ _)
  | divu => rfl
  | rem => exact congrArg (retireG s d) (opRem_eq _ _)
  | remu => rfl
  | and => rfl
  | or => rfl
  | xor => rfl
  | sll => exact congrArg (retireG s d) (shiftLeft_eq_mul _ _)
  | srl => exact congrArg (retireG s d) (ushiftRight_eq_div _ _)
  | sra => exact congrArg (retireG s d) (sshiftRight_eq_ofInt_div _ _)
  | min => exact congrArg (retireG s d) (opMin_eq _ _)
  | max => exact congrArg (retireG s d) (opMax_eq _ _)
  | minu => exact congrArg (retireG s d) (opMinu_eq _ _)
  | maxu => exact congrArg (retireG s d) (opMaxu_eq _ _)

/-! R53, R55 to R58: the operations of one source register. -/

theorem clzNat_toNat (x : Word) : clzNat x.toNat = if x = 0 then 64 else 63 - Nat.log2 x.toNat :=
  if_congr (BitVec.toNat_inj (y := 0#64)) rfl rfl

theorem testBit_comp_succ (v : Nat) : (v.testBit ∘ Nat.succ) = (v / 2).testBit :=
  funext fun i => Nat.testBit_succ v i

/-- R53: the number of trailing zeros is the number of the lowest bit that is 1. -/
theorem ctzNat_eq_find (n v : Nat) : ctzNat n v = ((List.range n).find? v.testBit).getD n := by
  induction n generalizing v with
  | zero => rfl
  | succ n ih =>
    rw [ctzNat, List.range_succ_eq_map, List.find?_cons, List.find?_map, testBit_comp_succ, ih, Nat.testBit_zero]
    by_cases h : v % 2 = 1
    · simp [h]
    · cases hf : (List.range n).find? (v / 2).testBit <;> simp [h, Nat.add_comm]

/-- R53: the number of ones is the number of positions whose bit is 1. -/
theorem popcNat_eq_filter (n v : Nat) : popcNat n v = ((List.range n).filter v.testBit).length := by
  induction n generalizing v with
  | zero => rfl
  | succ n ih =>
    rw [popcNat, List.range_succ_eq_map, List.filter_cons, List.filter_map, testBit_comp_succ, ih, Nat.testBit_zero]
    rcases Nat.mod_two_eq_zero_or_one v with h | h
    · simp [h]
    · simp [h, Nat.add_comm]

theorem add_signExtend_eq_ofInt (x : Word) (i : BitVec 16) : x + i.signExtend 64 = BitVec.ofInt 64 (x.toInt + i.toInt) := by
  rw [BitVec.ofInt_add, BitVec.ofInt_toInt]; rfl

theorem zeroExtend_eq_W (i : BitVec 16) : i.zeroExtend 64 = W i.toNat := (BitVec.ofNat_toNat 64 i).symm

/-- R58: extension of an `n`-bit number by copies of its top bit. -/
theorem sextNat_eq_signExtend {n : Nat} (hn : n ≤ 64) (v : Nat) :
    sextNat n v = BitVec.signExtend 64 (BitVec.ofNat n v) := by
  have hp : 2 ^ n ≤ 2 ^ 64 := Nat.pow_le_pow_right (by decide) hn
  have hv : v % 2 ^ n < 2 ^ n := Nat.mod_lt _ (Nat.two_pow_pos n)
  apply BitVec.eq_of_toNat_eq
  rw [BitVec.toNat_signExtend, BitVec.msb_eq_decide, BitVec.toNat_setWidth, BitVec.toNat_ofNat,
    Nat.mod_eq_of_lt (a := v % 2 ^ n) (by omega)]
  simp only [sextNat, decide_eq_true_eq]
  split
  · rw [W, BitVec.toNat_ofNat, Nat.mod_eq_of_lt (by omega), Nat.add_comm]
  · rw [W, BitVec.toNat_ofNat, Nat.mod_eq_of_lt (by omega), Nat.add_zero]

theorem sextNat_mod (n v : Nat) : sextNat n (v % 2 ^ n) = sextNat n v := by
  simp only [sextNat, Nat.mod_mod]

theorem opExtr_signed_eq (x : Word) (p l : BitVec 6) :
    opExtr x true p l = BitVec.signExtend 64 (BitVec.ofNat (l.toNat + 1) (x.toNat / 2 ^ p.toNat)) := by
  rw [← sextNat_eq_signExtend (by omega), ← sextNat_mod]; rfl

/-- A number with the field of `n` bits at `lo` replaced, as the parts above, in and below the field. -/
theorem replaceField_eq (x lo n v : Nat) : x - x / 2 ^ lo % 2 ^ n * 2 ^ lo + v % 2 ^ n * 2 ^ lo =
    2 ^ lo * (2 ^ n * (x / 2 ^ lo / 2 ^ n) + v % 2 ^ n) + x % 2 ^ lo := by
  have hx : x = 2 ^ lo * (2 ^ n * (x / 2 ^ lo / 2 ^ n)) + x / 2 ^ lo % 2 ^ n * 2 ^ lo + x % 2 ^ lo := by
    rw [Nat.mul_comm _ (2 ^ lo), ← Nat.mul_add, Nat.div_add_mod, Nat.div_add_mod]
  rw [Nat.mul_add, Nat.mul_comm (v % 2 ^ n)]
  omega

/-- R57, R58: a replaced field has its bits from the new value, and the bits around it stay. -/
theorem getLsbD_setSlice (x : Word) (lo n v j : Nat) (hj : j < 64) :
    (setSlice x lo n v).getLsbD j =
      if j < lo then x.getLsbD j else if j - lo < n then v.testBit (j - lo) else x.getLsbD j := by
  rw [setSlice, BitVec.getLsbD_ofNat, slice, replaceField_eq, Nat.testBit_two_pow_mul_add _ (Nat.mod_lt _ (Nat.two_pow_pos lo)),
    Nat.testBit_two_pow_mul_add _ (Nat.mod_lt _ (Nat.two_pow_pos n)), Nat.testBit_mod_two_pow, Nat.testBit_mod_two_pow,
    Nat.testBit_div_two_pow, Nat.testBit_div_two_pow, ← BitVec.testBit_toNat, decide_eq_true hj, Bool.true_and]
  by_cases h1 : j < lo
  · simp [h1]
  · rw [if_neg h1, if_neg h1]
    refine if_ctx_congr Iff.rfl (fun h2 => by simp [h2]) fun h2 => ?_
    rw [show j - lo - n + n + lo = j by omega]

/-- R57, R58: replacing a field clears it under its mask and puts the new value's bits there. -/
theorem setSlice_eq (x : Word) (lo n v : Nat) :
    setSlice x lo n v = x &&& ~~~(W ((2 ^ n - 1) * 2 ^ lo)) ||| W (v % 2 ^ n * 2 ^ lo) := by
  apply BitVec.eq_of_getLsbD_eq
  intro j hj
  rw [getLsbD_setSlice x lo n v j hj, BitVec.getLsbD_or, BitVec.getLsbD_and, BitVec.getLsbD_not, W, W,
    BitVec.getLsbD_ofNat, BitVec.getLsbD_ofNat, Nat.testBit_mul_two_pow, Nat.testBit_mul_two_pow,
    Nat.testBit_two_pow_sub_one, Nat.testBit_mod_two_pow, decide_eq_true hj]
  by_cases h1 : j < lo
  · simp [h1, Nat.not_le.mpr h1]
  · by_cases h2 : j - lo < n
    · simp [h1, h2, Nat.not_lt.mp h1]
    · simp [h1, h2]

/-- R53, R55 to R58: each instruction of one source register retires the value of its rule. -/
theorem exec_unaryForm {i : Instr} {d a : Reg} {f : Word → Word → Word} (h : UnaryForm i d a f) (s : State) :
    exec i s = retireG s d (f (s.core.strand.readG d) (s.core.strand.readG a)) := by
  cases h with
  | clz => exact congrArg (fun n => retireG s d (W n)) (clzNat_toNat _)
  | ctz => exact congrArg (fun n => retireG s d (W n)) (ctzNat_eq_find 64 _)
  | popc => exact congrArg (fun n => retireG s d (W n)) (popcNat_eq_filter 64 _)
  | addi => exact congrArg (retireG s d) (add_signExtend_eq_ofInt _ _)
  | andi => exact congrArg (fun k => retireG s d (s.core.strand.readG a &&& k)) (zeroExtend_eq_W _)
  | ori => exact congrArg (fun k => retireG s d (s.core.strand.readG a ||| k)) (zeroExtend_eq_W _)
  | xori => exact congrArg (fun k => retireG s d (s.core.strand.readG a ^^^ k)) (zeroExtend_eq_W _)
  | slli => exact congrArg (retireG s d) (shiftLeft_eq_mul _ _)
  | srli => exact congrArg (retireG s d) (ushiftRight_eq_div _ _)
  | srai => exact congrArg (retireG s d) (sshiftRight_eq_ofInt_div _ _)
  | lui _ h i =>
    refine congrArg (retireG s d) ((setSlice_eq _ _ 16 _).trans ?_)
    rw [Nat.mod_eq_of_lt i.isLt]; rfl
  | extru => rfl
  | extrs => exact congrArg (retireG s d) (opExtr_signed_eq _ _ _)
  | ins => exact congrArg (retireG s d) (setSlice_eq _ _ _ _)

/-! R59, R61: conditions and selection. -/

theorem intCond_iff (c : BitVec 4) (x y : Word) : intCond c x y = true ↔ Condition c.toNat x y := by
  unfold intCond Condition
  generalize c.toNat = n
  match n with
  | 0 => exact beq_iff_eq
  | 1 => exact bne_iff_ne
  | 2 => exact decide_eq_true_iff
  | 3 => exact decide_eq_true_iff
  | 4 => exact decide_eq_true_iff
  | 5 => exact decide_eq_true_iff
  | 6 => exact bne_iff_ne
  | _ + 7 => exact beq_iff_eq

/-- R59, R25: a compare retires the truth of its condition into its predicate, p0 reads one, and the other predicates
stay. -/
theorem compare_spec {s : State} {i : Instr} {p : BitVec 3} {c : BitVec 4} {x y : Word}
    (he : exec i s = .next (retireWith .scalar s (s.core.strand.writeP p (intCond c x y)))) :
    ∃ t v, exec i s = .next t ∧ Retires s (s.core.strand.writeP p v) 4 t ∧ (v = true ↔ Condition c.toNat x y) ∧
      ∀ q, t.core.strand.readP q = if q = 0 then true else if q = p then v else s.core.strand.readP q := by
  have h := retires_retireWith .scalar s (s.core.strand.writeP p (intCond c x y))
  exact ⟨_, _, he, h, intCond_iff c x y, fun q => (readP_of_retires h q).trans (readP_writeP _ _ _ _)⟩

theorem guardHolds_iff (g : Guard) (s : State) : guardHolds g s.core.strand = true ↔ GuardOn g s := bne_iff_ne

/-- R61: a mask bit is 1 where the mask register has a 1, and everywhere when the mask register is g0. -/
theorem getLsbD_selMask (u : Strand) (m : Reg) {j : Nat} (hj : j < 64) :
    (selMask u m).getLsbD j = true ↔ m = 0 ∨ (u.readG m).getLsbD j = true := by
  unfold selMask
  split
  case isTrue h => rw [BitVec.getLsbD_allOnes, decide_eq_true hj]; exact iff_of_true rfl (.inl h)
  case isFalse h => exact (or_iff_right h).symm

theorem getLsbD_merge (x y k : Word) {j : Nat} (hj : j < 64) :
    (x &&& k ||| y &&& ~~~k).getLsbD j = if k.getLsbD j = true then x.getLsbD j else y.getLsbD j := by
  rw [BitVec.getLsbD_or, BitVec.getLsbD_and, BitVec.getLsbD_and, BitVec.getLsbD_not]
  cases k.getLsbD j <;> simp [hj]

theorem exec_sel_on {g : Guard} {s : State} (h : GuardOn g s) (d a m : Reg) :
    exec (.sel g d a m) s = retireG s d ((s.core.strand.readG a &&& selMask s.core.strand m) |||
      (s.core.strand.readG d &&& ~~~selMask s.core.strand m)) :=
  if_pos ((guardHolds_iff g s).mpr h)

theorem exec_sel_off {g : Guard} {s : State} (h : ¬ GuardOn g s) (d a m : Reg) :
    exec (.sel g d a m) s = .next (retire .scalar s) :=
  if_neg fun k => h ((guardHolds_iff g s).mp k)

end Sys2Proof.Proofs.Integer

open Sys2Proof.Proofs.Integer

/-- Settles O8, by cases over the forms: each retires the value of its rule through `retireG`. -/
theorem integerOperations : Obligations.IntegerOperations := by
  intro s i d a b f
  constructor
  · intro h
    rw [exec_binaryForm h]
    exact retireG_spec s d _
  · intro h
    rw [exec_unaryForm h]
    exact retireG_spec s d _

/-- Settles O9: compares go through `intCond`, and SEL merges bit by bit under `selMask`. -/
theorem compareSelect : Obligations.CompareSelect := by
  intro s p d a b m i c g
  refine ⟨compare_spec rfl, compare_spec rfl, fun h => ?_, fun h => ?_⟩
  · obtain ⟨t, ht, hr, -⟩ := retireG_spec s d _
    refine ⟨t, _, (exec_sel_on h d a m).trans ht, hr, fun j hj => ?_⟩
    rw [getLsbD_merge _ _ _ hj]
    exact if_congr (getLsbD_selMask _ _ hj) rfl rfl
  · exact ⟨_, exec_sel_off h d a m, retires_retire .scalar s⟩

end

section
/-! Proofs for vector logic, shifts, masks and selection (R113, R117 to R120): rows as lanes, the checks that a vector
instruction passes before it writes, the value of each lane, and the two statements O24 and O25. -/

open Sys2Proof Sys2Proof.Machine Sys2Proof.Claims Sys2Proof.Proofs.Integer

namespace Sys2Proof.Proofs.VectorLanes

/-! Rows as lanes (R26). -/

theorem lanes_eq_map (w : Nat) (r : Row) : lanes w r = (List.range (1024 / w)).map (laneAt w r) := rfl

theorem laneAt_lt (w : Nat) (r : Row) (k : Nat) : laneAt w r k < 2 ^ w := Nat.mod_lt _ (Nat.two_pow_pos w)

/-- Field `k` of a packed number is item `k` of the list, cut to the field. -/
theorem packNat_field (w : Nat) (l : List Nat) (k : Nat) :
    packNat w l / 2 ^ (w * k) % 2 ^ w = l.getD k 0 % 2 ^ w := by
  induction l generalizing k with
  | nil => rw [packNat, Nat.zero_div]; rfl
  | cons x l ih =>
    cases k with
    | zero => rw [packNat, Nat.mul_zero, Nat.pow_zero, Nat.div_one, Nat.add_mul_mod_self_left, Nat.mod_mod]; rfl
    | succ k =>
      have hx : (x % 2 ^ w + 2 ^ w * packNat w l) / 2 ^ w = packNat w l := by
        rw [Nat.add_mul_div_left _ _ (Nat.two_pow_pos w), Nat.div_eq_of_lt (Nat.mod_lt _ (Nat.two_pow_pos w)), Nat.zero_add]
      rw [packNat, Nat.mul_succ, Nat.add_comm (w * k), Nat.pow_add, ← Nat.div_div_eq_div_mul, hx, ih]; rfl

/-- Cutting a number to `m` bits leaves a field that lies below them. -/
theorem ofNat_field {m lo w : Nat} (h : lo + w ≤ m) (n : Nat) :
    (BitVec.ofNat m n).toNat / 2 ^ lo % 2 ^ w = n / 2 ^ lo % 2 ^ w := by
  obtain ⟨k, rfl⟩ := Nat.exists_eq_add_of_le h
  rw [BitVec.toNat_ofNat, Nat.add_assoc, Nat.pow_add, Nat.mod_mul_right_div_self,
    Nat.mod_mod_of_dvd _ (Nat.pow_dvd_pow 2 (Nat.le_add_right w k))]

theorem laneAt_ofNat {w k : Nat} (hk : k < 1024 / w) (n : Nat) :
    laneAt w (BitVec.ofNat 1024 n) k = n / 2 ^ (w * k) % 2 ^ w := by
  refine ofNat_field ?_ n
  rw [← Nat.mul_succ, Nat.mul_comm]
  exact Nat.mul_le_of_le_div _ _ _ hk

/-- R26: lane `k` of a row built lane by lane. -/
theorem laneAt_packRow_map {w k : Nat} (hk : k < 1024 / w) (f : Nat → Nat) :
    laneAt w (packRow w ((List.range (1024 / w)).map f)) k = f k % 2 ^ w := by
  rw [packRow, laneAt_ofNat hk, packNat_field, List.getD_eq_getElem _ _ (by simpa using hk), List.getElem_map,
    List.getElem_range]

theorem zipWith_map_same {α β γ δ : Type} (g : β → γ → δ) (f : α → β) (h : α → γ) (l : List α) :
    List.zipWith g (l.map f) (l.map h) = l.map fun x => g (f x) (h x) := by
  rw [List.zipWith_map, List.zipWith_self]

theorem zip3_map {α : Type} (g : Nat → Nat → Nat → FRes) (f h e : α → Nat) (l : List α) :
    zip3 g (l.map f) (l.map h) (l.map e) = l.map fun x => g (f x) (h x) (e x) := by
  induction l with
  | nil => rfl
  | cons x l ih => rw [List.map_cons, List.map_cons, List.map_cons, zip3, ih, List.map_cons]

/-! The checks before a vector instruction writes, and its retirement (R96, R99, R101, R113, R114). -/

theorem waitAcc_ok {s : State} {accs : List (BitVec 2)}
    (h : ∀ c ∈ (clusterGet s (clusterOf s.cur)).mx.pending, c.strand = s.core.strand.spillovf → c.acc ∉ accs) :
    waitAcc s accs = .ok () := by
  refine if_neg fun hany => ?_
  obtain ⟨c, hc, hb⟩ := List.any_eq_true.1 hany
  obtain ⟨hs, ha⟩ := Bool.and_eq_true_iff.1 hb
  exact h c hc (beq_iff_eq.1 hs) (List.contains_iff_mem.1 ha)

theorem forM_need_ok {α : Type} {l : List α} {p : α → Bool} {c : BitVec 8} {v : α → Word}
    (h : ∀ x ∈ l, p x = true) : (l.forM fun x => need (p x) c (v x)) = .ok () := by
  induction l with
  | nil => rfl
  | cons x l ih =>
    have hx : need (p x) c (v x) = .ok () := need_true (h x List.mem_cons_self) c (v x)
    refine (congrArg (· >>= fun _ => l.forM fun x => need (p x) c (v x)) hx).trans ?_
    exact ih fun y hy => h y (List.mem_cons_of_mem x hy)

/-- R114, R151: rows that no outstanding matrix command names, and that are sound where they are read, are ready. -/
theorem rowsReady_ok {s : State} {reads writes : List VReg} (h : RowsFree s reads writes) :
    rowsReady s reads writes = .ok () := by
  obtain ⟨hfree, hsound⟩ := h
  have hw : waitAcc s ((reads ++ writes).map tileOf) = .ok () := waitAcc_ok fun c hc hs hm => by
    obtain ⟨v, hv, hacc⟩ := List.mem_map.1 hm
    exact hfree c hc hs v hv hacc.symm
  rw [rowsReady, hw]
  exact forM_need_ok fun v hv => by rw [hsound v hv]; rfl

/-- A strand whose VSTAT has the flags of a set of conditions set (R101). -/
def flagged (t : Strand) (c : Conds) : Strand := { t with vstat := t.vstat ||| W c.toNat }

theorem flagged_zero (t : Strand) : flagged t 0 = t := by
  have h : t.vstat ||| W (0 : Conds).toNat = t.vstat := BitVec.or_zero
  rw [flagged, h]

/-- R99: conditions of which none is enabled set their flags and let the instruction go on. -/
theorem raise_quiet {s : State} {c : Conds} (h : Quiet true c s.core.strand) :
    raise s true c = .ok (strandSet s (flagged s.core.strand c)) := by
  have hc : c.zeroExtend 64 = W c.toNat := (BitVec.ofNat_toNat 64 c).symm
  have hf : s.core.strand.flag true c = flagged s.core.strand c := by rw [flagged, ← hc]; rfl
  rw [← hf]
  exact if_pos h

theorem quiet_none (t : Strand) : Quiet true 0 t := BitVec.zero_and

theorem retireV_quiet {s : State} {c : Conds} (h : Quiet true c s.core.strand) (d : VReg) (r : Row) :
    retireV s d r c = .ok (retireWith .vector s ((flagged s.core.strand c).writeV d r)) := by
  rw [retireV, raise_quiet h]; rfl

/-- A vector instruction that passes its checks leaves the row it retires, with its conditions flagged. -/
theorem leavesRow_of_retireV {s : State} {i : Instr} {d : VReg} {c : Conds} {r : Row} {P : Row → Prop}
    (hi : exec i s = finish s (retireV s d r c)) (hq : Quiet true c s.core.strand) (hP : P r) :
    LeavesRow s i d c P :=
  ⟨_, r, hi.trans (finish_ok (retireV_quiet hq d r)), retires_retireWith .vector s _, hP⟩

/-- R49 row 6, R114: an instruction that suits its lane types and whose rows are ready goes on with its effect. -/
theorem checks_ok {s : State} {i : Instr} {reads writes : List VReg} (hs : suits s.core.strand i = true)
    (hr : RowsFree s reads writes) (m : M State) :
    (do if !suits s.core.strand i then illegal i
        rowsReady s reads writes
        m) = m := by
  rw [hs, rowsReady_ok hr]; rfl

/-! Logic on rows and on masks (R117, R119). -/

theorem vecLogic_ok {s : State} {d a b : VReg} (h : RowsFree s [a, b] [d]) (f : Row → Row → Row) :
    vecLogic f d a b s = .next (retireWith .vector s
      (s.core.strand.writeV d (f (s.core.strand.readV a) (s.core.strand.readV b)))) := by
  refine finish_ok ?_
  rw [rowsReady_ok h]
  refine (retireV_quiet (quiet_none _) d _).trans ?_
  rw [flagged_zero]

theorem exec_logicForm {i : Instr} {d a b : VReg} {f : Row → Row → Row} (h : LogicForm i d a b f) (s : State) :
    exec i s = vecLogic f d a b s := by
  cases h <;> rfl

theorem exec_maskForm {i : Instr} {d a b : BitVec 3} {f : BitVec 128 → BitVec 128 → BitVec 128}
    (h : MaskForm i d a b f) (s : State) : exec i s = maskLogic f d a b s := by
  cases h <;> rfl

/-! Shifts of lanes (R117). -/

theorem toSigned_eq_toInt (w x : Nat) : toSigned w x = (BitVec.ofNat w x).toInt := by
  rw [BitVec.toInt_eq_toNat_cond, BitVec.toNat_ofNat, toSigned]
  cases w with
  | zero => rw [Nat.pow_zero, Nat.mod_one]; rfl
  | succ w =>
    have hn : 2 ^ (w + 1) = 2 * 2 ^ w := by rw [Nat.pow_succ, Nat.mul_comm]
    have hi : (2 : Int) ^ (w + 1) = ((2 ^ (w + 1) : Nat) : Int) := by norm_cast
    rw [hi, Nat.add_sub_cancel]
    split <;> split <;> omega

theorem ofSigned_eq_toNat (w : Nat) (e : Int) : ofSigned w e = (BitVec.ofInt w e).toNat := by
  rw [BitVec.toNat_ofInt, ofSigned]
  norm_cast

/-- The operation of a lane shift on the bits of a lane. -/
def shiftBits (o : VShift) {w : Nat} (x : BitVec w) (n : Nat) : BitVec w :=
  match o with
  | .sll => x <<< n
  | .srl => x >>> n
  | .sra => x.sshiftRight n

/-- An arithmetic shift by the width or more leaves copies of the sign, as a shift by the width does. -/
theorem sshiftRight_min {w : Nat} (x : BitVec w) (n : Nat) : x.sshiftRight (Nat.min n w) = x.sshiftRight n := by
  rcases Nat.le_total n w with h | h
  · rw [show Nat.min n w = n from Nat.min_eq_left h]
  · rw [show Nat.min n w = w from Nat.min_eq_right h]
    apply BitVec.eq_of_getLsbD_eq
    intro i _
    rw [BitVec.getLsbD_sshiftRight, BitVec.getLsbD_sshiftRight, if_neg (by omega), if_neg (by omega)]

theorem lane_toNat (o : VShift) {w x : Nat} (hx : x < 2 ^ w) (n : Nat) :
    o.lane w x n = (shiftBits o (BitVec.ofNat w x) n).toNat := by
  have hv : (BitVec.ofNat w x).toNat = x := by rw [BitVec.toNat_ofNat, Nat.mod_eq_of_lt hx]
  cases o with
  | sll =>
    rw [shiftBits, BitVec.toNat_shiftLeft, hv, Nat.shiftLeft_eq, VShift.lane]
    refine ite_eq_right_iff.2 fun h => ?_
    exact (Nat.mod_eq_zero_of_dvd (Dvd.dvd.mul_left (Nat.pow_dvd_pow 2 h) x)).symm
  | srl =>
    rw [shiftBits, BitVec.toNat_ushiftRight, hv, Nat.shiftRight_eq_div_pow, VShift.lane]
    refine ite_eq_right_iff.2 fun h => ?_
    exact (Nat.div_eq_of_lt (hx.trans_le (Nat.pow_le_pow_right (by decide) h))).symm
  | sra =>
    rw [shiftBits, ← sshiftRight_min, BitVec.sshiftRight_eq, Int.shiftRight_eq_div_pow, ← ofSigned_eq_toNat,
      ← toSigned_eq_toInt, VShift.lane]
    norm_cast

/-- The count of lane `k`: that lane of a register, or one number for all. -/
def shiftCount (t : Strand) (w : Nat) (b : Option VReg) (n k : Nat) : Nat :=
  match b with
  | some v => laneAt w (t.readV v) k
  | none => n

theorem vecShift_ok {s : State} {i : Instr} {d a : VReg} {b : Option VReg} {w : Nat} (hl : s.core.strand.lane d = .int w)
    (hs : suits s.core.strand i = true) (hr : RowsFree s (a :: b.toList) [d]) (o : VShift) (n : Nat) :
    vecShift o i d a b n s = finish s (retireV s d (packRow w ((List.range (1024 / w)).map fun k =>
      o.lane w (laneAt w (s.core.strand.readV a) k) (shiftCount s.core.strand w b n k))) 0) := by
  have hw : (s.core.strand.lane d).width = w := congrArg Lane.width hl
  have hc : (s.core.strand.lane d).count = 1024 / w := congrArg Lane.count hl
  refine congrArg (finish s) ((checks_ok hs hr _).trans ?_)
  rw [hw, hc, lanes_eq_map]
  cases b with
  | some v => exact congrArg (fun l => retireV s d (packRow w l) 0) (zipWith_map_same _ _ _ _)
  | none =>
    have hn : List.replicate (1024 / w) n = (List.range (1024 / w)).map fun _ => n := by
      rw [List.map_const', List.length_range]
    dsimp only
    rw [hn, zipWith_map_same]; rfl

/-- Each shift form is a `vecShift` that suits integer lanes of one width. -/
theorem exec_shiftForm {t : Strand} {w : Nat} {i : Instr} {d : VReg} {r : List VReg} {n : Nat → Nat}
    {f : BitVec w → Nat → BitVec w} (h : ShiftForm t w i d r n f) :
    ∃ o a b m, (∀ s, exec i s = vecShift o i d a b m s) ∧ r = a :: b.toList ∧ n = shiftCount t w b m ∧
      f = shiftBits o ∧ suits t i = ((t.lane d).isInt && r.all fun v => t.lane v == t.lane d) := by
  cases h with
  | sll d a b => exact ⟨.sll, a, some b, 0, fun _ => rfl, rfl, rfl, rfl, by simp [suits, Bool.and_assoc]⟩
  | srl d a b => exact ⟨.srl, a, some b, 0, fun _ => rfl, rfl, rfl, rfl, by simp [suits, Bool.and_assoc]⟩
  | sra d a b => exact ⟨.sra, a, some b, 0, fun _ => rfl, rfl, rfl, rfl, by simp [suits, Bool.and_assoc]⟩
  | slli d a n => exact ⟨.sll, a, none, n.toNat, fun _ => rfl, rfl, rfl, rfl, by simp [suits]⟩
  | srli d a n => exact ⟨.srl, a, none, n.toNat, fun _ => rfl, rfl, rfl, rfl, by simp [suits]⟩
  | srai d a n => exact ⟨.sra, a, none, n.toNat, fun _ => rfl, rfl, rfl, rfl, by simp [suits]⟩

/-- R117: a shift leaves in each lane the source lane shifted by the lane's count. -/
theorem shiftForm_leavesRow {s : State} {w : Nat} {i : Instr} {d : VReg} {r : List VReg} {n : Nat → Nat}
    {f : BitVec w → Nat → BitVec w} (h : ShiftForm s.core.strand w i d r n f) (hd : s.core.strand.lane d = .int w)
    (hl : ∀ v ∈ r, s.core.strand.lane v = .int w) (hr : RowsFree s r [d]) :
    ∃ a, r.head? = some a ∧ LeavesRow s i d 0 fun v => ∀ k < 1024 / w,
      laneAt w v k = (f (BitVec.ofNat w (laneAt w (s.core.strand.readV a) k)) (n k)).toNat := by
  obtain ⟨o, a, b, m, hi, rfl, rfl, rfl, hs⟩ := exec_shiftForm h
  have hall : (a :: b.toList).all (fun v => s.core.strand.lane v == s.core.strand.lane d) = true :=
    List.all_eq_true.2 fun v hv => beq_iff_eq.2 ((hl v hv).trans hd.symm)
  have hsuits : suits s.core.strand i = true := by rw [hs, hall, hd]; rfl
  refine ⟨a, rfl, leavesRow_of_retireV ((hi s).trans (vecShift_ok hd hsuits hr o m)) (quiet_none _) fun k hk => ?_⟩
  rw [laneAt_packRow_map hk, lane_toNat o (laneAt_lt _ _ _), Nat.mod_eq_of_lt (BitVec.isLt _)]

/-! Compares of lanes (R118). -/

/-- R118: an integer compare, over the numbers that the lanes are or over their two's-complement readings. -/
theorem vcmp_intLane (w : Nat) (u : Bool) (c x y : Nat) :
    (if u then (vcmpInt c x y, false) else (vcmpInt c (toSigned w x) (toSigned w y), false)) =
      compareLane (.int w) u c x y := by
  rw [toSigned_eq_toInt, toSigned_eq_toInt]
  match c with
  | 1 => cases u <;> exact congrArg (·, false) decide_not.symm
  | 0 | 2 | 3 | 4 | _ + 5 => cases u <;> rfl

/-- The mask of the lanes that compare true. -/
def compareMask (n : Nat) (f : Nat → Bool × Bool) : BitVec 128 :=
  BitVec.ofNat 128 (packNat 1 ((List.range n).map fun j => (f j).1.toNat))

/-- R118: bit `j` of the mask is the truth of lane `j`, and 0 above the lanes. -/
theorem getLsbD_compareMask {j : Nat} (hj : j < 128) (n : Nat) (f : Nat → Bool × Bool) :
    (compareMask n f).getLsbD j = if j < n then (f j).1 else false := by
  have hbit := packNat_field 1 ((List.range n).map fun j => (f j).1.toNat) j
  rw [Nat.one_mul, Nat.pow_one] at hbit
  rw [compareMask, BitVec.getLsbD_ofNat, decide_eq_true hj, Bool.true_and, Nat.testBit_eq_decide_div_mod_eq, hbit]
  by_cases h : j < n
  · cases hp : (f j).1 <;> simp [h, hp]
  · simp [h]

theorem unionOf_succ (n : Nat) (f : Nat → Conds) : unionOf (n + 1) f = unionOf n f ||| f n := by
  rw [unionOf, List.range_succ, List.foldl_append]; rfl

/-- R96: the union of one condition over the lanes that raise it. -/
theorem unionOf_condIf (n : Nat) (p : Nat → Bool) (c : Conds) :
    unionOf n (fun k => if p k then c else 0) = condIf ((List.range n).any p) c := by
  induction n with
  | zero => rfl
  | succ n ih =>
    rw [unionOf_succ, ih, List.range_succ, List.any_append, List.any_cons, List.any_nil, Bool.or_false]
    cases (List.range n).any p <;> cases p n <;> simp [condIf]

/-- R113, R118: the lane types and conditions that a compare accepts. -/
theorem suits_vcmp {t : Strand} {a b : VReg} {u : Bool} {c : BitVec 3} (hb : t.lane b = t.lane a)
    (hc : if (t.lane a).isInt then c ≠ 6 else u = false) (k : BitVec 3) : suits t (.vcmp k a b u c) = true := by
  refine Bool.and_eq_true_iff.2 ⟨beq_iff_eq.2 hb, ?_⟩
  cases hi : (t.lane a).isInt <;> simpa [hi] using hc

/-- NV, if some lane sets it. -/
def compareConds (n : Nat) (f : Nat → Bool × Bool) : Conds := unionOf n fun j => if (f j).2 then cNV else 0

/-- The effect of a compare with these outcomes of the lanes: its conditions are raised and its mask is written. -/
def compareEffect (s : State) (k : BitVec 3) (n : Nat) (f : Nat → Bool × Bool) : M State := do
  let s1 ← raise s true (compareConds n f)
  pure (retireWith .vector s1 (s1.core.strand.writeM k (compareMask n f)))

/-- The effect of VCMP, as the model has it over the lists of lanes. -/
theorem compareEffect_eq (s : State) (k : BitVec 3) (w : Nat) (g : Nat → Nat → Bool × Bool) (x y : Row) :
    (do let rs := List.zipWith g (lanes w x) (lanes w y)
        let s1 ← raise s true (condIf (rs.any (·.2)) cNV)
        pure (retireWith .vector s1 (s1.core.strand.writeM k (BitVec.ofNat 128 (packNat 1 (rs.map fun r => r.1.toNat)))))) =
      compareEffect s k (1024 / w) fun j => g (laneAt w x j) (laneAt w y j) := by
  rw [compareEffect, compareConds, unionOf_condIf, compareMask, lanes_eq_map, lanes_eq_map, zipWith_map_same]
  simp only [List.any_map, List.map_map]
  rfl

/-- R118: VCMP compares lane by lane. -/
theorem exec_vcmp {s : State} {a b : VReg} {u : Bool} {c : BitVec 3} (hb : s.core.strand.lane b = s.core.strand.lane a)
    (hc : if (s.core.strand.lane a).isInt then c ≠ 6 else u = false) (hr : RowsFree s [a, b] []) (k : BitVec 3) :
    exec (.vcmp k a b u c) s = finish s (compareEffect s k (s.core.strand.lane a).count fun j =>
      compareLane (s.core.strand.lane a) u c.toNat (laneAt (s.core.strand.lane a).width (s.core.strand.readV a) j)
        (laneAt (s.core.strand.lane a).width (s.core.strand.readV b) j)) := by
  refine congrArg (finish s) ((checks_ok (suits_vcmp hb hc k) hr _).trans ?_)
  cases s.core.strand.lane a with
  | fp f => exact compareEffect_eq s k f.width _ _ _
  | int w =>
    refine (compareEffect_eq s k w _ _ _).trans ?_
    simp only [vcmp_intLane]
    rfl

theorem compareEffect_quiet {s : State} {n : Nat} {f : Nat → Bool × Bool}
    (h : Quiet true (compareConds n f) s.core.strand) (k : BitVec 3) : compareEffect s k n f =
      .ok (retireWith .vector s ((flagged s.core.strand (compareConds n f)).writeM k (compareMask n f))) := by
  rw [compareEffect, raise_quiet h]; rfl

/-! Selection of lanes (R120). -/

/-- R96: lanes without conditions give none. -/
theorem unionConds_none {α : Type} (f : α → Nat) (l : List α) : unionConds (l.map fun x => (f x, 0)) = 0 := by
  induction l with
  | nil => rfl
  | cons x l ih =>
    have h : (0 : Conds) ||| 0 = 0 := BitVec.or_zero
    rw [List.map_cons, unionConds, List.foldl_cons, h]
    exact ih

/-- Lane `j` of the result of a selection under a mask. -/
def selectLane (w : Nat) (m : BitVec 128) (x y : Row) (j : Nat) : Nat :=
  if m.getLsbD j then laneAt w x j else laneAt w y j

theorem selectLane_lt (w : Nat) (m : BitVec 128) (x y : Row) (j : Nat) : selectLane w m x y j < 2 ^ w := by
  unfold selectLane; split <;> exact laneAt_lt _ _ _

/-- R120: under a guard that holds VSEL leaves each lane from one of its two sources, without conditions. -/
theorem exec_vsel_on {g : Guard} {s : State} {d a b : VReg} {l : Lane} (hg : GuardOn g s)
    (hd : s.core.strand.lane d = l) (ha : s.core.strand.lane a = l) (hb : s.core.strand.lane b = l)
    (hr : RowsFree s [a, b] [d]) (k : BitVec 3) :
    exec (.vsel g d a b k) s = finish s (retireV s d (packRow l.width ((List.range l.count).map
      (selectLane l.width (s.core.strand.readM k) (s.core.strand.readV a) (s.core.strand.readV b)))) 0) := by
  have hs : suits s.core.strand (.vsel g d a b k) = true :=
    Bool.and_eq_true_iff.2 ⟨beq_iff_eq.2 (ha.trans hd.symm), beq_iff_eq.2 (hb.trans hd.symm)⟩
  refine (if_pos ((guardHolds_iff g s).mpr hg)).trans (congrArg (finish s) ((checks_ok hs hr _).trans ?_))
  rw [hd, lanes_eq_map, lanes_eq_map, ← List.map_id (List.range l.count)]
  refine (congrArg (retireLanes s d l.width) (zip3_map _ id _ _ _)).trans ?_
  rw [retireLanes, unionConds_none, List.map_map, List.map_id]
  rfl

theorem exec_vsel_off {g : Guard} {s : State} (h : ¬ GuardOn g s) (d a b : VReg) (k : BitVec 3) :
    exec (.vsel g d a b k) s = .next (retire .vector s) :=
  if_neg fun e => h ((guardHolds_iff g s).mp e)

end Sys2Proof.Proofs.VectorLanes

open Sys2Proof.Proofs.VectorLanes

/-- Settles O24: logic combines whole rows or masks, and a shift works lane by lane through `vecShift`. -/
theorem vectorLogic : Obligations.VectorLogic := by
  intro s i
  refine ⟨fun d a b f h hr => ?_, fun w d r n f h hd hl hr => shiftForm_leavesRow h hd hl hr, fun d a b f h => ?_⟩
  · exact ⟨_, (exec_logicForm h s).trans (vecLogic_ok hr f), retires_retireWith .vector s _⟩
  · exact ⟨_, exec_maskForm h s, retires_retireWith .vector s _⟩

/-- Settles O25: VCMP packs the truths of its lanes into a mask, and VSEL picks lane by lane where its guard holds. -/
theorem vectorMasks : Obligations.VectorMasks := by
  intro s g k c d a b u
  refine ⟨fun hb hc hr hq => ?_, fun hg hd hb hr => ?_, fun hg => ?_⟩
  · exact ⟨_, compareMask _ _, (exec_vcmp hb hc hr k).trans (finish_ok (compareEffect_quiet hq k)),
      retires_retireWith .vector s _, fun j hj => getLsbD_compareMask hj _ _⟩
  · refine leavesRow_of_retireV (exec_vsel_on hg hd rfl hb hr k) (quiet_none _) fun j hj => ?_
    rw [Lane.count, laneAt_packRow_map hj, Nat.mod_eq_of_lt (selectLane_lt _ _ _ _ _)]; rfl
  · exact ⟨_, exec_vsel_off hg d a b k, retires_retire .vector s⟩

end
